-- ==== Sys2Proof/Word.lean ====
section
/-! DEFINITION. The word types of the LabSound CORE (00_scope.md R11, R13): everything software sees is a 32-bit
word; every real-valued state variable is a binary64 pattern. -/

namespace Sys2Proof

/-- A bus word, a register, a RAM word (10 R31); as a real value, a binary32 pattern (00 R13). -/
abbrev Word := BitVec 32

/-- One byte of the little-endian byte view of the space (20 R103). -/
abbrev Byte := BitVec 8

/-- A binary64 pattern: every real-valued unit state variable and every datapath value (00 R13). -/
abbrev Double := BitVec 64

end Sys2Proof
end

