-- ==== Sys2Proof/Syntax.lean ====
section
/-! DEFINITION. The instructions: one constructor per row of spec/opcode_table.json (30_encoding.md R146, R148). -/

namespace Sys2Proof

/-- The two bus transactions of R148 and the fifteen commands of R146. A command is a 32-bit word that reaches the
block as the data of a BUS.WRITE to CMD (40 R195). -/
inductive Instr where
  /-- BUS.READ (R181): read the word at a byte address. -/
  | busRead (addr : Word)
  /-- BUS.WRITE (R182): write a word at a byte address. -/
  | busWrite (addr data : Word)
  /-- NOP (R196). -/
  | nop
  /-- INIT_ALL (R200). -/
  | initAll
  /-- RESET_ALL (R201). -/
  | resetAll
  /-- WTO.INIT (R197). -/
  | wtoInit
  /-- WTO.RESET (R198). -/
  | wtoReset
  /-- WTO.PROCESS N (R250); N is the frame count. -/
  | wtoProcess (n : Nat)
  /-- PBO.INIT (R197). -/
  | pboInit
  /-- PBO.RESET (R198). -/
  | pboReset
  /-- PBO.PROCESS N (R301). -/
  | pboProcess (n : Nat)
  /-- MLF.INIT (R197). -/
  | mlfInit
  /-- MLF.RESET (R198). -/
  | mlfReset
  /-- MLF.PROCESS N (R360). -/
  | mlfProcess (n : Nat)
  /-- ADSR.INIT (R197). -/
  | adsrInit
  /-- ADSR.RESET (R198). -/
  | adsrReset
  /-- ADSR.PROCESS N (R400). -/
  | adsrProcess (n : Nat)
  deriving DecidableEq, Repr

end Sys2Proof
end

