-- ==== Sys2Proof/WellFormed.lean ====
section
/-! DEFINITION. Which instructions an encoding can carry: the one check is that a frame count fits the 16-bit ARG
field (30_encoding.md R140, R144). -/

namespace Sys2Proof

/-- A frame count that ARG can hold: 0 to 65535 (R144). -/
def frameCountFits (n : Nat) : Bool := decide (n < 2 ^ 16)

/-- The instruction has an encoding. -/
def WellFormed : Instr → Bool
  | .busRead _ => true
  | .busWrite _ _ => true
  | .nop => true
  | .initAll => true
  | .resetAll => true
  | .wtoInit => true
  | .wtoReset => true
  | .wtoProcess n => frameCountFits n
  | .pboInit => true
  | .pboReset => true
  | .pboProcess n => frameCountFits n
  | .mlfInit => true
  | .mlfReset => true
  | .mlfProcess n => frameCountFits n
  | .adsrInit => true
  | .adsrReset => true
  | .adsrProcess n => frameCountFits n

end Sys2Proof
end

