-- ==== Sys2Proof/Decode.lean ====
section
/-! DEFINITION. Decoding and encoding (30_encoding.md): the 65-bit bus record of R148, where every record is a
transaction, and the 32-bit command word of R140 to R147, where an illegal word is rejected by name. -/

namespace Sys2Proof

/-- An instruction as it travels: a command word (R140) or a bus transaction record (R148). -/
inductive Encoded where
  | cmd (word : BitVec 32)
  | bus (record : BitVec 65)
  deriving DecidableEq, Repr

/-- Why a command word is illegal (R147). -/
inductive Reject where
  /-- RSVD, bits 23:16, is not zero. -/
  | reservedBits
  /-- UNIT is 5 to 15. -/
  | reservedUnit
  /-- OP is no operation of the unit. -/
  | reservedOp
  /-- ARG is not zero and OP is not PROCESS. -/
  | nonzeroArg
  deriving DecidableEq, Repr

/-- UNIT, bits 31:28 (R140). -/
def cmdUnit (w : BitVec 32) : BitVec 4 := w.extractLsb' 28 4

/-- OP, bits 27:24 (R140). -/
def cmdOp (w : BitVec 32) : BitVec 4 := w.extractLsb' 24 4

/-- RSVD, bits 23:16 (R140). -/
def cmdRsvd (w : BitVec 32) : BitVec 8 := w.extractLsb' 16 8

/-- ARG, bits 15:0 (R140). -/
def cmdArg (w : BitVec 32) : BitVec 16 := w.extractLsb' 0 16

/-- A command that takes no operand is legal only with ARG zero (R140). -/
def withoutArg (arg : BitVec 16) (i : Instr) : Except Reject Instr :=
  if arg = 0 then .ok i else .error .nonzeroArg

/-- The command a (UNIT, OP) pair names, given ARG (R143). -/
def decodeUnitOp (unit op : Nat) (arg : BitVec 16) : Except Reject Instr :=
  match unit, op with
  | 0, 0 => withoutArg arg .nop
  | 0, 1 => withoutArg arg .initAll
  | 0, 2 => withoutArg arg .resetAll
  | 1, 1 => withoutArg arg .wtoInit
  | 1, 2 => withoutArg arg .wtoReset
  | 1, 3 => .ok (.wtoProcess arg.toNat)
  | 2, 1 => withoutArg arg .pboInit
  | 2, 2 => withoutArg arg .pboReset
  | 2, 3 => .ok (.pboProcess arg.toNat)
  | 3, 1 => withoutArg arg .mlfInit
  | 3, 2 => withoutArg arg .mlfReset
  | 3, 3 => .ok (.mlfProcess arg.toNat)
  | 4, 1 => withoutArg arg .adsrInit
  | 4, 2 => withoutArg arg .adsrReset
  | 4, 3 => .ok (.adsrProcess arg.toNat)
  | u, _ => if 4 < u then .error .reservedUnit else .error .reservedOp

/-- The command a word carries (R140 to R147). -/
def decodeCommand (w : BitVec 32) : Except Reject Instr :=
  if cmdRsvd w ≠ 0 then .error .reservedBits
  else decodeUnitOp (cmdUnit w).toNat (cmdOp w).toNat (cmdArg w)

/-- The transaction a bus record is (R148): bit 64 is rw, bits 63:32 the address, bits 31:0 the data. The data bits of
a read are the block's answer, not the request's (log 11). -/
def decodeBus (r : BitVec 65) : Instr :=
  let addr := r.extractLsb' 32 32
  if r.getLsbD 64 then .busWrite addr (r.extractLsb' 0 32) else .busRead addr

/-- The instruction an encoding stands for. -/
def decode : Encoded → Except Reject Instr
  | .cmd w => decodeCommand w
  | .bus r => .ok (decodeBus r)

/-- The predicate legal(w) of R145, as the spec writes it. -/
def legalCommand (w : BitVec 32) : Bool :=
  cmdRsvd w == 0
    && ((cmdUnit w == 0 && (cmdOp w == 0 || cmdOp w == 1 || cmdOp w == 2) && cmdArg w == 0)
      || ((cmdUnit w == 1 || cmdUnit w == 2 || cmdUnit w == 3 || cmdUnit w == 4)
          && (cmdOp w == 1 || cmdOp w == 2) && cmdArg w == 0)
      || ((cmdUnit w == 1 || cmdUnit w == 2 || cmdUnit w == 3 || cmdUnit w == 4) && cmdOp w == 3))

/-- A command word from its fields (R140); RSVD is zero. -/
def commandWord (unit op : BitVec 4) (arg : Nat) : BitVec 32 := unit ++ op ++ 0#8 ++ BitVec.ofNat 16 arg

/-- A bus record from its fields (R148). -/
def busRecord (rw : Bool) (addr data : Word) : BitVec 65 := BitVec.ofBool rw ++ addr ++ data

/-- The encoding of an instruction (R146, R148). -/
def encode : Instr → Encoded
  | .busRead a => .bus (busRecord false a 0)
  | .busWrite a v => .bus (busRecord true a v)
  | .nop => .cmd (commandWord 0 0 0)
  | .initAll => .cmd (commandWord 0 1 0)
  | .resetAll => .cmd (commandWord 0 2 0)
  | .wtoInit => .cmd (commandWord 1 1 0)
  | .wtoReset => .cmd (commandWord 1 2 0)
  | .wtoProcess n => .cmd (commandWord 1 3 n)
  | .pboInit => .cmd (commandWord 2 1 0)
  | .pboReset => .cmd (commandWord 2 2 0)
  | .pboProcess n => .cmd (commandWord 2 3 n)
  | .mlfInit => .cmd (commandWord 3 1 0)
  | .mlfReset => .cmd (commandWord 3 2 0)
  | .mlfProcess n => .cmd (commandWord 3 3 n)
  | .adsrInit => .cmd (commandWord 4 1 0)
  | .adsrReset => .cmd (commandWord 4 2 0)
  | .adsrProcess n => .cmd (commandWord 4 3 n)

/-- The instruction read from a table row's bits: rows of 32 bits are command words, longer rows are bus records
(log 11). A bit above the record's 65 is no bit of an instruction. -/
def decodeTableWord (nbits w : Nat) : Option Instr :=
  if nbits ≤ 32 then
    if w < 2 ^ 32 then (decodeCommand (BitVec.ofNat 32 w)).toOption else none
  else if w < 2 ^ 65 then some (decodeBus (BitVec.ofNat 65 w)) else none

end Sys2Proof
end

