-- ==== Sys2Proof/Config.lean ====
section
/-! DEFINITION. What is fixed for this hardware (00_scope.md R7) and what its spec leaves open: the parameters at
their values in this hardware, the OPEN switch as a constant without a body, and the free values. The OPEN functions
`Config.exp`, `Config.log`, `Config.tanh`, `Config.sin` and `Config.pow2`, whose types state R22, stand in
Machine/Transcendental.lean. -/

namespace Sys2Proof.Config

/-- BUF_LEN, frames per sample array (R7; DESIGN CHOICE of the default, safe, log 6). -/
def bufLen : Nat := 128

/-- log2 of WT_LEN (R33 field WT_LEN_LOG2). -/
def wtLenLog2 : Nat := 11

/-- WT_LEN, samples per wavetable: a power of two (R7, R8; log 6). -/
def wtLen : Nat := 2 ^ wtLenLog2

/-- WT_MAX_TABLES, tables per waveform type (R7; log 6). -/
def wtMaxTables : Nat := 16

/-- WT_NUM_TYPES: SINE, TRIANGLE, SQUARE, SAWTOOTH, CUSTOM (R7). -/
def wtNumTypes : Nat := 5

/-- UNISON_MAX, the largest unison voice count (R7; log 6). -/
def unisonMax : Nat := 16

/-- CORE_ID, "LSC1" (R2, R32). -/
def coreId : Word := 0x4C534331

/-- CORE_VERSION, the source edition (R2, R32). -/
def coreVersion : Word := 0x00000007

/-- CORE_CFG (R33): the implementation parameters, packed. -/
def coreCfg : Word :=
  0#3 ++ BitVec.ofNat 5 unisonMax ++ 0#3 ++ BitVec.ofNat 5 wtMaxTables ++ BitVec.ofNat 4 wtLenLog2 ++ 0#1
    ++ BitVec.ofNat 11 bufLen

/-- PB_SINE_FALLBACK: OPEN (R7, 43 R310; log 7). No claim can see which value it has. -/
opaque pbSineFallback : Bool

/-- The n-th free 32-bit draw: what an unwritten RAM word reads as (10 R53; log 3), and the pattern of a NaN written
to an output frame (00 R19; log 4). -/
opaque freeWord : Nat → Word

/-- The n-th free 64-bit draw: the pattern of a NaN stored into a state variable (00 R19; log 4), and the table sample
at a phase outside [0, 1) (42 R258; log 8). -/
opaque freeDouble : Nat → Double

end Sys2Proof.Config
end

