-- ==== Sys2Proof/Machine/Float.lean ====
section
/-! DEFINITION. Binary32 and binary64 arithmetic (00_scope.md R13 to R19): operands become exact integers counted in
the smallest subnormal, the result is computed exactly and rounded once, to nearest, ties to even. A datapath NaN is
one canonical pattern here and gets a free sign and payload where software can see it (R19; log 4). -/

namespace Sys2Proof.Machine

/-- `n / d` rounded to the nearest integer, ties to even. -/
def roundNearest (n d : Nat) : Nat :=
  let q := n / d
  let r := n % d
  if 2 * r < d then q else if d < 2 * r then q + 1 else q + q % 2

/-- The magnitude bits of the value `n / d` (in units of the format's smallest subnormal) rounded to a format with
`p` fraction bits; `inf` is the format's infinity, where overflow ends. -/
def roundMag (p inf n d : Nat) : Nat :=
  let k := Nat.log2 (n / d) - p
  min (k * 2 ^ p + roundNearest n (d * 2 ^ k)) inf

/-- The integer, in units of the smallest subnormal, that finite magnitude bits stand for. -/
def magUnits (p mag : Nat) : Nat :=
  if mag < 2 ^ p then mag else (2 ^ p + mag % 2 ^ p) * 2 ^ (mag / 2 ^ p - 1)

/-- Magnitude bits of binary64 infinity. -/
def inf64 : Nat := 0x7FF0000000000000

/-- Magnitude bits of binary32 infinity. -/
def inf32 : Nat := 0x7F800000

/-- The value 1.0 in units of the smallest binary64 subnormal. -/
@[irreducible] def one64Units : Nat := 2 ^ 1074

/-! ### binary64 patterns -/

/-- The sign bit. -/
def fsign (x : Double) : Bool := x.msb

/-- All bits but the sign. -/
def fmag (x : Double) : Nat := x.toNat % 2 ^ 63

def isNaN (x : Double) : Bool := decide (inf64 < fmag x)
def isInf (x : Double) : Bool := decide (fmag x = inf64)
def isFinite (x : Double) : Bool := decide (fmag x < inf64)
def isZero (x : Double) : Bool := decide (fmag x = 0)

/-- A binary64 pattern from its sign and magnitude bits. -/
def pack64 (neg : Bool) (mag : Nat) : Double := BitVec.ofNat 64 ((if neg then 2 ^ 63 else 0) + mag)

/-- The datapath's NaN (R19; log 4): no operation below depends on a NaN's sign or payload. -/
def fnan : Double := 0x7FF8000000000000

def fzero : Double := 0x0000000000000000
def fone : Double := 0x3FF0000000000000

/-- The finite value as an exact count of smallest subnormals. -/
def funits (x : Double) : Nat := magUnits 52 (fmag x)

/-- The finite value as an exact signed count of smallest subnormals. -/
def fint (x : Double) : Int := if fsign x then -(funits x : Int) else funits x

/-- Round `±(n / d)` units to binary64. -/
def round64 (neg : Bool) (n d : Nat) : Double := pack64 neg (roundMag 52 inf64 n d)

/-- The binary64 value nearest to the rational `n / d`: what a decimal literal denotes (R14). -/
@[irreducible] def lit (n d : Nat) : Double := round64 false (n * one64Units) d

/-- An integer, converted exactly (R251). -/
@[irreducible] def ofInt (z : Int) : Double := round64 (decide (z < 0)) (z.natAbs * one64Units) 1

/-- Negation flips the sign bit. -/
def fneg (x : Double) : Double := x ^^^ 0x8000000000000000

/-- Magnitude (R257). -/
def fabs (x : Double) : Double := x &&& 0x7FFFFFFFFFFFFFFF

/-- Addition (R14). An exact zero sum is -0.0 only for two negative zeros. -/
def fadd (x y : Double) : Double :=
  if isNaN x || isNaN y then fnan
  else if isInf x then (if isInf y && fsign x != fsign y then fnan else x)
  else if isInf y then y
  else
    let z := fint x + fint y
    if z = 0 then pack64 (fsign x && fsign y) 0 else round64 (decide (z < 0)) z.natAbs 1

/-- Subtraction (R14). -/
def fsub (x y : Double) : Double := fadd x (fneg y)

/-- Multiplication (R14). -/
def fmul (x y : Double) : Double :=
  let neg := fsign x != fsign y
  if isNaN x || isNaN y then fnan
  else if isInf x || isInf y then (if isZero x || isZero y then fnan else pack64 neg inf64)
  else round64 neg (funits x * funits y) one64Units

/-- Division (R14, R18). -/
def fdiv (x y : Double) : Double :=
  let neg := fsign x != fsign y
  if isNaN x || isNaN y then fnan
  else if isInf x then (if isInf y then fnan else pack64 neg inf64)
  else if isInf y then pack64 neg 0
  else if isZero y then (if isZero x then fnan else pack64 neg inf64)
  else round64 neg (funits x * one64Units) (funits y)

/-- The order key of a non-NaN value: both zeros have key 0. -/
def fkey (x : Double) : Int := if fsign x then -(fmag x : Int) else fmag x

/-- `x < y`, false with a NaN (R14). -/
def flt (x y : Double) : Bool := !isNaN x && !isNaN y && decide (fkey x < fkey y)

/-- `x <= y`, false with a NaN (R14). -/
def fle (x y : Double) : Bool := !isNaN x && !isNaN y && decide (fkey x ≤ fkey y)

/-- `x == y`, false with a NaN (R14). -/
def feq (x y : Double) : Bool := !isNaN x && !isNaN y && decide (fkey x = fkey y)

/-- `min(a, b)` as R17 defines it. -/
def fmin (a b : Double) : Double := if fle a b then a else b

/-- `max(a, b)` as R17 defines it: `if a >= b then a else b`. -/
def fmax (a b : Double) : Double := if fle b a then a else b

/-- `clamp(x, lo, hi)` (R17). -/
def fclamp (x lo hi : Double) : Double := fmin (fmax x lo) hi

/-- Largest integer-valued binary64 not greater than x (R16). A zero result has x's sign (DEDUCED from R268, whose wrap
is never -0.0; log 18). NaN and infinities are their own floor. -/
def ffloor (x : Double) : Double :=
  if !isFinite x then x
  else if fsign x then round64 true ((funits x + (one64Units - 1)) / one64Units * one64Units) 1
  else round64 false (funits x / one64Units * one64Units) 1

/-- Rounding toward zero (R16). A zero result has x's sign, where R16's C conversion would give +0.0 (DESIGN CHOICE,
unsafe at an operand of -0.0 only, which no run reaches; log 18). NaN and infinities are their own truncation. -/
def ftrunc (x : Double) : Double :=
  if !isFinite x then x else round64 (fsign x) (funits x / one64Units * one64Units) 1

/-- The integer part of a finite non-negative value, as an index (R258). -/
def toIndex (x : Double) : Nat := funits x / one64Units

/-! ### binary32 patterns -/

/-- The smallest binary32 subnormal, 2^-149, in units of the smallest binary64 subnormal. -/
@[irreducible] def f32Units : Nat := 2 ^ 925

/-- All bits of a binary32 pattern but the sign. -/
def fmag32 (w : Word) : Nat := w.toNat % 2 ^ 31

def isNaN32 (w : Word) : Bool := decide (inf32 < fmag32 w)

/-- `widen(x)`: binary32 to binary64, exact (R13). -/
def widen (w : Word) : Double :=
  if inf32 < fmag32 w then fnan
  else if fmag32 w = inf32 then pack64 w.msb inf64
  else round64 w.msb (magUnits 23 (fmag32 w) * f32Units) 1

/-- `f32(x)`: round to binary32, overflow to infinity, subnormals kept (R13). -/
def f32 (x : Double) : Word :=
  if isNaN x then 0x7FC00000
  else BitVec.ofNat 32 ((if fsign x then 2 ^ 31 else 0)
    + (if isInf x then inf32 else roundMag 23 inf32 (funits x) f32Units))

/-! ### the pattern of a NaN that software can see (R19, log 4) -/

/-- A NaN whose sign and payload are those of `b`; every NaN pattern is its own `nanOf64`. -/
def nanOf64 (b : Double) : Double :=
  if isNaN b then b else (b ||| 0x7FF0000000000000) ||| 0x0000000000000001

/-- The binary32 form of `nanOf64`. -/
def nanOf32 (b : Word) : Word :=
  if isNaN32 b then b else (b ||| 0x7F800000) ||| 0x00000001

/-- The value a state variable receives, and the draws used so far: a NaN gets a free pattern. -/
def storeDouble (x : Double) (draws : Nat) : Double × Nat :=
  if isNaN x then (nanOf64 (Config.freeDouble draws), draws + 1) else (x, draws)

/-- The word an output frame receives (R190), and the draws used so far: a NaN gets a free pattern. -/
def storeSample (x : Double) (draws : Nat) : Word × Nat :=
  if isNaN x then (nanOf32 (Config.freeWord draws), draws + 1) else (f32 x, draws)

/-! ### constants (R15) -/

/-- PI, the binary64 nearest to π (R15). -/
def fpi : Double := 0x400921FB54442D18

/-- TWO_PI (R15). -/
def twoPi : Double := 0x401921FB54442D18

/-- VT, the thermal voltage constant 0.312 (R15). -/
def fvt : Double := lit 312 1000

end Sys2Proof.Machine
end

