-- ==== Sys2Proof/Machine/Enclosure.lean ====
section
/-! DEFINITION. Upper bounds, rational and close, of e^x, ln x, 2^x, tanh x and sin x, and rounding down to binary64:
what the model's own conforming functions (Machine/Transcendental.lean) are computed with. -/

namespace Sys2Proof.Machine

/-! ### the order of binary64 values -/

/-- The binary64 value with a given order key; key 0 is +0.0. -/
def ofKey (k : Int) : Double := pack64 (decide (k < 0)) k.natAbs

/-- The exact value of a finite binary64. -/
def fval (x : Double) : Rat := fint x / one64Units

/-- Magnitude bits of the largest finite binary64 value that is at most `n / d` smallest subnormals. -/
def floorMag (n d : Nat) : Nat :=
  let k := Nat.log2 (n / d) - 52
  min (k * 2 ^ 52 + n / (d * 2 ^ k)) (inf64 - 1)

/-- Magnitude bits of the smallest binary64 value, infinity included, that is at least `n / d` smallest subnormals. -/
def ceilMag (n d : Nat) : Nat :=
  let m := floorMag n d
  if magUnits 52 m * d < n then m + 1 else m

/-- The key of the largest binary64 value at most q, +infinity excluded. -/
def keyBelow (q : Rat) : Int :=
  if q.num < 0 then -(ceilMag (q.num.natAbs * one64Units) q.den : Int)
  else floorMag (q.num.natAbs * one64Units) q.den

/-- The largest finite binary64 value at most q. -/
def below (q : Rat) : Double := ofKey (keyBelow q)

/-! ### e^f for f in [0, 1] -/

/-- The terms of the exponential series that are summed. -/
def expTerms : Nat := 256

/-- The first n terms of the exponential series. -/
def expSum (f : Rat) : Nat → Rat
  | 0 => 0
  | n + 1 => expSum f n + f ^ n / (n.factorial : Nat)

def expBelow (f : Rat) : Rat := expSum f expTerms

def expAbove (f : Rat) : Rat := expSum f expTerms + 2 * (f ^ expTerms / (expTerms.factorial : Nat))

/-- At most e^y, for y >= 0: the whole part of y as a power of a bound of e, the rest by the series. -/
def expLower (y : Rat) : Rat := expBelow 1 ^ y.floor.toNat * expBelow (y - y.floor)

/-- At least e^y, for y >= 0. -/
def expUpper (y : Rat) : Rat := expAbove 1 ^ y.floor.toNat * expAbove (y - y.floor)

/-! ### the natural logarithm of (1 + z) / (1 - z) for z in [0, 1/3] -/

/-- The terms of the logarithm series that are summed. -/
def logTerms : Nat := 400

/-- The first n terms of z + z^3 / 3 + z^5 / 5 + ... -/
def logSum (z : Rat) : Nat → Rat
  | 0 => 0
  | n + 1 => logSum z n + z ^ (2 * n + 1) / ((2 * n + 1 : Nat) : Rat)

def logBelow (z : Rat) : Rat := 2 * logSum z logTerms

def logAbove (z : Rat) : Rat := 2 * (logSum z logTerms + z ^ (2 * logTerms + 1) / (1 - z ^ 2))

/-- Bounds of ln 2. -/
def ln2Below : Rat := logBelow (1 / 3)

def ln2Above : Rat := logAbove (1 / 3)

/-- The binary exponent of a magnitude of u > 0 smallest subnormals, each 2^-1074. -/
def logExponent (u : Nat) : Int := (Nat.log2 u : Int) - 1074

/-- z with significand (1 + z) / (1 - z), for the significand in [1, 2). -/
def logArg (u : Nat) : Rat := ((u - 2 ^ Nat.log2 u : Nat) : Rat) / ((u + 2 ^ Nat.log2 u : Nat) : Rat)

/-- At least ln(u / 2^1074). -/
def logUpper (u : Nat) : Rat :=
  logExponent u * (if 0 ≤ logExponent u then ln2Above else ln2Below) + logAbove (logArg u)

/-! ### 2^x -/

/-- At least 2^q: the whole part of q exactly, the rest as e^(f ln 2), which is below 2. -/
def pow2Upper (q : Rat) : Rat := 2 ^ q.floor * min 2 (expAbove ((q - q.floor) * ln2Above))

/-! ### tanh of a magnitude -/

/-- tanh y = (e^(2y) - 1) / (e^(2y) + 1). -/
def tanhOfExp (e : Rat) : Rat := (e - 1) / (e + 1)

/-! ### sin -/

/-- The first n terms of x - x^3 / 3! + x^5 / 5! - ... -/
def sinSum (x : Rat) : Nat → Rat
  | 0 => 0
  | n + 1 => sinSum x n + (-1) ^ n * (x ^ (2 * n + 1) / ((2 * n + 1).factorial : Nat))

/-- The terms that are summed at x. -/
def sinTerms (x : Rat) : Nat := 4 * (|x|.floor.toNat + 1) + 256

/-- What the terms left out come to, at most. -/
def sinError (x : Rat) : Rat := 2 * (|x| ^ (2 * sinTerms x) / ((2 * sinTerms x).factorial : Nat))

/-- At least sin x. -/
def sinUpper (x : Rat) : Rat := sinSum x (sinTerms x) + sinError x

end Sys2Proof.Machine
end

