-- ==== Sys2Proof/Machine/Transcendental.lean ====
section
/-! DEFINITION. EXP, LOG, TANH, SIN and POW2 (00_scope.md R21, R22). Each is any function with the properties that R22
names and with no other: an OPEN function of Config (log 5). -/

namespace Sys2Proof.Machine

/-- The exact power 2^k for -1022 <= k <= 1023. -/
def pow2Exact (k : Int) : Double := pack64 false ((k + 1023).toNat * 2 ^ 52)

/-- lo <= x <= hi; neither is a NaN. -/
def Between (lo x hi : Double) : Prop := fle lo x = true ∧ fle x hi = true

/-- The largest finite binary64 value. -/
def maxFinite : Double := 0x7FEFFFFFFFFFFFFF

/-- y is within one unit in the last place of the real number v (FAITHFUL of R22). The unit is that of the larger of the
two in magnitude, 2^(e - 52) for a value from 2^e up, and never below 2^-1074. Where v is at or beyond the largest
finite value, that value and the infinity of v's sign also count (log 5). -/
def WithinOneUlp (y : Double) (v : ℝ) : Prop :=
  isNaN y = false ∧
  ((isFinite y = true ∧ ∃ e : ℤ, (e = -1022 ∨ (2 : ℝ) ^ e ≤ max |v| |(fval y : ℝ)|) ∧
      |(fval y : ℝ) - v| ≤ (2 : ℝ) ^ (e - 52)) ∨
    ((fval maxFinite : ℝ) ≤ |v| ∧ fmag maxFinite ≤ fmag y ∧ (fsign y = true ↔ v < 0)))

/-! ### the properties of R22, function by function -/

/-- EXP_ZERO, EXP_UNDERFLOW, EXP_RANGE, MONO, FAITHFUL. -/
structure ExpSpec (f : Double → Double) : Prop where
  zero : ∀ x, isZero x = true → f x = fone
  underflow : ∀ x, fle x (ofInt (-1000)) = true → f x = fzero
  range : ∀ x, fle x fzero = true → Between fzero (f x) fone
  mono : ∀ x y, fle x y = true → fle (f x) (f y) = true
  faithful : ∀ x, isFinite x = true → WithinOneUlp (f x) (Real.exp (fval x))

/-- LOG_POS, MONO on (0, +inf), FAITHFUL where the real logarithm has a value. -/
structure LogSpec (f : Double → Double) : Prop where
  pos : ∀ x, isFinite x = true → flt fone x = true → isFinite (f x) = true ∧ flt fzero (f x) = true
  mono : ∀ x y, flt fzero x = true → fle x y = true → isFinite y = true → fle (f x) (f y) = true
  faithful : ∀ x, isFinite x = true → flt fzero x = true → WithinOneUlp (f x) (Real.log (fval x))

/-- TANH_ZERO, TANH_ODD, TANH_RANGE, MONO, FAITHFUL. -/
structure TanhSpec (f : Double → Double) : Prop where
  zero : ∀ x, isZero x = true → f x = x
  odd : ∀ x, isNaN x = false → f (fneg x) = fneg (f x)
  range : ∀ x, isNaN x = false → Between (fneg fone) (f x) fone
  mono : ∀ x y, fle x y = true → fle (f x) (f y) = true
  faithful : ∀ x, isFinite x = true → WithinOneUlp (f x) (Real.tanh (fval x))

/-- SIN_ZERO, FAITHFUL. -/
structure SinSpec (f : Double → Double) : Prop where
  zero : f fzero = fzero
  faithful : ∀ x, isFinite x = true → WithinOneUlp (f x) (Real.sin (fval x))

/-- POW2_INT, POW2_POS, MONO, FAITHFUL. -/
structure Pow2Spec (f : Double → Double) : Prop where
  int : ∀ x, ∀ k : Int, fval x = k → -1022 ≤ k → k ≤ 1023 → f x = pow2Exact k
  pos : ∀ x, Between (ofInt (-16)) x (ofInt 16) → flt fzero (f x) = true
  mono : ∀ x y, fle x y = true → fle (f x) (f y) = true
  faithful : ∀ x, isFinite x = true → WithinOneUlp (f x) ((2 : ℝ) ^ ((fval x : ℚ) : ℝ))

end Sys2Proof.Machine

/-! ### the open functions (R7, R21; log 5)

Any function with R22's properties of it. `none` stands for the model's own such function (`Machine.expRef`, ...), so no
conforming function is left out and no other is let in. -/

namespace Sys2Proof.Config

/-- EXP: OPEN. -/
opaque exp : Option { f : Double → Double // Machine.ExpSpec f }

/-- LOG: OPEN. -/
opaque log : Option { f : Double → Double // Machine.LogSpec f }

/-- TANH: OPEN. -/
opaque tanh : Option { f : Double → Double // Machine.TanhSpec f }

/-- SIN: OPEN. -/
opaque sin : Option { f : Double → Double // Machine.SinSpec f }

/-- POW2: OPEN. -/
opaque pow2 : Option { f : Double → Double // Machine.Pow2Spec f }

end Sys2Proof.Config

namespace Sys2Proof.Machine

/-- The open function, or ref. -/
def openOr {P : (Double → Double) → Prop} (f : Option { f : Double → Double // P f }) (ref : Double → Double) :
    Double → Double :=
  match f with
  | some f => f.1
  | none => ref

/-! ### one conforming function each: the real value, or an enclosure's upper end, rounded down -/

/-- e^x; from -1000 down 0, from 1024 up the largest finite value. -/
def expRef (x : Double) : Double :=
  let q := max (-1000) (min (fval x) 1024)
  below (if q < 0 then 1 / expLower (-q) else expUpper q)

def logRef (x : Double) : Double := below (logUpper (funits x))

/-- tanh on a magnitude; from 512 up, what tanh 512 gives. -/
def tanhMag (x : Double) : Double := below (tanhOfExp (expUpper (min (2 * fval x) 1024)))

def tanhRef (x : Double) : Double := if fsign x then fneg (tanhMag (fneg x)) else tanhMag x

def sinRef (x : Double) : Double := below (sinUpper (fval x))

/-- 2^x; below -1100 and above 1024, what those bounds give. -/
def pow2Ref (x : Double) : Double := below (pow2Upper (max (-1100) (min (fval x) 1024)))

/-! ### the functions the units use

A NaN gives a NaN (R19). The arguments at which R22 fixes the value come first, so that it can be computed there. -/

/-- The value is an integer. -/
def isIntegral (x : Double) : Bool := decide (funits x % one64Units = 0)

/-- The integer part of a finite value, rounded down. -/
def floorInt (x : Double) : Int :=
  if fsign x then -((funits x + (one64Units - 1)) / one64Units : Nat) else (funits x / one64Units : Nat)

/-- EXP (R21): EXP_ZERO, EXP_UNDERFLOW, the open function. -/
def exp64 (x : Double) : Double :=
  if isNaN x then fnan
  else if isZero x then fone
  else if fle x (ofInt (-1000)) then fzero
  else openOr Config.exp expRef x

/-- LOG (R21). -/
def log64 (x : Double) : Double := if isNaN x then fnan else openOr Config.log logRef x

/-- TANH (R21): TANH_ZERO, the open function. -/
def tanh64 (x : Double) : Double :=
  if isNaN x then fnan
  else if isZero x then x
  else openOr Config.tanh tanhRef x

/-- SIN (R21): SIN_ZERO, the open function. -/
def sin64 (x : Double) : Double :=
  if isNaN x then fnan
  else if x = fzero then fzero
  else openOr Config.sin sinRef x

/-- POW2 (R21): POW2_INT, the open function. -/
def pow264 (x : Double) : Double :=
  if isNaN x then fnan
  else if isIntegral x && decide (-1022 ≤ floorInt x) && decide (floorInt x ≤ 1023) then pow2Exact (floorInt x)
  else openOr Config.pow2 pow2Ref x

end Sys2Proof.Machine
end

