-- ==== Sys2Proof/Machine/Coefficients.lean ====
section
/-! DEFINITION. The ADSR coefficients (45_adsr_envelope.md R401 to R403) as a function of the register words they are
computed from. -/

namespace Sys2Proof.Machine

/-- The six coefficients of R59. -/
structure Coefficients where
  attackCoef : Double
  attackBase : Double
  decayCoef : Double
  decayBase : Double
  releaseCoef : Double
  releaseBase : Double
  deriving DecidableEq, Repr

/-- EPS = 1e-9 (R401). -/
def adsrEps : Double := lit 1 1000000000

/-- RATIO_A = 0.3, floored (R401, R403). -/
def ratioAttack : Double := fmax (lit 3 10) adsrEps

/-- RATIO_DR = 0.001, floored (R401, R403). -/
def ratioDecayRelease : Double := fmax (lit 1 1000) adsrEps

/-- `rate(tm)`: the duration in samples, floored (R402). -/
def rate (tm : Word) (sr : Double) : Double := fmax (fmul (widen tm) sr) adsrEps

/-- `Coef(n, r) = EXP((-LOG((1.0 + r) / r)) / n)` (R403). -/
def coef (n r : Double) : Double := exp64 (fdiv (fneg (log64 (fdiv (fadd fone r) r))) n)

/-- `RecomputeCoefficients()` (R403) from SAMPLE_RATE, ADSR_SUSTAIN_LEVEL and the three times. -/
def coefficients (sampleRate sustainLevel attackTime decayTime releaseTime : Word) : Coefficients :=
  let sr := widen sampleRate
  let s := widen sustainLevel
  let rA := ratioAttack
  let rDR := ratioDecayRelease
  let attackCoef := coef (rate attackTime sr) rA
  let decayCoef := coef (rate decayTime sr) rDR
  let releaseCoef := coef (rate releaseTime sr) rDR
  { attackCoef := attackCoef
    attackBase := fmul (fadd fone rA) (fsub fone attackCoef)
    decayCoef := decayCoef
    decayBase := fmul (fsub s rDR) (fsub fone decayCoef)
    releaseCoef := releaseCoef
    releaseBase := fmul (fneg rDR) (fsub fone releaseCoef) }

end Sys2Proof.Machine
end

