-- ==== Sys2Proof/Machine/Map.lean ====
section
/-! DEFINITION. The address map (10_state.md, 20_memory.md R101, R102) and the parameter declarations
(40_common_and_lifecycle.md R185): which word each address names. -/

namespace Sys2Proof.Machine

/-- The four units (R25, R466). -/
inductive UnitId where
  | wto | pbo | mlf | adsr
  deriving DecidableEq, Repr

/-- The seventeen parameters of R185. -/
inductive Param where
  | wtoFrequency | wtoDetune | wtoPulseWidth | wtoPhaseMod | wtoPhaseModDepth
  | pboFrequency | pboAmplitude | pboDetune | pboPulseWidth | pboPhaseMod | pboPhaseModDepth
  | mlfCutoff | mlfResonance | mlfDrive | mlfCutoffB | mlfResonanceB
  | adsrGate
  deriving DecidableEq, Repr

/-- The 23 sample RAMs of R51: one per parameter, and the input and output frames. -/
inductive SampleRam where
  | arr (p : Param)
  | wtoOut | pboOut | mlfIn | mlfOut | adsrIn | adsrOut
  deriving DecidableEq, Repr

/-- The MLF state arrays of R57 and R58. -/
inductive MlfArray where
  | v | dv | tv | bin | bout
  deriving DecidableEq, Repr

/-- The ADSR coefficients of R59, in the order of R44. -/
inductive CoefName where
  | attackCoef | attackBase | decayCoef | decayBase | releaseCoef | releaseBase
  deriving DecidableEq, Repr

/-- What a mapped word address names. `hi` selects the upper word of a 64-bit variable (R31). -/
inductive Loc where
  | coreId | coreVersion | coreCfg | sampleRate | cmd | status
  | wtoCtrl | wtoUnisonCount | wtoUnisonSpread | paramMode (u : UnitId)
  | scalar (p : Param)
  | wtoPhase (v : Nat) (hi : Bool)
  | pboCtrl
  | pboPhase (hi : Bool)
  | mlfCtrl
  | mlfState (a : MlfArray) (n : Nat) (hi : Bool)
  | adsrCtrl
  | adsrAttackTime | adsrAttackLevel | adsrDecayTime | adsrSustainTime | adsrSustainLevel | adsrReleaseTime
  | adsrState
  | adsrLevel (hi : Bool)
  | adsrCoef (c : CoefName) (hi : Bool)
  | wtNumTables (t : Nat)
  | wtTopFreq (t k : Nat)
  | ram (addr : Nat)
  deriving DecidableEq, Repr

/-- CMD's address (R32). -/
def cmdAddr : Word := 0x00000010

/-- The PARAM_MODE bit of a parameter (R41 to R44, R185). -/
def Param.bit : Param → Nat
  | .wtoFrequency => 0
  | .wtoDetune => 1
  | .wtoPulseWidth => 2
  | .wtoPhaseMod => 3
  | .wtoPhaseModDepth => 4
  | .pboFrequency => 0
  | .pboAmplitude => 1
  | .pboDetune => 2
  | .pboPulseWidth => 3
  | .pboPhaseMod => 4
  | .pboPhaseModDepth => 5
  | .mlfCutoff => 0
  | .mlfResonance => 1
  | .mlfDrive => 2
  | .mlfCutoffB => 3
  | .mlfResonanceB => 4
  | .adsrGate => 0

/-- The unit a parameter belongs to (R185). -/
def Param.unit : Param → UnitId
  | .wtoFrequency | .wtoDetune | .wtoPulseWidth | .wtoPhaseMod | .wtoPhaseModDepth => .wto
  | .pboFrequency | .pboAmplitude | .pboDetune | .pboPulseWidth | .pboPhaseMod | .pboPhaseModDepth => .pbo
  | .mlfCutoff | .mlfResonance | .mlfDrive | .mlfCutoffB | .mlfResonanceB => .mlf
  | .adsrGate => .adsr

/-- The declared minimum (R185). -/
def Param.min : Param → Int
  | .wtoDetune | .pboDetune => -4800
  | .wtoPhaseMod | .pboPhaseMod => -1
  | .wtoFrequency | .wtoPulseWidth | .wtoPhaseModDepth => 0
  | .pboFrequency | .pboAmplitude | .pboPulseWidth | .pboPhaseModDepth => 0
  | .mlfCutoff | .mlfResonance | .mlfDrive | .mlfCutoffB | .mlfResonanceB => 0
  | .adsrGate => 0

/-- The declared maximum (R185). -/
def Param.max : Param → Int
  | .wtoFrequency | .pboFrequency | .pboAmplitude => 100000
  | .wtoDetune | .pboDetune => 4800
  | .wtoPulseWidth | .pboPulseWidth | .wtoPhaseMod | .pboPhaseMod => 1
  | .wtoPhaseModDepth | .pboPhaseModDepth => 100
  | .mlfCutoff => 20000
  | .mlfResonance => 3
  | .mlfDrive => 10
  | .mlfCutoffB => 1
  | .mlfResonanceB => 4
  | .adsrGate => 1

/-- The index a of a sample RAM (R51). -/
def SampleRam.index : SampleRam → Nat
  | .arr .wtoFrequency => 0
  | .arr .wtoDetune => 1
  | .arr .wtoPulseWidth => 2
  | .arr .wtoPhaseMod => 3
  | .arr .wtoPhaseModDepth => 4
  | .wtoOut => 5
  | .arr .pboFrequency => 6
  | .arr .pboAmplitude => 7
  | .arr .pboDetune => 8
  | .arr .pboPulseWidth => 9
  | .arr .pboPhaseMod => 10
  | .arr .pboPhaseModDepth => 11
  | .pboOut => 12
  | .arr .mlfCutoff => 13
  | .arr .mlfResonance => 14
  | .arr .mlfDrive => 15
  | .arr .mlfCutoffB => 16
  | .arr .mlfResonanceB => 17
  | .mlfIn => 18
  | .mlfOut => 19
  | .arr .adsrGate => 20
  | .adsrIn => 21
  | .adsrOut => 22

/-- The output RAM of a unit (R51). -/
def UnitId.out : UnitId → SampleRam
  | .wto => .wtoOut
  | .pbo => .pboOut
  | .mlf => .mlfOut
  | .adsr => .adsrOut

/-- Byte address of `Ram(R)[i]` (R51). -/
def ramAddr (r : SampleRam) (i : Nat) : Nat := 0x00010000 + 0x1000 * r.index + 4 * i

/-- Byte address of `Table(t, k)[j]` (R54). -/
def tableAddr (t k j : Nat) : Nat := 0x00100000 + 0x4000 * (16 * t + k) + 4 * j

/-- The singly named words: address and name, as R32, R37, R42, R43 and R44 list them. -/
def namedWords : List (Nat × Loc) :=
  [ (0x000, .coreId), (0x004, .coreVersion), (0x008, .coreCfg), (0x00C, .sampleRate), (0x010, .cmd),
    (0x014, .status) ]
  ++ [ (0x100, .wtoCtrl), (0x104, .wtoUnisonCount), (0x108, .wtoUnisonSpread), (0x10C, .paramMode .wto),
    (0x110, .scalar .wtoFrequency), (0x114, .scalar .wtoDetune), (0x118, .scalar .wtoPulseWidth),
    (0x11C, .scalar .wtoPhaseMod), (0x120, .scalar .wtoPhaseModDepth) ]
  ++ [ (0x200, .pboCtrl), (0x204, .paramMode .pbo), (0x208, .scalar .pboFrequency), (0x20C, .scalar .pboAmplitude),
    (0x210, .scalar .pboDetune), (0x214, .scalar .pboPulseWidth), (0x218, .scalar .pboPhaseMod),
    (0x21C, .scalar .pboPhaseModDepth), (0x240, .pboPhase false), (0x244, .pboPhase true) ]
  ++ [ (0x300, .mlfCtrl), (0x304, .paramMode .mlf), (0x308, .scalar .mlfCutoff), (0x30C, .scalar .mlfResonance),
    (0x310, .scalar .mlfDrive), (0x314, .scalar .mlfCutoffB), (0x318, .scalar .mlfResonanceB) ]
  ++ [ (0x400, .adsrCtrl), (0x404, .paramMode .adsr), (0x408, .scalar .adsrGate), (0x40C, .adsrAttackTime),
    (0x410, .adsrAttackLevel), (0x414, .adsrDecayTime), (0x418, .adsrSustainTime), (0x41C, .adsrSustainLevel),
    (0x420, .adsrReleaseTime), (0x440, .adsrState), (0x448, .adsrLevel false), (0x44C, .adsrLevel true) ]
  ++ [ (0x450, .adsrCoef .attackCoef false), (0x454, .adsrCoef .attackCoef true),
    (0x458, .adsrCoef .attackBase false), (0x45C, .adsrCoef .attackBase true),
    (0x460, .adsrCoef .decayCoef false), (0x464, .adsrCoef .decayCoef true),
    (0x468, .adsrCoef .decayBase false), (0x46C, .adsrCoef .decayBase true),
    (0x470, .adsrCoef .releaseCoef false), (0x474, .adsrCoef .releaseCoef true),
    (0x478, .adsrCoef .releaseBase false), (0x47C, .adsrCoef .releaseBase true) ]

/-- A word of an array of 64-bit variables: `off` is the byte offset into the array (R31). -/
def wideWord (off : Nat) (f : Nat → Bool → Loc) : Loc := f (off / 8) (decide (off % 8 = 4))

/-- The MLF state arrays in the order of R43, each 0x20 bytes. -/
def mlfArrays : List MlfArray := [.v, .dv, .tv, .bin, .bout]

/-- What a register word address names (R101): the arrays of R37, R43, R48 and R49, and the singly named words. -/
def locateRegister (a : Nat) : Option Loc :=
  if 0x180 ≤ a ∧ a < 0x180 + 8 * Config.unisonMax then some (wideWord (a - 0x180) .wtoPhase)
  else if 0x340 ≤ a ∧ a < 0x3E0 then
    mlfArrays[(a - 0x340) / 0x20]?.map fun m => wideWord (a % 0x20) (.mlfState m)
  else if 0x800 ≤ a ∧ a < 0x800 + 4 * Config.wtNumTypes then some (.wtNumTables ((a - 0x800) / 4))
  else if 0x900 ≤ a ∧ a < 0x900 + 4 * Config.wtMaxTables * Config.wtNumTypes then
    some (.wtTopFreq ((a - 0x900) / 4 / Config.wtMaxTables) ((a - 0x900) / 4 % Config.wtMaxTables))
  else if a < 0x480 then namedWords.lookup a
  else none

/-- A sample RAM word: RAM index below 23, frame below BUF_LEN (R51). -/
def locateSampleRam (a : Nat) : Option Loc :=
  if a / 0x1000 - 0x10 < 23 ∧ a % 0x1000 / 4 < Config.bufLen then some (.ram a) else none

/-- A wavetable RAM word: table below WT_MAX_TABLES of a type below WT_NUM_TYPES, sample below WT_LEN (R54). -/
def locateWavetable (a : Nat) : Option Loc :=
  let table := a / 0x4000 - 0x40
  if table / 16 < Config.wtNumTypes ∧ table % 16 < Config.wtMaxTables ∧ a % 0x4000 / 4 < Config.wtLen then
    some (.ram a)
  else none

/-- What an aligned byte address names; `none` is an unmapped word (R101, R102). -/
def locate (a : Nat) : Option Loc :=
  if a < 0x00010000 then locateRegister a
  else if a < 0x00100000 then locateSampleRam a
  else locateWavetable a

/-- `addr[1:0] == 0` (R105). -/
def aligned (a : Word) : Bool := a.extractLsb' 0 2 == 0

/-- `mapped(addr)` (R102). -/
def mapped (a : Word) : Bool := aligned a && (locate a.toNat).isSome

end Sys2Proof.Machine
end

