-- ==== Sys2Proof/Machine/State.lean ====
section
/-! DEFINITION. The state of the block (10_state.md), every piece of it, with the host's queue of events, the answer
of the last read and the free-value counter, which are the model's own (log 1, 2, 3). -/

namespace Sys2Proof.Machine

/-- STATUS (R35). Reserved bits are no state: they read 0 and ignore writes (R31). -/
structure Status where
  errCmd : Bool
  errLen : Bool
  errCfg : Bool
  errAddr : Bool
  errAlign : Bool
  nonsilentWto : Bool
  nonsilentPbo : Bool
  nonsilentMlf : Bool
  nonsilentAdsr : Bool
  initWto : Bool
  initPbo : Bool
  initMlf : Bool
  initAdsr : Bool
  lastErr : BitVec 4
  deriving DecidableEq, Repr

/-- The wavetable oscillator's registers (R37 to R41) and phases (R55). -/
structure Wto where
  /-- WTO_CTRL.TYPE -/
  type : BitVec 4
  /-- WTO_CTRL.BLEND -/
  blend : Bool
  /-- WTO_CTRL.PWM -/
  pwm : Bool
  unisonCount : Word
  unisonSpread : Word
  paramMode : BitVec 5
  frequency : Word
  detune : Word
  pulseWidth : Word
  phaseMod : Word
  phaseModDepth : Word
  phase : Vector Double 16
  deriving DecidableEq, Repr

/-- The PolyBLEP oscillator's registers (R42) and phase (R56). -/
structure Pbo where
  /-- PBO_CTRL.SHAPE -/
  shape : BitVec 4
  paramMode : BitVec 6
  frequency : Word
  amplitude : Word
  detune : Word
  pulseWidth : Word
  phaseMod : Word
  phaseModDepth : Word
  /-- the phase t -/
  t : Double
  deriving DecidableEq, Repr

/-- The Moog ladder filter's registers (R43), Model A state (R57) and Model B state (R58: index n - 1 holds the
spec's in[n] and out[n]). -/
structure Mlf where
  /-- MLF_CTRL.MODEL: false is Model A, true is Model B -/
  modelB : Bool
  /-- MLF_CTRL.INPUT_CONNECTED -/
  inputConnected : Bool
  paramMode : BitVec 5
  cutoff : Word
  resonance : Word
  drive : Word
  cutoffB : Word
  resonanceB : Word
  v : Vector Double 4
  dv : Vector Double 4
  tv : Vector Double 4
  bin : Vector Double 4
  bout : Vector Double 4
  deriving DecidableEq, Repr

/-- ADSR_STATE.PHASE (R47). -/
inductive AdsrPhase where
  | idle | attack | decay | sustain | release
  deriving DecidableEq, Repr

/-- The ADSR envelope's registers (R44 to R46) and state (R59). -/
structure Adsr where
  /-- ADSR_CTRL.ONESHOT -/
  oneShot : Bool
  /-- ADSR_CTRL.INPUT_CONNECTED -/
  inputConnected : Bool
  paramMode : BitVec 1
  gate : Word
  attackTime : Word
  attackLevel : Word
  decayTime : Word
  sustainTime : Word
  sustainLevel : Word
  releaseTime : Word
  phase : AdsrPhase
  releaseCompleted : Bool
  prevGate : Bool
  level : Double
  coefs : Coefficients
  deriving DecidableEq, Repr

/-- Memory: the bytes of the sample RAMs and the wavetable RAM written since reset, addresses strictly rising. An
unlisted byte has no value: a word with an unlisted byte reads as a free draw (R53; log 3, 10). -/
abbrev Memory := List Host.Cell

/-- What reaches the block from outside (R180, R480). -/
inductive HostEvent where
  /-- A bus transaction: the 65-bit record of R148. -/
  | transaction (record : BitVec 65)
  /-- The reset input (R480). -/
  | hardwareReset
  deriving DecidableEq, Repr

/-- The block's state, and three fields of the model's own at the end. -/
structure State where
  /-- SAMPLE_RATE (R34) -/
  sampleRate : Word
  status : Status
  wto : Wto
  pbo : Pbo
  mlf : Mlf
  adsr : Adsr
  /-- WT_NUM_TABLES[t] (R48) -/
  numTables : Vector Word 5
  /-- WT_TOPFREQ[t][k] at index 16t + k (R49) -/
  topFreq : Vector Word 80
  /-- the sample RAMs (R51) and the wavetable RAM (R54), by bus byte address -/
  mem : Memory
  /-- what the host has issued and the block has not yet taken, oldest first (log 1) -/
  inbox : List HostEvent
  /-- the word the last BUS.READ returned to the host (R181; log 2) -/
  readData : Word
  /-- how many free values have been drawn (log 3); no claim rests on it -/
  draws : Nat
  deriving DecidableEq, Repr

/-- Why the machine would stop with a fault: never. The block has no traps (R450), every condition is recorded in
STATUS and the operation goes on (R451), so there is no fault for anything to raise (log 13); safe. -/
inductive Fault where
  deriving DecidableEq, Repr

/-- Why an instruction would be refused. -/
inductive Refusal where
  /-- Raised by an arm of exec whose instruction has no meaning yet; safe. No arm raises it in this model. -/
  | notModelled (mnemonic : String)
  deriving DecidableEq, Repr

/-- The answer of a meaning. -/
abbrev Answer := Host.Outcome State Fault Refusal

/-- STATUS after reset (R35). -/
def Status.reset : Status where
  errCmd := false
  errLen := false
  errCfg := false
  errAddr := false
  errAlign := false
  nonsilentWto := false
  nonsilentPbo := false
  nonsilentMlf := false
  nonsilentAdsr := false
  initWto := false
  initPbo := false
  initMlf := false
  initAdsr := false
  lastErr := 0

/-- The WTO after reset (R37, R55): frequency 440, pulseWidth 0.5. -/
def Wto.reset : Wto where
  type := 0
  blend := false
  pwm := false
  unisonCount := 0
  unisonSpread := 0x00000000
  paramMode := 0
  frequency := 0x43DC0000
  detune := 0x00000000
  pulseWidth := 0x3F000000
  phaseMod := 0x00000000
  phaseModDepth := 0x00000000
  phase := Vector.replicate 16 fzero

/-- The PBO after reset (R42, R56): frequency 440, amplitude 1, pulseWidth 0.5. -/
def Pbo.reset : Pbo where
  shape := 0
  paramMode := 0
  frequency := 0x43DC0000
  amplitude := 0x3F800000
  detune := 0x00000000
  pulseWidth := 0x3F000000
  phaseMod := 0x00000000
  phaseModDepth := 0x00000000
  t := fzero

/-- The MLF after reset (R43, R57, R58): cutoff 20000, drive 1, cutoff_B 1, resonance_B 1. -/
def Mlf.reset : Mlf where
  modelB := false
  inputConnected := false
  paramMode := 0
  cutoff := 0x469C4000
  resonance := 0x00000000
  drive := 0x3F800000
  cutoffB := 0x3F800000
  resonanceB := 0x3F800000
  v := Vector.replicate 4 fzero
  dv := Vector.replicate 4 fzero
  tv := Vector.replicate 4 fzero
  bin := Vector.replicate 4 fzero
  bout := Vector.replicate 4 fzero

/-- SAMPLE_RATE after reset, 48000.0 (R34). -/
def sampleRateReset : Word := 0x473B8000

/-- The ADSR after reset (R44, R59): times 0.01, sustainTime +infinity, sustainLevel 0.5; the coefficients are
computed from these registers (R480 step 4). -/
def Adsr.reset : Adsr where
  oneShot := false
  inputConnected := false
  paramMode := 0
  gate := 0x00000000
  attackTime := 0x3C23D70A
  attackLevel := 0x3F800000
  decayTime := 0x3C23D70A
  sustainTime := 0x7F800000
  sustainLevel := 0x3F000000
  releaseTime := 0x3C23D70A
  phase := .idle
  releaseCompleted := false
  prevGate := false
  level := fzero
  coefs := coefficients sampleRateReset 0x3F000000 0x3C23D70A 0x3C23D70A 0x3C23D70A

/-- The machine right after hardware reset (R61, R480): every register at its stated value, RAM contents unspecified
(nothing listed). The last three fields are the model's own (log 1, 2, 3). -/
def State.reset : State where
  sampleRate := sampleRateReset
  status := Status.reset
  wto := Wto.reset
  pbo := Pbo.reset
  mlf := Mlf.reset
  adsr := Adsr.reset
  numTables := Vector.replicate 5 0
  topFreq := Vector.replicate 80 0
  mem := []
  inbox := []
  readData := 0
  draws := 0

end Sys2Proof.Machine
end

