-- ==== Sys2Proof/Machine/Flags.lean ====
section
/-! DEFINITION. STATUS and the packed control words: the fields of 10_state.md R35, R38, R42 to R44, R47 put together
into the word software reads, and the error codes of 60_exceptions.md R453. -/

namespace Sys2Proof.Machine

/-- The errors of R453. -/
inductive ErrCode where
  | cmd | len | cfg | addr | align
  deriving DecidableEq, Repr

/-- The code LAST_ERR holds (R453). -/
def ErrCode.code : ErrCode → BitVec 4
  | .cmd => 1
  | .len => 2
  | .cfg => 3
  | .addr => 4
  | .align => 5

/-- The STATUS word (R35). -/
def Status.word (st : Status) : Word :=
  st.lastErr ++ 0#8
    ++ BitVec.ofBool st.initAdsr ++ BitVec.ofBool st.initMlf ++ BitVec.ofBool st.initPbo ++ BitVec.ofBool st.initWto
    ++ 0#4
    ++ BitVec.ofBool st.nonsilentAdsr ++ BitVec.ofBool st.nonsilentMlf ++ BitVec.ofBool st.nonsilentPbo
    ++ BitVec.ofBool st.nonsilentWto
    ++ 0#3
    ++ BitVec.ofBool st.errAlign ++ BitVec.ofBool st.errAddr ++ BitVec.ofBool st.errCfg ++ BitVec.ofBool st.errLen
    ++ BitVec.ofBool st.errCmd

/-- `raise Error(code)` on STATUS (R452): the sticky bit, bit(code) = code - 1, and LAST_ERR. -/
def Status.raise (e : ErrCode) (st : Status) : Status :=
  match e with
  | .cmd => { st with errCmd := true, lastErr := ErrCode.cmd.code }
  | .len => { st with errLen := true, lastErr := ErrCode.len.code }
  | .cfg => { st with errCfg := true, lastErr := ErrCode.cfg.code }
  | .addr => { st with errAddr := true, lastErr := ErrCode.addr.code }
  | .align => { st with errAlign := true, lastErr := ErrCode.align.code }

/-- STATUS[4:0] == 0. -/
def Status.clean (st : Status) : Bool := !(st.errCmd || st.errLen || st.errCfg || st.errAddr || st.errAlign)

/-- A STATUS write (R187): written ones clear the error bits 4:0; LAST_ERR becomes 0 when none is left. -/
def Status.clear (v : Word) (st : Status) : Status :=
  let st1 := { st with
    errCmd := st.errCmd && !v.getLsbD 0
    errLen := st.errLen && !v.getLsbD 1
    errCfg := st.errCfg && !v.getLsbD 2
    errAddr := st.errAddr && !v.getLsbD 3
    errAlign := st.errAlign && !v.getLsbD 4 }
  { st1 with lastErr := if st1.clean then 0 else st.lastErr }

/-- NONSILENT_u (R203). -/
def Status.setNonsilent (u : UnitId) (b : Bool) (st : Status) : Status :=
  match u with
  | .wto => { st with nonsilentWto := b }
  | .pbo => { st with nonsilentPbo := b }
  | .mlf => { st with nonsilentMlf := b }
  | .adsr => { st with nonsilentAdsr := b }

/-- NONSILENT_u as read (R35). -/
def Status.nonsilent (u : UnitId) (st : Status) : Bool :=
  match u with
  | .wto => st.nonsilentWto
  | .pbo => st.nonsilentPbo
  | .mlf => st.nonsilentMlf
  | .adsr => st.nonsilentAdsr

/-- INIT_u <- 1 (R36, R197). -/
def Status.setInit (u : UnitId) (st : Status) : Status :=
  match u with
  | .wto => { st with initWto := true }
  | .pbo => { st with initPbo := true }
  | .mlf => { st with initMlf := true }
  | .adsr => { st with initAdsr := true }

/-- INIT_u as read (R35). -/
def Status.init (u : UnitId) (st : Status) : Bool :=
  match u with
  | .wto => st.initWto
  | .pbo => st.initPbo
  | .mlf => st.initMlf
  | .adsr => st.initAdsr

/-- WTO_CTRL as read (R38). -/
def Wto.ctrl (w : Wto) : Word :=
  0#22 ++ BitVec.ofBool w.pwm ++ BitVec.ofBool w.blend ++ 0#4 ++ w.type

/-- WTO_CTRL as written (R38): reserved bits are ignored. -/
def Wto.setCtrl (v : Word) (w : Wto) : Wto :=
  { w with type := v.extractLsb' 0 4, blend := v.getLsbD 8, pwm := v.getLsbD 9 }

/-- PBO_CTRL as read (R42). -/
def Pbo.ctrl (p : Pbo) : Word := 0#28 ++ p.shape

/-- MLF_CTRL as read (R43). -/
def Mlf.ctrl (m : Mlf) : Word := 0#30 ++ BitVec.ofBool m.inputConnected ++ BitVec.ofBool m.modelB

/-- ADSR_CTRL as read (R44). -/
def Adsr.ctrl (a : Adsr) : Word := 0#30 ++ BitVec.ofBool a.inputConnected ++ BitVec.ofBool a.oneShot

/-- The code of an ADSR phase (R47). -/
def AdsrPhase.code : AdsrPhase → BitVec 3
  | .idle => 0
  | .attack => 1
  | .decay => 2
  | .sustain => 3
  | .release => 4

/-- ADSR_STATE as read (R47). -/
def Adsr.stateWord (a : Adsr) : Word :=
  0#22 ++ BitVec.ofBool a.prevGate ++ BitVec.ofBool a.releaseCompleted ++ 0#5 ++ a.phase.code

end Sys2Proof.Machine
end

