-- ==== Sys2Proof/Machine/Ops.lean ====
section
/-! DEFINITION. The named operations over memory and registers: RAM bytes and words, recording an error and clearing
it, reading and writing each register (40_common_and_lifecycle.md R183, R184), the unit resets (R197 to R199), the
PROCESS skeleton (R202) and hardware reset (R480). -/

namespace Sys2Proof.Machine

/-! ### memory (20_memory.md) -/

/-- One byte of RAM; `none` where nothing was written since reset (R53). -/
def Memory.get : Memory → Nat → Option Byte
  | [], _ => none
  | (b, v) :: m, a => if a = b then some v else Memory.get m a

/-- Write one byte, keeping addresses strictly rising. -/
def Memory.set : Memory → Nat → Byte → Memory
  | [], a, x => [(a, x)]
  | (b, v) :: m, a, x =>
    if a < b then (a, x) :: (b, v) :: m
    else if a = b then (a, x) :: m
    else (b, v) :: Memory.set m a x

/-- The canonical form: addresses strictly rising. -/
def Memory.wf : Memory → Bool
  | [] => true
  | [_] => true
  | (a, _) :: (b, v) :: m => decide (a < b) && Memory.wf ((b, v) :: m)

/-- The word at a byte address, little-endian (R103), if all four bytes have been written. -/
def Memory.word? (m : Memory) (a : Nat) : Option Word :=
  match m.get a, m.get (a + 1), m.get (a + 2), m.get (a + 3) with
  | some b0, some b1, some b2, some b3 => some (b3 ++ b2 ++ b1 ++ b0)
  | _, _, _, _ => none

/-- Write a word, little-endian (R103). -/
def Memory.setWord (m : Memory) (a : Nat) (v : Word) : Memory :=
  (((m.set a (v.extractLsb' 0 8)).set (a + 1) (v.extractLsb' 8 8)).set (a + 2) (v.extractLsb' 16 8)).set (a + 3)
    (v.extractLsb' 24 8)

/-- Read a RAM word, given the draws used so far: a word not written since reset is a free draw (R53; log 3). -/
def loadWord (m : Memory) (a draws : Nat) : Word × Nat :=
  match m.word? a with
  | some w => (w, draws)
  | none => (Config.freeWord draws, draws + 1)

/-- Write a RAM word. -/
def State.putWord (a : Nat) (v : Word) (s : State) : State := { s with mem := s.mem.setWord a v }

/-- Write an output frame: `Ram(OUT_u)[i] <- f32(y)` (R190). -/
def State.putFrame (r : SampleRam) (i : Nat) (y : Double) (s : State) : State :=
  let o := storeSample y s.draws
  { s with mem := s.mem.setWord (ramAddr r i) o.1, draws := o.2 }

/-! ### errors -/

/-- `raise Error(code)` (R452): the block's whole exception mechanism. It transfers no control (R450). -/
def raiseError (e : ErrCode) (s : State) : State := { s with status := s.status.raise e }

/-- The way back: a STATUS write clears recorded errors (R187, R462). -/
def clearErrors (v : Word) (s : State) : State := { s with status := s.status.clear v }

/-! ### the ADSR coefficients -/

/-- Store six coefficients; a NaN, which no run produces (R404), would get a free pattern. -/
def storeCoefficients (c : Coefficients) (draws : Nat) : Coefficients × Nat :=
  let a := storeDouble c.attackCoef draws
  let b := storeDouble c.attackBase a.2
  let d := storeDouble c.decayCoef b.2
  let e := storeDouble c.decayBase d.2
  let r := storeDouble c.releaseCoef e.2
  let q := storeDouble c.releaseBase r.2
  ({ attackCoef := a.1, attackBase := b.1, decayCoef := d.1, decayBase := e.1, releaseCoef := r.1,
     releaseBase := q.1 }, q.2)

/-- `RecomputeCoefficients()` (R403, R405). -/
def recompute (s : State) : State :=
  let c := coefficients s.sampleRate s.adsr.sustainLevel s.adsr.attackTime s.adsr.decayTime s.adsr.releaseTime
  let r := storeCoefficients c s.draws
  { s with adsr := { s.adsr with coefs := r.1 }, draws := r.2 }

/-! ### register reads -/

/-- One word of a 64-bit variable (R31). -/
def halfWord (hi : Bool) (x : Double) : Word := if hi then x.extractLsb' 32 32 else x.extractLsb' 0 32

/-- The scalar register of a parameter (R185). -/
def State.scalar (s : State) : Param → Word
  | .wtoFrequency => s.wto.frequency
  | .wtoDetune => s.wto.detune
  | .wtoPulseWidth => s.wto.pulseWidth
  | .wtoPhaseMod => s.wto.phaseMod
  | .wtoPhaseModDepth => s.wto.phaseModDepth
  | .pboFrequency => s.pbo.frequency
  | .pboAmplitude => s.pbo.amplitude
  | .pboDetune => s.pbo.detune
  | .pboPulseWidth => s.pbo.pulseWidth
  | .pboPhaseMod => s.pbo.phaseMod
  | .pboPhaseModDepth => s.pbo.phaseModDepth
  | .mlfCutoff => s.mlf.cutoff
  | .mlfResonance => s.mlf.resonance
  | .mlfDrive => s.mlf.drive
  | .mlfCutoffB => s.mlf.cutoffB
  | .mlfResonanceB => s.mlf.resonanceB
  | .adsrGate => s.adsr.gate

/-- u_PARAM_MODE (R41 to R44). -/
def State.paramMode (s : State) : UnitId → Word
  | .wto => s.wto.paramMode.zeroExtend 32
  | .pbo => s.pbo.paramMode.zeroExtend 32
  | .mlf => s.mlf.paramMode.zeroExtend 32
  | .adsr => s.adsr.paramMode.zeroExtend 32

/-- An MLF state array (R57, R58). -/
def Mlf.array (m : Mlf) : MlfArray → Vector Double 4
  | .v => m.v
  | .dv => m.dv
  | .tv => m.tv
  | .bin => m.bin
  | .bout => m.bout

/-- A coefficient (R59). -/
def Coefficients.get (c : Coefficients) : CoefName → Double
  | .attackCoef => c.attackCoef
  | .attackBase => c.attackBase
  | .decayCoef => c.decayCoef
  | .decayBase => c.decayBase
  | .releaseCoef => c.releaseCoef
  | .releaseBase => c.releaseBase

/-- Voice v's phase (R55). -/
def Wto.phaseOf (w : Wto) (v : Nat) : Double := w.phase[v]?.getD fzero

/-- WT_NUM_TABLES[t] (R48). -/
def State.tables (s : State) (t : Nat) : Nat := (s.numTables[t]?.getD 0).toNat

/-- WT_TOPFREQ[t][k] (R49). -/
def State.topFreqOf (s : State) (t k : Nat) : Word := s.topFreq[16 * t + k]?.getD 0

/-- The word a register reads as (R32 to R49, R183). A RAM word is read by `loadWord`. -/
def readReg (s : State) : Loc → Word
  | .coreId => Config.coreId
  | .coreVersion => Config.coreVersion
  | .coreCfg => Config.coreCfg
  | .sampleRate => s.sampleRate
  | .cmd => 0
  | .status => s.status.word
  | .wtoCtrl => s.wto.ctrl
  | .wtoUnisonCount => s.wto.unisonCount
  | .wtoUnisonSpread => s.wto.unisonSpread
  | .paramMode u => s.paramMode u
  | .scalar p => s.scalar p
  | .wtoPhase v hi => halfWord hi (s.wto.phaseOf v)
  | .pboCtrl => s.pbo.ctrl
  | .pboPhase hi => halfWord hi s.pbo.t
  | .mlfCtrl => s.mlf.ctrl
  | .mlfState a n hi => halfWord hi ((s.mlf.array a)[n]?.getD fzero)
  | .adsrCtrl => s.adsr.ctrl
  | .adsrAttackTime => s.adsr.attackTime
  | .adsrAttackLevel => s.adsr.attackLevel
  | .adsrDecayTime => s.adsr.decayTime
  | .adsrSustainTime => s.adsr.sustainTime
  | .adsrSustainLevel => s.adsr.sustainLevel
  | .adsrReleaseTime => s.adsr.releaseTime
  | .adsrState => s.adsr.stateWord
  | .adsrLevel hi => halfWord hi s.adsr.level
  | .adsrCoef c hi => halfWord hi (s.adsr.coefs.get c)
  | .wtNumTables t => s.numTables[t]?.getD 0
  | .wtTopFreq t k => s.topFreqOf t k
  | .ram _ => 0

/-- The word at a mapped address, and the draws used (R104). -/
def readLoc (s : State) : Loc → Word × Nat
  | .ram a => loadWord s.mem a s.draws
  | l => (readReg s l, s.draws)

/-! ### register writes (R184) -/

/-- Store a scalar parameter unchanged (R184). -/
def State.setScalar (v : Word) (s : State) : Param → State
  | .wtoFrequency => { s with wto := { s.wto with frequency := v } }
  | .wtoDetune => { s with wto := { s.wto with detune := v } }
  | .wtoPulseWidth => { s with wto := { s.wto with pulseWidth := v } }
  | .wtoPhaseMod => { s with wto := { s.wto with phaseMod := v } }
  | .wtoPhaseModDepth => { s with wto := { s.wto with phaseModDepth := v } }
  | .pboFrequency => { s with pbo := { s.pbo with frequency := v } }
  | .pboAmplitude => { s with pbo := { s.pbo with amplitude := v } }
  | .pboDetune => { s with pbo := { s.pbo with detune := v } }
  | .pboPulseWidth => { s with pbo := { s.pbo with pulseWidth := v } }
  | .pboPhaseMod => { s with pbo := { s.pbo with phaseMod := v } }
  | .pboPhaseModDepth => { s with pbo := { s.pbo with phaseModDepth := v } }
  | .mlfCutoff => { s with mlf := { s.mlf with cutoff := v } }
  | .mlfResonance => { s with mlf := { s.mlf with resonance := v } }
  | .mlfDrive => { s with mlf := { s.mlf with drive := v } }
  | .mlfCutoffB => { s with mlf := { s.mlf with cutoffB := v } }
  | .mlfResonanceB => { s with mlf := { s.mlf with resonanceB := v } }
  | .adsrGate => { s with adsr := { s.adsr with gate := v } }

/-- Store the defined bits of u_PARAM_MODE (R41 to R44, R184). -/
def State.setParamMode (v : Word) (s : State) : UnitId → State
  | .wto => { s with wto := { s.wto with paramMode := v.extractLsb' 0 5 } }
  | .pbo => { s with pbo := { s.pbo with paramMode := v.extractLsb' 0 6 } }
  | .mlf => { s with mlf := { s.mlf with paramMode := v.extractLsb' 0 5 } }
  | .adsr => { s with adsr := { s.adsr with paramMode := v.extractLsb' 0 1 } }

/-- A sample rate the block accepts: finite and at least 1.0 (R34). -/
def legalSampleRate (v : Word) : Bool := isFinite (widen v) && fle fone (widen v)

/-- SAMPLE_RATE write (R34, R405). -/
def writeSampleRate (v : Word) (s : State) : State :=
  if legalSampleRate v then recompute { s with sampleRate := v } else raiseError .cfg s

/-- Every voice phase +0.0 (R199, R270). -/
def phasesZero : Vector Double 16 := Vector.replicate 16 fzero

/-- WTO_UNISON_COUNT write (R39, R270): a count that changes rebuilds the voices. -/
def writeUnisonCount (v : Word) (s : State) : State :=
  let n := BitVec.ofNat 32 (min v.toNat Config.unisonMax)
  let s1 := if Config.unisonMax < v.toNat then raiseError .cfg s else s
  if n = s.wto.unisonCount then s1
  else { s1 with wto := { s1.wto with unisonCount := n, phase := phasesZero } }

/-- The value lies outside [lo, hi]. -/
def outside (v : Word) (lo hi : Double) : Bool := flt (widen v) lo || flt hi (widen v)

/-- `f32(clamp(widen(w), lo, hi))`, what a clamping WARL register stores (R40, R45). -/
def clampWord (v : Word) (lo hi : Double) : Word := f32 (fclamp (widen v) lo hi)

/-- Record ERR_CFG when a written value was out of range (R456). -/
def raiseIf (b : Bool) (s : State) : State := if b then raiseError .cfg s else s

/-- WTO_UNISON_SPREAD write (R40). -/
def writeUnisonSpread (v : Word) (s : State) : State :=
  if isNaN32 v then raiseError .cfg s
  else
    let s1 := raiseIf (outside v (ofInt (-4800)) (ofInt 4800)) s
    { s1 with wto := { s1.wto with unisonSpread := clampWord v (ofInt (-4800)) (ofInt 4800) } }

/-- ADSR_ATTACK_TIME write (R45, R405). -/
def writeAttackTime (v : Word) (s : State) : State :=
  if isNaN32 v then raiseError .cfg s else recompute { s with adsr := { s.adsr with attackTime := v } }

/-- ADSR_DECAY_TIME write (R45, R405). -/
def writeDecayTime (v : Word) (s : State) : State :=
  if isNaN32 v then raiseError .cfg s else recompute { s with adsr := { s.adsr with decayTime := v } }

/-- ADSR_RELEASE_TIME write (R45, R405). -/
def writeReleaseTime (v : Word) (s : State) : State :=
  if isNaN32 v then raiseError .cfg s else recompute { s with adsr := { s.adsr with releaseTime := v } }

/-- ADSR_SUSTAIN_TIME write (R45, R46): stored, no recompute. -/
def writeSustainTime (v : Word) (s : State) : State :=
  if isNaN32 v then raiseError .cfg s else { s with adsr := { s.adsr with sustainTime := v } }

/-- ADSR_SUSTAIN_LEVEL write (R45, R405). -/
def writeSustainLevel (v : Word) (s : State) : State :=
  if isNaN32 v then raiseError .cfg s
  else
    let s1 := raiseIf (outside v fzero fone) s
    recompute { s1 with adsr := { s1.adsr with sustainLevel := clampWord v fzero fone } }

/-- ADSR_ATTACK_LEVEL write (R45, R46): stored, no recompute. -/
def writeAttackLevel (v : Word) (s : State) : State :=
  if isNaN32 v then raiseError .cfg s
  else
    let s1 := raiseIf (outside v fzero fone) s
    { s1 with adsr := { s1.adsr with attackLevel := clampWord v fzero fone } }

/-- WT_NUM_TABLES[t] write (R48). -/
def writeNumTables (t : Nat) (v : Word) (s : State) : State :=
  let s1 := raiseIf (decide (Config.wtMaxTables < v.toNat)) s
  { s1 with numTables := s1.numTables.setIfInBounds t (BitVec.ofNat 32 (min v.toNat Config.wtMaxTables)) }

/-- WT_TOPFREQ[t][k] write (R49). -/
def writeTopFreq (t k : Nat) (v : Word) (s : State) : State :=
  { s with topFreq := s.topFreq.setIfInBounds (16 * t + k) v }

/-- The write rule of every mapped word but CMD (R183, R184), whose rule is `cmdWrite`. -/
def writeLoc (v : Word) (s : State) : Loc → State
  | .coreId => s
  | .coreVersion => s
  | .coreCfg => s
  | .sampleRate => writeSampleRate v s
  | .cmd => s
  | .status => clearErrors v s
  | .wtoCtrl => { s with wto := s.wto.setCtrl v }
  | .wtoUnisonCount => writeUnisonCount v s
  | .wtoUnisonSpread => writeUnisonSpread v s
  | .paramMode u => s.setParamMode v u
  | .scalar p => s.setScalar v p
  | .wtoPhase _ _ => s
  | .pboCtrl => { s with pbo := { s.pbo with shape := v.extractLsb' 0 4 } }
  | .pboPhase _ => s
  | .mlfCtrl => { s with mlf := { s.mlf with modelB := v.getLsbD 0, inputConnected := v.getLsbD 1 } }
  | .mlfState _ _ _ => s
  | .adsrCtrl => { s with adsr := { s.adsr with oneShot := v.getLsbD 0, inputConnected := v.getLsbD 1 } }
  | .adsrAttackTime => writeAttackTime v s
  | .adsrAttackLevel => writeAttackLevel v s
  | .adsrDecayTime => writeDecayTime v s
  | .adsrSustainTime => writeSustainTime v s
  | .adsrSustainLevel => writeSustainLevel v s
  | .adsrReleaseTime => writeReleaseTime v s
  | .adsrState => s
  | .adsrLevel _ => s
  | .adsrCoef _ _ => s
  | .wtNumTables t => writeNumTables t v s
  | .wtTopFreq t k => writeTopFreq t k v s
  | .ram a => s.putWord a v

/-! ### lifecycle -/

/-- `ResetDynamic(u)` (R199). -/
def resetDynamic (u : UnitId) (s : State) : State :=
  match u with
  | .wto => { s with wto := { s.wto with phase := phasesZero } }
  | .pbo => { s with pbo := { s.pbo with t := fzero } }
  | .mlf => { s with mlf := { s.mlf with
      v := Vector.replicate 4 fzero
      dv := Vector.replicate 4 fzero
      tv := Vector.replicate 4 fzero
      bin := Vector.replicate 4 fzero
      bout := Vector.replicate 4 fzero } }
  | .adsr => { s with adsr := { s.adsr with
      phase := .idle
      level := fzero
      releaseCompleted := false
      prevGate := false } }

/-- INIT_u <- 1 (R36). -/
def markInit (u : UnitId) (s : State) : State := { s with status := s.status.setInit u }

/-- u.INIT (R197); INIT_ALL runs it for each unit (R200). -/
def initUnit (u : UnitId) (s : State) : State :=
  let s1 := resetDynamic u s
  let s2 := if u = .adsr then recompute s1 else s1
  markInit u s2

/-! ### PROCESS (R202 to R206) -/

/-- Run a per-frame step for frames 0 to n - 1, in increasing order (R20). -/
def frames (step : Nat → State → State) : Nat → State → State
  | 0, s => s
  | n + 1, s => step n (frames step n s)

/-- Silence: the word 0x0000_0000 in output frames 0 to n - 1 (R204). -/
def silence (u : UnitId) (n : Nat) (s : State) : State :=
  frames (fun i s => s.putWord (ramAddr u.out i) 0x00000000) n s

/-- NONSILENT_u <- b (R203). -/
def markNonsilent (u : UnitId) (b : Bool) (s : State) : State := { s with status := s.status.setNonsilent u b }

/-- u_CTRL.INPUT_CONNECTED; the oscillators have no input (R202, R250, R301). -/
def inputConnected (u : UnitId) (s : State) : Bool :=
  match u with
  | .wto => true
  | .pbo => true
  | .mlf => s.mlf.inputConnected
  | .adsr => s.adsr.inputConnected

/-- u.PROCESS N around the unit's frame (R202). -/
def process (u : UnitId) (frame : Nat → State → State) (n : Nat) (s : State) : State :=
  if Config.bufLen < n then markNonsilent u false (silence u Config.bufLen (raiseError .len s))
  else if n = 0 then markNonsilent u false s
  else if !(s.status.init u && inputConnected u s) then markNonsilent u false (silence u n s)
  else markNonsilent u true (frames frame n s)

/-! ### hardware reset -/

/-- The reset input (R480, R481; log 9): every register and state variable at its reset value, RAM contents
unspecified. What the host has issued, its last answer and the free-value counter are not the block's. -/
def hardwareReset (s : State) : State :=
  { State.reset with inbox := s.inbox, readData := s.readData, draws := s.draws }

end Sys2Proof.Machine
end

