-- ==== Sys2Proof/Machine/Operands.lean ====
section
/-! DEFINITION. The parameter adapter (40_common_and_lifecycle.md R185, R186, R188): one function from a parameter and
a frame to its clamped binary64 value. -/

namespace Sys2Proof.Machine

/-- `ParamClamp(x, lo, hi)` (R188): a NaN becomes the minimum. -/
def paramClamp (x lo hi : Double) : Double := if isNaN x then lo else fclamp x lo hi

/-- The word a parameter has at frame i, and the draws used: the per-frame RAM when its PARAM_MODE bit is 1, the
scalar register when it is 0 (R186). -/
def paramWord (s : State) (p : Param) (i draws : Nat) : Word × Nat :=
  if (s.paramMode p.unit).getLsbD p.bit then loadWord s.mem (ramAddr (.arr p) i) draws
  else (s.scalar p, draws)

/-- `Param(u, p, i)` (R186), and the draws used. -/
def param (s : State) (p : Param) (i draws : Nat) : Double × Nat :=
  let w := paramWord s p i draws
  (paramClamp (widen w.1) (ofInt p.min) (ofInt p.max), w.2)

/-- An input frame, widened, and the draws used (R361, R407). -/
def inputFrame (s : State) (r : SampleRam) (i draws : Nat) : Double × Nat :=
  let w := loadWord s.mem (ramAddr r i) draws
  (widen w.1, w.2)

end Sys2Proof.Machine
end

