-- ==== Sys2Proof/Machine/Adsr.lean ====
section
/-! DEFINITION. ADSR.PROCESS (45_adsr_envelope.md): gate edges, the exponential segments and the output multiply. -/

namespace Sys2Proof.Machine

/-- A rising or falling gate edge (R407, R408, R414): the phase and releaseCompleted after it. -/
def adsrTransition (g prevGate : Bool) (phase : AdsrPhase) (releaseCompleted : Bool) : AdsrPhase × Bool :=
  if g && !prevGate && (phase == .idle || phase == .release) then (.attack, false)
  else if !g && prevGate && phase != .idle then (.release, releaseCompleted)
  else (phase, releaseCompleted)

/-- The phase, the level and releaseCompleted. -/
structure Envelope where
  phase : AdsrPhase
  level : Double
  releaseCompleted : Bool
  deriving DecidableEq, Repr

/-- `base + (level * coef)` (R409, R410, R413). -/
def segment (base level coef : Double) : Double := fadd base (fmul level coef)

/-- The recurrence of the current phase (R407, R409 to R413); `sustain` is the widened ADSR_SUSTAIN_LEVEL. -/
def adsrRecurrence (c : Coefficients) (sustain : Double) (e : Envelope) : Envelope :=
  match e.phase with
  | .idle => e
  | .attack =>
    let x := segment c.attackBase e.level c.attackCoef
    if fle fone x then { e with level := fone, phase := .decay } else { e with level := x }
  | .decay =>
    let x := segment c.decayBase e.level c.decayCoef
    if fle x sustain then { e with level := sustain, phase := .sustain } else { e with level := x }
  | .sustain => e
  | .release =>
    let x := segment c.releaseBase e.level c.releaseCoef
    if fle x fzero then { phase := .idle, level := fzero, releaseCompleted := true } else { e with level := x }

/-- The envelope of one frame from the thresholded gate (R407): the new phase's recurrence runs in the frame of the
transition. -/
def adsrEnvelope (a : Adsr) (g : Bool) : Envelope :=
  let tr := adsrTransition g a.prevGate a.phase a.releaseCompleted
  adsrRecurrence a.coefs (widen a.sustainLevel) { phase := tr.1, level := a.level, releaseCompleted := tr.2 }

/-- `UnitFrame(ADSR, i)` (R406, R407, R415). -/
def adsrFrame (i : Nat) (s : State) : State :=
  let gate := param s .adsrGate i s.draws
  let g := flt fzero gate.1
  let e := adsrEnvelope s.adsr g
  let x := inputFrame s .adsrIn i gate.2
  let level := storeDouble e.level x.2
  State.putFrame .adsrOut i (fmul x.1 e.level)
    { s with
      adsr := { s.adsr with
        phase := e.phase
        level := level.1
        releaseCompleted := e.releaseCompleted
        prevGate := g }
      draws := level.2 }

/-- ADSR.PROCESS N (R400). -/
def execAdsrProcess (n : Nat) (s : State) : Answer := .next (process .adsr adsrFrame n s)

end Sys2Proof.Machine
end

