-- ==== Sys2Proof/Machine/Lifecycle.lean ====
section
/-! DEFINITION. The lifecycle commands (40_common_and_lifecycle.md R196 to R201). -/

namespace Sys2Proof.Machine

/-- NOP (R196). -/
def execNop (s : State) : Answer := .next s

/-- INIT_ALL (R200): the four unit INITs in the order WTO, PBO, MLF, ADSR. -/
def execInitAll (s : State) : Answer :=
  .next (initUnit .adsr (initUnit .mlf (initUnit .pbo (initUnit .wto s))))

/-- RESET_ALL (R201). -/
def execResetAll (s : State) : Answer :=
  .next (resetDynamic .adsr (resetDynamic .mlf (resetDynamic .pbo (resetDynamic .wto s))))

/-- WTO.INIT (R197). -/
def execWtoInit (s : State) : Answer := .next (initUnit .wto s)

/-- WTO.RESET (R198). -/
def execWtoReset (s : State) : Answer := .next (resetDynamic .wto s)

/-- PBO.INIT (R197). -/
def execPboInit (s : State) : Answer := .next (initUnit .pbo s)

/-- PBO.RESET (R198). -/
def execPboReset (s : State) : Answer := .next (resetDynamic .pbo s)

/-- MLF.INIT (R197). -/
def execMlfInit (s : State) : Answer := .next (initUnit .mlf s)

/-- MLF.RESET (R198). -/
def execMlfReset (s : State) : Answer := .next (resetDynamic .mlf s)

/-- ADSR.INIT (R197). -/
def execAdsrInit (s : State) : Answer := .next (initUnit .adsr s)

/-- ADSR.RESET (R198). -/
def execAdsrReset (s : State) : Answer := .next (resetDynamic .adsr s)

end Sys2Proof.Machine
end

