-- ==== Sys2Proof/Machine/Mlf.lean ====
section
/-! DEFINITION. MLF.PROCESS (44_moog_ladder_filter.md): the ODE ladder of Model A and the discretized ladder of
Model B. -/

namespace Sys2Proof.Machine

/-- One stage of Model A: voltage, derivative, saturated value (R57). -/
structure StageA where
  v : Double
  dv : Double
  tv : Double
  deriving DecidableEq, Repr

/-- `2.0 * VT`. -/
def twoVt : Double := fmul (ofInt 2) fvt

/-- The trapezoidal update of a stage from its new derivative (R364, R365). -/
def stageUpdate (sr dNew : Double) (old : StageA) : StageA :=
  let v := fadd old.v (fdiv (fadd dNew old.dv) (fmul (ofInt 2) sr))
  { v := v, dv := dNew, tv := tanh64 (fdiv v twoVt) }

/-- `g`, the compensated gain (R363). -/
def ladderGain (c sr : Double) : Double :=
  let x := fdiv (fmul fpi c) sr
  fdiv (fmul (fmul (fmul (fmul (ofInt 4) fpi) fvt) c) (fsub fone x)) (fadd fone x)

/-- The derivative of stage 0 (R364). -/
def stage0Derivative (g dr input r v3 tv0 : Double) : Double :=
  fmul (fneg g) (fadd (tanh64 (fdiv (fadd (fmul dr input) (fmul r v3)) twoVt)) tv0)

/-- The derivative of stages 1 to 3 (R365). -/
def stageDerivative (g tvBefore tv : Double) : Double := fmul g (fsub tvBefore tv)

/-- The four stages of Model A. -/
structure LadderA where
  s0 : StageA
  s1 : StageA
  s2 : StageA
  s3 : StageA
  deriving DecidableEq, Repr

/-- The Model A state as stages (R57). -/
def Mlf.ladderA (m : Mlf) : LadderA where
  s0 := { v := m.v[0], dv := m.dv[0], tv := m.tv[0] }
  s1 := { v := m.v[1], dv := m.dv[1], tv := m.tv[1] }
  s2 := { v := m.v[2], dv := m.dv[2], tv := m.tv[2] }
  s3 := { v := m.v[3], dv := m.dv[3], tv := m.tv[3] }

/-- One frame of Model A (R363 to R365): each stage uses its predecessor's fresh saturated value. -/
def stepA (c r dr sr input : Double) (l : LadderA) : LadderA :=
  let g := ladderGain c sr
  let s0 := stageUpdate sr (stage0Derivative g dr input r l.s3.v l.s0.tv) l.s0
  let s1 := stageUpdate sr (stageDerivative g s0.tv l.s1.tv) l.s1
  let s2 := stageUpdate sr (stageDerivative g s1.tv l.s2.tv) l.s2
  let s3 := stageUpdate sr (stageDerivative g s2.tv l.s3.tv) l.s3
  { s0 := s0, s1 := s1, s2 := s2, s3 := s3 }

/-- Store four values of an array, and the draws used (R19). -/
def storeFour (a b c d : Double) (draws : Nat) : Vector Double 4 × Nat :=
  let ra := storeDouble a draws
  let rb := storeDouble b ra.2
  let rc := storeDouble c rb.2
  let rd := storeDouble d rc.2
  (#v[ra.1, rb.1, rc.1, rd.1], rd.2)

/-- Model A of frame i (R363 to R366): the output is V[3]. -/
def modelAFrame (i : Nat) (s : State) : State :=
  let x := inputFrame s .mlfIn i s.draws
  let c := param s .mlfCutoff i x.2
  let r := param s .mlfResonance i c.2
  let dr := param s .mlfDrive i r.2
  let l := stepA c.1 r.1 dr.1 (widen s.sampleRate) x.1 s.mlf.ladderA
  let v := storeFour l.s0.v l.s1.v l.s2.v l.s3.v dr.2
  let dv := storeFour l.s0.dv l.s1.dv l.s2.dv l.s3.dv v.2
  let tv := storeFour l.s0.tv l.s1.tv l.s2.tv l.s3.tv dv.2
  State.putFrame .mlfOut i l.s3.v
    { s with mlf := { s.mlf with v := v.1, dv := dv.1, tv := tv.1 }, draws := tv.2 }

/-- The Model B coefficients (R368). -/
structure CoefB where
  f : Double
  fb : Double
  k : Double
  deriving DecidableEq, Repr

/-- `f`, `fb` and `k` from cutoff_B and resonance_B (R368). -/
def coefB (c r : Double) : CoefB :=
  let f := fmul c (lit 116 100)
  { f := f
    fb := fmul r (fsub fone (fmul (fmul (lit 15 100) f) f))
    k := fmul (fmul (lit 35013 100000) (fmul f f)) (fmul f f) }

/-- One stage of Model B: `(current + (0.3 * in_history)) + ((1.0 - f) * out_history)` (R369). -/
def stageB (f current inHist outHist : Double) : Double :=
  fadd (fadd current (fmul (lit 3 10) inHist)) (fmul (fsub fone f) outHist)

/-- The histories after one frame of Model B, in order n = 1 to 4 (R369). -/
structure LadderB where
  in1 : Double
  in2 : Double
  in3 : Double
  in4 : Double
  out1 : Double
  out2 : Double
  out3 : Double
  out4 : Double
  deriving DecidableEq, Repr

/-- The Model B state as histories (R58). -/
def Mlf.ladderB (m : Mlf) : LadderB where
  in1 := m.bin[0]
  in2 := m.bin[1]
  in3 := m.bin[2]
  in4 := m.bin[3]
  out1 := m.bout[0]
  out2 := m.bout[1]
  out3 := m.bout[2]
  out4 := m.bout[3]

/-- One frame of Model B (R369): each stage's current input becomes its input history. -/
def stepB (q : CoefB) (input : Double) (l : LadderB) : LadderB :=
  let u := fmul (fsub input (fmul l.out4 q.fb)) q.k
  let o1 := stageB q.f u l.in1 l.out1
  let o2 := stageB q.f o1 l.in2 l.out2
  let o3 := stageB q.f o2 l.in3 l.out3
  let o4 := stageB q.f o3 l.in4 l.out4
  { in1 := u, in2 := o1, in3 := o2, in4 := o3, out1 := o1, out2 := o2, out3 := o3, out4 := o4 }

/-- Model B of frame i (R368 to R370): the output is out[4]. -/
def modelBFrame (i : Nat) (s : State) : State :=
  let x := inputFrame s .mlfIn i s.draws
  let c := param s .mlfCutoffB i x.2
  let r := param s .mlfResonanceB i c.2
  let l := stepB (coefB c.1 r.1) x.1 s.mlf.ladderB
  let bin := storeFour l.in1 l.in2 l.in3 l.in4 r.2
  let bout := storeFour l.out1 l.out2 l.out3 l.out4 bin.2
  State.putFrame .mlfOut i l.out4
    { s with mlf := { s.mlf with bin := bin.1, bout := bout.1 }, draws := bout.2 }

/-- `UnitFrame(MLF, i)` (R361, R362): only the selected model is read and moves. -/
def mlfFrame (i : Nat) (s : State) : State := if s.mlf.modelB then modelBFrame i s else modelAFrame i s

/-- MLF.PROCESS N (R360). -/
def execMlfProcess (n : Nat) (s : State) : Answer := .next (process .mlf mlfFrame n s)

end Sys2Proof.Machine
end

