-- ==== Sys2Proof/Machine/Pbo.lean ====
section
/-! DEFINITION. PBO.PROCESS (43_polyblep_oscillator.md): the thirteen shapes, their corrections and the two-sided
phase wrap. -/

namespace Sys2Proof.Machine

/-- `Wrap2(x)`, the two-sided wrap (R306). -/
def wrap2 (x : Double) : Double :=
  if fle fzero x then fsub x (ftrunc x) else fadd x (fsub fone (ftrunc x))

/-- `fr(x)`, the one-sided wrap of the shapes' offsets (R307). -/
def fr (x : Double) : Double := fsub x (ftrunc x)

/-- Integers that occur in the formulas. -/
def k2 : Double := ofInt 2
def k3 : Double := ofInt 3
def k4 : Double := ofInt 4

/-- Binary fractions that occur in the formulas. -/
def half : Double := lit 1 2
def quarter : Double := lit 1 4
def threeQuarters : Double := lit 3 4

/-- `blep(t, dt)` (R308). -/
def blep (t dt : Double) : Double :=
  if flt t dt then
    let x := fsub (fdiv t dt) fone
    fneg (fmul x x)
  else if flt (fsub fone dt) t then
    let x := fadd (fdiv (fsub t fone) dt) fone
    fmul x x
  else fzero

/-- `blamp(t, dt)` (R309). -/
def blamp (t dt : Double) : Double :=
  if flt t dt then
    let x := fsub (fdiv t dt) fone
    fmul (fmul (fdiv (fneg fone) k3) (fmul x x)) x
  else if flt (fsub fone dt) t then
    let x := fadd (fdiv (fsub t fone) dt) fone
    fmul (fmul (fdiv fone k3) (fmul x x)) x
  else fzero

/-- The pulse width where it is a divisor (R311). -/
def pulseWidthClamped (pw : Double) : Double := fclamp pw (lit 1 10000) (lit 9999 10000)

/-- The naive triangle that shapes 1, 10 and 11 start from (R313, R322, R323). -/
def naiveTriangle (t : Double) : Double :=
  let y := fmul k4 t
  if fle k3 y then fsub y k4 else if flt fone y then fsub k2 y else y

/-- Clip to [-1, 1]: `max(-1.0, min(1.0, y))` (R322, R323). -/
def clip (y : Double) : Double := fmax (fneg fone) (fmin fone y)

/-- SINE (R312). -/
def shapeSine (t : Double) : Double := sin64 (fmul twoPi t)

/-- TRIANGLE (R313). -/
def shapeTriangle (t dt : Double) : Double :=
  let t1 := fr (fadd t quarter)
  let t2 := fr (fadd t threeQuarters)
  let y0 := fmul t k4
  let y := if fle k3 y0 then fsub y0 k4 else if flt fone y0 then fsub k2 y0 else y0
  fadd y (fmul (fmul k4 dt) (fsub (blamp t1 dt) (blamp t2 dt)))

/-- SQUARE (R314). -/
def shapeSquare (t dt : Double) : Double :=
  let t2 := fr (fadd t half)
  let y := if flt t half then fone else fneg fone
  fadd y (fsub (blep t dt) (blep t2 dt))

/-- SAWTOOTH (R315). -/
def shapeSawtooth (t dt : Double) : Double :=
  let t1 := fr (fadd t half)
  let y := fsub (fmul k2 t1) fone
  fsub y (blep t1 dt)

/-- RAMP (R316). -/
def shapeRamp (t dt : Double) : Double :=
  let t1 := fr t
  let y := fsub fone (fmul k2 t1)
  fadd y (blep t1 dt)

/-- RECTANGLE (R317). -/
def shapeRectangle (t dt pw : Double) : Double :=
  let t2 := fr (fsub (fadd t fone) pw)
  let y0 := fmul (fneg k2) pw
  let y := if flt t pw then fadd y0 k2 else y0
  fadd y (fsub (blep t dt) (blep t2 dt))

/-- HALF_WAVE_RECTIFIED_SINE (R318). -/
def shapeHalfWave (t dt : Double) : Double :=
  let t2 := fr (fadd t half)
  let y := if flt t half then fsub (fmul k2 (sin64 (fmul twoPi t))) (fdiv k2 fpi) else fneg (fdiv k2 fpi)
  fadd y (fmul (fmul twoPi dt) (fadd (blamp t dt) (blamp t2 dt)))

/-- FULL_WAVE_RECTIFIED_SINE (R319). -/
def shapeFullWave (t dt : Double) : Double :=
  let t1 := fr (fadd t quarter)
  let y := fsub (fmul k2 (sin64 (fmul fpi t1))) (fdiv k4 fpi)
  fadd y (fmul (fmul twoPi dt) (blamp t1 dt))

/-- MODIFIED_TRIANGLE (R320), p the clamped pulse width. -/
def shapeModifiedTriangle (t dt p : Double) : Double :=
  let t1 := fr (fadd t (fmul half p))
  let t2 := fr (fsub (fadd t fone) (fmul half p))
  let y0 := fmul t k2
  let y :=
    if fle (fsub k2 p) y0 then fdiv (fsub y0 k2) p
    else if fle p y0 then fsub fone (fdiv (fsub y0 p) (fsub fone p))
    else fdiv y0 p
  fadd y (fmul (fdiv dt (fsub p (fmul p p))) (fsub (blamp t1 dt) (blamp t2 dt)))

/-- MODIFIED_SQUARE (R321; log 16). -/
def shapeModifiedSquare (t dt pw : Double) : Double :=
  let t1 := fr (fadd (fadd t (lit 875 1000)) (fmul quarter (fsub pw half)))
  let t2 := fr (fadd (fadd t (lit 375 1000)) (fmul quarter (fsub pw half)))
  let y0 := if flt t1 half then fone else fneg fone
  let y1 := fadd y0 (fsub (blep t1 dt) (blep t2 dt))
  let u1 := fr (fadd t1 (fmul half (fsub fone pw)))
  let u2 := fr (fadd t2 (fmul half (fsub fone pw)))
  let y2 := fadd y1 (if flt u1 half then fone else fneg fone)
  let y3 := fadd y2 (fsub (blep u1 dt) (blep u2 dt))
  fmul half y3

/-- One pair of slope corrections of the trapezoids: `y + (g * (blamp(t1, dt) - blamp(fr(t1 + 0.5), dt)))`
(R322, R323). -/
def trapezoidCorrect (y g t1 dt : Double) : Double :=
  let t2 := fr (fadd t1 half)
  fadd y (fmul g (fsub (blamp t1 dt) (blamp t2 dt)))

/-- TRAPEZOID_FIXED (R322). -/
def shapeTrapezoidFixed (t dt : Double) : Double :=
  let y0 := clip (fmul k2 (naiveTriangle t))
  let g := fmul k4 dt
  let y1 := trapezoidCorrect y0 g (fr (fadd t (lit 125 1000))) dt
  trapezoidCorrect y1 g (fr (fadd t (lit 375 1000))) dt

/-- TRAPEZOID_VARIABLE (R323), p the clamped pulse width. -/
def shapeTrapezoidVariable (t dt p : Double) : Double :=
  let scale := fdiv fone (fsub fone p)
  let y0 := clip (fmul scale (naiveTriangle t))
  let g := fmul (fmul scale k2) dt
  let y1 := trapezoidCorrect y0 g (fr (fsub (fadd t quarter) (fmul quarter p))) dt
  trapezoidCorrect y1 g (fr (fadd (fadd t quarter) (fmul quarter p))) dt

/-- TRIANGULAR_PULSE (R324), p the clamped pulse width. -/
def shapeTriangularPulse (t dt p : Double) : Double :=
  let t1 := fr (fadd (fadd t threeQuarters) (fmul half p))
  let y :=
    if fle p t1 then fneg p
    else
      let y0 := fmul k4 t1
      if fle (fmul k2 p) y0 then fsub (fsub k4 (fdiv y0 p)) p else fsub (fdiv y0 p) p
  let t2 := fr (fsub (fadd t1 fone) (fmul half p))
  let t3 := fr (fsub (fadd t1 fone) p)
  fadd y (fmul (fdiv (fmul k2 dt) p)
    (fadd (fsub (blamp t1 dt) (fmul k2 (blamp t2 dt))) (blamp t3 dt)))

/-- The shape a code selects (R300, R304); codes 13 to 15 are silence. -/
def shapeOf (code : Nat) (t dt pw : Double) : Double :=
  match code with
  | 0 => shapeSine t
  | 1 => shapeTriangle t dt
  | 2 => shapeSquare t dt
  | 3 => shapeSawtooth t dt
  | 4 => shapeRamp t dt
  | 5 => shapeRectangle t dt pw
  | 6 => shapeHalfWave t dt
  | 7 => shapeFullWave t dt
  | 8 => shapeModifiedTriangle t dt (pulseWidthClamped pw)
  | 9 => shapeModifiedSquare t dt pw
  | 10 => shapeTrapezoidFixed t dt
  | 11 => shapeTrapezoidVariable t dt (pulseWidthClamped pw)
  | 12 => shapeTriangularPulse t dt (pulseWidthClamped pw)
  | _ => fzero

/-- `Shape(code, t, dt, pw)` (R304) with the sine fallback of R310 (log 7). -/
def shape (code : Nat) (t dt pw : Double) : Double :=
  if fle quarter dt && Config.pbSineFallback then shapeSine t else shapeOf code t dt pw

/-- The parameter values of one PBO frame (R302). -/
structure PboParams where
  f : Double
  amp : Double
  d : Double
  pw : Double
  pm : Double
  pmd : Double
  sr : Double
  deriving DecidableEq, Repr

/-- The parameters of frame i, and the draws used (R302). -/
def pboParams (s : State) (i : Nat) : PboParams × Nat :=
  let f := param s .pboFrequency i s.draws
  let amp := param s .pboAmplitude i f.2
  let d := param s .pboDetune i amp.2
  let pw := param s .pboPulseWidth i d.2
  let pm := param s .pboPhaseMod i pw.2
  let pmd := param s .pboPhaseModDepth i pm.2
  ({ f := f.1, amp := amp.1, d := d.1, pw := pw.1, pm := pm.1, pmd := pmd.1, sr := widen s.sampleRate }, pmd.2)

/-- The per-sample increment dt, in cycles per sample (R302, R303). -/
def PboParams.dt (q : PboParams) : Double := fdiv (fmul q.f (pow264 (fdiv q.d (ofInt 1200)))) q.sr

/-- The frame's value at phase t: the amplitude is applied last (R302, R304). -/
def pboSample (code : Nat) (t : Double) (q : PboParams) : Double := fmul q.amp (shape code t q.dt q.pw)

/-- The phase advance (R302, R305). -/
def pboAdvance (t : Double) (q : PboParams) : Double :=
  wrap2 (fadd t (fmul q.dt (fadd fone (fmul q.pm q.pmd))))

/-- `UnitFrame(PBO, i)` (R302). -/
def pboFrame (i : Nat) (s : State) : State :=
  let q := pboParams s i
  let s1 := State.putFrame .pboOut i (pboSample s.pbo.shape.toNat s.pbo.t q.1) { s with draws := q.2 }
  let t := storeDouble (pboAdvance s.pbo.t q.1) s1.draws
  { s1 with pbo := { s1.pbo with t := t.1 }, draws := t.2 }

/-- PBO.PROCESS N (R301). -/
def execPboProcess (n : Nat) (s : State) : Answer := .next (process .pbo pboFrame n s)

end Sys2Proof.Machine
end

