-- ==== Sys2Proof/Machine/Wto.lean ====
section
/-! DEFINITION. WTO.PROCESS (42_wavetable_oscillator.md): phase accumulator, linear interpolator, multi-table mixer,
pulse-width second read, unison. -/

namespace Sys2Proof.Machine

/-- `Increment(f, dc, pm, pmd, sr)` (R252). -/
def increment (f dc pm pmd sr : Double) : Double :=
  let ratio := pow264 (fdiv dc (ofInt 1200))
  let inc0 := fdiv (fmul f ratio) sr
  fmul inc0 (fadd fone (fmul pm pmd))

/-- `Wrap(x)` (R268). -/
def wrap (x : Double) : Double :=
  let q := fsub x (ffloor x)
  if fle fone q then fzero else q

/-- The table index from which the search goes on; `fuel` bounds the loop of R256. -/
def selectFrom (s : State) (t tables : Nat) (a : Double) : Nat → Nat → Nat
  | 0, k => k
  | fuel + 1, k =>
    if k + 1 < tables && fle (widen (s.topFreqOf t k)) a then selectFrom s t tables a fuel (k + 1) else k

/-- `Select(t, K, a)` (R256). -/
def select (s : State) (t tables : Nat) (a : Double) : Nat := selectFrom s t tables a tables 0

/-- The phase lies in [0, 1), where R258 gives the interpolation its meaning. -/
def phaseInRange (p : Double) : Bool := fle fzero p && flt p fone

/-- `Interp(t, k, p)` (R258, R259), and the draws used. R258 has no meaning for a phase outside [0, 1), which no run
reaches (R269): the sample is then a free value (log 8). -/
def interp (s : State) (t k : Nat) (p : Double) (draws : Nat) : Double × Nat :=
  if !phaseInRange p then (Config.freeDouble draws, draws + 1)
  else
    let pos := fmul p (ofInt Config.wtLen)
    let j0 := toIndex (ffloor pos)
    let frac := fsub pos (ffloor pos)
    let j1 := (j0 + 1) % Config.wtLen
    let r0 := loadWord s.mem (tableAddr t k j0) draws
    let r1 := loadWord s.mem (tableAddr t k j1) r0.2
    let s0 := widen r0.1
    let s1 := widen r1.1
    (fadd s0 (fmul (fsub s1 s0) frac), r1.2)

/-- `Blend(t, K, k, a, p, smp)` (R261), and the draws used. -/
def blend (s : State) (t tables k : Nat) (a p smp : Double) (draws : Nat) : Double × Nat :=
  let hi := widen (s.topFreqOf t k)
  let lo := fmul (lit 1 2) hi
  let alpha := fclamp (fdiv (fsub a lo) (fsub hi lo)) fzero fone
  if tables ≤ k + 1 then (smp, draws)
  else if !flt fzero hi then (smp, draws)
  else if feq alpha fzero then (smp, draws)
  else
    let r := interp s t (k + 1) p draws
    (fadd (fmul (fsub fone alpha) smp) (fmul alpha r.1), r.2)

/-- `Read(p, a)` (R254), and the draws used. -/
def readTable (s : State) (p a : Double) (draws : Nat) : Double × Nat :=
  let t := s.wto.type.toNat
  let tables := s.tables t
  if 4 < t then (fzero, draws)
  else if tables = 0 then (fzero, draws)
  else
    let k := select s t tables a
    let r := interp s t k p draws
    if s.wto.blend then blend s t tables k a p r.1 r.2 else r

/-- The parameter values of one WTO frame (R251). -/
structure WtoParams where
  f : Double
  d : Double
  pw : Double
  pm : Double
  pmd : Double
  sr : Double
  deriving DecidableEq, Repr

/-- The parameters of frame i, and the draws used (R251). -/
def wtoParams (s : State) (i : Nat) : WtoParams × Nat :=
  let f := param s .wtoFrequency i s.draws
  let d := param s .wtoDetune i f.2
  let pw := param s .wtoPulseWidth i d.2
  let pm := param s .wtoPhaseMod i pw.2
  let pmd := param s .wtoPhaseModDepth i pm.2
  ({ f := f.1, d := d.1, pw := pw.1, pm := pm.1, pmd := pmd.1, sr := widen s.sampleRate }, pmd.2)

/-- The sample of a voice at phase p and speed a, and the draws used (R251, R263). -/
def voiceSample (s : State) (p a pw : Double) (draws : Nat) : Double × Nat :=
  let r := readTable s p a draws
  if s.wto.pwm then
    let r2 := readTable s (wrap (fadd p pw)) a r.2
    (fsub r.1 r2.1, r2.2)
  else r

/-- What a voice answers: its sample, its new phase and the draws used. -/
structure VoiceResult where
  sample : Double
  phase : Double
  draws : Nat
  deriving DecidableEq, Repr

/-- `Voice(v, dc, f, pw, pm, pmd, sr)` (R251) from the voice's phase p. -/
def voice (s : State) (q : WtoParams) (p dc : Double) (draws : Nat) : VoiceResult :=
  let inc := increment q.f dc q.pm q.pmd q.sr
  let smp := voiceSample s p (fabs inc) q.pw draws
  let ph := storeDouble (wrap (fadd p inc)) smp.2
  { sample := smp.1, phase := ph.1, draws := ph.2 }

/-- The sum, the phases and the draws after some voices (R251, R265). -/
structure Voices where
  acc : Double
  phase : Vector Double 16
  draws : Nat
  deriving DecidableEq, Repr

/-- The detune offset `(-0.5 * s) + (v * step)` of voice v (R264). -/
def voiceOffset (spread step : Double) (v : Nat) : Double :=
  fadd (fmul (fneg (lit 1 2)) spread) (fmul (ofInt v) step)

/-- Voices 0 to n - 1, summed in increasing order from +0.0 (R265). -/
def voices (s : State) (q : WtoParams) (spread step : Double) (draws : Nat) : Nat → Voices
  | 0 => { acc := fzero, phase := s.wto.phase, draws := draws }
  | v + 1 =>
    let before := voices s q spread step draws v
    let r := voice s q (s.wto.phaseOf v) (fadd q.d (voiceOffset spread step v)) before.draws
    { acc := fadd before.acc r.sample, phase := before.phase.setIfInBounds v r.phase, draws := r.draws }

/-- The frame's value and the new phases (R251): voice 0 alone for a count of 0 or 1 (R266), the average of the voices
otherwise (R265). -/
def wtoMix (s : State) (i : Nat) : Voices :=
  let q := wtoParams s i
  let n := s.wto.unisonCount.toNat
  if n ≤ 1 then
    let r := voice s q.1 (s.wto.phaseOf 0) q.1.d q.2
    { acc := r.sample, phase := s.wto.phase.setIfInBounds 0 r.phase, draws := r.draws }
  else
    let spread := widen s.wto.unisonSpread
    let step := fdiv spread (ofInt (n - 1 : Nat))
    let r := voices s q.1 spread step q.2 n
    { r with acc := fmul r.acc (fdiv fone (ofInt n)) }

/-- `UnitFrame(WTO, i)` (R251). -/
def wtoFrame (i : Nat) (s : State) : State :=
  let r := wtoMix s i
  State.putFrame .wtoOut i r.acc { s with wto := { s.wto with phase := r.phase }, draws := r.draws }

/-- WTO.PROCESS N (R250). -/
def execWtoProcess (n : Nat) (s : State) : Answer := .next (process .wto wtoFrame n s)

end Sys2Proof.Machine
end

