-- ==== Sys2Proof/Machine/Bus.lean ====
section
/-! DEFINITION. BUS.READ and BUS.WRITE (40_common_and_lifecycle.md R181, R182) over the access primitives of
20_memory.md R104, and the CMD write that decodes and runs a command (R195). -/

namespace Sys2Proof.Machine

/-- CMD write (R194, R195): a legal word runs its command, an illegal one records ERR_CMD and does nothing else. No
command word decodes to a bus transaction. -/
def cmdWrite (w : Word) (s : State) : Answer :=
  match decodeCommand w with
  | .ok .nop => execNop s
  | .ok .initAll => execInitAll s
  | .ok .resetAll => execResetAll s
  | .ok .wtoInit => execWtoInit s
  | .ok .wtoReset => execWtoReset s
  | .ok (.wtoProcess n) => execWtoProcess n s
  | .ok .pboInit => execPboInit s
  | .ok .pboReset => execPboReset s
  | .ok (.pboProcess n) => execPboProcess n s
  | .ok .mlfInit => execMlfInit s
  | .ok .mlfReset => execMlfReset s
  | .ok (.mlfProcess n) => execMlfProcess n s
  | .ok .adsrInit => execAdsrInit s
  | .ok .adsrReset => execAdsrReset s
  | .ok (.adsrProcess n) => execAdsrProcess n s
  | .ok (.busRead _) => .next (raiseError .cmd s)
  | .ok (.busWrite _ _) => .next (raiseError .cmd s)
  | .error _ => .next (raiseError .cmd s)

/-- `MemRead(addr, 4)` (R104): the word the host receives, and the state after. -/
def memRead (a : Word) (s : State) : Word × State :=
  if !aligned a then (0x00000000, raiseError .align s)
  else
    match locate a.toNat with
    | none => (0x00000000, raiseError .addr s)
    | some l => ((readLoc s l).1, { s with draws := (readLoc s l).2 })

/-- `MemWrite(addr, 4, v)` (R104). -/
def memWrite (a v : Word) (s : State) : Answer :=
  if !aligned a then .next (raiseError .align s)
  else
    match locate a.toNat with
    | none => .next (raiseError .addr s)
    | some .cmd => cmdWrite v s
    | some l => .next (writeLoc v s l)

/-- BUS.READ (R181): the word read goes to the host (log 2). -/
def execBusRead (a : Word) (s : State) : Answer :=
  let r := memRead a s
  .next { r.2 with readData := r.1 }

/-- BUS.WRITE (R182). -/
def execBusWrite (a v : Word) (s : State) : Answer := memWrite a v s

end Sys2Proof.Machine
end

