-- ==== Sys2Proof/Machine/Dispatch.lean ====
section
/-! DEFINITION. exec: one arm per instruction, each one direct call of its meaning. -/

namespace Sys2Proof.Machine

/-- The effect of one instruction on the block. -/
def exec (i : Instr) (s : State) : Host.Outcome State Fault Refusal :=
  match i with
  | .busRead addr => Sys2Proof.Machine.execBusRead addr s
  | .busWrite addr data => Sys2Proof.Machine.execBusWrite addr data s
  | .nop => Sys2Proof.Machine.execNop s
  | .initAll => Sys2Proof.Machine.execInitAll s
  | .resetAll => Sys2Proof.Machine.execResetAll s
  | .wtoInit => Sys2Proof.Machine.execWtoInit s
  | .wtoReset => Sys2Proof.Machine.execWtoReset s
  | .wtoProcess n => Sys2Proof.Machine.execWtoProcess n s
  | .pboInit => Sys2Proof.Machine.execPboInit s
  | .pboReset => Sys2Proof.Machine.execPboReset s
  | .pboProcess n => Sys2Proof.Machine.execPboProcess n s
  | .mlfInit => Sys2Proof.Machine.execMlfInit s
  | .mlfReset => Sys2Proof.Machine.execMlfReset s
  | .mlfProcess n => Sys2Proof.Machine.execMlfProcess n s
  | .adsrInit => Sys2Proof.Machine.execAdsrInit s
  | .adsrReset => Sys2Proof.Machine.execAdsrReset s
  | .adsrProcess n => Sys2Proof.Machine.execAdsrProcess n s

end Sys2Proof.Machine
end

