-- ==== Sys2Proof/Machine/Step.lean ====
section
/-! DEFINITION. One step: the block takes the oldest event of the host and completes it (20_memory.md R111,
70_reset_and_hazards.md R496; log 1). -/

namespace Sys2Proof.Machine

/-- One step. With nothing issued the block waits and nothing changes (R484, R469). A transaction is decoded and run to
its end; the reset input resets the block (R480). -/
def step (s : State) : Host.Outcome State Fault Refusal :=
  match s.inbox with
  | [] => .next s
  | .transaction r :: rest => exec (decodeBus r) { s with inbox := rest }
  | .hardwareReset :: rest => .next (hardwareReset { s with inbox := rest })

/-- The transaction that carries a table row's bits: a command word (32 bits) goes in a BUS.WRITE to CMD (R195), a
longer row is itself a bus record (R148). -/
def tableRecord (nbits w : Nat) : BitVec 65 :=
  if nbits ≤ 32 then busRecord true cmdAddr (BitVec.ofNat 32 w) else BitVec.ofNat 65 w

/-- s with that instruction issued by the host as the very next event (log 1). -/
def State.withFetchWord (s : State) (nbits w : Nat) : State :=
  { s with inbox := .transaction (tableRecord nbits w) :: s.inbox }

end Sys2Proof.Machine
end

