-- ==== Sys2Proof/Safety.lean ====
section
/-! DEFINITION. The terms claims use: what a unit's command is, which part of the state a step may change, what every
safe state satisfies, and the values the frame rules give when every RAM word they read was written (10 R53). -/

namespace Sys2Proof.Machine

/-! ### the commands of a unit -/

/-- u.INIT (R197). -/
def UnitId.initCmd : UnitId → Instr
  | .wto => .wtoInit
  | .pbo => .pboInit
  | .mlf => .mlfInit
  | .adsr => .adsrInit

/-- u.RESET (R198). -/
def UnitId.resetCmd : UnitId → Instr
  | .wto => .wtoReset
  | .pbo => .pboReset
  | .mlf => .mlfReset
  | .adsr => .adsrReset

/-- u.PROCESS N (R202). -/
def UnitId.processCmd (u : UnitId) (n : Nat) : Instr :=
  match u with
  | .wto => .wtoProcess n
  | .pbo => .pboProcess n
  | .mlf => .mlfProcess n
  | .adsr => .adsrProcess n

/-- `UnitFrame(u, i)` (R251, R302, R361, R407). -/
def unitFrame (u : UnitId) (i : Nat) (s : State) : State :=
  match u with
  | .wto => wtoFrame i s
  | .pbo => pboFrame i s
  | .mlf => mlfFrame i s
  | .adsr => adsrFrame i s

/-- PROCESS runs its loop: the unit is initialized and, for the MLF and the ADSR, its input is connected (R202). -/
def UnitId.ready (u : UnitId) (s : State) : Bool :=
  match u with
  | .wto => s.status.initWto
  | .pbo => s.status.initPbo
  | .mlf => s.status.initMlf && s.mlf.inputConnected
  | .adsr => s.status.initAdsr && s.adsr.inputConnected

/-! ### the opcode map -/

/-- A row of R146; `op` is the instruction its words stand for, given w[15:0]. -/
structure CommandRow where
  mnemonic : String
  matchBits : BitVec 32
  mask : BitVec 32
  op : Nat → Instr

/-- The complete map of R146. -/
def commandRows : List CommandRow :=
  [ ⟨"NOP", 0x00000000, 0xFFFFFFFF, fun _ => .nop⟩,
    ⟨"INIT_ALL", 0x01000000, 0xFFFFFFFF, fun _ => .initAll⟩,
    ⟨"RESET_ALL", 0x02000000, 0xFFFFFFFF, fun _ => .resetAll⟩,
    ⟨"WTO.INIT", 0x11000000, 0xFFFFFFFF, fun _ => .wtoInit⟩,
    ⟨"WTO.RESET", 0x12000000, 0xFFFFFFFF, fun _ => .wtoReset⟩,
    ⟨"WTO.PROCESS", 0x13000000, 0xFFFF0000, fun n => .wtoProcess n⟩,
    ⟨"PBO.INIT", 0x21000000, 0xFFFFFFFF, fun _ => .pboInit⟩,
    ⟨"PBO.RESET", 0x22000000, 0xFFFFFFFF, fun _ => .pboReset⟩,
    ⟨"PBO.PROCESS", 0x23000000, 0xFFFF0000, fun n => .pboProcess n⟩,
    ⟨"MLF.INIT", 0x31000000, 0xFFFFFFFF, fun _ => .mlfInit⟩,
    ⟨"MLF.RESET", 0x32000000, 0xFFFFFFFF, fun _ => .mlfReset⟩,
    ⟨"MLF.PROCESS", 0x33000000, 0xFFFF0000, fun n => .mlfProcess n⟩,
    ⟨"ADSR.INIT", 0x41000000, 0xFFFFFFFF, fun _ => .adsrInit⟩,
    ⟨"ADSR.RESET", 0x42000000, 0xFFFFFFFF, fun _ => .adsrReset⟩,
    ⟨"ADSR.PROCESS", 0x43000000, 0xFFFF0000, fun n => .adsrProcess n⟩ ]

/-- A word w selects a row when `(w & mask) == match` (R146). -/
def CommandRow.selects (r : CommandRow) (w : BitVec 32) : Bool := w &&& r.mask == r.matchBits

/-! ### the parameters, as R185 declares them -/

/-- A row of R185: the unit and the parameter, the byte addresses of its scalar register (R37, R42, R43, R44), its
per-frame RAM (R51) and its unit's PARAM_MODE register, its mode bit, its default word, and its range. -/
structure ParamRow where
  unit : UnitId
  name : Param
  register : Word
  ram : Nat
  modeRegister : Word
  bit : Nat
  default : Word
  min : Int
  max : Int

/-- The seventeen declarations of R185. -/
def paramRows : List ParamRow :=
  [ ⟨.wto, .wtoFrequency, 0x110, 0x00010000, 0x10C, 0, 0x43DC0000, 0, 100000⟩,
    ⟨.wto, .wtoDetune, 0x114, 0x00011000, 0x10C, 1, 0x00000000, -4800, 4800⟩,
    ⟨.wto, .wtoPulseWidth, 0x118, 0x00012000, 0x10C, 2, 0x3F000000, 0, 1⟩,
    ⟨.wto, .wtoPhaseMod, 0x11C, 0x00013000, 0x10C, 3, 0x00000000, -1, 1⟩,
    ⟨.wto, .wtoPhaseModDepth, 0x120, 0x00014000, 0x10C, 4, 0x00000000, 0, 100⟩ ]
  ++ [ ⟨.pbo, .pboFrequency, 0x208, 0x00016000, 0x204, 0, 0x43DC0000, 0, 100000⟩,
    ⟨.pbo, .pboAmplitude, 0x20C, 0x00017000, 0x204, 1, 0x3F800000, 0, 100000⟩,
    ⟨.pbo, .pboDetune, 0x210, 0x00018000, 0x204, 2, 0x00000000, -4800, 4800⟩,
    ⟨.pbo, .pboPulseWidth, 0x214, 0x00019000, 0x204, 3, 0x3F000000, 0, 1⟩,
    ⟨.pbo, .pboPhaseMod, 0x218, 0x0001A000, 0x204, 4, 0x00000000, -1, 1⟩,
    ⟨.pbo, .pboPhaseModDepth, 0x21C, 0x0001B000, 0x204, 5, 0x00000000, 0, 100⟩ ]
  ++ [ ⟨.mlf, .mlfCutoff, 0x308, 0x0001D000, 0x304, 0, 0x469C4000, 0, 20000⟩,
    ⟨.mlf, .mlfResonance, 0x30C, 0x0001E000, 0x304, 1, 0x00000000, 0, 3⟩,
    ⟨.mlf, .mlfDrive, 0x310, 0x0001F000, 0x304, 2, 0x3F800000, 0, 10⟩,
    ⟨.mlf, .mlfCutoffB, 0x314, 0x00020000, 0x304, 3, 0x3F800000, 0, 1⟩,
    ⟨.mlf, .mlfResonanceB, 0x318, 0x00021000, 0x304, 4, 0x3F800000, 0, 4⟩ ]
  ++ [ ⟨.adsr, .adsrGate, 0x408, 0x00024000, 0x404, 0, 0x00000000, 0, 1⟩ ]

/-! ### the address map, as the tables of 10_state.md list it -/

/-- The byte address of a mapped word (R102): R32, R37, R42, R43, R44, R48, R49, R51, R54. -/
def InMap (a : Nat) : Prop :=
  a % 4 = 0 ∧
    (a ≤ 0x014
      ∨ (0x100 ≤ a ∧ a ≤ 0x120) ∨ (0x180 ≤ a ∧ a ≤ 0x1FC)
      ∨ (0x200 ≤ a ∧ a ≤ 0x21C) ∨ (0x240 ≤ a ∧ a ≤ 0x244)
      ∨ (0x300 ≤ a ∧ a ≤ 0x318) ∨ (0x340 ≤ a ∧ a ≤ 0x3DC)
      ∨ (0x400 ≤ a ∧ a ≤ 0x420) ∨ a = 0x440 ∨ (0x448 ≤ a ∧ a ≤ 0x47C)
      ∨ (0x800 ≤ a ∧ a ≤ 0x810) ∨ (0x900 ≤ a ∧ a ≤ 0xA3C)
      ∨ (0x00010000 ≤ a ∧ a < 0x00027000 ∧ a % 0x1000 < 0x200)
      ∨ (0x00100000 ≤ a ∧ a < 0x00240000 ∧ a % 0x4000 < 0x2000))

/-- The byte address of a RAM word (R51, R54). -/
def InRam (a : Nat) : Prop := InMap a ∧ 0x00010000 ≤ a

/-- The byte address of a read-only register word (R183): CORE_ID, CORE_VERSION, CORE_CFG and the state registers. -/
def InReadOnly (a : Nat) : Prop :=
  a = 0x000 ∨ a = 0x004 ∨ a = 0x008
    ∨ (a % 4 = 0 ∧ ((0x180 ≤ a ∧ a ≤ 0x1FC) ∨ (0x240 ≤ a ∧ a ≤ 0x244) ∨ (0x340 ≤ a ∧ a ≤ 0x3DC) ∨ a = 0x440
      ∨ (0x448 ≤ a ∧ a ≤ 0x47C)))

/-! ### what a step leaves alone -/

/-- Everything outside the four units, the RAMs, STATUS and the draws is unchanged. -/
def GlobalsKept (s t : State) : Prop :=
  t.sampleRate = s.sampleRate ∧ t.numTables = s.numTables ∧ t.topFreq = s.topFreq ∧ t.inbox = s.inbox
    ∧ t.readData = s.readData

/-- The four units are unchanged. -/
def UnitsKept (s t : State) : Prop := t.wto = s.wto ∧ t.pbo = s.pbo ∧ t.mlf = s.mlf ∧ t.adsr = s.adsr

/-- Of the four units, only state variables of unit u may differ: its registers, and for the ADSR its coefficients,
are unchanged, and so are the other three units. -/
def OnlyStateOf (u : UnitId) (s t : State) : Prop :=
  match u with
  | .wto => { t.wto with phase := s.wto.phase } = s.wto ∧ t.pbo = s.pbo ∧ t.mlf = s.mlf ∧ t.adsr = s.adsr
  | .pbo => t.wto = s.wto ∧ { t.pbo with t := s.pbo.t } = s.pbo ∧ t.mlf = s.mlf ∧ t.adsr = s.adsr
  | .mlf => t.wto = s.wto ∧ t.pbo = s.pbo
      ∧ { t.mlf with v := s.mlf.v, dv := s.mlf.dv, tv := s.mlf.tv, bin := s.mlf.bin, bout := s.mlf.bout } = s.mlf
      ∧ t.adsr = s.adsr
  | .adsr => t.wto = s.wto ∧ t.pbo = s.pbo ∧ t.mlf = s.mlf
      ∧ { t.adsr with
          phase := s.adsr.phase, level := s.adsr.level, prevGate := s.adsr.prevGate
          releaseCompleted := s.adsr.releaseCompleted } = s.adsr

/-- Every byte of memory outside output frames 0 to n - 1 of unit u reads as before. -/
def OnlyFrames (u : UnitId) (n : Nat) (s t : State) : Prop :=
  ∀ a, a < ramAddr u.out 0 ∨ ramAddr u.out 0 + 4 * n ≤ a → t.mem.get a = s.mem.get a

/-- STATUS with NONSILENT_u set to b and nothing else changed (R203). -/
def Status.withNonsilent (st : Status) (u : UnitId) (b : Bool) : Status :=
  match u with
  | .wto => { st with nonsilentWto := b }
  | .pbo => { st with nonsilentPbo := b }
  | .mlf => { st with nonsilentMlf := b }
  | .adsr => { st with nonsilentAdsr := b }

/-- STATUS with the sticky bit and the code of an error recorded and nothing else changed (R452, R453). -/
def Status.withError (st : Status) : ErrCode → Status
  | .cmd => { st with errCmd := true, lastErr := 1 }
  | .len => { st with errLen := true, lastErr := 2 }
  | .cfg => { st with errCfg := true, lastErr := 3 }
  | .addr => { st with errAddr := true, lastErr := 4 }
  | .align => { st with errAlign := true, lastErr := 5 }

/-- The sticky bit of an error (R453). -/
def Status.sticky (st : Status) : ErrCode → Bool
  | .cmd => st.errCmd
  | .len => st.errLen
  | .cfg => st.errCfg
  | .addr => st.errAddr
  | .align => st.errAlign

/-! ### values -/

/-- What a state variable holds after a value is stored in it: that value or, for a NaN, some NaN (R19). -/
def Stored (held value : Double) : Prop := held = value ∨ (isNaN held = true ∧ isNaN value = true)

/-- The RAM word at a holds the sample y: `f32(y)` or, for a NaN, some NaN (R19, R190). -/
def HoldsSample (m : Memory) (a : Nat) (y : Double) : Prop :=
  ∃ w, m.word? a = some w ∧ (w = f32 y ∨ (isNaN32 w = true ∧ isNaN y = true))

/-- The parameter's word at frame i: `none` when it would be read from a RAM word that was not written (R53, R186). -/
def State.rawParam (s : State) (p : Param) (i : Nat) : Option Word :=
  if (s.paramMode p.unit).getLsbD p.bit then s.mem.word? (ramAddr (.arr p) i) else some (s.scalar p)

/-- Every parameter of unit u has a written word at frame i. -/
def ParamsWritten (u : UnitId) (i : Nat) (s : State) : Prop :=
  ∀ p : Param, p.unit = u → (s.rawParam p i).isSome = true

/-- `Param(u, p, i)` (R186) when its word was written. -/
def State.value (s : State) (p : Param) (i : Nat) : Double :=
  let x := widen ((s.rawParam p i).getD 0)
  if isNaN x then ofInt p.min else fclamp x (ofInt p.min) (ofInt p.max)

/-! ### the wavetable oscillator's frame over written tables -/

/-- Every sample of the tables loaded for the selected type was written (R53). -/
def TablesWritten (s : State) : Prop :=
  s.wto.type.toNat ≤ 4 → ∀ k, k < s.tables s.wto.type.toNat → ∀ j, j < 2048 →
    (s.mem.word? (tableAddr s.wto.type.toNat k j)).isSome = true

/-- `widen(Table(t, k)[j])` for a written word. -/
def State.sample (s : State) (t k j : Nat) : Double := widen ((s.mem.word? (tableAddr t k j)).getD 0)

/-- `Interp(t, k, p)` (R258, R259) with j0 given. -/
def State.interpAt (s : State) (t k : Nat) (p : Double) : Double :=
  let pos := fmul p (ofInt 2048)
  let j0 := toIndex (ffloor pos)
  let s0 := s.sample t k j0
  let s1 := s.sample t k ((j0 + 1) % 2048)
  fadd s0 (fmul (fsub s1 s0) (fsub pos (ffloor pos)))

/-- k is the table that R256 selects at increment a: the first one whose topFreq is above a, and the last one when no
table's is; a NaN topFreq stops the search. -/
def State.Selects (s : State) (a : Double) (k : Nat) : Prop :=
  let t := s.wto.type.toNat
  k < s.tables t ∧ (∀ j, j < k → fle (widen (s.topFreqOf t j)) a = true) ∧
    (k + 1 = s.tables t ∨ fle (widen (s.topFreqOf t k)) a = false)

/-- `Read(p, a)` (R254 to R262) with the selected table k given. -/
def State.readAt (s : State) (k : Nat) (p a : Double) : Double :=
  let t := s.wto.type.toNat
  let tables := s.tables t
  if 4 < t ∨ tables = 0 then fzero
  else
    let smp := s.interpAt t k p
    let hi := widen (s.topFreqOf t k)
    let lo := fmul (lit 1 2) hi
    let alpha := fclamp (fdiv (fsub a lo) (fsub hi lo)) fzero fone
    if s.wto.blend = false ∨ tables ≤ k + 1 ∨ flt fzero hi = false ∨ feq alpha fzero = true then smp
    else fadd (fmul (fsub fone alpha) smp) (fmul alpha (s.interpAt t (k + 1) p))

/-- The increment of a voice at detune dc, R252's formula over the frame's parameters (R251, R253). -/
def State.voiceIncrement (s : State) (i : Nat) (dc : Double) : Double :=
  fmul
    (fdiv (fmul (s.value .wtoFrequency i) (pow264 (fdiv dc (ofInt 1200)))) (widen s.sampleRate))
    (fadd fone (fmul (s.value .wtoPhaseMod i) (s.value .wtoPhaseModDepth i)))

/-- The sample of voice v at detune dc (R251, R257, R263), with its selected table k given. -/
def State.voiceAt (s : State) (i v k : Nat) (dc : Double) : Double :=
  let a := fabs (s.voiceIncrement i dc)
  let p := s.wto.phaseOf v
  let y := s.readAt k p a
  if s.wto.pwm then fsub y (s.readAt k (wrap (fadd p (s.value .wtoPulseWidth i))) a) else y

/-- The phase of voice v after frame i (R251, R268). -/
def State.phaseAfter (s : State) (i v : Nat) (dc : Double) : Double :=
  wrap (fadd (s.wto.phaseOf v) (s.voiceIncrement i dc))

/-- The detune of voice v of n at frame i (R264, R266). -/
def State.voiceDetune (s : State) (i v : Nat) : Double :=
  let n := s.wto.unisonCount.toNat
  let d := s.value .wtoDetune i
  if n ≤ 1 then d
  else
    let spread := widen s.wto.unisonSpread
    fadd d (fadd (fmul (fneg (lit 1 2)) spread) (fmul (ofInt v) (fdiv spread (ofInt (n - 1 : Nat)))))

/-- The frame's value (R251, R265, R266): voice 0, or the sum of the voices in increasing order times 1.0 / n; `sel v`
is the table selected for voice v. -/
def State.wtoValue (s : State) (i : Nat) (sel : Nat → Nat) : Double :=
  let n := s.wto.unisonCount.toNat
  if n ≤ 1 then s.voiceAt i 0 (sel 0) (s.voiceDetune i 0)
  else
    fmul ((List.range n).foldl (fun acc v => fadd acc (s.voiceAt i v (sel v) (s.voiceDetune i v))) fzero)
      (fdiv fone (ofInt n))

/-! ### what every safe state satisfies -/

/-- The registers hold legal values: the WARL rules of R34, R39, R40, R45, R48, and LAST_ERR names a recorded error
exactly while one is recorded (R453, R461). -/
structure RegistersLegal (s : State) : Prop where
  sampleRate : isFinite (widen s.sampleRate) = true ∧ fle fone (widen s.sampleRate) = true
  unisonCount : s.wto.unisonCount.toNat ≤ 16
  unisonSpread : Between (ofInt (-4800)) (widen s.wto.unisonSpread) (ofInt 4800)
  times : isNaN32 s.adsr.attackTime = false ∧ isNaN32 s.adsr.decayTime = false
    ∧ isNaN32 s.adsr.sustainTime = false ∧ isNaN32 s.adsr.releaseTime = false
  attackLevel : Between fzero (widen s.adsr.attackLevel) fone
  sustainLevel : Between fzero (widen s.adsr.sustainLevel) fone
  numTables : ∀ t, s.tables t ≤ 16
  lastErr : s.status.lastErr.toNat ≤ 5
    ∧ (s.status.lastErr = 0 ↔ ∀ e, s.status.sticky e = false)

/-- Every WTO phase lies in [0, 1) and is no -0.0 (R55, R268). -/
def WtoPhasesInRange (s : State) : Prop :=
  ∀ v, fsign (s.wto.phaseOf v) = false ∧ Between fzero (s.wto.phaseOf v) fone ∧ s.wto.phaseOf v ≠ fone

/-- The PBO phase lies in [0, 1] (R306). -/
def PboPhaseInRange (s : State) : Prop := Between fzero s.pbo.t fone

/-- The ADSR level is +0.0 in IDLE (R412). -/
def AdsrIdleIsZero (s : State) : Prop := s.adsr.phase = .idle → s.adsr.level = fzero

/-- The six coefficients are those of the registers as they stand (R403, R405). -/
def CoefficientsFollow (s : State) : Prop :=
  s.adsr.coefs = coefficients s.sampleRate s.adsr.sustainLevel s.adsr.attackTime s.adsr.decayTime s.adsr.releaseTime

/-- The numeric invariant of a safe run. -/
structure Safe (s : State) : Prop where
  memory : s.mem.wf = true
  registers : RegistersLegal s
  wtoPhases : WtoPhasesInRange s
  pboPhase : PboPhaseInRange s
  adsrIdle : AdsrIdleIsZero s
  coefficients : CoefficientsFollow s

/-- A safe step: it ends in a next state, and that state is safe. -/
def SafeStep (s : State) : Prop := ∃ t, step s = .next t ∧ Safe t

/-! ### agreement of two states, for isolation -/

/-- The addresses of the RAM words unit u reads (R116): its parameter and input RAMs and, for the WTO, the tables. -/
def UnitId.reads (u : UnitId) (a : Nat) : Prop :=
  match u with
  | .wto => (0x00010000 ≤ a ∧ a < 0x00015000) ∨ (0x00100000 ≤ a ∧ a < 0x00240000)
  | .pbo => 0x00016000 ≤ a ∧ a < 0x0001C000
  | .mlf => 0x0001D000 ≤ a ∧ a < 0x00023000
  | .adsr => 0x00024000 ≤ a ∧ a < 0x00026000

/-- Unit u is the same in both states. -/
def UnitAgrees (u : UnitId) (s1 s2 : State) : Prop :=
  match u with
  | .wto => s1.wto = s2.wto
  | .pbo => s1.pbo = s2.pbo
  | .mlf => s1.mlf = s2.mlf
  | .adsr => s1.adsr = s2.adsr

/-- Two states agree on all that unit u may depend on: its own registers and state, INIT_u, SAMPLE_RATE, the RAM words
it reads, for the WTO the table descriptors, and the free values still to be drawn. -/
def AgreesFor (u : UnitId) (s1 s2 : State) : Prop :=
  UnitAgrees u s1 s2 ∧ s1.status.init u = s2.status.init u ∧ s1.sampleRate = s2.sampleRate ∧ s1.draws = s2.draws
    ∧ (∀ a, u.reads a → s1.mem.get a = s2.mem.get a)
    ∧ (u = .wto → s1.numTables = s2.numTables ∧ s1.topFreq = s2.topFreq)

end Sys2Proof.Machine
end

