-- ==== Sys2Proof/Certificates/Slice0/Obligations.lean ====
section
/-! DEFINITION. The statements for the provers. `R<n>` is the rule of spec/ a statement formalises. -/

open Sys2Proof Sys2Proof.Machine

/-! ### encoding -/

/-- Every well-formed instruction, at every operand its encoding admits, is decoded from its own encoding. -/
def Obligations.DecodeInvertsEncode : Prop :=
  ∀ i : Instr, WellFormed i = true → decode (encode i) = .ok i

/-- A word or record that decodes is the encoding of what it decodes to, except that the data bits of a BUS.READ
record, which carry the block's answer, are not part of the instruction (log 11). -/
def Obligations.EncodeInvertsDecode : Prop :=
  (∀ (w : BitVec 32) (i : Instr), decode (.cmd w) = .ok i → WellFormed i = true ∧ encode i = .cmd w) ∧
  (∀ r : BitVec 65, r.getLsbD 64 = true → encode (decodeBus r) = .bus r) ∧
  (∀ r : BitVec 65, r.getLsbD 64 = false → encode (decodeBus r) = .bus (r.extractLsb' 32 33 ++ (0 : BitVec 32)))

/-- R145, R146: the fifteen rows. At most one row selects a word, one does exactly when the word is legal, and the word
then decodes to the row's instruction with N = w[15:0]. -/
def Obligations.CommandMap : Prop :=
  ∀ w : BitVec 32,
    (commandRows.filter fun r => r.selects w).length ≤ 1 ∧
    (legalCommand w = true ↔ ∃ r ∈ commandRows, r.selects w = true) ∧
    (∀ r ∈ commandRows, r.selects w = true → decode (.cmd w) = .ok (r.op (w.extractLsb' 0 16).toNat))

/-- A few words written out from R140 to R148 decode to the instruction they stand for. -/
def Obligations.EncodingExamples : Prop :=
  decode (.cmd 0b0000_0001_00000000_0000000000000000#32) = .ok .initAll ∧
  decode (.cmd 0b0001_0011_00000000_0000000000000100#32) = .ok (.wtoProcess 4) ∧
  decode (.cmd 0b0010_0010_00000000_0000000000000000#32) = .ok .pboReset ∧
  decode (.cmd 0b0011_0011_00000000_0000000010000000#32) = .ok (.mlfProcess 128) ∧
  decode (.cmd 0b0100_0001_00000000_0000000000000000#32) = .ok .adsrInit ∧
  decode (.bus 0b0_00000000000000000000000000010100_00000000000000000000000000000000#65) = .ok (.busRead 0x14) ∧
  decode (.bus 0b1_00000000000000000000000000010000_00010001000000000000000000000000#65)
    = .ok (.busWrite 0x10 0x11000000)

/-! ### the machine takes one event at a time -/

/-- A step takes the oldest event of the host. A transaction is decoded and that instruction executed, a CMD write of a
legal word executes the word's own command, and with nothing issued nothing changes (R469, R484: the block waits). The
queue is the model's form of the host (log 1), and that the write of a command's word and the command are one meaning is
the model's reading of R195 (log 12, DEDUCED). -/
def Obligations.StepRunsDecoded : Prop :=
  (∀ (s : State) (r : BitVec 65) (rest : List HostEvent) (i : Instr), s.inbox = .transaction r :: rest →
    decode (.bus r) = .ok i → step s = exec i { s with inbox := rest }) ∧
  (∀ (s : State) (w : BitVec 32) (rest : List HostEvent) (i : Instr),
    s.inbox = .transaction (busRecord true 0x10 w) :: rest → decode (.cmd w) = .ok i →
    step s = exec i { s with inbox := rest }) ∧
  (∀ s : State, s.inbox = [] → step s = .next s)

/-- R450, R193: no step ever stops the machine. -/
def Obligations.StepAlwaysCompletes : Prop := ∀ s : State, ∃ t, step s = .next t

/-- The words software reads after hardware reset (R32, R37, R42, R43, R44, R48, R49), but for the coefficients. -/
def Obligations.ResetValues : Prop :=
  (∀ q ∈ ([ (0x000, 0x4C534331), (0x004, 0x00000007), (0x008, 0x1010B080), (0x00C, 0x473B8000), (0x010, 0),
      (0x014, 0), (0x100, 0), (0x104, 0), (0x108, 0), (0x10C, 0), (0x110, 0x43DC0000), (0x114, 0),
      (0x118, 0x3F000000), (0x11C, 0), (0x120, 0), (0x200, 0), (0x204, 0), (0x208, 0x43DC0000),
      (0x20C, 0x3F800000), (0x210, 0), (0x214, 0x3F000000), (0x218, 0), (0x21C, 0), (0x240, 0), (0x244, 0),
      (0x300, 0), (0x304, 0), (0x308, 0x469C4000), (0x30C, 0), (0x310, 0x3F800000), (0x314, 0x3F800000),
      (0x318, 0x3F800000), (0x400, 0), (0x404, 0), (0x408, 0), (0x40C, 0x3C23D70A), (0x410, 0x3F800000),
      (0x414, 0x3C23D70A), (0x418, 0x7F800000), (0x41C, 0x3F000000), (0x420, 0x3C23D70A), (0x440, 0), (0x448, 0),
      (0x44C, 0) ] : List (Word × Word)),
    exec (.busRead q.1) State.reset = .next { State.reset with readData := q.2 }) ∧
  (∀ a : Word, a.toNat % 4 = 0 →
    ((0x180 ≤ a.toNat ∧ a.toNat ≤ 0x1FC) ∨ (0x340 ≤ a.toNat ∧ a.toNat ≤ 0x3DC) ∨
      (0x800 ≤ a.toNat ∧ a.toNat ≤ 0x810) ∨ (0x900 ≤ a.toNat ∧ a.toNat ≤ 0xA3C)) →
    exec (.busRead a) State.reset = .next { State.reset with readData := 0 }) ∧
  State.reset.adsr.coefs = coefficients 0x473B8000 0x3F000000 0x3C23D70A 0x3C23D70A 0x3C23D70A ∧
  State.reset.mem = []

/-- R480: the reset input puts every register and state variable at its reset value and leaves every RAM word
unwritten. The three fields of the model's own survive (log 9). -/
def Obligations.HardwareReset : Prop :=
  ∀ (s : State) (rest : List HostEvent), s.inbox = .hardwareReset :: rest →
    ∃ t, step s = .next t ∧ t.sampleRate = 0x473B8000 ∧ t.status.word = 0 ∧ t.wto = State.reset.wto ∧
      t.pbo = State.reset.pbo ∧ t.mlf = State.reset.mlf ∧ t.adsr = State.reset.adsr ∧
      (∀ k, t.tables k = 0) ∧ (∀ k j, t.topFreqOf k j = 0) ∧ (∀ a, t.mem.get a = none) ∧ t.inbox = rest ∧
      t.readData = s.readData ∧ t.draws = s.draws

/-! ### bus accesses -/

/-- R458: a misaligned read returns 0, a misaligned write is dropped, and both record ERR_ALIGN and nothing else. -/
def Obligations.MisalignedAccess : Prop :=
  ∀ (a v : Word) (s : State), a.toNat % 4 ≠ 0 →
    exec (.busRead a) s = .next { s with readData := 0, status := s.status.withError .align } ∧
    exec (.busWrite a v) s = .next { s with status := s.status.withError .align }

/-- R109, R457: at a word address outside the map a read returns 0, a write is dropped, and both record ERR_ADDR and
nothing else. -/
def Obligations.UnmappedAccess : Prop :=
  ∀ (a v : Word) (s : State), a.toNat % 4 = 0 → ¬ InMap a.toNat →
    exec (.busRead a) s = .next { s with readData := 0, status := s.status.withError .addr } ∧
    exec (.busWrite a v) s = .next { s with status := s.status.withError .addr }

/-- A read inside the map changes nothing but the word the host receives: a written RAM word or a register reads the
same again, and a RAM word that was never written is one free draw, the model's form of R53's unspecified pattern
(log 3). What each register word reads, by its address in R32, R37, R42, R43, R44, R48 and R49: STATUS its fields at
the bits of R35, the control words and ADSR_STATE theirs (R38, R42 to R44, R47), a 64-bit state variable its low word
and, 4 bytes on, its high word (R31), and every other register the word it holds. -/
def Obligations.ReadChangesNothing : Prop :=
  (∀ (a : Word) (s : State), InMap a.toNat →
    (InRam a.toNat → ∀ v, s.mem.word? a.toNat = some v →
      exec (.busRead a) s = .next { s with readData := v }) ∧
    (InRam a.toNat → s.mem.word? a.toNat = none →
      ∃ v, exec (.busRead a) s = .next { s with readData := v, draws := s.draws + 1 }) ∧
    (¬ InRam a.toNat → ∃ v, exec (.busRead a) s = .next { s with readData := v } ∧
      ∀ x y z, exec (.busRead a) { s with readData := x, draws := y, inbox := z }
        = .next { s with readData := v, draws := y, inbox := z })) ∧
  (∀ s : State, ∃ w : Word, exec (.busRead 0x014) s = .next { s with readData := w } ∧
    w.getLsbD 0 = s.status.errCmd ∧ w.getLsbD 1 = s.status.errLen ∧ w.getLsbD 2 = s.status.errCfg ∧
    w.getLsbD 3 = s.status.errAddr ∧ w.getLsbD 4 = s.status.errAlign ∧ w.extractLsb' 5 3 = 0 ∧
    w.getLsbD 8 = s.status.nonsilentWto ∧ w.getLsbD 9 = s.status.nonsilentPbo ∧
    w.getLsbD 10 = s.status.nonsilentMlf ∧ w.getLsbD 11 = s.status.nonsilentAdsr ∧ w.extractLsb' 12 4 = 0 ∧
    w.getLsbD 16 = s.status.initWto ∧ w.getLsbD 17 = s.status.initPbo ∧ w.getLsbD 18 = s.status.initMlf ∧
    w.getLsbD 19 = s.status.initAdsr ∧ w.extractLsb' 20 8 = 0 ∧ w.extractLsb' 28 4 = s.status.lastErr) ∧
  (∀ s : State, ∃ w : Word, exec (.busRead 0x100) s = .next { s with readData := w } ∧
    w.extractLsb' 0 4 = s.wto.type ∧ w.extractLsb' 4 4 = 0 ∧ w.getLsbD 8 = s.wto.blend ∧
    w.getLsbD 9 = s.wto.pwm ∧ w.extractLsb' 10 22 = 0) ∧
  (∀ s : State, ∃ w : Word, exec (.busRead 0x300) s = .next { s with readData := w } ∧
    w.getLsbD 0 = s.mlf.modelB ∧ w.getLsbD 1 = s.mlf.inputConnected ∧ w.extractLsb' 2 30 = 0) ∧
  (∀ s : State, ∃ w : Word, exec (.busRead 0x400) s = .next { s with readData := w } ∧
    w.getLsbD 0 = s.adsr.oneShot ∧ w.getLsbD 1 = s.adsr.inputConnected ∧ w.extractLsb' 2 30 = 0) ∧
  (∀ s : State, ∃ w : Word, exec (.busRead 0x440) s = .next { s with readData := w } ∧
    (s.adsr.phase = .idle → w.extractLsb' 0 3 = 0) ∧ (s.adsr.phase = .attack → w.extractLsb' 0 3 = 1) ∧
    (s.adsr.phase = .decay → w.extractLsb' 0 3 = 2) ∧ (s.adsr.phase = .sustain → w.extractLsb' 0 3 = 3) ∧
    (s.adsr.phase = .release → w.extractLsb' 0 3 = 4) ∧ w.extractLsb' 3 5 = 0 ∧
    w.getLsbD 8 = s.adsr.releaseCompleted ∧ w.getLsbD 9 = s.adsr.prevGate ∧ w.extractLsb' 10 22 = 0) ∧
  (∀ s : State, ∀ q ∈ ([ (0x000, 0x4C534331), (0x004, 0x00000007), (0x008, 0x1010B080), (0x00C, s.sampleRate),
      (0x010, 0), (0x104, s.wto.unisonCount), (0x108, s.wto.unisonSpread), (0x10C, s.wto.paramMode.setWidth 32),
      (0x110, s.wto.frequency), (0x114, s.wto.detune), (0x118, s.wto.pulseWidth), (0x11C, s.wto.phaseMod),
      (0x120, s.wto.phaseModDepth) ] : List (Word × Word)),
    exec (.busRead q.1) s = .next { s with readData := q.2 }) ∧
  (∀ s : State, ∀ q ∈ ([ (0x200, s.pbo.shape.setWidth 32), (0x204, s.pbo.paramMode.setWidth 32),
      (0x208, s.pbo.frequency), (0x20C, s.pbo.amplitude), (0x210, s.pbo.detune), (0x214, s.pbo.pulseWidth),
      (0x218, s.pbo.phaseMod), (0x21C, s.pbo.phaseModDepth), (0x304, s.mlf.paramMode.setWidth 32),
      (0x308, s.mlf.cutoff), (0x30C, s.mlf.resonance), (0x310, s.mlf.drive), (0x314, s.mlf.cutoffB),
      (0x318, s.mlf.resonanceB) ] : List (Word × Word)),
    exec (.busRead q.1) s = .next { s with readData := q.2 }) ∧
  (∀ s : State, ∀ q ∈ ([ (0x404, s.adsr.paramMode.setWidth 32), (0x408, s.adsr.gate), (0x40C, s.adsr.attackTime),
      (0x410, s.adsr.attackLevel), (0x414, s.adsr.decayTime), (0x418, s.adsr.sustainTime),
      (0x41C, s.adsr.sustainLevel), (0x420, s.adsr.releaseTime) ] : List (Word × Word)),
    exec (.busRead q.1) s = .next { s with readData := q.2 }) ∧
  (∀ s : State, ∀ q ∈ ([ (0x240, s.pbo.t), (0x448, s.adsr.level), (0x450, s.adsr.coefs.attackCoef),
      (0x458, s.adsr.coefs.attackBase), (0x460, s.adsr.coefs.decayCoef), (0x468, s.adsr.coefs.decayBase),
      (0x470, s.adsr.coefs.releaseCoef), (0x478, s.adsr.coefs.releaseBase) ] : List (Word × Double)),
    exec (.busRead q.1) s = .next { s with readData := q.2.extractLsb' 0 32 } ∧
    exec (.busRead (q.1 + 4)) s = .next { s with readData := q.2.extractLsb' 32 32 }) ∧
  (∀ (s : State) (v : Nat) (h : v < 16),
    exec (.busRead (BitVec.ofNat 32 (0x180 + 8 * v))) s =
      .next { s with readData := s.wto.phase[v].extractLsb' 0 32 } ∧
    exec (.busRead (BitVec.ofNat 32 (0x184 + 8 * v))) s =
      .next { s with readData := s.wto.phase[v].extractLsb' 32 32 }) ∧
  (∀ s : State, ∀ q ∈ ([ (0x340, s.mlf.v), (0x360, s.mlf.dv), (0x380, s.mlf.tv), (0x3A0, s.mlf.bin),
      (0x3C0, s.mlf.bout) ] : List (Nat × Vector Double 4)), ∀ (n : Nat) (h : n < 4),
    exec (.busRead (BitVec.ofNat 32 (q.1 + 8 * n))) s = .next { s with readData := q.2[n].extractLsb' 0 32 } ∧
    exec (.busRead (BitVec.ofNat 32 (q.1 + 4 + 8 * n))) s =
      .next { s with readData := q.2[n].extractLsb' 32 32 }) ∧
  (∀ (s : State) (t : Nat) (h : t < 5),
    exec (.busRead (BitVec.ofNat 32 (0x800 + 4 * t))) s = .next { s with readData := s.numTables[t] }) ∧
  (∀ (s : State) (t k : Nat) (ht : t < 5) (hk : k < 16),
    exec (.busRead (BitVec.ofNat 32 (0x900 + 4 * (16 * t + k)))) s =
      .next { s with readData := s.topFreq[16 * t + k] })

/-- R33: the fields of CORE_CFG in this hardware, read from every state. -/
def Obligations.CoreConfiguration : Prop :=
  ∀ s : State, ∃ v : Word, exec (.busRead 0x008) s = .next { s with readData := v } ∧
    v.extractLsb' 0 11 = 128 ∧ v.extractLsb' 11 1 = 0 ∧ 2 ^ (v.extractLsb' 12 4).toNat = 2048 ∧
    v.extractLsb' 16 5 = 16 ∧ v.extractLsb' 21 3 = 0 ∧ v.extractLsb' 24 5 = 16 ∧ v.extractLsb' 29 3 = 0 ∧
    v = 0x1010B080

/-- A write to a sample RAM or wavetable RAM word stores the word unchanged, is read back, and changes no other byte
and nothing else. -/
def Obligations.RamWrite : Prop :=
  ∀ (a v : Word) (s : State), InRam a.toNat →
    ∃ m, exec (.busWrite a v) s = .next { s with mem := m } ∧ m.word? a.toNat = some v ∧
      (∀ b, b < a.toNat ∨ a.toNat + 4 ≤ b → m.get b = s.mem.get b) ∧
      exec (.busRead a) { s with mem := m } = .next { s with mem := m, readData := v }

/-- R183: writes to read-only words change nothing and record nothing, bits of a STATUS write other than 4:0 have no
effect, and CMD reads 0. -/
def Obligations.ReadOnlyWrite : Prop :=
  (∀ (a v : Word) (s : State), InReadOnly a.toNat → exec (.busWrite a v) s = .next s) ∧
  (∀ (v : Word) (s : State), exec (.busWrite 0x014 v) s = exec (.busWrite 0x014 (v &&& 0x1F)) s) ∧
  (∀ (v : Word) (s : State), RegistersLegal s → v &&& 0x1F = 0 → exec (.busWrite 0x014 v) s = .next s) ∧
  (∀ s : State, exec (.busRead 0x010) s = .next { s with readData := 0 })

/-- R187: a STATUS write clears the error bits written as 1 and, when none is left, LAST_ERR. -/
def Obligations.StatusWrite : Prop :=
  ∀ (v : Word) (s : State), ∃ st : Status, exec (.busWrite 0x014 v) s = .next { s with status := st } ∧
    st.errCmd = (s.status.errCmd && !v.getLsbD 0) ∧ st.errLen = (s.status.errLen && !v.getLsbD 1) ∧
    st.errCfg = (s.status.errCfg && !v.getLsbD 2) ∧ st.errAddr = (s.status.errAddr && !v.getLsbD 3) ∧
    st.errAlign = (s.status.errAlign && !v.getLsbD 4) ∧
    ((∀ e, st.sticky e = false) → st.lastErr = 0) ∧ ((∃ e, st.sticky e = true) → st.lastErr = s.status.lastErr) ∧
    (∀ u, st.nonsilent u = s.status.nonsilent u) ∧ (∀ u, st.init u = s.status.init u)

/-- R34: a SAMPLE_RATE write is accepted when finite and at least 1.0, and the coefficients are then recomputed; any
other value is dropped with ERR_CFG. -/
def Obligations.SampleRateWrite : Prop :=
  (∀ (v : Word) (s : State), isFinite (widen v) = true → fle fone (widen v) = true →
    Between fzero (widen s.adsr.sustainLevel) fone →
    exec (.busWrite 0x00C v) s = .next { s with
      sampleRate := v
      adsr := { s.adsr with
        coefs := coefficients v s.adsr.sustainLevel s.adsr.attackTime s.adsr.decayTime s.adsr.releaseTime } }) ∧
  (∀ (v : Word) (s : State), (isFinite (widen v) && fle fone (widen v)) = false →
    exec (.busWrite 0x00C v) s = .next { s with status := s.status.withError .cfg }) ∧
  State.reset.sampleRate = 0x473B8000

/-- R39, R270: a WTO_UNISON_COUNT write stores the smaller of the word and 16, a word above 16 records ERR_CFG, and a
count that changes sets every phase to +0.0; a count that does not change rebuilds nothing. -/
def Obligations.UnisonCountWrite : Prop :=
  (∀ (v : Word) (s : State), ∃ n : Word, n.toNat = min v.toNat 16 ∧
    exec (.busWrite 0x104 v) s = .next { s with
      status := if 16 < v.toNat then s.status.withError .cfg else s.status
      wto := { s.wto with
        unisonCount := n
        phase := if n = s.wto.unisonCount then s.wto.phase else Vector.replicate 16 0x0000000000000000 } }) ∧
  State.reset.wto.unisonCount = 0

/-- R40: a NaN spread is dropped with ERR_CFG; any other value is stored clamped to [-4800, 4800], with ERR_CFG when it
lay outside. -/
def Obligations.UnisonSpreadWrite : Prop :=
  (∀ (v : Word) (s : State), isNaN32 v = true →
    exec (.busWrite 0x108 v) s = .next { s with status := s.status.withError .cfg }) ∧
  (∀ (v : Word) (s : State), isNaN32 v = false →
    exec (.busWrite 0x108 v) s = .next { s with
      status := if flt (widen v) (ofInt (-4800)) || flt (ofInt 4800) (widen v) then s.status.withError .cfg
        else s.status
      wto := { s.wto with unisonSpread := f32 (fclamp (widen v) (ofInt (-4800)) (ofInt 4800)) } }) ∧
  State.reset.wto.unisonSpread = 0

/-- R45: the six ADSR settings. A NaN is dropped with ERR_CFG; a time is stored as written; a level is stored clamped to
[0, 1], with ERR_CFG when it lay outside; ATTACK_TIME, DECAY_TIME, RELEASE_TIME and SUSTAIN_LEVEL recompute the
coefficients. -/
def Obligations.AdsrSettingWrites : Prop :=
  (∀ (a v : Word) (s : State), a ∈ ([0x40C, 0x410, 0x414, 0x418, 0x41C, 0x420] : List Word) → isNaN32 v = true →
    exec (.busWrite a v) s = .next { s with status := s.status.withError .cfg }) ∧
  (∀ (v : Word) (s : State), isNaN32 v = false → Between fzero (widen s.adsr.sustainLevel) fone →
    exec (.busWrite 0x40C v) s = .next { s with adsr := { s.adsr with
      attackTime := v
      coefs := coefficients s.sampleRate s.adsr.sustainLevel v s.adsr.decayTime s.adsr.releaseTime } } ∧
    exec (.busWrite 0x414 v) s = .next { s with adsr := { s.adsr with
      decayTime := v
      coefs := coefficients s.sampleRate s.adsr.sustainLevel s.adsr.attackTime v s.adsr.releaseTime } } ∧
    exec (.busWrite 0x420 v) s = .next { s with adsr := { s.adsr with
      releaseTime := v
      coefs := coefficients s.sampleRate s.adsr.sustainLevel s.adsr.attackTime s.adsr.decayTime v } }) ∧
  (∀ (v : Word) (s : State), isNaN32 v = false →
    exec (.busWrite 0x418 v) s = .next { s with adsr := { s.adsr with sustainTime := v } }) ∧
  (∀ (v : Word) (s : State), isNaN32 v = false →
    exec (.busWrite 0x410 v) s = .next { s with
      status := if flt (widen v) fzero || flt fone (widen v) then s.status.withError .cfg else s.status
      adsr := { s.adsr with attackLevel := f32 (fclamp (widen v) fzero fone) } }) ∧
  (∀ (v : Word) (s : State), isNaN32 v = false →
    exec (.busWrite 0x41C v) s = .next { s with
      status := if flt (widen v) fzero || flt fone (widen v) then s.status.withError .cfg else s.status
      adsr := { s.adsr with
        sustainLevel := f32 (fclamp (widen v) fzero fone)
        coefs := coefficients s.sampleRate (f32 (fclamp (widen v) fzero fone)) s.adsr.attackTime s.adsr.decayTime
          s.adsr.releaseTime } })

/-- R48, R49: WT_NUM_TABLES stores the smaller of the word and 16, with ERR_CFG above 16; WT_TOPFREQ stores any word;
the words around them are unmapped. -/
def Obligations.TableRegisterWrites : Prop :=
  (∀ (k : Nat) (h : k < 5) (v : Word) (s : State), ∃ n : Word, n.toNat = min v.toNat 16 ∧
    exec (.busWrite (BitVec.ofNat 32 (0x800 + 4 * k)) v) s = .next { s with
      status := if 16 < v.toNat then s.status.withError .cfg else s.status
      numTables := s.numTables.set k n h }) ∧
  (∀ (k j : Nat) (hk : k < 5) (hj : j < 16) (v : Word) (s : State),
    exec (.busWrite (BitVec.ofNat 32 (0x900 + 4 * (16 * k + j))) v) s = .next { s with
      topFreq := s.topFreq.set (16 * k + j) v (by omega) }) ∧
  (∀ (a v : Word) (s : State), a.toNat % 4 = 0 →
    ((0x814 ≤ a.toNat ∧ a.toNat ≤ 0x8FC) ∨ (0xA40 ≤ a.toNat ∧ a.toNat ≤ 0xFFFC)) →
    exec (.busWrite a v) s = .next { s with status := s.status.withError .addr }) ∧
  (∀ k, State.reset.tables k = 0) ∧ (∀ k j, State.reset.topFreqOf k j = 0)

/-- The seventeen scalar parameter registers store any word unchanged, and nothing else changes. -/
def Obligations.ScalarParameterWrites : Prop :=
  ∀ (v : Word) (s : State),
    exec (.busWrite 0x110 v) s = .next { s with wto := { s.wto with frequency := v } } ∧
    exec (.busWrite 0x114 v) s = .next { s with wto := { s.wto with detune := v } } ∧
    exec (.busWrite 0x118 v) s = .next { s with wto := { s.wto with pulseWidth := v } } ∧
    exec (.busWrite 0x11C v) s = .next { s with wto := { s.wto with phaseMod := v } } ∧
    exec (.busWrite 0x120 v) s = .next { s with wto := { s.wto with phaseModDepth := v } } ∧
    exec (.busWrite 0x208 v) s = .next { s with pbo := { s.pbo with frequency := v } } ∧
    exec (.busWrite 0x20C v) s = .next { s with pbo := { s.pbo with amplitude := v } } ∧
    exec (.busWrite 0x210 v) s = .next { s with pbo := { s.pbo with detune := v } } ∧
    exec (.busWrite 0x214 v) s = .next { s with pbo := { s.pbo with pulseWidth := v } } ∧
    exec (.busWrite 0x218 v) s = .next { s with pbo := { s.pbo with phaseMod := v } } ∧
    exec (.busWrite 0x21C v) s = .next { s with pbo := { s.pbo with phaseModDepth := v } } ∧
    exec (.busWrite 0x308 v) s = .next { s with mlf := { s.mlf with cutoff := v } } ∧
    exec (.busWrite 0x30C v) s = .next { s with mlf := { s.mlf with resonance := v } } ∧
    exec (.busWrite 0x310 v) s = .next { s with mlf := { s.mlf with drive := v } } ∧
    exec (.busWrite 0x314 v) s = .next { s with mlf := { s.mlf with cutoffB := v } } ∧
    exec (.busWrite 0x318 v) s = .next { s with mlf := { s.mlf with resonanceB := v } } ∧
    exec (.busWrite 0x408 v) s = .next { s with adsr := { s.adsr with gate := v } }

/-- The control and PARAM_MODE registers store their defined bits and nothing else changes; their reserved bits read
0. -/
def Obligations.ControlRegisterWrites : Prop :=
  (∀ (v : Word) (s : State),
    exec (.busWrite 0x100 v) s = .next { s with wto := { s.wto with
      type := v.extractLsb' 0 4, blend := v.getLsbD 8, pwm := v.getLsbD 9 } } ∧
    exec (.busWrite 0x10C v) s = .next { s with wto := { s.wto with paramMode := v.extractLsb' 0 5 } } ∧
    exec (.busWrite 0x200 v) s = .next { s with pbo := { s.pbo with shape := v.extractLsb' 0 4 } } ∧
    exec (.busWrite 0x204 v) s = .next { s with pbo := { s.pbo with paramMode := v.extractLsb' 0 6 } } ∧
    exec (.busWrite 0x300 v) s = .next { s with mlf := { s.mlf with
      modelB := v.getLsbD 0, inputConnected := v.getLsbD 1 } } ∧
    exec (.busWrite 0x304 v) s = .next { s with mlf := { s.mlf with paramMode := v.extractLsb' 0 5 } } ∧
    exec (.busWrite 0x400 v) s = .next { s with adsr := { s.adsr with
      oneShot := v.getLsbD 0, inputConnected := v.getLsbD 1 } } ∧
    exec (.busWrite 0x404 v) s = .next { s with adsr := { s.adsr with paramMode := v.extractLsb' 0 1 } }) ∧
  (∀ q ∈ ([ (0x100, 0x0000030F), (0x10C, 0x0000001F), (0x200, 0x0000000F), (0x204, 0x0000003F), (0x300, 0x00000003),
      (0x304, 0x0000001F), (0x400, 0x00000003), (0x404, 0x00000001) ] : List (Word × Word)),
    ∀ (v : Word) (s : State), ∃ t, exec (.busWrite q.1 v) s = .next t ∧
      exec (.busRead q.1) t = .next { t with readData := v &&& q.2 })

/-- R195: a CMD write of a legal word runs the word's command; a word that is not legal records ERR_CMD and has no other
effect (R194, R454); CMD reads back 0. That the write of a command's word and the command are one meaning, so that
exec of one is exec of the other, is the model's reading (log 12, DEDUCED). -/
def Obligations.CommandWrite : Prop :=
  (∀ (w : BitVec 32) (s : State), legalCommand w = true →
    ∃ i, decode (.cmd w) = .ok i ∧ exec (.busWrite 0x010 w) s = exec i s) ∧
  (∀ (w : BitVec 32) (s : State), legalCommand w = false →
    exec (.busWrite 0x010 w) s = .next { s with status := s.status.withError .cmd }) ∧
  (∀ s : State, exec (.busRead 0x010) s = .next { s with readData := 0 })

/-! ### STATUS -/

/-- One transaction records at most one error, and LAST_ERR is then its code. -/
def Obligations.AtMostOneError : Prop :=
  ∀ (i : Instr) (s t : State), exec i s = .next t →
    (∀ e e', s.status.sticky e = false → t.status.sticky e = true → s.status.sticky e' = false →
      t.status.sticky e' = true → e = e') ∧
    (∀ e, s.status.sticky e = false → t.status.sticky e = true → t.status.lastErr = e.code)

/-- R36: INIT_u is 0 at reset, is set by u.INIT and by INIT_ALL, is cleared by no step but hardware reset and set by no
other command, and while it is 0 a PROCESS of u writes silence and changes no unit. -/
def Obligations.InitFlags : Prop :=
  (∀ u, State.reset.status.init u = false) ∧
  (∀ (u : UnitId) (i : Instr) (s : State), i = u.initCmd ∨ i = .initAll →
    ∃ t, exec i s = .next t ∧ t.status.init u = true) ∧
  (∀ (u : UnitId) (s t : State), s.inbox.head? ≠ some .hardwareReset → step s = .next t →
    s.status.init u = true → t.status.init u = true) ∧
  (∀ (u : UnitId) (i : Instr) (s t : State), exec i s = .next t → s.status.init u = false →
    t.status.init u = true → i = u.initCmd ∨ i = .initAll ∨
      ∃ w, i = .busWrite 0x010 w ∧ (decode (.cmd w) = .ok u.initCmd ∨ decode (.cmd w) = .ok .initAll)) ∧
  (∀ (u : UnitId) (n : Nat) (s : State), s.status.init u = false →
    ∃ t, exec (u.processCmd n) s = .next t ∧ UnitsKept s t ∧
      ∀ i, i < min n 128 → t.mem.word? (ramAddr u.out i) = some 0x00000000)

/-- R203: a PROCESS that runs its loop sets NONSILENT_u, one that takes a silence branch clears it, and no other
command changes it. -/
def Obligations.NonsilentFlags : Prop :=
  (∀ (u : UnitId) (n : Nat) (s : State), ∃ t, exec (u.processCmd n) s = .next t ∧
    t.status.nonsilent u = (decide (0 < n ∧ n ≤ 128) && u.ready s)) ∧
  (∀ (u : UnitId) (i : Instr) (s t : State), exec i s = .next t →
    (∀ n, i ≠ u.processCmd n ∧ ∀ w, i = .busWrite 0x010 w → decode (.cmd w) ≠ .ok (u.processCmd n)) →
    t.status.nonsilent u = s.status.nonsilent u)

/-! ### lifecycle commands -/

/-- R196: NOP changes nothing, and of the legal words with UNIT 0 it alone has no effect. -/
def Obligations.NopDoesNothing : Prop :=
  (∀ s : State, exec .nop s = .next s) ∧
  (∀ s : State, exec (.busWrite 0x010 0x00000000) s = .next s) ∧
  (∀ w : BitVec 32, legalCommand w = true → cmdUnit w = 0 → cmdArg w = 0 → w ≠ 0 →
    ∃ s : State, exec (.busWrite 0x010 w) s ≠ .next s)

/-- R197: u.INIT puts the unit's state variables at their fresh values, recomputes the coefficients for the ADSR, sets
INIT_u and changes nothing else. The ADSR clause holds for a legal sustain level, which R45 keeps it at. -/
def Obligations.UnitInit : Prop :=
  (∀ s : State, exec .wtoInit s = .next { s with
    wto := { s.wto with phase := Vector.replicate 16 0 }
    status := { s.status with initWto := true } }) ∧
  (∀ s : State, exec .pboInit s = .next { s with
    pbo := { s.pbo with t := 0 }
    status := { s.status with initPbo := true } }) ∧
  (∀ s : State, exec .mlfInit s = .next { s with
    mlf := { s.mlf with
      v := Vector.replicate 4 0, dv := Vector.replicate 4 0, tv := Vector.replicate 4 0
      bin := Vector.replicate 4 0, bout := Vector.replicate 4 0 }
    status := { s.status with initMlf := true } }) ∧
  (∀ s : State, Between fzero (widen s.adsr.sustainLevel) fone → exec .adsrInit s = .next { s with
    adsr := { s.adsr with
      phase := .idle, level := 0, releaseCompleted := false, prevGate := false
      coefs := coefficients s.sampleRate s.adsr.sustainLevel s.adsr.attackTime s.adsr.decayTime s.adsr.releaseTime }
    status := { s.status with initAdsr := true } }) ∧
  (∃ t, exec .wtoInit State.reset = .next t ∧ t.status.word = 0x00010000) ∧
  encode .wtoInit = .cmd 0x11000000 ∧ encode .pboInit = .cmd 0x21000000 ∧ encode .mlfInit = .cmd 0x31000000 ∧
  encode .adsrInit = .cmd 0x41000000

/-- R199: u.RESET puts the unit's state variables at their fresh values and changes nothing else: no register, no
coefficient, no INIT or NONSILENT bit, no RAM. -/
def Obligations.UnitReset : Prop :=
  (∀ s : State, exec .wtoReset s = .next { s with wto := { s.wto with phase := Vector.replicate 16 0 } }) ∧
  (∀ s : State, exec .pboReset s = .next { s with pbo := { s.pbo with t := 0 } }) ∧
  (∀ s : State, exec .mlfReset s = .next { s with mlf := { s.mlf with
    v := Vector.replicate 4 0, dv := Vector.replicate 4 0, tv := Vector.replicate 4 0
    bin := Vector.replicate 4 0, bout := Vector.replicate 4 0 } }) ∧
  (∀ s : State, exec .adsrReset s = .next { s with adsr := { s.adsr with
    phase := .idle, level := 0, releaseCompleted := false, prevGate := false } })

/-- R200: INIT_ALL is the four unit INIT commands in the order WTO, PBO, MLF, ADSR; after reset STATUS then reads
0x000F_0000. -/
def Obligations.InitAllIsFourInits : Prop :=
  (∀ s : State, ∃ t1 t2 t3 t4, exec .wtoInit s = .next t1 ∧ exec .pboInit t1 = .next t2 ∧
    exec .mlfInit t2 = .next t3 ∧ exec .adsrInit t3 = .next t4 ∧ exec .initAll s = .next t4 ∧
    (∀ u, t4.status.init u = true)) ∧
  (∃ t, exec .initAll State.reset = .next t ∧ t.status.word = 0x000F0000) ∧ encode .initAll = .cmd 0x01000000

/-- R201: RESET_ALL is ResetDynamic of the four units; STATUS, registers and RAMs are kept. -/
def Obligations.ResetAllIsFourResets : Prop :=
  (∀ s : State, exec .resetAll s = .next { s with
    wto := { s.wto with phase := Vector.replicate 16 0 }
    pbo := { s.pbo with t := 0 }
    mlf := { s.mlf with
      v := Vector.replicate 4 0, dv := Vector.replicate 4 0, tv := Vector.replicate 4 0
      bin := Vector.replicate 4 0, bout := Vector.replicate 4 0 }
    adsr := { s.adsr with phase := .idle, level := 0, releaseCompleted := false, prevGate := false } }) ∧
  encode .resetAll = .cmd 0x02000000

/-! ### PROCESS -/

/-- R455: a PROCESS of more than 128 frames records ERR_LEN, writes silence to all 128 output frames, clears NONSILENT_u
and changes nothing else. -/
def Obligations.ProcessTooLong : Prop :=
  ∀ (u : UnitId) (n : Nat) (s : State), 128 < n →
    ∃ m, exec (u.processCmd n) s = .next { s with
        mem := m, status := (s.status.withError .len).withNonsilent u false } ∧
      (∀ i, i < 128 → m.word? (ramAddr u.out i) = some 0x00000000) ∧
      (∀ a, a < ramAddr u.out 0 ∨ ramAddr u.out 0 + 4 * 128 ≤ a → m.get a = s.mem.get a)

/-- A PROCESS of an uninitialized or disconnected unit writes silence to its N frames, one of 0 frames writes
nothing; both clear NONSILENT_u and change nothing else, so zero-length calls do not affect a later call
(R206, which the spec derives from R202). -/
def Obligations.SilentProcess : Prop :=
  (∀ (u : UnitId) (n : Nat) (s : State), n ≤ 128 → u.ready s = false →
    ∃ m, exec (u.processCmd n) s = .next { s with mem := m, status := s.status.withNonsilent u false } ∧
      (∀ i, i < n → m.word? (ramAddr u.out i) = some 0x00000000) ∧
      (∀ a, a < ramAddr u.out 0 ∨ ramAddr u.out 0 + 4 * n ≤ a → m.get a = s.mem.get a)) ∧
  (∀ (u : UnitId) (s : State),
    exec (u.processCmd 0) s = .next { s with status := s.status.withNonsilent u false }) ∧
  (∀ (u : UnitId) (n : Nat) (s t1 t2 : State), exec (u.processCmd 0) s = .next t1 →
    exec (u.processCmd 0) t1 = .next t2 → exec (u.processCmd n) t2 = exec (u.processCmd n) s)

/-- R205 with the frame of a PROCESS: it completes, every output frame 0 to N - 1 is written and no other byte changes,
only state variables of the named unit change, and of STATUS only NONSILENT_u. -/
def Obligations.ProcessWritesItsFrames : Prop :=
  ∀ (u : UnitId) (n : Nat) (s : State), 0 < n → n ≤ 128 →
    ∃ t, exec (u.processCmd n) s = .next t ∧
      (∀ i, i < n → (t.mem.word? (ramAddr u.out i)).isSome = true) ∧ OnlyFrames u n s t ∧ OnlyStateOf u s t ∧
      GlobalsKept s t ∧ t.status = s.status.withNonsilent u (u.ready s)

/-- A PROCESS that runs is its unit's frames 0 to N - 1 in increasing order. -/
def Obligations.ProcessIsItsFrames : Prop :=
  ∀ (u : UnitId) (n : Nat) (s : State), 0 < n → n ≤ 128 → u.ready s = true →
    exec (u.processCmd n) s = .next ((List.range n).foldl (fun t i => unitFrame u i t)
      { s with status := s.status.withNonsilent u true })

/-- A unit's outcome depends on nothing but its own registers, state and RAM words, SAMPLE_RATE and, for the WTO, the
tables: two states that agree on those give the same unit state and the same output words. The table counts are legal,
which every step keeps (StepKeepsRegistersLegal). -/
def Obligations.UnitIsolation : Prop :=
  ∀ (u : UnitId) (n : Nat) (s1 s2 : State), RegistersLegal s1 → AgreesFor u s1 s2 →
    ∃ t1 t2, exec (u.processCmd n) s1 = .next t1 ∧ exec (u.processCmd n) s2 = .next t2 ∧ UnitAgrees u t1 t2 ∧
      t1.draws = t2.draws ∧ ∀ i, i < min n 128 → t1.mem.word? (ramAddr u.out i) = t2.mem.word? (ramAddr u.out i)

/-- R188: a NaN parameter becomes its minimum, a value in range is used as it is (a -0.0 stays -0.0), a value outside
becomes the bound it passed; every parameter value lies in its declared range. R185, R186: the seventeen declarations
(`paramRows`, with each register and RAM by its address): the default that a register reads after reset, the range, and
the frame's word, which is the RAM's when the mode bit reads 1 and the scalar register's when it reads 0. -/
def Obligations.ParameterClamp : Prop :=
  (∀ x lo hi : Double, fle lo hi = true →
    (isNaN x = true → paramClamp x lo hi = lo) ∧ (Between lo x hi → paramClamp x lo hi = x) ∧
    (flt x lo = true → paramClamp x lo hi = lo) ∧ (flt hi x = true → paramClamp x lo hi = hi)) ∧
  (∀ (s : State) (p : Param) (i draws : Nat), Between (ofInt p.min) (param s p i draws).1 (ofInt p.max)) ∧
  (∀ q ∈ paramRows, ∀ (s : State) (i : Nat),
    q.name.unit = q.unit ∧ q.name.min = q.min ∧ q.name.max = q.max ∧
    exec (.busRead q.register) State.reset = .next { State.reset with readData := q.default } ∧
    (∃ v m : Word, exec (.busRead q.register) s = .next { s with readData := v } ∧
      exec (.busRead q.modeRegister) s = .next { s with readData := m } ∧
      s.rawParam q.name i = if m.getLsbD q.bit then s.mem.word? (q.ram + 4 * i) else some v) ∧
    (∀ w, s.rawParam q.name i = some w →
      s.value q.name i = paramClamp (widen w) (ofInt q.min) (ofInt q.max) ∧
      ∀ draws, param s q.name i draws = (s.value q.name i, draws)))

/-! ### the wavetable oscillator -/

/-- R251, R252, R256, R265, R266, R271: one frame of the WTO over written parameters and tables, for every unison
count. Each voice's increment is R252's formula (`State.voiceIncrement`), and its table the first whose topFreq is above
the increment, or the last (`State.Selects`, which one index meets). The output word is the voice's sample, or the
voices' sum in increasing order times 1.0 / n; each active voice's phase advances; the other voices keep theirs. -/
def Obligations.WtoFrame : Prop :=
  ∀ (i : Nat) (s : State), ParamsWritten .wto i s → TablesWritten s → WtoPhasesInRange s → RegistersLegal s →
    (∃ sel : Nat → Nat,
      (∀ v, v < max 1 s.wto.unisonCount.toNat → s.wto.type.toNat ≤ 4 → 0 < s.tables s.wto.type.toNat →
        s.Selects (fabs (s.voiceIncrement i (s.voiceDetune i v))) (sel v)) ∧
      HoldsSample (unitFrame .wto i s).mem (ramAddr .wtoOut i) (s.wtoValue i sel)) ∧
    (∀ a k k', s.Selects a k → s.Selects a k' → k = k') ∧
    (∀ v, v < max 1 s.wto.unisonCount.toNat →
      Stored ((unitFrame .wto i s).wto.phaseOf v) (s.phaseAfter i v (s.voiceDetune i v))) ∧
    (∀ v, max 1 s.wto.unisonCount.toNat ≤ v → (unitFrame .wto i s).wto.phaseOf v = s.wto.phaseOf v)

/-- A unison count of 0 and one of 1 give the same words and the same phases (R266, which the spec derives: "Counts 0
and 1 therefore take the same path"). -/
def Obligations.UnisonZeroIsOne : Prop :=
  ∀ (n : Nat) (s t0 : State),
    exec (.wtoProcess n) { s with wto := { s.wto with unisonCount := 0 } } = .next t0 →
    exec (.wtoProcess n) { s with wto := { s.wto with unisonCount := 1 } } =
      .next { t0 with wto := { t0.wto with unisonCount := 1 } }

/-- A waveform type above 4, or one with no tables, plays +0.0 in every frame while the phases advance. -/
def Obligations.WtoSilentWithoutTables : Prop :=
  ∀ (i : Nat) (s : State), 4 < s.wto.type.toNat ∨ s.tables s.wto.type.toNat = 0 → s.wto.unisonCount.toNat ≤ 16 →
    (unitFrame .wto i s).mem.word? (ramAddr .wtoOut i) = some 0x00000000 ∧
    (ParamsWritten .wto i s → ∀ v, v < max 1 s.wto.unisonCount.toNat →
      Stored ((unitFrame .wto i s).wto.phaseOf v) (s.phaseAfter i v (s.voiceDetune i v)))

/-- For a phase in [0, 1) the interpolation index lies in the table and the fraction in [0, 1). -/
def Obligations.InterpolationIndex : Prop :=
  ∀ p : Double, Between fzero p fone → p ≠ fone →
    toIndex (ffloor (fmul p (ofInt 2048))) ≤ 2047 ∧
    Between fzero (fsub (fmul p (ofInt 2048)) (ffloor (fmul p (ofInt 2048)))) fone ∧
    fsub (fmul p (ofInt 2048)) (ffloor (fmul p (ofInt 2048))) ≠ fone

/-- R268, R16: the WTO's wrap is q = x - floor(x), with +0.0 for q at or above 1.0, and floor is the largest integer
not greater than x. The wrap of any finite value lies in [0, 1) and is never -0.0, and a value already in [0, 1) is
kept. -/
def Obligations.PhaseWrap : Prop :=
  (∀ x : Double,
    let q := fsub x (ffloor x)
    (fle fone q = true → wrap x = fzero) ∧ (fle fone q = false → wrap x = q)) ∧
  (∀ x : Double, isFinite x = true → isFinite (ffloor x) = true ∧ fval (ffloor x) = ⌊fval x⌋) ∧
  (∀ x : Double, isFinite x = true →
    Between fzero (wrap x) fone ∧ wrap x ≠ fone ∧ fsign (wrap x) = false) ∧
  (∀ x : Double, fsign x = false → Between fzero x fone → x ≠ fone → wrap x = x)

/-! ### the PolyBLEP oscillator -/

/-- R302: one frame of the PBO over written parameters: the output word at the phase held before, the amplitude applied
last, and the phase's advance. -/
def Obligations.PboFrame : Prop :=
  ∀ (i : Nat) (s : State), ParamsWritten .pbo i s →
    let dt := fdiv (fmul (s.value .pboFrequency i) (pow264 (fdiv (s.value .pboDetune i) (ofInt 1200))))
      (widen s.sampleRate)
    HoldsSample (unitFrame .pbo i s).mem (ramAddr .pboOut i)
      (fmul (s.value .pboAmplitude i) (shape s.pbo.shape.toNat s.pbo.t dt (s.value .pboPulseWidth i))) ∧
    Stored (unitFrame .pbo i s).pbo.t
      (wrap2 (fadd s.pbo.t (fmul dt (fadd fone (fmul (s.value .pboPhaseMod i) (s.value .pboPhaseModDepth i))))))

/-- R304, R310 and the formulas of the codes, R312 to R324. The switch of R310 is open (log 7): with the sine fallback
every code gives SINE at dt at or above 0.25, and without it the code selects at every dt; codes 13 to 15 give +0.0.
Formulas and constants of codes 1 to 12 are the spec's own reading of the named shapes (D29: "the published PolyBLEP
reference formulas [...] from general knowledge, not in source"). Code 9 is in the form of
R321; below 2^-1021 that is the model's choice between the two roundings the spec leaves open (log 16, DESIGN CHOICE).
`blep` and `blamp` are stated branch by branch in NoCorrectionAtZeroIncrement. -/
def Obligations.ShapeSelection : Prop :=
  ∀ (code : Nat) (t dt pw : Double),
    let two := ofInt 2
    let four := ofInt 4
    let fr := fun x => fsub x (ftrunc x)
    let pwc := fclamp pw (lit 1 10000) (lit 9999 10000)
    let square := fun x => if flt x (lit 1 2) then fone else fneg fone
    let fold := fun y => if fle (ofInt 3) y then fsub y four else if flt fone y then fsub two y else y
    let clip := fun y => fmax (fneg fone) (fmin fone y)
    let slope := fun t1 => fsub (blamp t1 dt) (blamp (fr (fadd t1 (lit 1 2))) dt)
    (Config.pbSineFallback = true → fle (lit 1 4) dt = true → shape code t dt pw = sin64 (fmul twoPi t)) ∧
    (Config.pbSineFallback = false ∨ fle (lit 1 4) dt = false →
      (13 ≤ code → shape code t dt pw = fzero) ∧ shape 0 t dt pw = sin64 (fmul twoPi t) ∧
      shape 1 t dt pw = fadd (fold (fmul t four)) (fmul (fmul four dt)
        (fsub (blamp (fr (fadd t (lit 1 4))) dt) (blamp (fr (fadd t (lit 3 4))) dt))) ∧
      shape 2 t dt pw = fadd (square t) (fsub (blep t dt) (blep (fr (fadd t (lit 1 2))) dt)) ∧
      (let t1 := fr (fadd t (lit 1 2))
       shape 3 t dt pw = fsub (fsub (fmul two t1) fone) (blep t1 dt)) ∧
      shape 4 t dt pw = fadd (fsub fone (fmul two (fr t))) (blep (fr t) dt) ∧
      (let y := fmul (fneg two) pw
       shape 5 t dt pw = fadd (if flt t pw then fadd y two else y)
         (fsub (blep t dt) (blep (fr (fsub (fadd t fone) pw)) dt))) ∧
      shape 6 t dt pw = fadd
        (if flt t (lit 1 2) then fsub (fmul two (sin64 (fmul twoPi t))) (fdiv two fpi) else fneg (fdiv two fpi))
        (fmul (fmul twoPi dt) (fadd (blamp t dt) (blamp (fr (fadd t (lit 1 2))) dt))) ∧
      (let t1 := fr (fadd t (lit 1 4))
       shape 7 t dt pw = fadd (fsub (fmul two (sin64 (fmul fpi t1))) (fdiv four fpi))
         (fmul (fmul twoPi dt) (blamp t1 dt))) ∧
      (let y := fmul t two
       shape 8 t dt pw = fadd
         (if fle (fsub two pwc) y then fdiv (fsub y two) pwc
          else if fle pwc y then fsub fone (fdiv (fsub y pwc) (fsub fone pwc)) else fdiv y pwc)
         (fmul (fdiv dt (fsub pwc (fmul pwc pwc)))
           (fsub (blamp (fr (fadd t (fmul (lit 1 2) pwc))) dt)
             (blamp (fr (fsub (fadd t fone) (fmul (lit 1 2) pwc))) dt)))) ∧
      (let off := fmul (lit 1 4) (fsub pw (lit 1 2))
       let t1 := fr (fadd (fadd t (lit 875 1000)) off)
       let t2 := fr (fadd (fadd t (lit 375 1000)) off)
       let u1 := fr (fadd t1 (fmul (lit 1 2) (fsub fone pw)))
       let u2 := fr (fadd t2 (fmul (lit 1 2) (fsub fone pw)))
       shape 9 t dt pw = fmul (lit 1 2) (fadd
         (fadd (fadd (square t1) (fsub (blep t1 dt) (blep t2 dt))) (square u1))
         (fsub (blep u1 dt) (blep u2 dt)))) ∧
      shape 10 t dt pw = fadd
        (fadd (clip (fmul two (fold (fmul four t)))) (fmul (fmul four dt) (slope (fr (fadd t (lit 125 1000))))))
        (fmul (fmul four dt) (slope (fr (fadd t (lit 375 1000))))) ∧
      (let scale := fdiv fone (fsub fone pwc)
       let q := fmul (lit 1 4) pwc
       shape 11 t dt pw = fadd
         (fadd (clip (fmul scale (fold (fmul four t))))
           (fmul (fmul (fmul scale two) dt) (slope (fr (fsub (fadd t (lit 1 4)) q)))))
         (fmul (fmul (fmul scale two) dt) (slope (fr (fadd (fadd t (lit 1 4)) q))))) ∧
      (let t1 := fr (fadd (fadd t (lit 3 4)) (fmul (lit 1 2) pwc))
       let y := fmul four t1
       let naive :=
         if fle pwc t1 then fneg pwc
         else if fle (fmul two pwc) y then fsub (fsub four (fdiv y pwc)) pwc else fsub (fdiv y pwc) pwc
       let t2 := fr (fsub (fadd t1 fone) (fmul (lit 1 2) pwc))
       let t3 := fr (fsub (fadd t1 fone) pwc)
       shape 12 t dt pw = fadd naive (fmul (fdiv (fmul two dt) pwc)
         (fadd (fsub (blamp t1 dt) (fmul two (blamp t2 dt))) (blamp t3 dt)))))

/-- R308 and R309, branch by branch, in the order of their tests; with dt = 0 there is no correction at any phase in
[0, 1]. The coefficients and signs of `blamp` are the spec's own reading (R309: "the reference formula [from general
knowledge, not in source]"). -/
def Obligations.NoCorrectionAtZeroIncrement : Prop :=
  (∀ t dt : Double, flt t dt = true →
    let x := fsub (fdiv t dt) fone
    blep t dt = fneg (fmul x x) ∧ blamp t dt = fmul (fmul (fdiv (fneg fone) (ofInt 3)) (fmul x x)) x) ∧
  (∀ t dt : Double, flt t dt = false → flt (fsub fone dt) t = true →
    let x := fadd (fdiv (fsub t fone) dt) fone
    blep t dt = fmul x x ∧ blamp t dt = fmul (fmul (fdiv fone (ofInt 3)) (fmul x x)) x) ∧
  (∀ t dt : Double, flt t dt = false → flt (fsub fone dt) t = false → blep t dt = fzero ∧ blamp t dt = fzero) ∧
  (∀ t : Double, Between fzero t fone → blep t fzero = fzero ∧ blamp t fzero = fzero)

/-- R306, R16: the two-sided wrap is x - trunc(x) for x >= 0.0 and x + (1.0 - trunc(x)) otherwise, and trunc rounds
toward zero. Below 2^52 in magnitude it lies in [0, 1]: in [0, 1) for x >= 0, in (0, 1] for x < 0; -1.0 goes to 1.0 and
-0.25 to 0.75. -/
def Obligations.TwoSidedWrap : Prop :=
  (∀ x : Double,
    (fle fzero x = true → wrap2 x = fsub x (ftrunc x)) ∧
    (fle fzero x = false → wrap2 x = fadd x (fsub fone (ftrunc x)))) ∧
  (∀ x : Double, isFinite x = true →
    isFinite (ftrunc x) = true ∧ (0 ≤ fval x → fval (ftrunc x) = ⌊fval x⌋) ∧
    (fval x ≤ 0 → fval (ftrunc x) = ⌈fval x⌉)) ∧
  (∀ x : Double, isFinite x = true → fle fzero x = true → Between fzero (wrap2 x) fone ∧ wrap2 x ≠ fone) ∧
  (∀ x : Double, flt x fzero = true → flt (ofInt (-4503599627370496)) x = true →
    flt fzero (wrap2 x) = true ∧ fle (wrap2 x) fone = true) ∧
  wrap2 (ofInt (-1)) = fone ∧ wrap2 (fneg (lit 1 4)) = lit 3 4

/-! ### the Moog ladder filter -/

/-- R363 to R366: one frame of Model A over written parameters and input; Model B's state is kept. The factor -g of
stage 0 is the spec's own reading (R364: "The factor `-g` is the reference formula [from general knowledge, not in
source]"). -/
def Obligations.ModelAFrame : Prop :=
  ∀ (i : Nat) (s : State) (w : Word), ParamsWritten .mlf i s → s.mem.word? (ramAddr .mlfIn i) = some w →
    s.mlf.modelB = false →
    let input := widen w
    let c := s.value .mlfCutoff i
    let r := s.value .mlfResonance i
    let dr := s.value .mlfDrive i
    let sr := widen s.sampleRate
    let vt := lit 312 1000
    let two := ofInt 2
    let x := fdiv (fmul fpi c) sr
    let g := fdiv (fmul (fmul (fmul (fmul (ofInt 4) fpi) vt) c) (fsub fone x)) (fadd fone x)
    let m := s.mlf
    let d0 := fmul (fneg g)
      (fadd (tanh64 (fdiv (fadd (fmul dr input) (fmul r m.v[3])) (fmul two vt))) m.tv[0])
    let v0 := fadd m.v[0] (fdiv (fadd d0 m.dv[0]) (fmul two sr))
    let t0 := tanh64 (fdiv v0 (fmul two vt))
    let d1 := fmul g (fsub t0 m.tv[1])
    let v1 := fadd m.v[1] (fdiv (fadd d1 m.dv[1]) (fmul two sr))
    let t1 := tanh64 (fdiv v1 (fmul two vt))
    let d2 := fmul g (fsub t1 m.tv[2])
    let v2 := fadd m.v[2] (fdiv (fadd d2 m.dv[2]) (fmul two sr))
    let t2 := tanh64 (fdiv v2 (fmul two vt))
    let d3 := fmul g (fsub t2 m.tv[3])
    let v3 := fadd m.v[3] (fdiv (fadd d3 m.dv[3]) (fmul two sr))
    let t3 := tanh64 (fdiv v3 (fmul two vt))
    let n := (unitFrame .mlf i s).mlf
    HoldsSample (unitFrame .mlf i s).mem (ramAddr .mlfOut i) v3 ∧
    Stored n.v[0] v0 ∧ Stored n.v[1] v1 ∧ Stored n.v[2] v2 ∧ Stored n.v[3] v3 ∧
    Stored n.dv[0] d0 ∧ Stored n.dv[1] d1 ∧ Stored n.dv[2] d2 ∧ Stored n.dv[3] d3 ∧
    Stored n.tv[0] t0 ∧ Stored n.tv[1] t1 ∧ Stored n.tv[2] t2 ∧ Stored n.tv[3] t3 ∧
    n.bin = m.bin ∧ n.bout = m.bout

/-- R368 to R370: one frame of Model B over written parameters and input; Model A's state is kept. The grouping of f^4
is the spec's own reading (R368: "is the reference form [from general knowledge, not in source]"). -/
def Obligations.ModelBFrame : Prop :=
  ∀ (i : Nat) (s : State) (w : Word), ParamsWritten .mlf i s → s.mem.word? (ramAddr .mlfIn i) = some w →
    s.mlf.modelB = true →
    let input := widen w
    let f := fmul (s.value .mlfCutoffB i) (lit 116 100)
    let fb := fmul (s.value .mlfResonanceB i) (fsub fone (fmul (fmul (lit 15 100) f) f))
    let k := fmul (fmul (lit 35013 100000) (fmul f f)) (fmul f f)
    let m := s.mlf
    let u := fmul (fsub input (fmul m.bout[3] fb)) k
    let o1 := fadd (fadd u (fmul (lit 3 10) m.bin[0])) (fmul (fsub fone f) m.bout[0])
    let o2 := fadd (fadd o1 (fmul (lit 3 10) m.bin[1])) (fmul (fsub fone f) m.bout[1])
    let o3 := fadd (fadd o2 (fmul (lit 3 10) m.bin[2])) (fmul (fsub fone f) m.bout[2])
    let o4 := fadd (fadd o3 (fmul (lit 3 10) m.bin[3])) (fmul (fsub fone f) m.bout[3])
    let n := (unitFrame .mlf i s).mlf
    HoldsSample (unitFrame .mlf i s).mem (ramAddr .mlfOut i) o4 ∧
    Stored n.bin[0] u ∧ Stored n.bin[1] o1 ∧ Stored n.bin[2] o2 ∧ Stored n.bin[3] o3 ∧
    Stored n.bout[0] o1 ∧ Stored n.bout[1] o2 ∧ Stored n.bout[2] o3 ∧ Stored n.bout[3] o4 ∧
    n.v = m.v ∧ n.dv = m.dv ∧ n.tv = m.tv

/-- Silent input keeps a fresh filter silent in both models, whatever the parameters (R367, R371): every output word is
0x0000_0000, Model A's voltages and saturated values and Model B's histories stay +0.0, and Model A's derivatives stay
zeros of either sign. -/
def Obligations.SilentInputKeepsFilterSilent : Prop :=
  ∀ (n : Nat) (s : State), 0 < n → n ≤ 128 → RegistersLegal s → UnitId.ready .mlf s = true →
    (∀ i, i < n → s.mem.word? (ramAddr .mlfIn i) = some 0x00000000) →
    s.mlf.v = Vector.replicate 4 0 → (∀ k (h : k < 4), isZero s.mlf.dv[k] = true) →
    s.mlf.tv = Vector.replicate 4 0 → s.mlf.bin = Vector.replicate 4 0 → s.mlf.bout = Vector.replicate 4 0 →
    ∃ t, exec (.mlfProcess n) s = .next t ∧
      (∀ i, i < n → t.mem.word? (ramAddr .mlfOut i) = some 0x00000000) ∧
      t.mlf.v = Vector.replicate 4 0 ∧ (∀ k (h : k < 4), isZero t.mlf.dv[k] = true) ∧
      t.mlf.tv = Vector.replicate 4 0 ∧ t.mlf.bin = Vector.replicate 4 0 ∧ t.mlf.bout = Vector.replicate 4 0

/-! ### the ADSR envelope -/

/-- R407, R409, R410, R413: one frame of the ADSR over a written gate and input: the edge, one step of the new phase's
recurrence, and the output word. -/
def Obligations.AdsrFrame : Prop :=
  ∀ (i : Nat) (s : State) (w : Word), ParamsWritten .adsr i s → s.mem.word? (ramAddr .adsrIn i) = some w →
    let g := flt fzero (s.value .adsrGate i)
    let a := s.adsr
    let ph : AdsrPhase :=
      if g = true ∧ a.prevGate = false ∧ (a.phase = .idle ∨ a.phase = .release) then .attack
      else if g = false ∧ a.prevGate = true ∧ a.phase ≠ .idle then .release
      else a.phase
    let done : Bool :=
      if g = true ∧ a.prevGate = false ∧ (a.phase = .idle ∨ a.phase = .release) then false else a.releaseCompleted
    let up := fadd a.coefs.attackBase (fmul a.level a.coefs.attackCoef)
    let down := fadd a.coefs.decayBase (fmul a.level a.coefs.decayCoef)
    let out := fadd a.coefs.releaseBase (fmul a.level a.coefs.releaseCoef)
    let sus := widen a.sustainLevel
    let n := (unitFrame .adsr i s).adsr
    ∃ level : Double,
      HoldsSample (unitFrame .adsr i s).mem (ramAddr .adsrOut i) (fmul (widen w) level) ∧ Stored n.level level ∧
      n.prevGate = g ∧
      (ph = .idle → level = a.level ∧ n.phase = .idle ∧ n.releaseCompleted = done) ∧
      (ph = .attack → n.releaseCompleted = done ∧
        (fle fone up = true → level = fone ∧ n.phase = .decay) ∧
        (fle fone up = false → level = up ∧ n.phase = .attack)) ∧
      (ph = .decay → n.releaseCompleted = done ∧
        (fle down sus = true → level = sus ∧ n.phase = .sustain) ∧
        (fle down sus = false → level = down ∧ n.phase = .decay)) ∧
      (ph = .sustain → level = a.level ∧ n.phase = .sustain ∧ n.releaseCompleted = done) ∧
      (ph = .release →
        (fle out fzero = true → level = fzero ∧ n.phase = .idle ∧ n.releaseCompleted = true) ∧
        (fle out fzero = false → level = out ∧ n.phase = .release ∧ n.releaseCompleted = done))

/-- The duration of a segment (R402) is EPS for a time that is zero, negative or -infinity, and +infinity for
+infinity. -/
def Obligations.SegmentDuration : Prop :=
  ∀ (tm : Word) (sr : Double), isFinite sr = true → fle fone sr = true →
    rate tm sr = fmax (fmul (widen tm) sr) (lit 1 1000000000) ∧
    (fle (widen tm) fzero = true → rate tm sr = lit 1 1000000000) ∧
    (tm = 0x7F800000 → rate tm sr = 0x7FF0000000000000)

/-- R403's formulas, for every setting of the registers: each coef is EXP((-LOG((1.0 + r) / r)) / n) at its segment's
ratio and duration (R401, R402), and the bases follow. The three base formulas are the spec's own reading (R403: "The
source does not write them out; these are the reference formulas [from general knowledge, not in source]"). The coefs
lie in [0, 1]; a time that is zero or negative gives +0.0 and an infinite time gives 1;
a segment of at most 2^50 samples, and every segment of the reset registers, has a coefficient below 1 (R404, R417).
The bound 2^50 is the statement's own: far below it, e^x is more than one ulp under 1. -/
def Obligations.CoefficientRange : Prop :=
  (∀ (sr sus at' dt rt : Word),
    let c := coefficients sr sus at' dt rt
    let eps := lit 1 1000000000
    let rA := fmax (lit 3 10) eps
    let rDR := fmax (lit 1 1000) eps
    let n := fun tm : Word => fmax (fmul (widen tm) (widen sr)) eps
    let coefOf := fun n r => exp64 (fdiv (fneg (log64 (fdiv (fadd fone r) r))) n)
    c.attackCoef = coefOf (n at') rA ∧ c.attackBase = fmul (fadd fone rA) (fsub fone c.attackCoef) ∧
    c.decayCoef = coefOf (n dt) rDR ∧ c.decayBase = fmul (fsub (widen sus) rDR) (fsub fone c.decayCoef) ∧
    c.releaseCoef = coefOf (n rt) rDR ∧ c.releaseBase = fmul (fneg rDR) (fsub fone c.releaseCoef)) ∧
  (∀ (sr sus at' dt rt : Word), isFinite (widen sr) = true → fle fone (widen sr) = true →
    let c := coefficients sr sus at' dt rt
    let long := ofInt 1125899906842624
    Between fzero c.attackCoef fone ∧ Between fzero c.decayCoef fone ∧ Between fzero c.releaseCoef fone ∧
    (fle (widen at') fzero = true → c.attackCoef = fzero) ∧ (fle (widen dt) fzero = true → c.decayCoef = fzero) ∧
    (fle (widen rt) fzero = true → c.releaseCoef = fzero) ∧
    (at' = 0x7F800000 → c.attackCoef = fone) ∧ (dt = 0x7F800000 → c.decayCoef = fone) ∧
    (rt = 0x7F800000 → c.releaseCoef = fone) ∧
    (fle (rate at' (widen sr)) long = true → flt c.attackCoef fone = true) ∧
    (fle (rate dt (widen sr)) long = true → flt c.decayCoef fone = true) ∧
    (fle (rate rt (widen sr)) long = true → flt c.releaseCoef fone = true)) ∧
  (let c := State.reset.adsr.coefs
   flt c.attackCoef fone = true ∧ flt c.decayCoef fone = true ∧ flt c.releaseCoef fone = true)

/-- The properties of R22 hold of the functions the units use, whatever the open functions are: the ten pointwise ones,
MONO (LOG's on (0, +inf), as R22 has it), and FAITHFUL wherever the real function has a value. The unit in the last place
is read as the widest one, that of the larger of the result and the real value (`WithinOneUlp`; log 5, DEDUCED). -/
def Obligations.TranscendentalPoints : Prop :=
  (exp64 0x0000000000000000 = fone ∧ exp64 0x8000000000000000 = fone) ∧
  (∀ x, fle x (ofInt (-1000)) = true → exp64 x = fzero) ∧
  (∀ x, fle x fzero = true → Between fzero (exp64 x) fone) ∧
  (∀ x, isFinite x = true → flt fone x = true → isFinite (log64 x) = true ∧ flt fzero (log64 x) = true) ∧
  (tanh64 0x0000000000000000 = 0x0000000000000000 ∧ tanh64 0x8000000000000000 = 0x8000000000000000) ∧
  (∀ x, isNaN x = false → tanh64 (fneg x) = fneg (tanh64 x)) ∧
  (∀ x, isNaN x = false → Between (fneg fone) (tanh64 x) fone) ∧
  sin64 0x0000000000000000 = 0x0000000000000000 ∧
  (∀ (x : Double) (k : Int), fval x = k → -1022 ≤ k → k ≤ 1023 →
    pow264 x = pack64 false ((k + 1023).toNat * 2 ^ 52)) ∧
  (∀ x, Between (ofInt (-16)) x (ofInt 16) → flt fzero (pow264 x) = true) ∧
  (∀ x y, fle x y = true → fle (exp64 x) (exp64 y) = true ∧ fle (tanh64 x) (tanh64 y) = true ∧
    fle (pow264 x) (pow264 y) = true ∧ (flt fzero x = true → isFinite y = true → fle (log64 x) (log64 y) = true)) ∧
  (∀ x, isFinite x = true →
    WithinOneUlp (exp64 x) (Real.exp (fval x)) ∧ WithinOneUlp (tanh64 x) (Real.tanh (fval x)) ∧
    WithinOneUlp (sin64 x) (Real.sin (fval x)) ∧ WithinOneUlp (pow264 x) ((2 : ℝ) ^ ((fval x : ℚ) : ℝ)) ∧
    (flt fzero x = true → WithinOneUlp (log64 x) (Real.log (fval x))))

/-! ### invariants of every step -/

/-- The state after reset is safe. -/
def Obligations.ResetIsSafe : Prop := Safe State.reset

/-- Every step keeps memory in its canonical form. That form, a list of the written bytes at rising addresses, is the
model's own representation and no rule of the spec (log 10, DESIGN CHOICE). -/
def Obligations.StepKeepsMemoryCanonical : Prop :=
  ∀ s t : State, s.mem.wf = true → step s = .next t → t.mem.wf = true

/-- Every step keeps the registers at legal values (R34, R39, R40, R45, R48, R461). -/
def Obligations.StepKeepsRegistersLegal : Prop :=
  ∀ s t : State, RegistersLegal s → step s = .next t → RegistersLegal t

/-- Every step keeps the WTO phases in [0, 1) and free of -0.0 (R55, R268, R269). -/
def Obligations.StepKeepsWtoPhases : Prop :=
  ∀ s t : State, RegistersLegal s → WtoPhasesInRange s → step s = .next t → WtoPhasesInRange t

/-- Every step keeps the PBO phase in [0, 1] (R306). -/
def Obligations.StepKeepsPboPhase : Prop :=
  ∀ s t : State, RegistersLegal s → PboPhaseInRange s → step s = .next t → PboPhaseInRange t

/-- Every step keeps the ADSR level at +0.0 while the phase is IDLE (R412, which the spec derives). -/
def Obligations.StepKeepsIdleLevel : Prop :=
  ∀ s t : State, AdsrIdleIsZero s → step s = .next t → AdsrIdleIsZero t

/-- Every step keeps the six coefficients equal to those of the registers (R403, R405, R487). -/
def Obligations.StepKeepsCoefficients : Prop :=
  ∀ s t : State, RegistersLegal s → CoefficientsFollow s → step s = .next t → CoefficientsFollow t
end

