-- ==== Sys2Proof/Laws/Decode.lean ====
section
/-! SUPPORT. The laws of command words and bus records: a word is its four fields, and what the decoder and the
legality predicate answer for a word given by its fields. -/

namespace Sys2Proof

/-- The fields of a word put together from its fields (R140). -/
theorem fields_append (u o : BitVec 4) (r : BitVec 8) (a : BitVec 16) :
    cmdUnit (u ++ o ++ r ++ a) = u ∧ cmdOp (u ++ o ++ r ++ a) = o ∧ cmdRsvd (u ++ o ++ r ++ a) = r ∧
      cmdArg (u ++ o ++ r ++ a) = a := by
  simp only [cmdUnit, cmdOp, cmdRsvd, cmdArg]
  refine ⟨?_, ?_, ?_, ?_⟩ <;> 
  · apply BitVec.eq_of_getLsbD_eq
    intro i hi
    simp only [BitVec.getLsbD_extractLsb', BitVec.getLsbD_append]
    interval_cases i <;> simp

/-- A word is its four fields (R140). -/
theorem append_fields (w : BitVec 32) : cmdUnit w ++ cmdOp w ++ cmdRsvd w ++ cmdArg w = w := by
  apply BitVec.eq_of_getLsbD_eq
  intro i hi
  simp only [cmdUnit, cmdOp, cmdRsvd, cmdArg]
  simp only [BitVec.getLsbD_extractLsb', BitVec.getLsbD_append]
  interval_cases i <;> simp

/-- Every word is put together from four fields. -/
theorem word_cases (w : BitVec 32) : ∃ (u o : BitVec 4) (r : BitVec 8) (a : BitVec 16), w = u ++ o ++ r ++ a :=
  ⟨_, _, _, _, (append_fields w).symm⟩

/-- The decoder on a word given by its fields. -/
theorem decodeCommand_append (u o : BitVec 4) (r : BitVec 8) (a : BitVec 16) :
    decodeCommand (u ++ o ++ r ++ a) = if r ≠ 0 then .error .reservedBits else decodeUnitOp u.toNat o.toNat a := by
  obtain ⟨h1, h2, h3, h4⟩ := fields_append u o r a
  simp only [decodeCommand, h1, h2, h3, h4]

/-- The predicate of R145 on a word given by its fields. -/
theorem legalCommand_append (u o : BitVec 4) (r : BitVec 8) (a : BitVec 16) :
    legalCommand (u ++ o ++ r ++ a) = (r == 0
    && ((u == 0 && (o == 0 || o == 1 || o == 2) && a == 0)
      || ((u == 1 || u == 2 || u == 3 || u == 4) && (o == 1 || o == 2) && a == 0)
      || ((u == 1 || u == 2 || u == 3 || u == 4) && o == 3))) := by
  obtain ⟨h1, h2, h3, h4⟩ := fields_append u o r a
  simp only [legalCommand, h1, h2, h3, h4]

/-- A record put together from its fields decodes to the transaction it stands for (R148). -/
theorem decodeBus_busRecord (rw : Bool) (a v : Word) :
    decodeBus (busRecord rw a v) = if rw then .busWrite a v else .busRead a := by
  have h1 : (busRecord rw a v).getLsbD 64 = rw := by
    simp only [busRecord, BitVec.getLsbD_append]
    simp
  have h2 : (busRecord rw a v).extractLsb' 32 32 = a := by
    apply BitVec.eq_of_getLsbD_eq
    intro i hi
    simp only [busRecord, BitVec.getLsbD_extractLsb', BitVec.getLsbD_append]
    interval_cases i <;> simp
  have h3 : (busRecord rw a v).extractLsb' 0 32 = v := by
    apply BitVec.eq_of_getLsbD_eq
    intro i hi
    simp only [busRecord, BitVec.getLsbD_extractLsb', BitVec.getLsbD_append]
    interval_cases i <;> simp
  simp only [decodeBus, h1, h2, h3]

/-- The operations decodeUnitOp accepts (R143, R145). -/
theorem decodeUnitOp_ok (u o : Nat) (a : BitVec 16) :
    (∃ i, decodeUnitOp u o a = .ok i) ↔
      (u = 0 ∧ o ≤ 2 ∧ a = 0) ∨ (1 ≤ u ∧ u ≤ 4 ∧ 1 ≤ o ∧ o ≤ 2 ∧ a = 0) ∨ (1 ≤ u ∧ u ≤ 4 ∧ o = 3) := by
  constructor
  · rintro ⟨i, h⟩
    unfold decodeUnitOp at h
    by_cases ha : a = 0#16
    · subst ha
      split at h <;> first
        | (clear h; decide)
        | (split at h <;> cases h)
    · split at h <;> first
        | (clear h; omega)
        | simp [withoutArg, ha] at h
        | (split at h <;> cases h)
  · rintro (⟨rfl, h, rfl⟩ | ⟨h1, h2, h3, h4, rfl⟩ | ⟨h1, h2, rfl⟩)
    · interval_cases o <;> exact ⟨_, rfl⟩
    · interval_cases u <;> interval_cases o <;> exact ⟨_, rfl⟩
    · interval_cases u <;> exact ⟨_, rfl⟩

/-- A word is legal exactly when the decoder accepts it (R145, R146). -/
theorem legalCommand_iff (w : BitVec 32) : legalCommand w = true ↔ ∃ i, decodeCommand w = .ok i := by
  obtain ⟨u, o, r, a, rfl⟩ := word_cases w
  rw [legalCommand_append, decodeCommand_append]
  by_cases hr : r = 0
  · rw [if_neg (by simpa using hr), decodeUnitOp_ok]
    have hu := u.isLt
    have ho := o.isLt
    have key : ∀ (x : BitVec 4) (k : Nat), k < 16 → (x = BitVec.ofNat 4 k ↔ x.toNat = k) := by
      intro x k hk
      rw [← BitVec.toNat_inj]
      simp [Nat.mod_eq_of_lt hk]
    simp only [Bool.and_eq_true, Bool.or_eq_true, beq_iff_eq, hr, true_and]
    have k0 := fun x => key x 0 (by decide)
    have k1 := fun x => key x 1 (by decide)
    have k2 := fun x => key x 2 (by decide)
    have k3 := fun x => key x 3 (by decide)
    have k4 := fun x => key x 4 (by decide)
    simp only [show (0 : BitVec 4) = BitVec.ofNat 4 0 from rfl, show (1 : BitVec 4) = BitVec.ofNat 4 1 from rfl,
      show (2 : BitVec 4) = BitVec.ofNat 4 2 from rfl, show (3 : BitVec 4) = BitVec.ofNat 4 3 from rfl,
      show (4 : BitVec 4) = BitVec.ofNat 4 4 from rfl, k0, k1, k2, k3, k4]
    by_cases ha : a = 0 <;> simp only [ha, and_true, and_false, false_or] <;> omega
  · have hb : (r == 0#8) = false := by simpa using hr
    rw [if_pos hr]
    simp [hb]

end Sys2Proof
end

