-- ==== Sys2Proof/Laws/Map.lean ====
section
/-! SUPPORT. The laws of the address map: the mapped words are those the tables of 10_state.md list, and what each
region of the map names. -/

namespace Sys2Proof.Machine

theorem aligned_iff (a : Word) : aligned a = true ↔ a.toNat % 4 = 0 := by
  simp only [aligned, beq_iff_eq]
  constructor
  · intro h
    have := congrArg BitVec.toNat h
    simpa [BitVec.extractLsb'_toNat] using this
  · intro h
    apply BitVec.eq_of_toNat_eq
    simpa [BitVec.extractLsb'_toNat] using h

theorem aligned_eq_false (a : Word) (h : a.toNat % 4 ≠ 0) : aligned a = false := by
  rw [← Bool.not_eq_true, aligned_iff]
  exact h

/-- The register words of the map, as intervals. -/
def registerWords : List (Nat × Nat) :=
  [ (0x000, 0x014), (0x100, 0x120), (0x180, 0x1FC), (0x200, 0x21C), (0x240, 0x244), (0x300, 0x318), (0x340, 0x3DC),
    (0x400, 0x420), (0x440, 0x440), (0x448, 0x47C), (0x800, 0x810), (0x900, 0xA3C) ]

/-- Below 0xA40 the mapped words are the register words. -/
theorem locate_isSome_low (a : Nat) (h : a < 0xA40) (h4 : a % 4 = 0) : (locate a).isSome = true ↔ InMap a := by
  have key : ∀ k, k < 0x290 →
      (locate (4 * k)).isSome = registerWords.any fun r => decide (r.1 ≤ 4 * k) && decide (4 * k ≤ r.2) := by
    decide +kernel
  obtain ⟨k, rfl⟩ : ∃ k, a = 4 * k := ⟨a / 4, by omega⟩
  rw [key k (by omega)]
  simp only [registerWords, List.any_cons, List.any_nil, Bool.or_false, Bool.or_eq_true, Bool.and_eq_true,
    decide_eq_true_eq, InMap]
  omega

/-- What a word of a sample RAM names. -/
theorem locate_sampleRam (a : Nat) (h1 : 0x10000 ≤ a) (h2 : a < 0x27000) :
    locate a = if a % 0x1000 < 0x200 then some (.ram a) else none := by
  have hb : Config.bufLen = 128 := rfl
  simp only [locate, locateSampleRam, hb, Nat.not_lt.2 h1, Nat.lt_trans h2 (by decide : 0x27000 < 0x100000), if_true,
    if_false]
  exact if_congr (by omega) rfl rfl

/-- What a word of the wavetable RAM names. -/
theorem locate_wavetable (a : Nat) (h1 : 0x100000 ≤ a) (h2 : a < 0x240000) :
    locate a = if a % 0x4000 < 0x2000 then some (.ram a) else none := by
  have ht : Config.wtNumTypes = 5 := rfl
  have hm : Config.wtMaxTables = 16 := rfl
  have hl : Config.wtLen = 2048 := rfl
  simp only [locate, locateWavetable, ht, hm, hl, Nat.not_lt.2 h1,
    Nat.not_lt.2 (Nat.le_trans (by decide : 0x10000 ≤ 0x100000) h1), if_false]
  exact if_congr (by omega) rfl rfl

/-- Between and above the regions nothing is mapped. -/
theorem locate_gap (a : Nat) (h : (0xA40 ≤ a ∧ a < 0x10000) ∨ (0x27000 ≤ a ∧ a < 0x100000) ∨ 0x240000 ≤ a) :
    locate a = none := by
  have hu : Config.unisonMax = 16 := rfl
  have ht : Config.wtNumTypes = 5 := rfl
  have hm : Config.wtMaxTables = 16 := rfl
  unfold locate locateRegister locateSampleRam locateWavetable
  rw [hu, ht, hm]
  dsimp only
  repeat' split
  all_goals first | rfl | omega

/-- A word address is mapped exactly when a row of 10_state.md names it (R102). -/
theorem locate_isSome (a : Nat) (h : a % 4 = 0) : (locate a).isSome = true ↔ InMap a := by
  rcases Nat.lt_or_ge a 0xA40 with h1 | h1
  · exact locate_isSome_low a h1 h
  · by_cases h2 : 0x10000 ≤ a ∧ a < 0x27000
    · rw [locate_sampleRam a h2.1 h2.2]
      unfold InMap
      split <;> simp <;> omega
    · by_cases h3 : 0x100000 ≤ a ∧ a < 0x240000
      · rw [locate_wavetable a h3.1 h3.2]
        unfold InMap
        split <;> simp <;> omega
      · rw [locate_gap a (by omega)]
        unfold InMap
        simp
        omega

theorem locate_none (a : Nat) (h : a % 4 = 0) (hm : ¬ InMap a) : locate a = none := by
  rw [← locate_isSome a h] at hm
  simpa using hm

/-- A RAM word names itself. -/
theorem locate_ram (a : Nat) (h : InRam a) : locate a = some (.ram a) := by
  obtain ⟨⟨h0, h1⟩, h2⟩ := h
  by_cases h3 : a < 0x27000
  · rw [locate_sampleRam a h2 h3, if_pos (by omega)]
  · rw [locate_wavetable a (by omega) (by omega), if_pos (by omega)]

/-- Every mapped word below the sample RAMs is a register word. -/
theorem locate_register : ∀ a, a < 0xA40 → ∀ l, locate a = some l → ∀ b, l ≠ .ram b := by
  have h : ∀ a, a < 0xA40 → (match locate a with | some (.ram _) => false | _ => true) = true := by decide +kernel
  intro a ha l hl b hb
  have := h a ha
  rw [hl, hb] at this
  cases this

end Sys2Proof.Machine
end

