-- ==== Sys2Proof/Laws/Memory.lean ====
section
/-! SUPPORT. The laws of RAM: a byte or word read after a write, the canonical form kept, and what a word write
leaves alone. -/

namespace Sys2Proof.Machine

theorem Memory.get_set (m : Memory) (a c : Nat) (x : Byte) :
    (m.set a x).get c = if c = a then some x else m.get c := by
  induction m with
  | nil => simp [Memory.set, Memory.get]
  | cons head m ih =>
    obtain ⟨b, v⟩ := head
    rcases Nat.lt_trichotomy a b with h | h | h
    · simp [Memory.set, Memory.get, h]
    · subst h
      by_cases hc : c = a <;> simp [Memory.set, Memory.get, hc]
    · have h1 : ¬ a < b := by omega
      have h2 : a ≠ b := by omega
      simp only [Memory.set, h1, h2, if_false, Memory.get]
      by_cases hc : c = b
      · subst hc
        simp [Ne.symm h2]
      · simp [hc, ih]

/-- The canonical form, as a statement about every pair of neighbours. -/
theorem Memory.wf_cons (a : Nat) (x : Byte) (m : Memory) :
    Memory.wf ((a, x) :: m) = true ↔ (∀ b v rest, m = (b, v) :: rest → a < b) ∧ m.wf = true := by
  cases m with
  | nil => simp [Memory.wf]
  | cons head rest =>
    obtain ⟨b, v⟩ := head
    simp [Memory.wf]

theorem Memory.set_head (m : Memory) (a : Nat) (x : Byte) :
    ∀ b v rest, m.set a x = (b, v) :: rest → b = a ∨ ∃ v' rest', m = (b, v') :: rest' := by
  cases m with
  | nil =>
    intro b v rest h
    simp [Memory.set] at h
    exact .inl h.1.1.symm
  | cons head m =>
    obtain ⟨c, w⟩ := head
    intro b v rest h
    simp only [Memory.set] at h
    split at h
    · simp at h; exact .inl h.1.1.symm
    · split at h
      · simp at h; exact .inl h.1.1.symm
      · simp at h; exact .inr ⟨w, m, by simp [h.1.1]⟩

/-- A byte write keeps the canonical form. -/
theorem Memory.wf_set (m : Memory) (a : Nat) (x : Byte) (h : m.wf = true) : (m.set a x).wf = true := by
  induction m with
  | nil => rfl
  | cons head m ih =>
    obtain ⟨b, v⟩ := head
    rw [Memory.wf_cons] at h
    simp only [Memory.set]
    split
    · next hab =>
      rw [Memory.wf_cons]
      refine ⟨fun b' v' r hr => ?_, by rw [Memory.wf_cons]; exact h⟩
      simp at hr
      omega
    · split
      · next hab =>
        subst hab
        rw [Memory.wf_cons]
        exact h
      · next h1 h2 =>
        rw [Memory.wf_cons]
        refine ⟨fun c w rest hc => ?_, ih h.2⟩
        rcases Memory.set_head m a x c w rest hc with hca | ⟨v', rest', hm⟩
        · omega
        · exact h.1 c v' rest' hm

/-- A word write keeps the canonical form. -/
theorem Memory.wf_setWord (m : Memory) (a : Nat) (v : Word) (h : m.wf = true) : (m.setWord a v).wf = true :=
  Memory.wf_set _ _ _ (Memory.wf_set _ _ _ (Memory.wf_set _ _ _ (Memory.wf_set _ _ _ h)))

/-- A word write leaves every byte outside its four alone. -/
theorem Memory.get_setWord_of_ne (m : Memory) (a c : Nat) (v : Word) (h : c < a ∨ a + 4 ≤ c) :
    (m.setWord a v).get c = m.get c := by
  simp only [Memory.setWord, Memory.get_set]
  rw [if_neg (by omega), if_neg (by omega), if_neg (by omega), if_neg (by omega)]

/-- The four bytes of a written word, lowest address first (R103). -/
theorem Memory.get_setWord_bytes (m : Memory) (a : Nat) (v : Word) :
    (m.setWord a v).get a = some (v.extractLsb' 0 8) ∧ (m.setWord a v).get (a + 1) = some (v.extractLsb' 8 8) ∧
      (m.setWord a v).get (a + 2) = some (v.extractLsb' 16 8) ∧
      (m.setWord a v).get (a + 3) = some (v.extractLsb' 24 8) := by
  refine ⟨?_, ?_, ?_, ?_⟩ <;> simp [Memory.setWord, Memory.get_set]

theorem bytes_of_word (v : Word) :
    v.extractLsb' 24 8 ++ v.extractLsb' 16 8 ++ v.extractLsb' 8 8 ++ v.extractLsb' 0 8 = v := by
  apply BitVec.eq_of_getLsbD_eq
  intro i hi
  simp only [BitVec.getLsbD_append, BitVec.getLsbD_extractLsb']
  split
  · simp_all
  · split
    · rw [show 8 + (i - 8) = i by omega]; simp; omega
    · split
      · rw [show 16 + (i - 8 - 8) = i by omega]; simp; omega
      · rw [show 24 + (i - 8 - 8 - 8) = i by omega]; simp; omega

/-- A word read after a write to it gives the value written. -/
theorem Memory.word?_setWord (m : Memory) (a : Nat) (v : Word) : (m.setWord a v).word? a = some v := by
  obtain ⟨h0, h1, h2, h3⟩ := Memory.get_setWord_bytes m a v
  simp [Memory.word?, h0, h1, h2, h3, bytes_of_word]

/-- A word write leaves every word that does not overlap it alone. -/
theorem Memory.word?_setWord_of_ne (m : Memory) (a c : Nat) (v : Word) (h : c + 4 ≤ a ∨ a + 4 ≤ c) :
    (m.setWord a v).word? c = m.word? c := by
  simp only [Memory.word?]
  rw [Memory.get_setWord_of_ne _ _ _ _ (by omega), Memory.get_setWord_of_ne _ _ _ _ (by omega),
    Memory.get_setWord_of_ne _ _ _ _ (by omega), Memory.get_setWord_of_ne _ _ _ _ (by omega)]

/-- Memories that agree on every byte agree on every word. -/
theorem Memory.word?_congr (m m' : Memory) (a : Nat) (h : ∀ c, a ≤ c → c < a + 4 → m.get c = m'.get c) :
    m.word? a = m'.word? a := by
  simp only [Memory.word?]
  rw [h a (by omega) (by omega), h (a + 1) (by omega) (by omega), h (a + 2) (by omega) (by omega),
    h (a + 3) (by omega) (by omega)]

/-- Reading a written word draws nothing. -/
theorem loadWord_of_word? (m : Memory) (a draws : Nat) (v : Word) (h : m.word? a = some v) :
    loadWord m a draws = (v, draws) := by
  simp [loadWord, h]

/-- Reading an unwritten word is a free draw (R53). -/
theorem loadWord_of_unwritten (m : Memory) (a draws : Nat) (h : m.word? a = none) :
    loadWord m a draws = (Config.freeWord draws, draws + 1) := by
  simp [loadWord, h]

end Sys2Proof.Machine
end

