-- ==== Sys2Proof/Laws/Bus.lean ====
section
/-! SUPPORT. What a bus transaction does, case by case: misaligned, unmapped, a register word, a RAM word, CMD. -/

namespace Sys2Proof.Machine

theorem raise_eq_withError (st : Status) (e : ErrCode) : st.raise e = st.withError e := by cases e <;> rfl

/-- The fields of the STATUS word (R35). -/
theorem Status.word_fields (u : Status) :
    (u.word.getLsbD 0 = u.errCmd ∧ u.word.getLsbD 1 = u.errLen ∧ u.word.getLsbD 2 = u.errCfg ∧
      u.word.getLsbD 3 = u.errAddr ∧ u.word.getLsbD 4 = u.errAlign ∧ u.word.extractLsb' 5 3 = 0) ∧
    (u.word.getLsbD 8 = u.nonsilentWto ∧ u.word.getLsbD 9 = u.nonsilentPbo ∧ u.word.getLsbD 10 = u.nonsilentMlf ∧
      u.word.getLsbD 11 = u.nonsilentAdsr ∧ u.word.extractLsb' 12 4 = 0) ∧
    (u.word.getLsbD 16 = u.initWto ∧ u.word.getLsbD 17 = u.initPbo ∧ u.word.getLsbD 18 = u.initMlf ∧
      u.word.getLsbD 19 = u.initAdsr ∧ u.word.extractLsb' 20 8 = 0 ∧ u.word.extractLsb' 28 4 = u.lastErr) := by
  have bit : ∀ {w : Nat} {x y : BitVec w}, (∀ i, i < w → x.getLsbD i = y.getLsbD i) → x = y := fun h =>
    BitVec.eq_of_getLsbD_eq h
  refine ⟨⟨?_, ?_, ?_, ?_, ?_, bit fun i h => ?_⟩, ⟨?_, ?_, ?_, ?_, bit fun i h => ?_⟩,
    ?_, ?_, ?_, ?_, bit fun i h => ?_, bit fun i h => ?_⟩
  all_goals
    try rw [BitVec.getLsbD_extractLsb']
    simp only [Status.word, BitVec.getLsbD_append]
    try interval_cases i
  all_goals first | (norm_num; done) | (norm_num; rfl)

theorem execBusRead_misaligned (a : Word) (s : State) (h : a.toNat % 4 ≠ 0) :
    execBusRead a s = .next { raiseError .align s with readData := 0 } := by
  simp [execBusRead, memRead, aligned_eq_false a h]

theorem execBusRead_unmapped (a : Word) (s : State) (h : a.toNat % 4 = 0) (hm : locate a.toNat = none) :
    execBusRead a s = .next { raiseError .addr s with readData := 0 } := by
  simp [execBusRead, memRead, (aligned_iff a).2 h, hm]

theorem execBusRead_mapped (a : Word) (s : State) (l : Loc) (h : a.toNat % 4 = 0) (hm : locate a.toNat = some l) :
    execBusRead a s = .next { s with readData := (readLoc s l).1, draws := (readLoc s l).2 } := by
  simp [execBusRead, memRead, (aligned_iff a).2 h, hm]

theorem readLoc_register (s : State) (l : Loc) (h : ∀ b, l ≠ .ram b) : readLoc s l = (readReg s l, s.draws) := by
  cases l <;> first | rfl | exact absurd rfl (h _)

/-- A read of a register word gives `readReg` and changes nothing else. -/
theorem execBusRead_register (a : Word) (s : State) (l : Loc) (h : a.toNat % 4 = 0) (hm : locate a.toNat = some l)
    (hr : ∀ b, l ≠ .ram b) : execBusRead a s = .next { s with readData := readReg s l } := by
  rw [execBusRead_mapped a s l h hm, readLoc_register s l hr]

theorem execBusWrite_misaligned (a v : Word) (s : State) (h : a.toNat % 4 ≠ 0) :
    execBusWrite a v s = .next (raiseError .align s) := by
  simp [execBusWrite, memWrite, aligned_eq_false a h]

theorem execBusWrite_unmapped (a v : Word) (s : State) (h : a.toNat % 4 = 0) (hm : locate a.toNat = none) :
    execBusWrite a v s = .next (raiseError .addr s) := by
  simp [execBusWrite, memWrite, (aligned_iff a).2 h, hm]

theorem execBusWrite_mapped (a v : Word) (s : State) (l : Loc) (h : a.toNat % 4 = 0)
    (hm : locate a.toNat = some l) (hc : l ≠ .cmd) : execBusWrite a v s = .next (writeLoc v s l) := by
  simp only [execBusWrite, memWrite, (aligned_iff a).2 h, Bool.not_true, Bool.false_eq_true, if_false, hm]

theorem locate_cmd : locate (0x010 : Word).toNat = some .cmd := by decide

theorem execBusWrite_cmd (w : Word) (s : State) : execBusWrite 0x010 w s = cmdWrite w s := by
  simp only [execBusWrite, memWrite]
  rw [show aligned (0x010 : Word) = true from by decide, locate_cmd]
  rfl

/-- Every word of the map but CMD's own is at an address that is not CMD's (R32). -/
theorem locate_eq_cmd (a : Nat) (h : locate a = some .cmd) : a = 0x010 := by
  have key : ∀ a, a < 0xA40 → locate a = some .cmd → a = 0x010 := by decide +kernel
  rcases Nat.lt_or_ge a 0xA40 with h1 | h1
  · exact key a h1 h
  · by_cases h2 : 0x10000 ≤ a ∧ a < 0x27000
    · rw [locate_sampleRam a h2.1 h2.2] at h
      split at h <;> cases h
    · by_cases h3 : 0x100000 ≤ a ∧ a < 0x240000
      · rw [locate_wavetable a h3.1 h3.2] at h
        split at h <;> cases h
      · rw [locate_gap a (by omega)] at h
        cases h

/-- A word the decoder accepts is never a bus transaction. -/
theorem decodeCommand_isCommand (w : BitVec 32) (i : Instr) (h : decodeCommand w = .ok i) :
    (∀ a, i ≠ .busRead a) ∧ (∀ a v, i ≠ .busWrite a v) := by
  obtain ⟨u, o, r, a, rfl⟩ := word_cases w
  rw [decodeCommand_append] at h
  split at h
  · cases h
  · unfold decodeUnitOp at h
    split at h
    all_goals try simp only [withoutArg] at h
    all_goals try split at h
    all_goals cases h
    all_goals exact ⟨fun _ => nofun, fun _ _ => nofun⟩

/-- A CMD write of a legal word executes the word's command (R195). -/
theorem cmdWrite_of_decode (w : BitVec 32) (i : Instr) (s : State) (h : decodeCommand w = .ok i) :
    cmdWrite w s = exec i s := by
  obtain ⟨h1, h2⟩ := decodeCommand_isCommand w i h
  simp only [cmdWrite, h]
  cases i <;> first | rfl | exact absurd rfl (h1 _) | exact absurd rfl (h2 _ _)

/-- A CMD write of an illegal word records ERR_CMD and does nothing else (R194). -/
theorem cmdWrite_of_reject (w : BitVec 32) (e : Reject) (s : State) (h : decodeCommand w = .error e) :
    cmdWrite w s = .next (raiseError .cmd s) := by
  simp only [cmdWrite, h]

/-- Every bus write is one of five cases. -/
theorem execBusWrite_cases (a v : Word) (s : State) :
    (a.toNat % 4 ≠ 0 ∧ execBusWrite a v s = .next (raiseError .align s)) ∨
    (a.toNat % 4 = 0 ∧ locate a.toNat = none ∧ execBusWrite a v s = .next (raiseError .addr s)) ∨
    (∃ l, a.toNat % 4 = 0 ∧ locate a.toNat = some l ∧ l ≠ .cmd ∧ execBusWrite a v s = .next (writeLoc v s l)) ∨
    (∃ e, a = 0x010 ∧ decodeCommand v = .error e ∧ execBusWrite a v s = .next (raiseError .cmd s)) ∨
    (∃ i, a = 0x010 ∧ decodeCommand v = .ok i ∧ execBusWrite a v s = exec i s) := by
  by_cases h : a.toNat % 4 = 0
  · rcases hl : locate a.toNat with _ | l
    · exact .inr (.inl ⟨h, rfl, execBusWrite_unmapped a v s h hl⟩)
    · by_cases hc : l = .cmd
      · subst hc
        have ha : a = 0x010 := BitVec.eq_of_toNat_eq (locate_eq_cmd _ hl)
        subst ha
        rcases hd : decodeCommand v with e | i
        · exact .inr (.inr (.inr (.inl ⟨e, rfl, rfl, (execBusWrite_cmd v s).trans (cmdWrite_of_reject v e s hd)⟩)))
        · exact .inr (.inr (.inr (.inr ⟨i, rfl, rfl, (execBusWrite_cmd v s).trans (cmdWrite_of_decode v i s hd)⟩)))
      · exact .inr (.inr (.inl ⟨l, h, rfl, hc, execBusWrite_mapped a v s l h hl hc⟩))
  · exact .inl ⟨h, execBusWrite_misaligned a v s h⟩

end Sys2Proof.Machine
end

