-- ==== Sys2Proof/Laws/Enclosure.lean ====
section
/-! SUPPORT. The enclosures of Machine/Enclosure.lean hold the real functions they are named for (00_scope.md R22
FAITHFUL), how narrow they are, and that they grow with their argument. -/

namespace Sys2Proof.Machine

-- one theorem at a time, here and in the files below: in parallel the package as one text needs too much memory
set_option Elab.async false

/-! ### the lower ends -/

/-- At most ln(u / 2^1074). -/
def logLower (u : Nat) : Rat :=
  logExponent u * (if 0 ≤ logExponent u then ln2Below else ln2Above) + logBelow (logArg u)

/-- At most 2^q. -/
def pow2Lower (q : Rat) : Rat := 2 ^ q.floor * min 2 (expBelow ((q - q.floor) * ln2Below))

/-- At most sin x. -/
def sinLower (x : Rat) : Rat := sinSum x (sinTerms x) - sinError x

/-! ### narrow enclosures of real numbers -/

/-- The relative and absolute width every enclosure below keeps to. -/
noncomputable def narrow : ℝ := (2 ^ 1200)⁻¹

theorem narrow_pos : 0 < narrow := by unfold narrow; positivity

theorem narrow_le : narrow ≤ (2 ^ 1100)⁻¹ := by
  unfold narrow
  exact inv_anti₀ (by positivity) (pow_le_pow_right₀ (by norm_num) (by norm_num))

/-- Enclosures of two positive numbers that are further apart than they are wide are ordered as the numbers are. -/
theorem enclosures_mono_of_ratio {l h v l' h' v' : ℝ} (h1 : l ≤ v) (h3 : h ≤ l * (1 + narrow)) (h2' : v' ≤ h')
    (h3' : h' ≤ l' * (1 + narrow)) (hg : v * (1 + narrow) ≤ v') :
    l ≤ l' ∧ h ≤ h' := by
  have hn : 0 < 1 + narrow := by have := narrow_pos; linarith
  have a := mul_le_mul_of_nonneg_right h1 hn.le
  constructor
  · exact le_of_mul_le_mul_right (by linarith) hn
  · linarith

theorem enclosures_mono_of_gap {l h v l' h' v' : ℝ} (h1 : l ≤ v) (h3 : h ≤ l + narrow) (h2' : v' ≤ h')
    (h3' : h' ≤ l' + narrow) (hg : v + narrow ≤ v') : l ≤ l' ∧ h ≤ h' :=
  ⟨by linarith, by linarith⟩

/-! ### e^y -/

theorem expSum_cast (f : ℚ) (n : ℕ) : ((expSum f n : ℚ) : ℝ) = ∑ m ∈ Finset.range n, (f : ℝ) ^ m / m.factorial := by
  induction n with
  | zero => simp [expSum]
  | succ n ih =>
    rw [Finset.sum_range_succ, ← ih, expSum]
    push_cast
    rfl

/-- The relative width of the enclosure of e^f for f in [0, 1]. -/
noncomputable def expWidth : ℝ := 2 / (expTerms.factorial : ℝ)

theorem expWidth_pos : 0 < expWidth := by unfold expWidth; positivity

theorem exp_bounds {f : ℚ} (h0 : 0 ≤ f) (h1 : f ≤ 1) :
    ((expBelow f : ℚ) : ℝ) ≤ Real.exp f ∧ Real.exp f ≤ (expAbove f : ℚ) ∧
      ((expAbove f : ℚ) : ℝ) ≤ (expBelow f : ℚ) * (1 + expWidth) ∧ (1 : ℝ) ≤ (expBelow f : ℚ) := by
  have hf0 : (0 : ℝ) ≤ f := by exact_mod_cast h0
  have hf1 : (f : ℝ) ≤ 1 := by exact_mod_cast h1
  have hp : (0 : ℝ) < (expTerms.factorial : ℝ) := by positivity
  have e1 : ((expBelow f : ℚ) : ℝ) = ∑ m ∈ Finset.range expTerms, (f : ℝ) ^ m / m.factorial := expSum_cast f expTerms
  have e2 : ((expAbove f : ℚ) : ℝ) = (expBelow f : ℚ) + 2 * ((f : ℝ) ^ expTerms / (expTerms.factorial : ℝ)) := by
    unfold expAbove expBelow
    push_cast
    rfl
  have one_le : (1 : ℝ) ≤ (expBelow f : ℚ) := by
    rw [e1, show expTerms = 255 + 1 from rfl, Finset.sum_range_succ']
    have : (0 : ℝ) ≤ ∑ k ∈ Finset.range 255, (f : ℝ) ^ (k + 1) / ((k + 1).factorial : ℝ) :=
      Finset.sum_nonneg fun i _ => by positivity
    simpa using this
  have hpow : (f : ℝ) ^ expTerms ≤ 1 := pow_le_one₀ hf0 hf1
  refine ⟨?_, ?_, ?_, one_le⟩
  · rw [e1]
    exact Real.sum_le_exp_of_nonneg hf0 _
  · rw [e2, e1]
    refine (Real.exp_bound' hf0 hf1 (by decide : 0 < expTerms)).trans (add_le_add_right ?_ _)
    have hn : ((expTerms : ℝ) + 1) / expTerms ≤ 2 := by
      unfold expTerms
      norm_num
    calc (f : ℝ) ^ expTerms * ((expTerms : ℝ) + 1) / ((expTerms.factorial : ℝ) * expTerms)
        = ((f : ℝ) ^ expTerms / (expTerms.factorial : ℝ)) * (((expTerms : ℝ) + 1) / expTerms) := by
          rw [div_mul_div_comm]
      _ ≤ ((f : ℝ) ^ expTerms / (expTerms.factorial : ℝ)) * 2 := by gcongr
      _ = _ := by ring
  · rw [e2]
    have h : 2 * ((f : ℝ) ^ expTerms / (expTerms.factorial : ℝ)) ≤ expWidth := by
      unfold expWidth
      rw [← mul_div_assoc]
      gcongr
      linarith
    have := expWidth_pos
    nlinarith

theorem expWidth_le : 4096 * expWidth ≤ narrow := by
  have h : 8192 * 2 ^ 1200 ≤ expTerms.factorial := by decide +kernel
  have h' : (8192 : ℝ) * 2 ^ 1200 ≤ (expTerms.factorial : ℝ) := by exact_mod_cast h
  unfold expWidth narrow
  rw [← mul_div_assoc, div_le_iff₀ (by positivity), inv_mul_eq_div, le_div_iff₀ (by positivity)]
  linarith

theorem expWidth_pow {n : ℕ} (h : n ≤ 1025) : (1 + expWidth) ^ n ≤ 1 + narrow := by
  have h0 := expWidth_pos
  have h1 := expWidth_le
  have hn : (n : ℝ) ≤ 1025 := by exact_mod_cast h
  have h2 : narrow ≤ 1 := narrow_le.trans (inv_le_one_of_one_le₀ (one_le_pow₀ (by norm_num)))
  have ha : |(n : ℝ) * expWidth| = n * expWidth := abs_of_nonneg (by positivity)
  have hb : (n : ℝ) * expWidth ≤ 1025 * expWidth := by gcongr
  have h3 := Real.abs_exp_sub_one_le (x := n * expWidth) (by rw [ha]; linarith)
  rw [ha] at h3
  calc (1 + expWidth) ^ n ≤ Real.exp expWidth ^ n := by
        gcongr
        have := Real.add_one_le_exp expWidth
        linarith
    _ = Real.exp (n * expWidth) := (Real.exp_nat_mul _ _).symm
    _ ≤ 1 + narrow := by
        have := le_abs_self (Real.exp (n * expWidth) - 1)
        linarith

/-- The width of a product of enclosures. -/
theorem product_width {a b A B w : ℝ} (k : ℕ) (ha : 1 ≤ a) (hb : 1 ≤ b) (hA : a ≤ A) (hB : b ≤ B)
    (h1 : A ≤ a * (1 + w)) (h2 : B ≤ b * (1 + w)) : A ^ k * B ≤ a ^ k * b * (1 + w) ^ (k + 1) :=
  calc A ^ k * B ≤ (a * (1 + w)) ^ k * (b * (1 + w)) :=
        mul_le_mul (pow_le_pow_left₀ (by linarith) h1 k) h2 (by linarith) (pow_nonneg (by linarith) k)
    _ = a ^ k * b * (1 + w) ^ (k + 1) := by rw [mul_pow, pow_succ]; ring

/-- A rational as its whole part and the rest. -/
theorem exists_floor {y : ℚ} (h0 : 0 ≤ y) : ∃ (k : ℕ) (f : ℚ), y.floor = k ∧ y = k + f ∧ 0 ≤ f ∧ f < 1 := by
  have hk : (⌊y⌋.toNat : ℤ) = ⌊y⌋ := Int.toNat_of_nonneg (Int.floor_nonneg.2 h0)
  refine ⟨⌊y⌋.toNat, Int.fract y, hk.symm, ?_, Int.fract_nonneg y, Int.fract_lt_one y⟩
  have := Int.floor_add_fract y
  rw [← hk] at this
  exact_mod_cast this.symm

theorem exp_enclosure {y : ℚ} (h0 : 0 ≤ y) (h1 : y ≤ 1024) :
    ((expLower y : ℚ) : ℝ) ≤ Real.exp y ∧ Real.exp y ≤ (expUpper y : ℚ) ∧
      ((expUpper y : ℚ) : ℝ) ≤ (expLower y : ℚ) * (1 + narrow) ∧ (1 : ℝ) ≤ (expLower y : ℚ) := by
  obtain ⟨k, f, hk, hy, f0, f1⟩ := exists_floor h0
  have e1 : expLower y = expBelow 1 ^ k * expBelow f := by
    unfold expLower
    rw [hk, hy]
    simp
  have e2 : expUpper y = expAbove 1 ^ k * expAbove f := by
    unfold expUpper
    rw [hk, hy]
    simp
  obtain ⟨a1, a2, a3, a4⟩ := exp_bounds (f := 1) (by norm_num) (by norm_num)
  obtain ⟨b1, b2, b3, b4⟩ := exp_bounds f0 f1.le
  have ev : Real.exp y = Real.exp (1 : ℚ) ^ k * Real.exp f := by
    rw [hy, ← Real.exp_nat_mul, ← Real.exp_add]
    push_cast
    ring_nf
  have hk1 : k + 1 ≤ 1025 := by
    have : (k : ℚ) ≤ 1024 := by linarith
    have : k ≤ 1024 := by exact_mod_cast this
    omega
  have w1 := expWidth_pow hk1
  rw [e1, e2, ev]
  push_cast
  rw [Rat.cast_one] at a1 a2
  have hw := product_width k a4 b4 (a1.trans a2) (b1.trans b2) a3 b3
  refine ⟨mul_le_mul (pow_le_pow_left₀ (by linarith) a1 k) b1 (by linarith) (by positivity),
    mul_le_mul (pow_le_pow_left₀ (by positivity) a2 k) b2 (by positivity) (pow_nonneg (by linarith) k), hw.trans ?_,
    one_le_mul_of_one_le_of_one_le (one_le_pow₀ a4) b4⟩
  exact mul_le_mul_of_nonneg_left w1 (mul_nonneg (pow_nonneg (by linarith) k) (by linarith))

/-! ### the logarithm -/

theorem logSum_cast (z : ℚ) (n : ℕ) :
    ((logSum z n : ℚ) : ℝ) = ∑ i ∈ Finset.range n, (z : ℝ) ^ (2 * i + 1) / (2 * (i : ℝ) + 1) := by
  induction n with
  | zero => simp [logSum]
  | succ n ih =>
    rw [Finset.sum_range_succ, ← ih, logSum]
    push_cast
    rfl

/-- The width of the enclosure of the logarithm of a significand. -/
noncomputable def logWidth : ℝ := 3 * (1 / 3) ^ 801

theorem logWidth_pos : 0 < logWidth := by unfold logWidth; positivity

theorem logWidth_le : 4096 * logWidth ≤ narrow := by
  have h : 12288 * 2 ^ 1200 ≤ 3 ^ 801 := by decide +kernel
  have h' : (12288 : ℝ) * 2 ^ 1200 ≤ 3 ^ 801 := by exact_mod_cast h
  have e : 4096 * logWidth = 12288 / 3 ^ 801 := by
    unfold logWidth
    rw [one_div, inv_pow]
    ring
  rw [e]
  unfold narrow
  rw [div_le_iff₀ (by positivity), inv_mul_eq_div, le_div_iff₀ (by positivity)]
  exact h'

theorem log_bounds {z : ℚ} (h0 : 0 ≤ z) (h1 : z ≤ 1 / 3) :
    ((logBelow z : ℚ) : ℝ) ≤ Real.log ((1 + z) / (1 - z)) ∧ Real.log ((1 + z) / (1 - z)) ≤ (logAbove z : ℚ) ∧
      ((logAbove z : ℚ) : ℝ) ≤ (logBelow z : ℚ) + logWidth ∧ (0 : ℝ) ≤ (logBelow z : ℚ) := by
  have hz0 : (0 : ℝ) ≤ z := by exact_mod_cast h0
  have hz1 : (z : ℝ) ≤ 1 / 3 := by
    have : ((z : ℚ) : ℝ) ≤ ((1 / 3 : ℚ) : ℝ) := by exact_mod_cast h1
    simpa using this
  have e1 : ((logBelow z : ℚ) : ℝ) = 2 * (logSum z logTerms : ℚ) := by
    unfold logBelow
    push_cast
    rfl
  have e2 : ((logAbove z : ℚ) : ℝ) =
      2 * ((logSum z logTerms : ℚ) + (z : ℝ) ^ (2 * logTerms + 1) / (1 - (z : ℝ) ^ 2)) := by
    unfold logAbove
    push_cast
    rfl
  have b1 := Real.sum_range_le_log_div hz0 (by linarith) logTerms
  have b2 := Real.log_div_le_sum_range_add hz0 (by linarith) logTerms
  rw [← logSum_cast] at b1 b2
  have hs : (0 : ℝ) ≤ (logSum z logTerms : ℚ) := by
    rw [logSum_cast]
    exact Finset.sum_nonneg fun i _ => by positivity
  refine ⟨by linarith, by linarith, ?_, by linarith⟩
  have hden : (8 / 9 : ℝ) ≤ 1 - (z : ℝ) ^ 2 := by nlinarith
  have hp : (z : ℝ) ^ (2 * logTerms + 1) ≤ (1 / 3) ^ 801 := pow_le_pow_left₀ hz0 hz1 _
  have hq : (z : ℝ) ^ (2 * logTerms + 1) / (1 - (z : ℝ) ^ 2) ≤ (1 / 3) ^ 801 / (8 / 9) :=
    div_le_div₀ (by positivity) hp (by norm_num) hden
  have hr : 2 * ((1 / 3 : ℝ) ^ 801 / (8 / 9)) ≤ logWidth := by
    unfold logWidth
    have : (0 : ℝ) < (1 / 3) ^ 801 := by positivity
    generalize ((1 : ℝ) / 3) ^ 801 = p at *
    linarith
  linarith

theorem ln2_bounds : ((ln2Below : ℚ) : ℝ) ≤ Real.log 2 ∧ Real.log 2 ≤ (ln2Above : ℚ) ∧
    ((ln2Above : ℚ) : ℝ) ≤ (ln2Below : ℚ) + logWidth ∧ (0 : ℝ) ≤ (ln2Below : ℚ) := by
  have h := log_bounds (z := 1 / 3) (by norm_num) (by norm_num)
  have e : (1 + ((1 / 3 : ℚ) : ℝ)) / (1 - ((1 / 3 : ℚ) : ℝ)) = 2 := by push_cast; norm_num
  rw [e] at h
  exact h

theorem affine_bounds {k a b l x y L w : ℝ} (hk : 0 ≤ k) (h1 : a ≤ l) (h2 : l ≤ b) (h3 : b ≤ a + w) (h4 : x ≤ L)
    (h5 : L ≤ y) (h6 : y ≤ x + w) :
    k * a + x ≤ k * l + L ∧ k * l + L ≤ k * b + y ∧ k * b + y ≤ k * a + x + (k + 1) * w := by
  have := mul_le_mul_of_nonneg_left h1 hk
  have := mul_le_mul_of_nonneg_left h2 hk
  have := mul_le_mul_of_nonneg_left h3 hk
  refine ⟨by linarith, by linarith, by linarith⟩

theorem log_enclosure {u : ℕ} (h0 : 0 < u) (h1 : u < 2 ^ 2099) :
    ((logLower u : ℚ) : ℝ) ≤ Real.log (u / 2 ^ 1074) ∧ Real.log (u / 2 ^ 1074) ≤ (logUpper u : ℚ) ∧
      ((logUpper u : ℚ) : ℝ) ≤ (logLower u : ℚ) + narrow := by
  have hle : 2 ^ Nat.log2 u ≤ u := Nat.log2_self_le (by omega)
  have hlt : u < 2 ^ Nat.log2 u * 2 := by
    have := Nat.lt_log2_self (n := u)
    rwa [Nat.pow_succ] at this
  have hb : Nat.log2 u < 2099 := (Nat.log2_lt (by omega)).2 h1
  have hkz : logExponent u = (Nat.log2 u : ℤ) - 1074 := rfl
  have hz : logArg u = ((u - 2 ^ Nat.log2 u : ℕ) : ℚ) / ((u + 2 ^ Nat.log2 u : ℕ) : ℚ) := rfl
  generalize Nat.log2 u = e at *
  have hp : (0 : ℚ) < 2 ^ e := by positivity
  have hle' : (2 : ℚ) ^ e ≤ u := by exact_mod_cast hle
  have hlt' : (u : ℚ) < 2 ^ e * 2 := by exact_mod_cast hlt
  rw [Nat.cast_sub hle] at hz
  push_cast at hz
  have z0 : 0 ≤ logArg u := by
    rw [hz]
    exact div_nonneg (by linarith) (by linarith)
  have z1 : logArg u ≤ 1 / 3 := by
    rw [hz, div_le_iff₀ (by linarith)]
    linarith
  obtain ⟨a1, a2, a3, -⟩ := ln2_bounds
  obtain ⟨b1, b2, b3, -⟩ := log_bounds z0 z1
  have hs : (1 + (logArg u : ℝ)) / (1 - (logArg u : ℝ)) = (u : ℝ) / 2 ^ e := by
    have hpR : (0 : ℝ) < 2 ^ e := by positivity
    have huR : (0 : ℝ) < u := by exact_mod_cast h0
    rw [hz]
    push_cast
    have n1 : (u : ℝ) + 2 ^ e ≠ 0 := by positivity
    have e1 : 1 + ((u : ℝ) - 2 ^ e) / (u + 2 ^ e) = 2 * u / (u + 2 ^ e) := by field_simp; ring
    have e2 : 1 - ((u : ℝ) - 2 ^ e) / (u + 2 ^ e) = 2 * 2 ^ e / (u + 2 ^ e) := by field_simp; ring
    rw [e1, e2]
    field_simp
  have hv : Real.log (u / 2 ^ 1074) = (logExponent u : ℝ) * Real.log 2 + Real.log ((u : ℝ) / 2 ^ e) := by
    have huR : (u : ℝ) ≠ 0 := by
      have : (0 : ℝ) < u := by exact_mod_cast h0
      exact this.ne'
    rw [Real.log_div huR (pow_ne_zero _ two_ne_zero), Real.log_div huR (pow_ne_zero _ two_ne_zero), Real.log_pow,
      Real.log_pow, hkz]
    push_cast
    ring
  rw [hs] at b1 b2
  have hk1 : logExponent u ≤ 1024 := by omega
  have hk2 : -1074 ≤ logExponent u := by omega
  have w0 := logWidth_pos
  have w1 := logWidth_le
  unfold logLower logUpper
  rw [hv]
  by_cases hk : 0 ≤ logExponent u
  · have hkR : (0 : ℝ) ≤ logExponent u := by exact_mod_cast hk
    have hkw : ((logExponent u : ℝ) + 1) * logWidth ≤ 1025 * logWidth := by
      have : (logExponent u : ℝ) ≤ 1024 := by exact_mod_cast hk1
      gcongr
      linarith
    obtain ⟨c1, c2, c3⟩ := affine_bounds hkR a1 a2 a3 b1 b2 b3
    rw [if_pos hk, if_pos hk]
    push_cast
    exact ⟨c1, c2, c3.trans (by linarith only [hkw, w0, w1])⟩
  · have hkR : (0 : ℝ) ≤ -(logExponent u : ℝ) := by
      have : (0 : ℤ) ≤ -logExponent u := by omega
      exact_mod_cast this
    have hkw : (-(logExponent u : ℝ) + 1) * logWidth ≤ 1075 * logWidth := by
      have : -(logExponent u : ℝ) ≤ 1074 := by
        have : -logExponent u ≤ 1074 := by omega
        exact_mod_cast this
      gcongr
      linarith
    obtain ⟨c1, c2, c3⟩ := affine_bounds hkR (neg_le_neg a2) (neg_le_neg a1) (by linarith only [a3]) b1 b2 b3
    simp only [neg_mul_neg] at c1 c2 c3
    rw [if_neg hk, if_neg hk]
    push_cast
    exact ⟨c1, c2, c3.trans (by linarith only [hkw, w0, w1])⟩

/-! ### 2^q -/

theorem pow2_enclosure (q : ℚ) :
    ((pow2Lower q : ℚ) : ℝ) ≤ (2 : ℝ) ^ (q : ℝ) ∧ (2 : ℝ) ^ (q : ℝ) ≤ (pow2Upper q : ℚ) ∧
      ((pow2Upper q : ℚ) : ℝ) ≤ (pow2Lower q : ℚ) * (1 + narrow) ∧ (0 : ℝ) < (pow2Lower q : ℚ) := by
  obtain ⟨a1, a2, a3, a4⟩ := ln2_bounds
  have w0 := expWidth_pos
  have w1 := expWidth_le
  have w2 := logWidth_pos
  have w3 := logWidth_le
  have n1 : narrow ≤ 1 := narrow_le.trans (inv_le_one_of_one_le₀ (one_le_pow₀ (by norm_num)))
  obtain ⟨k, f, hk, hq, f0, f1⟩ : ∃ (k : ℤ) (f : ℚ), q.floor = k ∧ q = k + f ∧ 0 ≤ f ∧ f < 1 :=
    ⟨⌊q⌋, Int.fract q, rfl, (Int.floor_add_fract q).symm, Int.fract_nonneg q, Int.fract_lt_one q⟩
  have fR0 : (0 : ℝ) ≤ f := by exact_mod_cast f0
  have fR1 : (f : ℝ) ≤ 1 := by exact_mod_cast f1.le
  have l2 : Real.log 2 < 0.7 := Real.log_two_lt_d9.trans (by norm_num)
  have hA : ((ln2Above : ℚ) : ℝ) ≤ 1 := by linarith
  have e1 : pow2Lower q = 2 ^ k * min 2 (expBelow (f * ln2Below)) := by
    unfold pow2Lower
    rw [hk, hq, add_sub_cancel_left]
  have e2 : pow2Upper q = 2 ^ k * min 2 (expAbove (f * ln2Above)) := by
    unfold pow2Upper
    rw [hk, hq, add_sub_cancel_left]
  have ev : (2 : ℝ) ^ (q : ℝ) = 2 ^ k * Real.exp (f * Real.log 2) := by
    rw [hq]
    push_cast
    rw [Real.rpow_add two_pos, Real.rpow_intCast, Real.rpow_def_of_pos two_pos, mul_comm (f : ℝ)]
  have B0 : (0 : ℚ) ≤ ln2Below := by exact_mod_cast a4
  have A0 : (0 : ℚ) ≤ ln2Above := by
    have : (0 : ℝ) ≤ (ln2Above : ℚ) := by linarith
    exact_mod_cast this
  have A1 : ln2Above ≤ 1 := by exact_mod_cast hA
  have B1 : ln2Below ≤ 1 := by
    have : ((ln2Below : ℚ) : ℝ) ≤ 1 := by linarith
    exact_mod_cast this
  obtain ⟨b1, b2, b3, b4⟩ := exp_bounds (f := f * ln2Below) (mul_nonneg f0 B0) (mul_le_one₀ f1.le B0 B1)
  obtain ⟨c1, c2, c3, c4⟩ := exp_bounds (f := f * ln2Above) (mul_nonneg f0 A0) (mul_le_one₀ f1.le A0 A1)
  rw [e1, e2, ev]
  push_cast at b1 b2 c1 c2 ⊢
  generalize expBelow (f * ln2Below) = eB at *
  generalize expAbove (f * ln2Below) = eB' at *
  generalize expBelow (f * ln2Above) = eA at *
  generalize expAbove (f * ln2Above) = eA' at *
  have hp : (0 : ℝ) < 2 ^ k := by positivity
  have m1 : Real.exp (f * ln2Below) ≤ Real.exp (f * Real.log 2) := Real.exp_le_exp.2 (by gcongr)
  have m2 : Real.exp (f * Real.log 2) ≤ Real.exp (f * ln2Above) := Real.exp_le_exp.2 (by gcongr)
  have m3 : Real.exp (f * Real.log 2) ≤ 2 := by
    have h : Real.exp (f * Real.log 2) ≤ Real.exp (Real.log 2) :=
      Real.exp_le_exp.2 (by have := Real.log_pos one_lt_two; nlinarith)
    rwa [Real.exp_log two_pos] at h
  have m4 : Real.exp (f * ln2Above) ≤ Real.exp (f * ln2Below) * Real.exp logWidth := by
    rw [← Real.exp_add]
    exact Real.exp_le_exp.2 (by nlinarith)
  have hw : (1 + expWidth) * (1 + expWidth) * Real.exp logWidth ≤ 1 + narrow := by
    have hs : |2 * expWidth + logWidth| = 2 * expWidth + logWidth := abs_of_nonneg (by positivity)
    have h1 := Real.abs_exp_sub_one_le (x := 2 * expWidth + logWidth) (by rw [hs]; linarith)
    have h2 := le_abs_self (Real.exp (2 * expWidth + logWidth) - 1)
    rw [hs] at h1
    have h3 : 1 + expWidth ≤ Real.exp expWidth := by
      have := Real.add_one_le_exp expWidth
      linarith
    calc (1 + expWidth) * (1 + expWidth) * Real.exp logWidth
        ≤ Real.exp expWidth * Real.exp expWidth * Real.exp logWidth := by gcongr
      _ = Real.exp (2 * expWidth + logWidth) := by rw [← Real.exp_add, ← Real.exp_add, two_mul]
      _ ≤ 1 + narrow := by linarith
  have hr : (eA' : ℝ) ≤ eB * (1 + narrow) :=
    calc (eA' : ℝ) ≤ eA * (1 + expWidth) := c3
      _ ≤ Real.exp (f * ln2Below) * Real.exp logWidth * (1 + expWidth) := by
        have := c1.trans m4
        gcongr
      _ ≤ eB * (1 + expWidth) * Real.exp logWidth * (1 + expWidth) := by
        have := b2.trans b3
        gcongr
      _ = eB * ((1 + expWidth) * (1 + expWidth) * Real.exp logWidth) := by ring
      _ ≤ eB * (1 + narrow) := mul_le_mul_of_nonneg_left hw (by linarith)
  have hn := narrow_pos
  refine ⟨mul_le_mul_of_nonneg_left ((min_le_right _ _).trans (b1.trans m1)) hp.le,
    mul_le_mul_of_nonneg_left (le_min m3 (m2.trans c2)) hp.le, ?_, mul_pos hp (lt_min two_pos (by linarith))⟩
  rw [mul_assoc]
  refine mul_le_mul_of_nonneg_left ?_ hp.le
  rcases le_total (2 : ℝ) eB with h | h
  · rw [min_eq_left h]
    exact (min_le_left _ _).trans (by linarith)
  · rw [min_eq_right h]
    exact (min_le_right _ _).trans hr

/-- 2^q is at most twice the power of its whole part. -/
theorem pow2Upper_le (q : ℚ) : pow2Upper q ≤ 2 ^ (q.floor + 1) := by
  unfold pow2Upper
  rw [zpow_add_one₀ two_ne_zero]
  exact mul_le_mul_of_nonneg_left (min_le_left _ _) (by positivity)

/-! ### tanh -/

theorem tanh_eq (y : ℝ) : Real.tanh y = (Real.exp (2 * y) - 1) / (Real.exp (2 * y) + 1) := by
  have h := Real.exp_pos y
  rw [Real.tanh_eq_sinh_div_cosh, Real.sinh_eq, Real.cosh_eq, Real.exp_neg, two_mul, Real.exp_add]
  field_simp

theorem tanhOfExp_mono {a b : ℚ} (h0 : 0 ≤ a) (h : a ≤ b) : tanhOfExp a ≤ tanhOfExp b := by
  unfold tanhOfExp
  rw [div_le_div_iff₀ (by linarith) (by linarith)]
  nlinarith

theorem tanh_enclosure {q : ℚ} (h0 : 0 ≤ q) (h1 : q ≤ 1024) :
    ((tanhOfExp (expLower q) : ℚ) : ℝ) ≤ Real.tanh (q / 2) ∧ Real.tanh (q / 2) ≤ (tanhOfExp (expUpper q) : ℚ) ∧
      ((tanhOfExp (expUpper q) : ℚ) : ℝ) ≤ (tanhOfExp (expLower q) : ℚ) + narrow := by
  obtain ⟨a1, a2, a3, a4⟩ := exp_enclosure h0 h1
  have hn := narrow_pos
  rw [tanh_eq, mul_div_cancel₀ _ (two_ne_zero)]
  unfold tanhOfExp
  push_cast
  generalize expLower q = e at *
  generalize expUpper q = E at *
  generalize Real.exp q = v at *
  refine ⟨?_, ?_, ?_⟩
  · rw [div_le_div_iff₀ (by linarith) (by linarith)]
    nlinarith
  · rw [div_le_div_iff₀ (by linarith) (by linarith)]
    nlinarith
  · have hE : (1 : ℝ) ≤ E := by linarith
    rw [div_add' _ _ _ (by linarith : (e : ℝ) + 1 ≠ 0), div_le_div_iff₀ (by linarith) (by linarith)]
    have h2 : 2 * ((E : ℝ) - e) ≤ 2 * (e * narrow) := by linarith
    have h3 : 2 * (e * narrow) ≤ narrow * ((e : ℝ) + 1) * (E + 1) := by
      have : 2 * (e : ℝ) ≤ (e + 1) * (E + 1) := by nlinarith
      nlinarith
    nlinarith

/-! ### sin -/

theorem sinSum_im (x : ℚ) (n : ℕ) :
    ((sinSum x n : ℚ) : ℝ) = (∑ m ∈ Finset.range (2 * n), ((x : ℂ) * Complex.I) ^ m / (m.factorial : ℂ)).im := by
  induction n with
  | zero => simp [sinSum]
  | succ n ih =>
    have e1 : (((x : ℂ) * Complex.I) ^ (2 * n) / ((2 * n).factorial : ℂ)).im = 0 := by
      have : ((x : ℂ) * Complex.I) ^ (2 * n) / ((2 * n).factorial : ℂ)
          = (((-1) ^ n * (x : ℝ) ^ (2 * n) / ((2 * n).factorial : ℝ) : ℝ) : ℂ) := by
        rw [mul_pow, pow_mul Complex.I, Complex.I_sq]
        push_cast
        ring
      rw [this, Complex.ofReal_im]
    have e2 : (((x : ℂ) * Complex.I) ^ (2 * n + 1) / ((2 * n + 1).factorial : ℂ)).im
        = (-1) ^ n * ((x : ℝ) ^ (2 * n + 1) / ((2 * n + 1).factorial : ℝ)) := by
      have : ((x : ℂ) * Complex.I) ^ (2 * n + 1) / ((2 * n + 1).factorial : ℂ)
          = (((-1) ^ n * ((x : ℝ) ^ (2 * n + 1) / ((2 * n + 1).factorial : ℝ)) : ℝ) : ℂ) * Complex.I := by
        rw [mul_pow, pow_succ Complex.I, pow_mul Complex.I, Complex.I_sq]
        push_cast
        ring
      rw [this, Complex.im_ofReal_mul, Complex.I_im, mul_one]
    rw [show 2 * (n + 1) = 2 * n + 1 + 1 by ring, Finset.sum_range_succ, Finset.sum_range_succ, Complex.add_im,
      Complex.add_im, ← ih, e1, e2, sinSum]
    push_cast
    ring

theorem sinError_cast (x : ℚ) :
    ((sinError x : ℚ) : ℝ) = |(x : ℝ)| ^ (2 * sinTerms x) / ((2 * sinTerms x).factorial : ℝ) * 2 := by
  unfold sinError
  push_cast
  ring

theorem sinTerms_spec (x : ℚ) : ∃ a : ℕ, |(x : ℝ)| ≤ a ∧ 2 * sinTerms x = 8 * a + 512 := by
  refine ⟨|x|.floor.toNat + 1, ?_, by unfold sinTerms; ring⟩
  obtain ⟨k, f, hk, hx, -, f1⟩ := exists_floor (abs_nonneg x)
  rw [hk, Int.toNat_natCast]
  have : |x| ≤ ((k + 1 : ℕ) : ℚ) := by
    rw [hx]
    push_cast
    linarith
  exact_mod_cast this

theorem sinError_le (x : ℚ) : 2 * ((sinError x : ℚ) : ℝ) ≤ narrow := by
  obtain ⟨a, ha, hN⟩ := sinTerms_spec x
  rw [sinError_cast, hN]
  have h8 : (0 : ℝ) < 8 ^ (8 * a + 512) := by positivity
  have h1 : |(x : ℝ)| ^ (8 * a + 512) * 8 ^ (8 * a + 512) ≤ ((8 * a : ℕ) : ℝ) ^ (8 * a + 512) := by
    rw [← mul_pow]
    refine pow_le_pow_left₀ (by positivity) ?_ _
    push_cast
    linarith
  have h2 := Real.pow_div_factorial_le_exp ((8 * a : ℕ) : ℝ) (by positivity) (8 * a + 512)
  have h3 : Real.exp ((8 * a : ℕ) : ℝ) ≤ 8 ^ (8 * a) := by
    rw [← mul_one ((8 * a : ℕ) : ℝ), Real.exp_nat_mul]
    exact pow_le_pow_left₀ (Real.exp_pos 1).le (Real.exp_one_lt_d9.le.trans (by norm_num)) _
  have h4 : |(x : ℝ)| ^ (8 * a + 512) / ((8 * a + 512).factorial : ℝ) * 8 ^ (8 * a + 512) ≤ 8 ^ (8 * a) :=
    calc _ = |(x : ℝ)| ^ (8 * a + 512) * 8 ^ (8 * a + 512) / ((8 * a + 512).factorial : ℝ) := by
          rw [div_mul_eq_mul_div]
      _ ≤ ((8 * a : ℕ) : ℝ) ^ (8 * a + 512) / ((8 * a + 512).factorial : ℝ) :=
        div_le_div_of_nonneg_right h1 (by positivity)
      _ ≤ _ := h2.trans h3
  have h5 : |(x : ℝ)| ^ (8 * a + 512) / ((8 * a + 512).factorial : ℝ) ≤ (8 ^ 512)⁻¹ := by
    rw [pow_add (8 : ℝ), ← mul_assoc] at h4
    have h6 : (0 : ℝ) < 8 ^ (8 * a) := by positivity
    rw [← one_div, le_div_iff₀ (by positivity)]
    refine le_of_mul_le_mul_right ?_ h6
    rw [one_mul, mul_right_comm]
    exact h4
  have h7 : (4 : ℝ) * (8 ^ 512)⁻¹ ≤ narrow := by
    unfold narrow
    rw [show (8 : ℝ) = 2 ^ 3 by norm_num, ← pow_mul, ← div_eq_mul_inv, div_le_iff₀ (by positivity),
      inv_mul_eq_div, le_div_iff₀ (by positivity), show (4 : ℝ) = 2 ^ 2 by norm_num, ← pow_add]
    exact pow_le_pow_right₀ (by norm_num) (by norm_num)
  linarith

theorem sin_enclosure (x : ℚ) :
    ((sinLower x : ℚ) : ℝ) ≤ Real.sin x ∧ Real.sin x ≤ (sinUpper x : ℚ) ∧
      ((sinUpper x : ℚ) : ℝ) ≤ (sinLower x : ℚ) + narrow := by
  have he := sinError_le x
  obtain ⟨a, ha, hN⟩ := sinTerms_spec x
  have hnorm : ‖(x : ℂ) * Complex.I‖ = |(x : ℝ)| := by
    rw [Complex.norm_mul, Complex.norm_I, mul_one, ← Complex.ofReal_ratCast, Complex.norm_real, Real.norm_eq_abs]
  have hc : ‖(x : ℂ) * Complex.I‖ / ((2 * sinTerms x).succ : ℕ) ≤ 1 / 2 := by
    rw [hnorm, hN, div_le_iff₀ (by positivity)]
    push_cast
    linarith
  have hb := Complex.exp_bound' hc
  rw [hnorm, ← sinError_cast] at hb
  have hi := (Complex.abs_im_le_norm _).trans hb
  rw [Complex.sub_im, ← sinSum_im, ← Complex.ofReal_ratCast, Complex.exp_ofReal_mul_I_im] at hi
  obtain ⟨h1, h2⟩ := abs_le.1 hi
  unfold sinLower sinUpper
  push_cast
  exact ⟨by linarith, by linarith, by linarith⟩

end Sys2Proof.Machine
end

