-- ==== Sys2Proof/Laws/Rounding.lean ====
section
/-! SUPPORT. The laws of rounding: bounds, monotonicity, and exactness on representable values. -/

namespace Sys2Proof.Machine

set_option Elab.async false

theorem roundNearest_le (n d m : Nat) (hd : 0 < d) (h : n ≤ m * d) : roundNearest n d ≤ m := by
  have e := Nat.div_add_mod n d
  have hr := Nat.mod_lt n hd
  simp only [roundNearest]
  have hq : n / d ≤ m := Nat.div_le_of_le_mul (by rw [Nat.mul_comm]; exact h)
  rcases Nat.lt_or_ge (n / d) m with hlt | hge
  · split
    · omega
    · split
      · omega
      · have := Nat.mod_lt (n / d) (by decide : 0 < 2); omega
  · have hqm : n / d = m := Nat.le_antisymm hq hge
    have hr0 : n % d = 0 := by
      rw [hqm, Nat.mul_comm] at e
      omega
    rw [hr0]
    simp [hd, hqm]

theorem le_roundNearest (n d m : Nat) (hd : 0 < d) (h : m * d ≤ n) : m ≤ roundNearest n d := by
  have hq : m ≤ n / d := (Nat.le_div_iff_mul_le hd).2 h
  simp only [roundNearest]
  split
  · exact hq
  · split <;> omega

theorem roundNearest_mul (m d : Nat) (hd : 0 < d) : roundNearest (m * d) d = m :=
  Nat.le_antisymm (roundNearest_le _ _ _ hd (Nat.le_refl _)) (le_roundNearest _ _ _ hd (Nat.le_refl _))

theorem div_le_div_of_cross (n d n' d' : Nat) (hd' : 0 < d') (h : n * d' ≤ n' * d) : n / d ≤ n' / d' := by
  rw [Nat.le_div_iff_mul_le hd']
  rcases Nat.eq_zero_or_pos d with h0 | hd
  · simp [h0]
  · have h1 : n / d * d ≤ n := Nat.div_mul_le_self n d
    have h2 : n / d * d' * d ≤ n' * d := by
      calc n / d * d' * d = n / d * d * d' := by ring
        _ ≤ n * d' := Nat.mul_le_mul_right _ h1
        _ ≤ n' * d := h
    exact Nat.le_of_mul_le_mul_right h2 hd

theorem roundNearest_mono (n d n' d' : Nat) (hd : 0 < d) (hd' : 0 < d') (h : n * d' ≤ n' * d) :
    roundNearest n d ≤ roundNearest n' d' := by
  have hq := div_le_div_of_cross n d n' d' hd' h
  have e := Nat.div_add_mod n d
  have e' := Nat.div_add_mod n' d'
  rcases Nat.lt_or_ge (n / d) (n' / d') with hlt | hge
  · have h1 : roundNearest n d ≤ n' / d' := by
      have := Nat.mod_lt (n / d) (by decide : 0 < 2)
      simp only [roundNearest]
      split
      · omega
      · split <;> omega
    refine Nat.le_trans h1 (le_roundNearest _ _ _ hd' (Nat.div_mul_le_self _ _))
  · have hqq : n / d = n' / d' := Nat.le_antisymm hq hge
    have hcross : n % d * d' ≤ n' % d' * d := by
      rw [← e, ← e', hqq] at h
      have : (d * (n' / d') + n % d) * d' = d * (n' / d') * d' + n % d * d' := by ring
      have h2 : (d' * (n' / d') + n' % d') * d = d * (n' / d') * d' + n' % d' * d := by ring
      simp only [this, h2] at h
      have := Nat.le_of_add_le_add_left h
      simpa using this
    simp only [roundNearest, hqq]
    by_cases c1 : 2 * (n % d) < d
    · rw [if_pos c1]
      split
      · omega
      · split <;> omega
    · have hge1 : d ≤ 2 * (n % d) := Nat.le_of_not_lt c1
      have n1 : ¬ 2 * (n' % d') < d' := by
        intro hlt
        have a1 : d * d' ≤ 2 * (n % d) * d' := Nat.mul_le_mul_right _ hge1
        have a2 : 2 * (n' % d') * d < d' * d := Nat.mul_lt_mul_of_pos_right hlt hd
        have a3 : 2 * (n % d) * d' ≤ 2 * (n' % d') * d := by
          calc 2 * (n % d) * d' = 2 * (n % d * d') := by ring
            _ ≤ 2 * (n' % d' * d) := Nat.mul_le_mul_left _ hcross
            _ = 2 * (n' % d') * d := by ring
        have a4 : d * d' = d' * d := Nat.mul_comm _ _
        omega
      rw [if_neg c1, if_neg n1]
      by_cases c2 : d < 2 * (n % d)
      · have n2 : d' < 2 * (n' % d') := by
          refine Nat.lt_of_not_le fun hle => ?_
          have a1 : d * d' < 2 * (n % d) * d' := Nat.mul_lt_mul_of_pos_right c2 hd'
          have a2 : 2 * (n' % d') * d ≤ d' * d := Nat.mul_le_mul_right _ hle
          have a3 : 2 * (n % d) * d' ≤ 2 * (n' % d') * d := by
            calc 2 * (n % d) * d' = 2 * (n % d * d') := by ring
              _ ≤ 2 * (n' % d' * d) := Nat.mul_le_mul_left _ hcross
              _ = 2 * (n' % d') * d := by ring
          have a4 : d * d' = d' * d := Nat.mul_comm _ _
          omega
        rw [if_pos c2, if_pos n2]
      · rw [if_neg c2]
        split <;> omega

theorem roundMag_le_inf (p inf n d : Nat) : roundMag p inf n d ≤ inf := Nat.min_le_right _ _

/-- The rounded mantissa of a value whose quotient is below 2^(p+k+1). -/
theorem roundNearest_scaled_le (p n d : Nat) (hd : 0 < d) :
    roundNearest n (d * 2 ^ (Nat.log2 (n / d) - p)) ≤ 2 ^ (p + 1) := by
  have hlt : n / d < 2 ^ (Nat.log2 (n / d) + 1) := Nat.lt_log2_self
  have hn : n < d * 2 ^ (Nat.log2 (n / d) + 1) := by
    have := Nat.div_lt_iff_lt_mul hd |>.1 hlt
    rw [Nat.mul_comm]
    exact this
  refine roundNearest_le _ _ _ (Nat.mul_pos hd (Nat.two_pow_pos _)) ?_
  have hexp : 2 ^ (Nat.log2 (n / d) + 1) ≤ 2 ^ (p + 1) * 2 ^ (Nat.log2 (n / d) - p) := by
    rw [← Nat.pow_add]
    exact Nat.pow_le_pow_right (by decide) (by omega)
  calc n ≤ d * 2 ^ (Nat.log2 (n / d) + 1) := Nat.le_of_lt hn
    _ ≤ d * (2 ^ (p + 1) * 2 ^ (Nat.log2 (n / d) - p)) := Nat.mul_le_mul_left _ hexp
    _ = 2 ^ (p + 1) * (d * 2 ^ (Nat.log2 (n / d) - p)) := by ring

/-- The rounded mantissa of a value in a binade above the first is at least 2^p. -/
theorem le_roundNearest_scaled (p n d : Nat) (hd : 0 < d) (hk : 0 < Nat.log2 (n / d) - p) :
    2 ^ p ≤ roundNearest n (d * 2 ^ (Nat.log2 (n / d) - p)) := by
  have hne : n / d ≠ 0 := by
    intro h0
    rw [h0] at hk
    simp [Nat.log2_zero] at hk
  have hle : 2 ^ Nat.log2 (n / d) ≤ n / d := Nat.log2_self_le hne
  refine le_roundNearest _ _ _ (Nat.mul_pos hd (Nat.two_pow_pos _)) ?_
  calc 2 ^ p * (d * 2 ^ (Nat.log2 (n / d) - p)) = 2 ^ (p + (Nat.log2 (n / d) - p)) * d := by
        rw [Nat.pow_add]; ring
    _ = 2 ^ Nat.log2 (n / d) * d := by rw [show p + (Nat.log2 (n / d) - p) = Nat.log2 (n / d) by omega]
    _ ≤ n / d * d := Nat.mul_le_mul_right _ hle
    _ ≤ n := Nat.div_mul_le_self _ _

theorem log2_mono {a b : Nat} (h : a ≤ b) : Nat.log2 a ≤ Nat.log2 b := by
  rcases Nat.eq_zero_or_pos a with h0 | ha
  · simp [h0, Nat.log2_zero]
  · rw [Nat.le_log2 (by omega)]
    exact Nat.le_trans (Nat.log2_self_le (by omega)) h

/-- Rounding is monotone in the value `n / d`. -/
theorem roundMag_mono (p inf n d n' d' : Nat) (hd : 0 < d) (hd' : 0 < d') (h : n * d' ≤ n' * d) :
    roundMag p inf n d ≤ roundMag p inf n' d' := by
  have hq := div_le_div_of_cross n d n' d' hd' h
  have hk : Nat.log2 (n / d) - p ≤ Nat.log2 (n' / d') - p := Nat.sub_le_sub_right (log2_mono hq) _
  simp only [roundMag]
  refine min_le_min_right _ ?_
  rcases Nat.lt_or_ge (Nat.log2 (n / d) - p) (Nat.log2 (n' / d') - p) with hlt | hge
  · have h1 := roundNearest_scaled_le p n d hd
    have h2 := le_roundNearest_scaled p n' d' hd' (by omega)
    calc (Nat.log2 (n / d) - p) * 2 ^ p + roundNearest n (d * 2 ^ (Nat.log2 (n / d) - p))
        ≤ (Nat.log2 (n / d) - p) * 2 ^ p + 2 ^ (p + 1) := Nat.add_le_add_left h1 _
      _ = (Nat.log2 (n / d) - p + 1) * 2 ^ p + 2 ^ p := by rw [Nat.pow_succ]; ring
      _ ≤ (Nat.log2 (n' / d') - p) * 2 ^ p + 2 ^ p := Nat.add_le_add_right (Nat.mul_le_mul_right _ hlt) _
      _ ≤ _ := Nat.add_le_add_left h2 _
  · have hkk : Nat.log2 (n / d) - p = Nat.log2 (n' / d') - p := Nat.le_antisymm hk hge
    rw [hkk]
    refine Nat.add_le_add_left (roundNearest_mono _ _ _ _ ?_ ?_ ?_) _
    · exact Nat.mul_pos hd (Nat.two_pow_pos _)
    · exact Nat.mul_pos hd' (Nat.two_pow_pos _)
    · calc n * (d' * 2 ^ (Nat.log2 (n' / d') - p)) = n * d' * 2 ^ (Nat.log2 (n' / d') - p) := by ring
        _ ≤ n' * d * 2 ^ (Nat.log2 (n' / d') - p) := Nat.mul_le_mul_right _ h
        _ = n' * (d * 2 ^ (Nat.log2 (n' / d') - p)) := by ring

theorem magUnits_of_normal (p m : Nat) (h : 2 ^ p ≤ m) :
    magUnits p m = (2 ^ p + m % 2 ^ p) * 2 ^ (m / 2 ^ p - 1) := by
  simp [magUnits, Nat.not_lt.2 h]

theorem log2_eq_of_bounds (x k : Nat) (h1 : 2 ^ k ≤ x) (h2 : x < 2 ^ (k + 1)) : Nat.log2 x = k := by
  have hx : x ≠ 0 := by have := Nat.two_pow_pos k; omega
  have a : k ≤ Nat.log2 x := (Nat.le_log2 hx).2 h1
  have b : Nat.log2 x < k + 1 := (Nat.log2_lt hx).2 h2
  omega

/-- A representable value rounds to itself. -/
theorem roundMag_exact (p inf m c : Nat) (hc : 0 < c) (hm : m ≤ inf) :
    roundMag p inf (magUnits p m * c) c = m := by
  simp only [roundMag, Nat.mul_div_cancel _ hc]
  rcases Nat.lt_or_ge m (2 ^ p) with h | h
  · have hu : magUnits p m = m := by simp [magUnits, h]
    have hl : Nat.log2 m - p = 0 := by
      rcases Nat.eq_zero_or_pos m with h0 | hpos
      · simp [h0, Nat.log2_zero]
      · have := (Nat.log2_lt (by omega : m ≠ 0)).2 h
        omega
    rw [hu, hl]
    simp [roundNearest_mul _ _ hc, hm]
  · have hpos := Nat.two_pow_pos p
    have hmod := Nat.mod_lt m hpos
    have e := Nat.div_add_mod m (2 ^ p)
    have hq : 1 ≤ m / 2 ^ p := (Nat.le_div_iff_mul_le hpos).2 (by omega)
    rw [magUnits_of_normal p m h]
    have hlog : Nat.log2 ((2 ^ p + m % 2 ^ p) * 2 ^ (m / 2 ^ p - 1)) = p + (m / 2 ^ p - 1) := by
      apply log2_eq_of_bounds
      · rw [Nat.pow_add]
        exact Nat.mul_le_mul_right _ (by omega)
      · rw [show p + (m / 2 ^ p - 1) + 1 = (p + 1) + (m / 2 ^ p - 1) by omega, Nat.pow_add]
        exact Nat.mul_lt_mul_of_pos_right (by rw [Nat.pow_succ]; omega) (Nat.two_pow_pos _)
    rw [hlog, show p + (m / 2 ^ p - 1) - p = m / 2 ^ p - 1 by omega]
    rw [show (2 ^ p + m % 2 ^ p) * 2 ^ (m / 2 ^ p - 1) * c
        = (2 ^ p + m % 2 ^ p) * (c * 2 ^ (m / 2 ^ p - 1)) by ring]
    rw [roundNearest_mul _ _ (Nat.mul_pos hc (Nat.two_pow_pos _))]
    have htot : (m / 2 ^ p - 1) * 2 ^ p + (2 ^ p + m % 2 ^ p) = m := by
      obtain ⟨q, hq'⟩ : ∃ q, m / 2 ^ p = q + 1 := ⟨m / 2 ^ p - 1, by omega⟩
      rw [hq'] at e ⊢
      simp only [Nat.add_sub_cancel]
      calc q * 2 ^ p + (2 ^ p + m % 2 ^ p) = 2 ^ p * (q + 1) + m % 2 ^ p := by ring
        _ = m := e
    rw [htot]
    exact Nat.min_eq_left hm

/-- A value at most a representable one rounds to at most it. -/
theorem roundMag_le_of_le (p inf n d m : Nat) (hd : 0 < d) (hm : m ≤ inf) (h : n ≤ magUnits p m * d) :
    roundMag p inf n d ≤ m := by
  have := roundMag_mono p inf n d (magUnits p m * d) d hd hd (Nat.mul_le_mul_right _ h)
  rwa [roundMag_exact p inf m d hd hm] at this

/-- A value at least a representable one rounds to at least it. -/
theorem le_roundMag_of_le (p inf n d m : Nat) (hd : 0 < d) (hm : m ≤ inf) (h : magUnits p m * d ≤ n) :
    m ≤ roundMag p inf n d := by
  have := roundMag_mono p inf (magUnits p m * d) d n d hd hd (Nat.mul_le_mul_right _ h)
  rwa [roundMag_exact p inf m d hd hm] at this

/-- A larger magnitude stands for a larger value. -/
theorem magUnits_mono (p m m' : Nat) (h : m ≤ m') : magUnits p m ≤ magUnits p m' := by
  have hpos := Nat.two_pow_pos p
  rcases Nat.lt_or_ge m' (2 ^ p) with h2 | h2
  · simp [magUnits, h2, Nat.lt_of_le_of_lt h h2, h]
  · rcases Nat.lt_or_ge m (2 ^ p) with h1 | h1
    · rw [magUnits_of_normal p m' h2]
      simp only [magUnits, h1, if_true]
      calc m ≤ (2 ^ p + m' % 2 ^ p) * 1 := by omega
        _ ≤ _ := Nat.mul_le_mul_left _ (Nat.two_pow_pos _)
    · rw [magUnits_of_normal p m h1, magUnits_of_normal p m' h2]
      have hm := Nat.mod_lt m hpos
      have e := Nat.div_add_mod m (2 ^ p)
      have e' := Nat.div_add_mod m' (2 ^ p)
      have hq : m / 2 ^ p ≤ m' / 2 ^ p := Nat.div_le_div_right h
      have hq1 : 1 ≤ m / 2 ^ p := (Nat.le_div_iff_mul_le hpos).2 (by omega)
      rcases Nat.lt_or_ge (m / 2 ^ p) (m' / 2 ^ p) with hlt | hge
      · calc (2 ^ p + m % 2 ^ p) * 2 ^ (m / 2 ^ p - 1) ≤ (2 ^ p * 2) * 2 ^ (m / 2 ^ p - 1) :=
              Nat.mul_le_mul_right _ (by omega)
          _ = 2 ^ p * 2 ^ (m / 2 ^ p) := by
              rw [Nat.mul_assoc, ← Nat.pow_succ', show (m / 2 ^ p - 1).succ = m / 2 ^ p by omega]
          _ ≤ 2 ^ p * 2 ^ (m' / 2 ^ p - 1) :=
              Nat.mul_le_mul_left _ (Nat.pow_le_pow_right (by decide) (by omega))
          _ ≤ _ := Nat.mul_le_mul_right _ (by omega)
      · have hqq : m / 2 ^ p = m' / 2 ^ p := Nat.le_antisymm hq hge
        rw [hqq]
        refine Nat.mul_le_mul_right _ (Nat.add_le_add_left ?_ _)
        rw [hqq] at e
        omega

end Sys2Proof.Machine
end

