-- ==== Sys2Proof/Laws/Float.lean ====
section
/-! SUPPORT. The laws of binary64 patterns and operations: sign and magnitude of each result, when it is no NaN or
finite, and how its magnitude is bounded by its operands' magnitudes. -/

namespace Sys2Proof.Machine

set_option Elab.async false

/-! ### patterns -/

theorem fmag_lt (x : Double) : fmag x < 2 ^ 63 := Nat.mod_lt _ (by decide)

theorem fsign_iff (x : Double) : fsign x = decide (2 ^ 63 ≤ x.toNat) := by
  simp [fsign, BitVec.msb_eq_decide]

theorem toNat_eq (x : Double) : x.toNat = (if fsign x then 2 ^ 63 else 0) + fmag x := by
  have hx := x.isLt
  rw [fsign_iff, fmag]
  by_cases h : 2 ^ 63 ≤ x.toNat
  · rw [if_pos (by rw [decide_eq_true h])]
    omega
  · rw [if_neg (by simpa using h)]
    omega

theorem double_ext {x y : Double} (hs : fsign x = fsign y) (hm : fmag x = fmag y) : x = y := by
  apply BitVec.eq_of_toNat_eq
  rw [toNat_eq x, toNat_eq y, hs, hm]

theorem fmag_pack64 (neg : Bool) (m : Nat) (h : m < 2 ^ 63) : fmag (pack64 neg m) = m := by
  cases neg <;> simp [fmag, pack64] <;> omega

theorem fsign_pack64 (neg : Bool) (m : Nat) (h : m < 2 ^ 63) : fsign (pack64 neg m) = neg := by
  cases neg <;> simp [fsign_iff, pack64] <;> omega

theorem inf64_lt : inf64 < 2 ^ 63 := by decide

theorem roundMag64_lt (n d : Nat) : roundMag 52 inf64 n d < 2 ^ 63 :=
  Nat.lt_of_le_of_lt (roundMag_le_inf _ _ _ _) inf64_lt

@[simp] theorem fmag_round64 (neg : Bool) (n d : Nat) : fmag (round64 neg n d) = roundMag 52 inf64 n d :=
  fmag_pack64 _ _ (roundMag64_lt n d)

@[simp] theorem fsign_round64 (neg : Bool) (n d : Nat) : fsign (round64 neg n d) = neg :=
  fsign_pack64 _ _ (roundMag64_lt n d)

@[simp] theorem fmag_pack64_inf (neg : Bool) : fmag (pack64 neg inf64) = inf64 := fmag_pack64 _ _ inf64_lt
@[simp] theorem fsign_pack64_inf (neg : Bool) : fsign (pack64 neg inf64) = neg := fsign_pack64 _ _ inf64_lt
@[simp] theorem fmag_pack64_zero (neg : Bool) : fmag (pack64 neg 0) = 0 := fmag_pack64 _ _ (by decide)
@[simp] theorem fsign_pack64_zero (neg : Bool) : fsign (pack64 neg 0) = neg := fsign_pack64 _ _ (by decide)

theorem toNat_fneg (x : Double) : (fneg x).toNat = (if fsign x then 0 else 2 ^ 63) + fmag x := by
  have h1 : (fneg x).toNat = x.toNat ^^^ 2 ^ 63 := by simp [fneg, BitVec.toNat_xor]
  have hx := x.isLt
  rw [h1, Nat.xor_comm, fsign_iff, fmag]
  by_cases h : 2 ^ 63 ≤ x.toNat
  · obtain ⟨r, hr⟩ : ∃ r, x.toNat = 2 ^ 63 + r := ⟨x.toNat - 2 ^ 63, by omega⟩
    have hr2 : r < 2 ^ 63 := by omega
    have hor : 2 ^ 63 + r = 2 ^ 63 ||| r := by
      have := Nat.two_pow_add_eq_or_of_lt hr2 1
      rwa [Nat.mul_one] at this
    rw [if_pos (by rw [decide_eq_true h]), hr, hor]
    have e : 2 ^ 63 ^^^ (2 ^ 63 ||| r) = r := by
      apply Nat.eq_of_testBit_eq
      intro i
      simp only [Nat.testBit_xor, Nat.testBit_or, Nat.testBit_two_pow]
      by_cases hi : 63 = i
      · subst hi
        simp [Nat.testBit_lt_two_pow hr2]
      · simp [hi]
    rw [e, ← hor]
    omega
  · have hlt : x.toNat < 2 ^ 63 := by omega
    have hor : 2 ^ 63 + x.toNat = 2 ^ 63 ||| x.toNat := by
      have := Nat.two_pow_add_eq_or_of_lt hlt 1
      rwa [Nat.mul_one] at this
    have e : 2 ^ 63 ^^^ x.toNat = 2 ^ 63 + x.toNat := by
      rw [hor]
      apply Nat.eq_of_testBit_eq
      intro i
      simp only [Nat.testBit_xor, Nat.testBit_or, Nat.testBit_two_pow]
      by_cases hi : 63 = i
      · subst hi
        simp [Nat.testBit_lt_two_pow hlt]
      · simp [hi]
    rw [e, if_neg (by simpa using h), Nat.mod_eq_of_lt hlt]

@[simp] theorem fmag_fneg (x : Double) : fmag (fneg x) = fmag x := by
  have h := toNat_fneg x
  have hm := fmag_lt x
  rw [fmag, h]
  cases fsign x <;> simp <;> omega

@[simp] theorem fsign_fneg (x : Double) : fsign (fneg x) = !fsign x := by
  have h := toNat_fneg x
  have hm := fmag_lt x
  rw [fsign_iff, h]
  cases fsign x <;> simp <;> omega

@[simp] theorem fmag_fabs (x : Double) : fmag (fabs x) = fmag x := by
  simp only [fmag, fabs, BitVec.toNat_and]
  rw [show (0x7FFFFFFFFFFFFFFF : Double).toNat = 2 ^ 63 - 1 by decide, Nat.and_two_pow_sub_one_eq_mod]
  simp

@[simp] theorem fsign_fabs (x : Double) : fsign (fabs x) = false := by
  rw [fsign_iff, decide_eq_false_iff_not, fabs, BitVec.toNat_and,
    show (0x7FFFFFFFFFFFFFFF : Double).toNat = 2 ^ 63 - 1 by decide, Nat.and_two_pow_sub_one_eq_mod]
  have := Nat.mod_lt x.toNat (by decide : 0 < 2 ^ 63)
  omega

theorem isNaN_eq (x : Double) : isNaN x = decide (inf64 < fmag x) := rfl
theorem isFinite_eq (x : Double) : isFinite x = decide (fmag x < inf64) := rfl

/-- A finite value is no NaN. -/
theorem not_isNaN_of_isFinite {x : Double} (h : isFinite x = true) : isNaN x = false := by
  simp [isNaN, isFinite] at *
  omega

/-- A finite value is no infinity. -/
theorem not_isInf_of_isFinite {x : Double} (h : isFinite x = true) : isInf x = false := by
  simp [isInf, isFinite] at *
  omega

@[simp] theorem isNaN_round64 (neg : Bool) (n d : Nat) : isNaN (round64 neg n d) = false := by
  have := roundMag_le_inf 52 inf64 n d
  simp only [isNaN, fmag_round64, decide_eq_false_iff_not]
  omega

@[simp] theorem isNaN_pack64_inf (neg : Bool) : isNaN (pack64 neg inf64) = false := by
  simp [isNaN]

@[simp] theorem isNaN_pack64_zero (neg : Bool) : isNaN (pack64 neg 0) = false := by
  simp [isNaN]

@[simp] theorem isNaN_fnan : isNaN fnan = true := by decide
@[simp] theorem isNaN_fzero : isNaN fzero = false := by decide
@[simp] theorem isNaN_fone : isNaN fone = false := by decide
@[simp] theorem fmag_fzero : fmag fzero = 0 := by decide
@[simp] theorem fmag_fone : fmag fone = 0x3FF0000000000000 := by decide
@[simp] theorem fsign_fzero : fsign fzero = false := by decide
@[simp] theorem fsign_fone : fsign fone = false := by decide

/-- The units of a magnitude no larger. -/
theorem funits_le {x : Double} {m : Nat} (h : fmag x ≤ m) : funits x ≤ magUnits 52 m := magUnits_mono 52 _ _ h

/-- Rounding a value's own units gives its magnitude back. -/
theorem roundMag_funits {x : Double} (h : fmag x ≤ inf64) : roundMag 52 inf64 (funits x) 1 = fmag x := by
  have := roundMag_exact 52 inf64 (fmag x) 1 (by decide) h
  simpa [funits] using this

theorem funits_fone : funits fone = one64Units := by decide +kernel

/-! ### a NaN that software sees -/

theorem isNaN_nanOf64 (b : Double) : isNaN (nanOf64 b) = true := by
  simp only [nanOf64]
  split
  · assumption
  · rw [isNaN, decide_eq_true_eq, fmag, BitVec.toNat_or, BitVec.toNat_or]
    have e : ∀ y : Nat, y % 2 ^ 63 = y &&& (2 ^ 63 - 1) := fun y => (Nat.and_two_pow_sub_one_eq_mod y 63).symm
    rw [e, Nat.and_or_distrib_right, Nat.and_or_distrib_right]
    have h1 : inf64 ≤ (b.toNat &&& (2 ^ 63 - 1)) ||| ((0x7FF0000000000000 : Double).toNat &&& (2 ^ 63 - 1)) := by
      refine Nat.le_trans ?_ (Nat.right_le_or)
      decide
    have hbit : ((b.toNat &&& (2 ^ 63 - 1)) ||| ((0x7FF0000000000000 : Double).toNat &&& (2 ^ 63 - 1)) |||
        ((0x0000000000000001 : Double).toNat &&& (2 ^ 63 - 1))).testBit 0 = true := by
      simp [Nat.testBit_or]
    have hle : (b.toNat &&& (2 ^ 63 - 1)) ||| ((0x7FF0000000000000 : Double).toNat &&& (2 ^ 63 - 1)) ≤
        (b.toNat &&& (2 ^ 63 - 1)) ||| ((0x7FF0000000000000 : Double).toNat &&& (2 ^ 63 - 1)) |||
          ((0x0000000000000001 : Double).toNat &&& (2 ^ 63 - 1)) := Nat.left_le_or
    refine Nat.lt_of_le_of_ne (Nat.le_trans h1 hle) fun heq => ?_
    rw [← heq] at hbit
    revert hbit
    decide

@[simp] theorem storeDouble_of_not_nan {x : Double} (n : Nat) (h : isNaN x = false) :
    storeDouble x n = (x, n) := by
  simp [storeDouble, h]

/-! ### order -/

theorem fkey_natAbs (x : Double) : (fkey x).natAbs = fmag x := by
  simp only [fkey]
  split <;> omega

theorem fkey_le_of_fle {x y : Double} (h : fle x y = true) : fkey x ≤ fkey y := by
  simp only [fle, Bool.and_eq_true, decide_eq_true_eq] at h
  exact h.2

theorem fkey_lt_of_flt {x y : Double} (h : flt x y = true) : fkey x < fkey y := by
  simp only [flt, Bool.and_eq_true, decide_eq_true_eq] at h
  exact h.2

theorem fkey_of_nonneg {x : Double} (h : fsign x = false) : fkey x = fmag x := by simp [fkey, h]

theorem fle_of_nonneg {x y : Double} (hx : isNaN x = false) (hy : isNaN y = false) (sx : fsign x = false)
    (sy : fsign y = false) : fle x y = decide (fmag x ≤ fmag y) := by
  simp [fle, hx, hy, fkey, sx, sy]

theorem flt_of_nonneg {x y : Double} (hx : isNaN x = false) (hy : isNaN y = false) (sx : fsign x = false)
    (sy : fsign y = false) : flt x y = decide (fmag x < fmag y) := by
  simp [flt, hx, hy, fkey, sx, sy]

theorem fle_trans {x y z : Double} (h1 : fle x y = true) (h2 : fle y z = true) : fle x z = true := by
  simp only [fle, Bool.and_eq_true, Bool.not_eq_true', decide_eq_true_eq] at *
  exact ⟨⟨h1.1.1, h2.1.2⟩, by omega⟩

theorem fle_refl {x : Double} (h : isNaN x = false) : fle x x = true := by simp [fle, h]

/-- `max(x, lo)` is at least lo, whatever x is (R17). -/
theorem fle_fmax (x lo : Double) (hlo : isNaN lo = false) : fle lo (fmax x lo) = true := by
  simp only [fmax]
  split
  · assumption
  · exact fle_refl hlo

theorem fle_total {x y : Double} (hx : isNaN x = false) (hy : isNaN y = false) :
    fle x y = true ∨ fle y x = true := by
  simp only [fle, hx, hy, Bool.not_false, Bool.true_and, decide_eq_true_eq]
  omega

/-- `clamp(x, lo, hi)` lies in [lo, hi], whatever x is (R17). -/
theorem fclamp_range (x lo hi : Double) (h : fle lo hi = true) :
    fle lo (fclamp x lo hi) = true ∧ fle (fclamp x lo hi) hi = true := by
  have hlo : isNaN lo = false := by simp only [fle, Bool.and_eq_true, Bool.not_eq_true'] at h; exact h.1.1
  have hhi : isNaN hi = false := by simp only [fle, Bool.and_eq_true, Bool.not_eq_true'] at h; exact h.1.2
  have h1 := fle_fmax x lo hlo
  simp only [fclamp, fmin]
  split
  · exact ⟨h1, by assumption⟩
  · exact ⟨h, fle_refl hhi⟩

theorem not_nan_of_fle_left {x y : Double} (h : fle x y = true) : isNaN x = false := by
  simp only [fle, Bool.and_eq_true, Bool.not_eq_true'] at h
  exact h.1.1

theorem not_nan_of_fle_right {x y : Double} (h : fle x y = true) : isNaN y = false := by
  simp only [fle, Bool.and_eq_true, Bool.not_eq_true'] at h
  exact h.1.2

/-- A clamped value is no NaN. -/
theorem isNaN_fclamp (x lo hi : Double) (h : fle lo hi = true) : isNaN (fclamp x lo hi) = false :=
  not_nan_of_fle_left (fclamp_range x lo hi h).2

/-- Between -b and b in order: at most b in magnitude. -/
theorem fmag_le_of_between {x b : Double} (h1 : fle (fneg b) x = true) (h2 : fle x b = true)
    (hb : fsign b = false) : fmag x ≤ fmag b := by
  simp only [fle, Bool.and_eq_true, Bool.not_eq_true', decide_eq_true_eq, fkey, fsign_fneg, fmag_fneg, hb] at h1 h2
  have := h1.2
  have := h2.2
  cases hs : fsign x <;> simp [hs] at * <;> omega

/-- Between 0 and b: at most b in magnitude. -/
theorem fmag_le_of_range {x b : Double} (h1 : fle fzero x = true) (h2 : fle x b = true)
    (hb : fsign b = false) : fmag x ≤ fmag b := by
  refine fmag_le_of_between (fle_trans ?_ h1) h2 hb
  have := not_nan_of_fle_right h2
  simp only [fle, Bool.and_eq_true, Bool.not_eq_true', decide_eq_true_eq, fkey, fsign_fneg, fmag_fneg, hb]
  refine ⟨⟨?_, by decide⟩, ?_⟩
  · simpa [isNaN] using this
  · simp

/-! ### addition -/

theorem fint_natAbs (x : Double) : (fint x).natAbs = funits x := by
  simp only [fint]
  split <;> omega

theorem fadd_finite {x y : Double} (hx : isFinite x = true) (hy : isFinite y = true) :
    fadd x y = if fint x + fint y = 0 then pack64 (fsign x && fsign y) 0
      else round64 (decide (fint x + fint y < 0)) (fint x + fint y).natAbs 1 := by
  simp [fadd, not_isNaN_of_isFinite hx, not_isNaN_of_isFinite hy, not_isInf_of_isFinite hx,
    not_isInf_of_isFinite hy]

theorem isNaN_fadd {x y : Double} (hx : isFinite x = true) (hy : isFinite y = true) :
    isNaN (fadd x y) = false := by
  rw [fadd_finite hx hy]
  split <;> simp

/-- The magnitude of a sum, from bounds on the operands. -/
theorem fmag_fadd_le {x y : Double} (a b : Nat) (ha : a < inf64) (hb : b < inf64) (hx : fmag x ≤ a)
    (hy : fmag y ≤ b) : fmag (fadd x y) ≤ roundMag 52 inf64 (magUnits 52 a + magUnits 52 b) 1 := by
  have fx : isFinite x = true := by simp [isFinite]; omega
  have fy : isFinite y = true := by simp [isFinite]; omega
  rw [fadd_finite fx fy]
  have h1 := funits_le hx
  have h2 := funits_le hy
  have e1 := fint_natAbs x
  have e2 := fint_natAbs y
  split
  · simp
  · rw [fmag_round64]
    exact roundMag_mono _ _ _ _ _ _ (by decide) (by decide) (by omega)

/-! ### multiplication and division -/

theorem fmul_finite {x y : Double} (hx : isFinite x = true) (hy : isFinite y = true) :
    fmul x y = round64 (fsign x != fsign y) (funits x * funits y) one64Units := by
  simp [fmul, not_isNaN_of_isFinite hx, not_isNaN_of_isFinite hy, not_isInf_of_isFinite hx,
    not_isInf_of_isFinite hy]

theorem isNaN_fmul {x y : Double} (hx : isFinite x = true) (hy : isFinite y = true) :
    isNaN (fmul x y) = false := by
  rw [fmul_finite hx hy]
  simp

theorem one64Units_eq : one64Units = 2 ^ 1074 := by unfold one64Units; rfl

theorem one64Units_pos : 0 < one64Units := by rw [one64Units_eq]; exact Nat.two_pow_pos _

/-- The magnitude of a product, from bounds on the operands. -/
theorem fmag_fmul_le {x y : Double} (a b : Nat) (ha : a < inf64) (hb : b < inf64) (hx : fmag x ≤ a)
    (hy : fmag y ≤ b) : fmag (fmul x y) ≤ roundMag 52 inf64 (magUnits 52 a * magUnits 52 b) one64Units := by
  have fx : isFinite x = true := by simp [isFinite]; omega
  have fy : isFinite y = true := by simp [isFinite]; omega
  rw [fmul_finite fx fy, fmag_round64]
  exact roundMag_mono _ _ _ _ _ _ one64Units_pos one64Units_pos
    (Nat.mul_le_mul_right _ (Nat.mul_le_mul (funits_le hx) (funits_le hy)))

theorem funits_pos {x : Double} (h : 0 < fmag x) : 0 < funits x := by
  have h1 : magUnits 52 1 ≤ funits x := magUnits_mono 52 _ _ h
  have h2 : magUnits 52 1 = 1 := by decide
  omega

theorem fdiv_finite {x y : Double} (hx : isFinite x = true) (hy : isFinite y = true) (h0 : 0 < fmag y) :
    fdiv x y = round64 (fsign x != fsign y) (funits x * one64Units) (funits y) := by
  have hz : isZero y = false := by simp [isZero]; omega
  simp [fdiv, not_isNaN_of_isFinite hx, not_isNaN_of_isFinite hy, not_isInf_of_isFinite hx,
    not_isInf_of_isFinite hy, hz]

theorem isNaN_fdiv {x y : Double} (hx : isFinite x = true) (hy : isNaN y = false) (h0 : 0 < fmag y) :
    isNaN (fdiv x y) = false := by
  by_cases hi : isInf y = true
  · simp [fdiv, not_isNaN_of_isFinite hx, hy, not_isInf_of_isFinite hx, hi]
  · have fy : isFinite y = true := by
      simp [isFinite, isNaN, isInf] at *
      omega
    rw [fdiv_finite hx fy h0]
    simp

/-- The magnitude of a quotient, from bounds on the operands. -/
theorem fmag_fdiv_le {x y : Double} (a b : Nat) (ha : a < inf64) (hb : 0 < b) (hy : isFinite y = true)
    (hx : fmag x ≤ a) (hyb : b ≤ fmag y) :
    fmag (fdiv x y) ≤ roundMag 52 inf64 (magUnits 52 a * one64Units) (magUnits 52 b) := by
  have fx : isFinite x = true := by simp [isFinite]; omega
  have hb' : b < 2 ^ 63 := Nat.lt_of_le_of_lt hyb (fmag_lt y)
  have eb : fmag (pack64 false b) = b := fmag_pack64 _ _ hb'
  have pb : 0 < magUnits 52 b := by
    have := funits_pos (x := pack64 false b) (by omega)
    simpa [funits, eb] using this
  have hbu : magUnits 52 b ≤ funits y := magUnits_mono 52 _ _ hyb
  rw [fdiv_finite fx hy (by omega), fmag_round64]
  refine roundMag_mono _ _ _ _ _ _ (by omega) pb ?_
  exact Nat.mul_le_mul (Nat.mul_le_mul_right _ (funits_le hx)) hbu

/-- The magnitude of a quotient is at least what the bounds of its operands give. -/
theorem le_fmag_fdiv {x y : Double} (a b : Nat) (hx : isFinite x = true) (hy : isFinite y = true)
    (h0 : 0 < fmag y) (hxa : a ≤ fmag x) (hyb : fmag y ≤ b) :
    roundMag 52 inf64 (magUnits 52 a * one64Units) (magUnits 52 b) ≤ fmag (fdiv x y) := by
  have hbu : funits y ≤ magUnits 52 b := funits_le hyb
  have py := funits_pos h0
  rw [fdiv_finite hx hy h0, fmag_round64]
  refine roundMag_mono _ _ _ _ _ _ (by omega) py ?_
  exact Nat.mul_le_mul (Nat.mul_le_mul_right _ (magUnits_mono 52 _ _ hxa)) hbu

end Sys2Proof.Machine
end

