-- ==== Sys2Proof/Laws/Keys.lean ====
section
/-! SUPPORT. The order keys of binary64 values: which key a rational lies at or above, how far apart two values are,
and what rounding down gives. -/

namespace Sys2Proof.Machine

set_option Elab.async false

/-! ### magnitudes in units -/

/-- The units of q at the binary exponent k. -/
theorem magUnits_binade (k q : Nat) (h : k = 0 ∨ 2 ^ 52 ≤ q) (hq : q ≤ 2 ^ 53) :
    magUnits 52 (k * 2 ^ 52 + q) = q * 2 ^ k := by
  rcases Nat.lt_or_ge q (2 ^ 52) with h1 | h1
  · obtain rfl : k = 0 := h.resolve_right (by omega)
    rw [show 0 * 2 ^ 52 + q = q by omega, magUnits, if_pos h1, Nat.pow_zero, Nat.mul_one]
  · rw [magUnits_of_normal 52 _ (by omega)]
    rcases Nat.lt_or_ge q (2 ^ 53) with h2 | h2
    · rw [show (k * 2 ^ 52 + q) / 2 ^ 52 - 1 = k by omega, show (k * 2 ^ 52 + q) % 2 ^ 52 = q - 2 ^ 52 by omega,
        show 2 ^ 52 + (q - 2 ^ 52) = q by omega]
    · obtain rfl : q = 2 ^ 53 := by omega
      rw [show (k * 2 ^ 52 + 2 ^ 53) / 2 ^ 52 - 1 = k + 1 by omega, show (k * 2 ^ 52 + 2 ^ 53) % 2 ^ 52 = 0 by omega,
        Nat.pow_succ 2 k]
      ring

theorem magUnits_lt {m m' : Nat} (h : m < m') : magUnits 52 m < magUnits 52 m' := by
  refine Nat.lt_of_le_of_ne (magUnits_mono 52 _ _ (Nat.le_of_lt h)) fun e => ?_
  have h1 := roundMag_exact 52 m' m 1 (by decide) (Nat.le_of_lt h)
  have h2 := roundMag_exact 52 m' m' 1 (by decide) (Nat.le_refl _)
  rw [e, h2] at h1
  omega

theorem magUnits_le_iff (m m' : Nat) : magUnits 52 m ≤ magUnits 52 m' ↔ m ≤ m' :=
  ⟨fun h => Nat.le_of_not_lt fun hl => Nat.not_lt.2 h (magUnits_lt hl), magUnits_mono 52 m m'⟩

/-- Neighbouring magnitudes are at least 2^-53 of the larger one apart. -/
theorem magUnits_gap {m m' : Nat} (h : m < m') : magUnits 52 m' ≤ (magUnits 52 m' - magUnits 52 m) * 2 ^ 53 := by
  obtain ⟨n, rfl⟩ : ∃ n, m' = n + 1 := ⟨m' - 1, by omega⟩
  refine Nat.le_trans ?_ (Nat.mul_le_mul_right _ (Nat.sub_le_sub_left (magUnits_mono 52 m n (by omega)) _))
  rcases Nat.lt_or_ge n (2 ^ 52) with h1 | h1
  · have e1 := magUnits_binade 0 n (.inl rfl) (by omega)
    have e2 := magUnits_binade 0 (n + 1) (.inl rfl) (by omega)
    simp only [Nat.zero_mul, Nat.zero_add, Nat.pow_zero, Nat.mul_one] at e1 e2
    rw [e1, e2]
    omega
  · obtain ⟨k, q, hn, hq1, hq2⟩ : ∃ k q, n = k * 2 ^ 52 + q ∧ 2 ^ 52 ≤ q ∧ q < 2 ^ 53 :=
      ⟨n / 2 ^ 52 - 1, 2 ^ 52 + n % 2 ^ 52, by omega, by omega, by omega⟩
    rw [hn, Nat.add_assoc, magUnits_binade k q (.inr hq1) (by omega), magUnits_binade k (q + 1) (.inr (by omega)) hq2,
      ← Nat.sub_mul, show q + 1 - q = 1 by omega, Nat.one_mul, Nat.mul_comm (2 ^ k)]
    exact Nat.mul_le_mul_right _ hq2

/-! ### the magnitudes around a rational -/

theorem floorMag_spec (n d m : Nat) (hd : 0 < d) (hm : m < inf64) : m ≤ floorMag n d ↔ magUnits 52 m * d ≤ n := by
  have hk : ∀ k, k = Nat.log2 (n / d) - 52 → (k = 0 ∨ 2 ^ 52 ≤ n / (d * 2 ^ k)) ∧ n / (d * 2 ^ k) < 2 ^ 53 := by
    rintro k rfl
    have e1 : n / (d * 2 ^ (Nat.log2 (n / d) - 52)) = n / d / 2 ^ (Nat.log2 (n / d) - 52) :=
      (Nat.div_div_eq_div_mul ..).symm
    have hlt : n / d < 2 ^ (Nat.log2 (n / d) + 1) := Nat.lt_log2_self
    rw [e1]
    constructor
    · by_cases h0 : Nat.log2 (n / d) - 52 = 0
      · exact .inl h0
      · right
        have hne : n / d ≠ 0 := by
          intro hz
          rw [hz] at h0
          simp [Nat.log2_zero] at h0
        rw [Nat.le_div_iff_mul_le (Nat.two_pow_pos _), ← Nat.pow_add]
        refine Nat.le_trans (Nat.pow_le_pow_right (by decide) ?_) (Nat.log2_self_le hne)
        omega
    · rw [Nat.div_lt_iff_lt_mul (Nat.two_pow_pos _), ← Nat.pow_add]
      exact Nat.lt_of_lt_of_le hlt (Nat.pow_le_pow_right (by decide) (by omega))
  have key : ∀ k, k = Nat.log2 (n / d) - 52 → (m ≤ k * 2 ^ 52 + n / (d * 2 ^ k) ↔ magUnits 52 m * d ≤ n) := by
    intro k hkk
    obtain ⟨h1, h2⟩ := hk k hkk
    have u1 := magUnits_binade k _ h1 (Nat.le_of_lt h2)
    have u2 := magUnits_binade k (n / (d * 2 ^ k) + 1) (h1.imp_right fun h => by omega) h2
    have hp : 0 < d * 2 ^ k := Nat.mul_pos hd (Nat.two_pow_pos _)
    have e := Nat.div_add_mod n (d * 2 ^ k)
    have hr := Nat.mod_lt n hp
    constructor
    · intro h
      refine Nat.le_trans (Nat.mul_le_mul_right d ((magUnits_le_iff _ _).2 h)) ?_
      rw [u1]
      calc n / (d * 2 ^ k) * 2 ^ k * d = d * 2 ^ k * (n / (d * 2 ^ k)) := by ring
        _ ≤ n := by omega
    · intro h
      by_contra hc
      have h3 : magUnits 52 (k * 2 ^ 52 + (n / (d * 2 ^ k) + 1)) ≤ magUnits 52 m := magUnits_mono 52 _ _ (by omega)
      rw [u2] at h3
      have h4 := Nat.mul_le_mul_right d h3
      have e5 : (n / (d * 2 ^ k) + 1) * 2 ^ k * d = d * 2 ^ k * (n / (d * 2 ^ k)) + d * 2 ^ k := by ring
      rw [e5] at h4
      omega
  have := key _ rfl
  unfold floorMag
  simp only [Nat.le_min]
  rw [← this]
  exact and_iff_left (by omega)

theorem floorMag_lt (n d : Nat) : floorMag n d < inf64 :=
  Nat.lt_of_le_of_lt (Nat.min_le_right _ _) (by decide)

theorem ceilMag_spec (n d m : Nat) (hd : 0 < d) (hm : m < inf64) : ceilMag n d ≤ m ↔ n ≤ magUnits 52 m * d := by
  have hf := floorMag_lt n d
  have h0 := (floorMag_spec n d _ hd hf).1 (Nat.le_refl _)
  have h1 := floorMag_spec n d m hd hm
  unfold ceilMag
  simp only
  split
  · rename_i hlt
    rw [Nat.succ_le_iff, ← Nat.not_le, h1]
    refine ⟨fun h => by omega, fun h hc => ?_⟩
    have := Nat.mul_le_mul_right d (magUnits_mono 52 _ _ (h1.2 hc))
    omega
  · have he : n = magUnits 52 (floorMag n d) * d := by omega
    rw [← magUnits_le_iff]
    conv_rhs => rw [he]
    exact (Nat.mul_le_mul_right_iff hd).symm

theorem ceilMag_le (n d : Nat) : ceilMag n d ≤ inf64 := by
  have := floorMag_lt n d
  unfold ceilMag
  simp only
  split <;> omega

/-! ### keys -/

/-- The units of a key. -/
def keyUnits (k : Int) : Int := k.sign * magUnits 52 k.natAbs

/-- The value of a key. -/
def keyValue (k : Int) : Rat := keyUnits k / one64Units

theorem units_pos : (0 : Rat) < one64Units := by exact_mod_cast one64Units_pos

theorem keyUnits_neg (k : Int) : keyUnits (-k) = -keyUnits k := by simp [keyUnits]

theorem keyValue_neg (k : Int) : keyValue (-k) = -keyValue k := by
  simp [keyValue, keyUnits_neg, neg_div]

@[simp] theorem keyValue_zero : keyValue 0 = 0 := by simp [keyValue, keyUnits]

theorem keyUnits_natCast (n : Nat) : keyUnits n = magUnits 52 n := by
  rcases Nat.eq_zero_or_pos n with rfl | h
  · decide
  · have hs : (n : Int).sign = 1 := Int.sign_eq_one_of_pos (by omega)
    simp [keyUnits, hs]

theorem magUnits_pos {n : Nat} (h : 0 < n) : 0 < magUnits 52 n := by
  have := magUnits_lt h
  omega

theorem keyUnits_lt {a b : Int} (h : a < b) : keyUnits a < keyUnits b := by
  obtain ⟨m, rfl | rfl⟩ := a.eq_nat_or_neg <;> obtain ⟨n, rfl | rfl⟩ := b.eq_nat_or_neg <;>
    simp only [keyUnits_neg, keyUnits_natCast]
  · exact_mod_cast magUnits_lt (by omega : m < n)
  · omega
  · rcases Nat.eq_zero_or_pos m with rfl | hm
    · have := magUnits_pos (by omega : 0 < n)
      omega
    · have := magUnits_pos hm
      omega
  · have := magUnits_lt (by omega : n < m)
    omega

theorem keyUnits_le_iff (a b : Int) : keyUnits a ≤ keyUnits b ↔ a ≤ b :=
  ⟨fun h => Int.not_lt.1 fun hl => Int.not_lt.2 h (keyUnits_lt hl), fun h => by
    rcases Int.lt_or_eq_of_le h with h | rfl
    · exact Int.le_of_lt (keyUnits_lt h)
    · exact Int.le_refl _⟩

theorem keyValue_le_iff (a b : Int) : keyValue a ≤ keyValue b ↔ a ≤ b := by
  unfold keyValue
  rw [div_le_div_iff_of_pos_right units_pos, Int.cast_le, keyUnits_le_iff]

theorem keyValue_lt_iff (a b : Int) : keyValue a < keyValue b ↔ a < b := by
  rw [← not_le, ← not_le, keyValue_le_iff]

/-- Two values are at least one smallest subnormal apart. -/
theorem keyValue_gap {a b : Int} (h : a < b) : keyValue a + 1 / one64Units ≤ keyValue b := by
  have h1 : (keyUnits a : Rat) + 1 ≤ keyUnits b := by exact_mod_cast keyUnits_lt h
  unfold keyValue
  rw [← add_div]
  exact div_le_div_of_nonneg_right h1 units_pos.le

/-- Two values of which the lower is not negative are at least 2^-53 of the higher one apart. -/
theorem keyValue_ratio {a b : Int} (h0 : 0 ≤ a) (h : a < b) : keyValue b ≤ (keyValue b - keyValue a) * 2 ^ 53 := by
  lift a to Nat using h0
  lift b to Nat using by omega
  have h1 := magUnits_gap (by omega : a < b)
  have h2 := magUnits_mono 52 a b (by omega)
  have h3 : (magUnits 52 b : Rat) ≤ ((magUnits 52 b : Rat) - magUnits 52 a) * 2 ^ 53 := by
    rw [← Nat.cast_sub h2]
    exact_mod_cast h1
  unfold keyValue
  rw [keyUnits_natCast, keyUnits_natCast, ← sub_div, div_mul_eq_mul_div]
  exact div_le_div_of_nonneg_right (by exact_mod_cast h3) units_pos.le

theorem fval_eq (x : Double) : fval x = keyValue (fkey x) := by
  unfold fval keyValue fint fkey funits
  split <;> simp [keyUnits_neg, keyUnits_natCast]

theorem fkey_range {x : Double} (h : isFinite x = true) : -(inf64 : Int) < fkey x ∧ fkey x < inf64 := by
  have := fkey_natAbs x
  simp only [isFinite, decide_eq_true_eq] at h
  omega

theorem fkey_ofKey (k : Int) (h1 : -(inf64 : Int) ≤ k) (h2 : k ≤ inf64) : fkey (ofKey k) = k := by
  have hm : k.natAbs < 2 ^ 63 := by
    have := inf64_lt
    omega
  unfold fkey ofKey
  rw [fsign_pack64 _ _ hm, fmag_pack64 _ _ hm]
  by_cases h : k < 0
  · rw [if_pos (by simpa using h)]
    omega
  · rw [if_neg (by simpa using h)]
    omega

theorem isNaN_ofKey (k : Int) (h1 : -(inf64 : Int) ≤ k) (h2 : k ≤ inf64) : isNaN (ofKey k) = false := by
  have := fkey_natAbs (ofKey k)
  rw [fkey_ofKey k h1 h2] at this
  simp only [isNaN, decide_eq_false_iff_not]
  omega

/-! ### the keys around a rational -/

theorem keyValue_le_rat (k : Int) (q : Rat) : keyValue k ≤ q ↔ keyUnits k * q.den ≤ q.num * one64Units := by
  have hd : (0 : Rat) < q.den := by exact_mod_cast q.den_pos
  have he : keyValue k ≤ q ↔ (keyUnits k : Rat) / one64Units ≤ (q.num : Rat) / q.den := by
    rw [Rat.num_div_den q, keyValue]
  rw [he, div_le_div_iff₀ units_pos hd]
  exact_mod_cast Iff.rfl

/-- `keyBelow q` is the key of the largest value at most q. -/
theorem le_keyBelow {k : Int} (q : Rat) (h1 : -(inf64 : Int) < k) (h2 : k < inf64) :
    k ≤ keyBelow q ↔ keyValue k ≤ q := by
  rw [keyValue_le_rat]
  unfold keyBelow
  have hd := q.den_pos
  have hU := one64Units_pos
  split
  · rename_i hn
    obtain ⟨a, ha⟩ : ∃ a : Nat, q.num = -a := ⟨q.num.natAbs, by omega⟩
    have ha0 : 0 < a := by omega
    have hc : ∀ m : Nat, m < inf64 → (ceilMag (a * one64Units) q.den ≤ m ↔ a * one64Units ≤ magUnits 52 m * q.den) :=
      fun m hm => ceilMag_spec _ _ _ hd hm
    rw [ha, Int.natAbs_neg, Int.natAbs_natCast]
    obtain ⟨m, rfl | rfl⟩ := k.eq_nat_or_neg
    · have hpos : ¬ ceilMag (a * one64Units) q.den ≤ 0 := by
        rw [hc 0 (by decide)]
        have := Nat.mul_pos ha0 hU
        have e0 : magUnits 52 0 = 0 := by decide
        rw [e0]
        omega
      rw [keyUnits_natCast]
      have h3 : (0 : Int) ≤ (magUnits 52 m : Int) * q.den := by positivity
      have h4 : (0 : Int) < (a : Int) * one64Units := by exact_mod_cast Nat.mul_pos ha0 hU
      constructor
      · intro h; omega
      · intro h; rw [Int.neg_mul] at h; omega
    · rw [keyUnits_neg, keyUnits_natCast, Int.neg_mul, Int.neg_mul, Int.neg_le_neg_iff, Int.neg_le_neg_iff]
      exact_mod_cast hc m (by omega)
  · rename_i hn
    obtain ⟨a, ha⟩ : ∃ a : Nat, q.num = a := ⟨q.num.natAbs, by omega⟩
    rw [ha, Int.natAbs_natCast]
    obtain ⟨m, rfl | rfl⟩ := k.eq_nat_or_neg
    · rw [keyUnits_natCast]
      exact_mod_cast floorMag_spec _ _ _ hd (by omega : m < inf64)
    · rw [keyUnits_neg, keyUnits_natCast, Int.neg_mul]
      have h3 : (0 : Int) ≤ (magUnits 52 m : Int) * q.den := by positivity
      have h4 : (0 : Int) ≤ (a : Int) * one64Units := by positivity
      constructor
      · intro _; omega
      · intro _; omega

theorem keyBelow_range (q : Rat) : -(inf64 : Int) ≤ keyBelow q ∧ keyBelow q < inf64 := by
  unfold keyBelow
  split
  · have := ceilMag_le (q.num.natAbs * one64Units) q.den
    have : 0 < inf64 := by decide
    omega
  · have := floorMag_lt (q.num.natAbs * one64Units) q.den
    omega

theorem keyBelow_mono {q r : Rat} (h : q ≤ r) : keyBelow q ≤ keyBelow r := by
  obtain ⟨h1, h2⟩ := keyBelow_range q
  rcases Int.lt_or_eq_of_le h1 with h3 | h3
  · rw [le_keyBelow r h3 h2]
    exact ((le_keyBelow q h3 h2).1 (Int.le_refl _)).trans h
  · rw [← h3]
    exact (keyBelow_range r).1

/-! ### rounding down -/

theorem fkey_below (q : Rat) : fkey (below q) = keyBelow q ∧ isNaN (below q) = false := by
  obtain ⟨h1, h2⟩ := keyBelow_range q
  exact ⟨fkey_ofKey _ h1 (by omega), isNaN_ofKey _ h1 (by omega)⟩

theorem below_mono {q r : Rat} (h : q ≤ r) : fkey (below q) ≤ fkey (below r) := by
  rw [(fkey_below q).1, (fkey_below r).1]
  exact keyBelow_mono h

/-- A finite value is at most `below q` exactly when it is at most q. -/
theorem le_below {d : Double} (q : Rat) (hd : isFinite d = true) : fkey d ≤ fkey (below q) ↔ fval d ≤ q := by
  obtain ⟨h1, h2⟩ := fkey_range hd
  rw [(fkey_below q).1, fval_eq]
  exact le_keyBelow q h1 h2

/-- A finite value that q does not exceed bounds `below q`. -/
theorem below_le {d : Double} {q : Rat} (hd : isFinite d = true) (h : q ≤ fval d) : fkey (below q) ≤ fkey d := by
  obtain ⟨h1, h2⟩ := fkey_range hd
  obtain ⟨r1, r2⟩ := keyBelow_range q
  rw [(fkey_below q).1]
  by_contra hc
  have h3 := (le_keyBelow q (by omega) r2).1 (Int.le_refl _)
  rw [fval_eq] at h
  exact hc ((keyValue_le_iff _ _).1 (h3.trans h))

/-- A finite non-negative value is its own rounding. -/
theorem below_self {d : Double} (hd : isFinite d = true) (hs : fsign d = false) : below (fval d) = d := by
  have hk := Int.le_antisymm (below_le hd (le_refl (fval d))) ((le_below _ hd).2 (le_refl _))
  have h1 := fkey_range hd
  rw [fkey_of_nonneg hs] at hk
  have hm : fmag d < 2 ^ 63 := by
    have := inf64_lt
    rw [fkey_of_nonneg hs] at h1
    omega
  rw [(fkey_below _).1] at hk
  unfold below ofKey
  rw [hk]
  refine double_ext ?_ ?_
  · rw [fsign_pack64 _ _ (by omega), hs]
    exact decide_eq_false (by omega)
  · rw [fmag_pack64 _ _ (by omega)]
    omega

end Sys2Proof.Machine
end

