-- ==== Sys2Proof/Laws/Wraps.lean ====
section
/-! SUPPORT. Exact results: which values are representable, floor and truncation, and the ranges of the two phase
wraps (42 R268, 43 R306). -/

namespace Sys2Proof.Machine

set_option Elab.async false

/-! ### representable values -/

/-- A number of units with at most 53 significant bits is the value of some magnitude bits. -/
theorem exists_magUnits (j : Nat) : ∀ q, q < 2 ^ 53 → ∃ m, magUnits 52 m = q * 2 ^ j := by
  induction j with
  | zero =>
    intro q hq
    refine ⟨q, ?_⟩
    rcases Nat.lt_or_ge q (2 ^ 52) with h | h
    · rw [magUnits, if_pos h, Nat.pow_zero, Nat.mul_one]
    · rw [magUnits_of_normal 52 q h, show q / 2 ^ 52 = 1 by omega]
      omega
  | succ j ih =>
    intro q hq
    rcases Nat.lt_or_ge q (2 ^ 52) with h | h
    · obtain ⟨m, hm⟩ := ih (2 * q) (by omega)
      refine ⟨m, ?_⟩
      rw [hm, Nat.pow_succ]
      ring
    · refine ⟨(j + 1) * 2 ^ 52 + q, ?_⟩
      rw [magUnits_of_normal 52 _ (by omega), show ((j + 1) * 2 ^ 52 + q) / 2 ^ 52 = j + 2 by omega,
        show ((j + 1) * 2 ^ 52 + q) % 2 ^ 52 = q - 2 ^ 52 by omega, show 2 ^ 52 + (q - 2 ^ 52) = q by omega]
      rfl

/-- One more than the largest finite number of units. -/
def unitsBound : Nat := magUnits 52 inf64

theorem magUnits_lt_unitsBound {m : Nat} (h : m < inf64) : magUnits 52 m < unitsBound := by
  refine Nat.lt_of_le_of_ne (magUnits_mono 52 _ _ (Nat.le_of_lt h)) fun e => ?_
  have h1 := roundMag_exact 52 inf64 m 1 (by decide) (Nat.le_of_lt h)
  have h2 := roundMag_exact 52 inf64 inf64 1 (by decide) (Nat.le_refl _)
  rw [e, unitsBound, h2] at h1
  omega

theorem funits_lt {x : Double} (h : isFinite x = true) : funits x < unitsBound := by
  simp only [isFinite, decide_eq_true_eq] at h
  exact magUnits_lt_unitsBound h

/-- Rounding a representable number of units is exact. -/
theorem round64_exact (neg : Bool) (n q j : Nat) (hn : n = q * 2 ^ j) (hq : q < 2 ^ 53) (hb : n < unitsBound) :
    funits (round64 neg n 1) = n ∧ isFinite (round64 neg n 1) = true := by
  obtain ⟨m, hm⟩ := exists_magUnits j q hq
  have hlt : m < inf64 := by
    by_contra h
    have := magUnits_mono 52 inf64 m (Nat.le_of_not_lt h)
    rw [hm, ← hn] at this
    exact Nat.not_lt.2 this hb
  have hr : roundMag 52 inf64 n 1 = m := by
    have := roundMag_exact 52 inf64 m 1 (by decide) (Nat.le_of_lt hlt)
    rwa [Nat.mul_one, hm, ← hn] at this
  refine ⟨?_, ?_⟩
  · rw [funits, fmag_round64, hr, hm, hn]
  · simp only [isFinite, fmag_round64, hr, decide_eq_true_eq]
    exact hlt

/-- A finite value has at most 53 significant bits. -/
theorem funits_decomp (x : Double) : ∃ q j, q < 2 ^ 53 ∧ funits x = q * 2 ^ j := by
  rcases Nat.lt_or_ge (fmag x) (2 ^ 52) with h | h
  · exact ⟨fmag x, 0, by omega, by rw [funits, magUnits, if_pos h, Nat.pow_zero, Nat.mul_one]⟩
  · exact ⟨2 ^ 52 + fmag x % 2 ^ 52, fmag x / 2 ^ 52 - 1, by omega, magUnits_of_normal 52 _ h⟩

/-- Rounding down to a multiple of a power of two keeps at most 53 significant bits. -/
theorem floor_decomp (u q j k D : Nat) (hD : D = 2 ^ k) (hq : q < 2 ^ 53) (hu : u = q * 2 ^ j) :
    ∃ q' j', q' < 2 ^ 53 ∧ u / D * D = q' * 2 ^ j' := by
  subst hD
  rcases Nat.le_total k j with h | h
  · refine ⟨q, j, hq, ?_⟩
    rw [hu]
    exact Nat.div_mul_cancel (Dvd.dvd.mul_left (Nat.pow_dvd_pow 2 h) q)
  · refine ⟨u / 2 ^ k, k, ?_, rfl⟩
    refine Nat.lt_of_le_of_lt ?_ hq
    rw [hu]
    calc q * 2 ^ j / 2 ^ k ≤ q * 2 ^ k / 2 ^ k :=
          Nat.div_le_div_right (Nat.mul_le_mul_left _ (Nat.pow_le_pow_right (by decide) h))
      _ = q := Nat.mul_div_cancel _ (Nat.two_pow_pos _)

/-- Rounding up to a multiple of a power of two keeps at most 53 significant bits. -/
theorem ceil_decomp (u q j k D : Nat) (hD : D = 2 ^ k) (hq : q < 2 ^ 53) (hu : u = q * 2 ^ j) :
    (∃ q' j', q' < 2 ^ 53 ∧ (u + (D - 1)) / D * D = q' * 2 ^ j') ∧
      ((u + (D - 1)) / D * D = u ∨ (u + (D - 1)) / D < 2 ^ 53) := by
  subst hD
  have hk := Nat.two_pow_pos k
  rcases Nat.le_total k j with h | h
  · obtain ⟨d, rfl⟩ := Nat.exists_eq_add_of_le h
    have hu' : u = 2 ^ k * (q * 2 ^ d) := by rw [hu, Nat.pow_add]; ring
    have e : (u + (2 ^ k - 1)) / 2 ^ k * 2 ^ k = u := by
      rw [hu', Nat.mul_add_div hk, Nat.div_eq_of_lt (by omega), Nat.add_zero, Nat.mul_comm]
    exact ⟨⟨q, k + d, hq, e.trans hu⟩, .inl e⟩
  · have hle : (u + (2 ^ k - 1)) / 2 ^ k ≤ q := by
      have h1 : u ≤ q * 2 ^ k := by
        rw [hu]
        exact Nat.mul_le_mul_left _ (Nat.pow_le_pow_right (by decide) h)
      calc (u + (2 ^ k - 1)) / 2 ^ k ≤ (2 ^ k * q + (2 ^ k - 1)) / 2 ^ k := by
            refine Nat.div_le_div_right ?_
            rw [Nat.mul_comm]
            omega
        _ = q := by rw [Nat.mul_add_div hk, Nat.div_eq_of_lt (by omega), Nat.add_zero]
    exact ⟨⟨_, k, Nat.lt_of_le_of_lt hle hq, rfl⟩, .inr (Nat.lt_of_le_of_lt hle hq)⟩

/-! ### floor and trunc -/

/-- The units of a value rounded toward zero. -/
def truncUnits (x : Double) : Nat := funits x / one64Units * one64Units

/-- The units of a value rounded away from zero. -/
def ceilUnits (x : Double) : Nat := (funits x + (one64Units - 1)) / one64Units * one64Units

theorem truncUnits_le (x : Double) : truncUnits x ≤ funits x := Nat.div_mul_le_self _ _

theorem funits_lt_truncUnits (x : Double) : funits x < truncUnits x + one64Units := by
  have h1 := Nat.div_add_mod (funits x) one64Units
  have h2 := Nat.mod_lt (funits x) one64Units_pos
  have h3 := Nat.mul_comm one64Units (funits x / one64Units)
  simp only [truncUnits]
  omega

theorem le_ceilUnits (x : Double) : funits x ≤ ceilUnits x := by
  have h1 := Nat.div_add_mod (funits x + (one64Units - 1)) one64Units
  have h2 := Nat.mod_lt (funits x + (one64Units - 1)) one64Units_pos
  have h3 := Nat.mul_comm one64Units ((funits x + (one64Units - 1)) / one64Units)
  simp only [ceilUnits]
  omega

theorem ceilUnits_lt (x : Double) : ceilUnits x < funits x + one64Units := by
  have h1 := Nat.div_mul_le_self (funits x + (one64Units - 1)) one64Units
  have h2 := one64Units_pos
  simp only [ceilUnits]
  omega

/-- The truncation of a finite value is exact. -/
theorem ftrunc_spec {x : Double} (h : isFinite x = true) :
    isFinite (ftrunc x) = true ∧ fsign (ftrunc x) = fsign x ∧ funits (ftrunc x) = truncUnits x := by
  obtain ⟨q, j, hq, hu⟩ := funits_decomp x
  obtain ⟨q', j', hq', e⟩ := floor_decomp _ q j _ _ one64Units_eq hq hu
  have hb : truncUnits x < unitsBound := Nat.lt_of_le_of_lt (truncUnits_le x) (funits_lt h)
  obtain ⟨h1, h2⟩ := round64_exact (fsign x) (truncUnits x) q' j' e hq' hb
  have hx : ftrunc x = round64 (fsign x) (truncUnits x) 1 := by simp [ftrunc, h, truncUnits]
  rw [hx]
  exact ⟨h2, fsign_round64 _ _ _, h1⟩

theorem magUnits_pow (j : Nat) : magUnits 52 ((j + 2) * 2 ^ 52) = 2 ^ 53 * 2 ^ j := by
  rw [magUnits_of_normal 52 _ (by omega), show (j + 2) * 2 ^ 52 % 2 ^ 52 = 0 by omega,
    show (j + 2) * 2 ^ 52 / 2 ^ 52 - 1 = j + 1 by omega, Nat.add_zero, Nat.pow_succ, Nat.pow_succ 2 52]
  ring

/-- 2^53 is a finite value. -/
theorem two_pow_53_units : 2 ^ 53 * one64Units < unitsBound := by
  have h : magUnits 52 ((1074 + 2) * 2 ^ 52) < unitsBound := magUnits_lt_unitsBound (by decide)
  rwa [magUnits_pow, ← one64Units_eq] at h

/-- The floor of a finite value is exact. -/
theorem ffloor_spec {x : Double} (h : isFinite x = true) :
    isFinite (ffloor x) = true ∧ fsign (ffloor x) = fsign x ∧
      funits (ffloor x) = if fsign x then ceilUnits x else truncUnits x := by
  cases hs : fsign x
  · have hx : ffloor x = ftrunc x := by simp [ffloor, ftrunc, h, hs]
    obtain ⟨h1, h2, h3⟩ := ftrunc_spec h
    rw [hx, h2, hs]
    exact ⟨h1, rfl, h3⟩
  · obtain ⟨q, j, hq, hu⟩ := funits_decomp x
    obtain ⟨⟨q', j', hq', e⟩, hc⟩ := ceil_decomp _ q j _ _ one64Units_eq hq hu
    have hb : ceilUnits x < unitsBound := by
      rcases hc with hc | hc
      · exact Nat.lt_of_le_of_lt (Nat.le_of_eq hc) (funits_lt h)
      · exact Nat.lt_of_le_of_lt (Nat.mul_le_mul_right _ (Nat.le_of_lt hc)) two_pow_53_units
    obtain ⟨h1, h2⟩ := round64_exact true (ceilUnits x) q' j' e hq' hb
    have hx : ffloor x = round64 true (ceilUnits x) 1 := by simp [ffloor, h, hs, ceilUnits]
    rw [hx]
    exact ⟨h2, fsign_round64 _ _ _, h1⟩

/-! ### values in [0, 1] -/

theorem fint_fneg (x : Double) : fint (fneg x) = -fint x := by
  have hu : funits (fneg x) = funits x := by simp [funits]
  simp only [fint, fsign_fneg, hu]
  cases fsign x <;> simp

theorem isFinite_fneg (x : Double) : isFinite (fneg x) = isFinite x := by simp [isFinite]

theorem isFinite_fone : isFinite fone = true := by decide
theorem isFinite_fzero : isFinite fzero = true := by decide

theorem magUnits_fone : magUnits 52 0x3FF0000000000000 = one64Units := by
  have := funits_fone
  rwa [funits, fmag_fone] at this

theorem isNaN_of_le {x : Double} {m : Nat} (h : fmag x ≤ m) (hm : m ≤ inf64) : isNaN x = false := by
  rw [isNaN, decide_eq_false_iff_not, Nat.not_lt]
  exact Nat.le_trans h hm

theorem isFinite_of_le {x : Double} {m : Nat} (h : fmag x ≤ m) (hm : m < inf64) : isFinite x = true := by
  rw [isFinite, decide_eq_true_eq]
  exact Nat.lt_of_le_of_lt h hm

/-- Non-negative and at most 1: in [0, 1]. -/
theorem fle_of_unit {x : Double} (hs : fsign x = false) (hm : fmag x ≤ 0x3FF0000000000000) :
    fle fzero x = true ∧ fle x fone = true := by
  have hn := isNaN_of_le hm (by decide)
  rw [fle_of_nonneg isNaN_fzero hn fsign_fzero hs, fle_of_nonneg hn isNaN_fone hs fsign_fone]
  simp [hm]

/-- In [0, 1] by order: at most 1 in magnitude. -/
theorem fmag_le_of_unit {x : Double} (h1 : fle fzero x = true) (h2 : fle x fone = true) :
    fmag x ≤ 0x3FF0000000000000 := by
  have := fmag_le_of_range h1 h2 fsign_fone
  rwa [fmag_fone] at this

/-- A sum that lies exactly in [0, 1] rounds into [0, 1] and is no -0.0 unless both operands are negative. -/
theorem fadd_unit {x y : Double} (hx : isFinite x = true) (hy : isFinite y = true) (hs : (fsign x && fsign y) = false)
    (h0 : 0 ≤ fint x + fint y) (h1 : fint x + fint y ≤ one64Units) :
    fsign (fadd x y) = false ∧ fmag (fadd x y) ≤ 0x3FF0000000000000 := by
  rw [fadd_finite hx hy, hs]
  split
  · exact ⟨fsign_pack64_zero _, by rw [fmag_pack64_zero]; exact Nat.zero_le _⟩
  · rw [decide_eq_false (by omega), fsign_round64, fmag_round64]
    refine ⟨rfl, roundMag_le_of_le 52 inf64 _ 1 _ (by decide) (by decide) ?_⟩
    rw [magUnits_fone]
    omega

/-- Exact units below those of 1.0: below 1.0 in magnitude. -/
theorem fmag_lt_of_funits_lt {x y : Double} (h : funits x < funits y) : fmag x < fmag y := by
  by_contra hc
  exact Nat.not_lt.2 (magUnits_mono 52 _ _ (Nat.le_of_not_lt hc)) h

/-! ### the two wraps -/

theorem fint_floor_bounds {x : Double} (h : isFinite x = true) :
    0 ≤ fint x + fint (fneg (ffloor x)) ∧ fint x + fint (fneg (ffloor x)) < one64Units := by
  obtain ⟨-, hs, hu⟩ := ffloor_spec h
  rw [fint_fneg]
  simp only [fint, hs, hu]
  have a1 := truncUnits_le x
  have a2 := funits_lt_truncUnits x
  have a3 := le_ceilUnits x
  have a4 := ceilUnits_lt x
  cases fsign x <;> simp <;> omega

/-- floor is the largest integer not greater than its argument (R16). -/
theorem fval_ffloor {x : Double} (h : isFinite x = true) : fval (ffloor x) = ⌊fval x⌋ := by
  obtain ⟨-, hs, hu⟩ := ffloor_spec h
  have hp : (0 : ℚ) < one64Units := by exact_mod_cast one64Units_pos
  obtain ⟨k, hk⟩ : ∃ k : ℤ, fint (ffloor x) = k * one64Units := by
    rw [fint, hs, hu, truncUnits, ceilUnits]
    generalize one64Units = u
    cases fsign x
    · simp only [Bool.false_eq_true, if_false]
      exact ⟨(funits x / u : ℕ), Int.natCast_mul ..⟩
    · simp only [if_true]
      exact ⟨-((funits x + (u - 1)) / u : ℕ), by rw [Int.neg_mul, Int.natCast_mul]⟩
  obtain ⟨b0, b1⟩ := fint_floor_bounds h
  rw [fint_fneg, hk] at b0 b1
  have c0 : (k : ℚ) * one64Units ≤ fint x := by exact_mod_cast (by omega : k * (one64Units : ℤ) ≤ fint x)
  have c1 : (fint x : ℚ) < k * one64Units + one64Units := by
    exact_mod_cast (by omega : fint x < k * (one64Units : ℤ) + one64Units)
  have e : ⌊fval x⌋ = k := by
    rw [Int.floor_eq_iff, fval, le_div_iff₀ hp, div_lt_iff₀ hp]
    exact ⟨c0, by linarith⟩
  rw [e, fval, hk]
  push_cast
  exact mul_div_cancel_right₀ _ hp.ne'

theorem fval_ftrunc_of_sign {x : Double} (h : isFinite x = true) :
    fval (ftrunc x) = if fsign x then -((funits x / one64Units : ℕ) : ℚ) else ((funits x / one64Units : ℕ) : ℚ) := by
  obtain ⟨-, hs, hu⟩ := ftrunc_spec h
  have hp : (one64Units : ℚ) ≠ 0 := by exact_mod_cast one64Units_pos.ne'
  rw [fval, fint, hs, hu, truncUnits]
  split
  · rw [Int.cast_neg, Int.cast_natCast, Nat.cast_mul, neg_div, mul_div_cancel_right₀ _ hp]
  · rw [Int.cast_natCast, Nat.cast_mul, mul_div_cancel_right₀ _ hp]

/-- trunc rounds toward zero (R16). -/
theorem fval_ftrunc {x : Double} (h : isFinite x = true) :
    (0 ≤ fval x → fval (ftrunc x) = ⌊fval x⌋) ∧ (fval x ≤ 0 → fval (ftrunc x) = ⌈fval x⌉) := by
  have e := fval_ftrunc_of_sign h
  have hp : (0 : ℚ) < one64Units := by exact_mod_cast one64Units_pos
  have hq : (0 : ℚ) ≤ (funits x : ℚ) / one64Units := by positivity
  have hf : ⌊(funits x : ℚ) / one64Units⌋ = ((funits x / one64Units : ℕ) : ℤ) := by
    rw [Rat.floor_natCast_div_natCast, Int.natCast_div]
  have hv : fval x = if fsign x then -((funits x : ℚ) / one64Units) else (funits x : ℚ) / one64Units := by
    rw [fval, fint]
    split <;> push_cast
    · rw [neg_div]
    · rfl
  rw [e, hv]
  cases fsign x
  · simp only [Bool.false_eq_true, if_false]
    refine ⟨fun _ => by rw [hf]; rfl, fun h0 => ?_⟩
    have z : (funits x : ℚ) / one64Units = 0 := le_antisymm h0 hq
    rw [z, Int.floor_zero] at hf
    rw [z, Int.ceil_zero, Int.natCast_eq_zero.1 hf.symm]
    rfl
  · simp only [if_true]
    refine ⟨fun h0 => ?_, fun _ => by rw [Int.ceil_neg, hf]; push_cast; rfl⟩
    have z : (funits x : ℚ) / one64Units = 0 := le_antisymm (by linarith) hq
    rw [z, Int.floor_zero] at hf
    rw [z, neg_zero, Int.floor_zero, Int.natCast_eq_zero.1 hf.symm, Nat.cast_zero, neg_zero]
    rfl
/-- `Wrap` of a finite value lies in [0, 1) and is no -0.0 (R268). -/
theorem wrap_range {x : Double} (h : isFinite x = true) :
    fsign (wrap x) = false ∧ fmag (wrap x) < 0x3FF0000000000000 := by
  obtain ⟨hf, hs, -⟩ := ffloor_spec h
  obtain ⟨b0, b1⟩ := fint_floor_bounds h
  obtain ⟨q1, q2⟩ := fadd_unit h (by rw [isFinite_fneg]; exact hf : isFinite (fneg (ffloor x)) = true)
    (by rw [fsign_fneg, hs]; cases fsign x <;> rfl) b0 (Int.le_of_lt b1)
  have hq : wrap x = if fle fone (fadd x (fneg (ffloor x))) then fzero else fadd x (fneg (ffloor x)) := rfl
  rw [hq]
  split
  · decide
  · rename_i hle
    refine ⟨q1, ?_⟩
    have hn := isNaN_of_le q2 (by decide)
    rw [fle_of_nonneg isNaN_fone hn fsign_fone q1] at hle
    simp only [fmag_fone, decide_eq_true_eq] at hle
    omega

/-- A value of at most 53 significant bits minus its integer part keeps at most 53. -/
theorem mod_decomp (u q j k D : Nat) (hD : D = 2 ^ k) (hq : q < 2 ^ 53) (hu : u = q * 2 ^ j) :
    ∃ q' j', q' < 2 ^ 53 ∧ u % D = q' * 2 ^ j' := by
  subst hD
  rcases Nat.le_total k j with h | h
  · refine ⟨0, 0, by decide, ?_⟩
    rw [hu]
    simp only [Nat.zero_mul]
    exact Nat.mod_eq_zero_of_dvd (Dvd.dvd.mul_left (Nat.pow_dvd_pow 2 h) q)
  · refine ⟨q % 2 ^ (k - j), j, Nat.lt_of_le_of_lt (Nat.mod_le _ _) hq, ?_⟩
    rw [hu, show 2 ^ k = 2 ^ (k - j) * 2 ^ j by rw [← Nat.pow_add]; congr 1; omega, Nat.mul_mod_mul_right]

theorem sub_trunc_units (x : Double) : funits x - truncUnits x = funits x % one64Units := by
  have := Nat.div_add_mod (funits x) one64Units
  have h3 := Nat.mul_comm one64Units (funits x / one64Units)
  simp only [truncUnits]
  omega

/-- The fraction of a finite non-negative value lies in [0, 1) (R306, R307). -/
theorem fsub_trunc_range {x : Double} (h : isFinite x = true) (hx : fle fzero x = true) :
    fsign (fsub x (ftrunc x)) = false ∧ fmag (fsub x (ftrunc x)) < 0x3FF0000000000000 := by
  obtain ⟨hf, hs, hu⟩ := ftrunc_spec h
  have ff : isFinite (fneg (ftrunc x)) = true := by rw [isFinite_fneg]; exact hf
  have a1 := truncUnits_le x
  have a2 := funits_lt_truncUnits x
  have hsn : (fsign x && fsign (fneg (ftrunc x))) = false := by rw [fsign_fneg, hs]; cases fsign x <;> rfl
  have hz : fint x + fint (fneg (ftrunc x)) = (funits x - truncUnits x : Nat) := by
    rw [fint_fneg]
    simp only [fint, hs, hu]
    cases hsx : fsign x
    · simp
      omega
    · have hm : fmag x = 0 := by
        simp only [fle, fkey, hsx, if_true, fsign_fzero, fmag_fzero, Bool.false_eq_true, if_false, Bool.and_eq_true,
          decide_eq_true_eq] at hx
        have := hx.2
        omega
      have h0 : funits x = 0 := by rw [funits, hm]; rfl
      rw [h0] at a1
      simp [h0]
      omega
  have e : fsub x (ftrunc x) = fadd x (fneg (ftrunc x)) := rfl
  rw [e, fadd_finite h ff, hsn, hz, sub_trunc_units]
  split
  · decide
  · rename_i hne
    obtain ⟨q, j, hq, huq⟩ := funits_decomp x
    obtain ⟨q', j', hq', em⟩ := mod_decomp _ q j _ _ one64Units_eq hq huq
    have hb : funits x % one64Units < unitsBound := Nat.lt_of_le_of_lt (Nat.mod_le _ _) (funits_lt h)
    obtain ⟨e1, -⟩ := round64_exact false _ q' j' em hq' hb
    rw [decide_eq_false (by omega), fsign_round64, Int.natAbs_natCast]
    refine ⟨rfl, ?_⟩
    have := fmag_lt_of_funits_lt (x := round64 false (funits x % one64Units) 1) (y := fone)
      (by rw [e1, funits_fone]; exact Nat.mod_lt _ one64Units_pos)
    rwa [fmag_fone] at this

/-- `Wrap2` of a finite value below 2^52 in magnitude lies in [0, 1] and is no -0.0; in [0, 1) for x >= 0, above 0
otherwise (R306). -/
theorem wrap2_range {x : Double} (h : isFinite x = true) (hb : funits x < 2 ^ 52 * one64Units) :
    fsign (wrap2 x) = false ∧ fmag (wrap2 x) ≤ 0x3FF0000000000000 ∧
      (fle fzero x = true → fmag (wrap2 x) < 0x3FF0000000000000) ∧ (fle fzero x = false → 0 < fmag (wrap2 x)) := by
  simp only [wrap2]
  cases hx : fle fzero x
  · simp only [Bool.false_eq_true, if_false, false_implies, true_and, forall_const]
    have hsx : fsign x = true := by
      by_contra hc
      simp only [Bool.not_eq_true] at hc
      rw [fle_of_nonneg isNaN_fzero (not_isNaN_of_isFinite h) fsign_fzero hc] at hx
      simp at hx
    obtain ⟨hf, hs, hu⟩ := ftrunc_spec h
    rw [hsx] at hs
    have ff : isFinite (fneg (ftrunc x)) = true := by rw [isFinite_fneg]; exact hf
    have a1 := truncUnits_le x
    have a2 := funits_lt_truncUnits x
    have e1 : fint fone = one64Units := by simp [fint, funits_fone]
    have e2 : fint (ftrunc x) = -(truncUnits x : Int) := by simp [fint, hs, hu]
    have e3 : fint fone + fint (fneg (ftrunc x)) = (truncUnits x + one64Units : Nat) := by
      rw [fint_fneg, e1, e2]
      push_cast
      ring
    have p1 := one64Units_pos
    have hq : funits x / one64Units < 2 ^ 52 := (Nat.div_lt_iff_lt_mul p1).2 hb
    have hsum : truncUnits x + one64Units = (funits x / one64Units + 1) * 2 ^ 1074 := by
      rw [← one64Units_eq, Nat.add_mul, Nat.one_mul, truncUnits]
    have hlt : truncUnits x + one64Units < unitsBound := by
      refine Nat.lt_of_le_of_lt ?_ two_pow_53_units
      rw [hsum, ← one64Units_eq]
      exact Nat.mul_le_mul_right _ (by omega)
    obtain ⟨r1, r2⟩ := round64_exact false _ _ _ hsum (by omega) hlt
    have ey : fsub fone (ftrunc x) = round64 false (truncUnits x + one64Units) 1 := by
      have : fsub fone (ftrunc x) = fadd fone (fneg (ftrunc x)) := rfl
      rw [this, fadd_finite isFinite_fone ff, e3, if_neg (by omega), decide_eq_false (by omega), Int.natAbs_natCast]
    rw [ey]
    have e4 : fint x + fint (round64 false (truncUnits x + one64Units) 1)
        = (truncUnits x + one64Units - funits x : Nat) := by
      simp only [fint, hsx, if_true, fsign_round64, Bool.false_eq_true, if_false, r1]
      omega
    obtain ⟨g1, g2⟩ := fadd_unit h r2 (by rw [fsign_round64, Bool.and_false]) (by rw [e4]; omega)
      (by rw [e4]; omega)
    refine ⟨g1, g2, ?_⟩
    rw [fadd_finite h r2, e4, if_neg (by omega), fmag_round64, Int.natAbs_natCast]
    refine Nat.lt_of_lt_of_le Nat.zero_lt_one (le_roundMag_of_le 52 inf64 _ 1 1 (by decide) (by decide) ?_)
    rw [show magUnits 52 1 = 1 by decide]
    omega
  · obtain ⟨g1, g2⟩ := fsub_trunc_range h hx
    simp only [if_true, g1, g2, Nat.le_of_lt g2, true_and, forall_const, Bool.true_eq_false, false_implies]

/-! ### converted integers -/

/-- An integer below 2^53 in magnitude is converted exactly. -/
theorem ofInt_spec (z : Int) (h : z.natAbs < 2 ^ 53) :
    isFinite (ofInt z) = true ∧ fsign (ofInt z) = decide (z < 0) ∧ funits (ofInt z) = z.natAbs * one64Units := by
  have hb : z.natAbs * one64Units < unitsBound :=
    Nat.lt_of_le_of_lt (Nat.mul_le_mul_right _ (Nat.le_of_lt h)) two_pow_53_units
  obtain ⟨h1, h2⟩ := round64_exact (decide (z < 0)) (z.natAbs * one64Units) z.natAbs 1074
    (by rw [one64Units_eq]) h hb
  unfold ofInt
  exact ⟨h2, fsign_round64 _ _ _, h1⟩

theorem isNaN_ofInt (z : Int) : isNaN (ofInt z) = false := by
  unfold ofInt
  exact isNaN_round64 _ _ _

end Sys2Proof.Machine
end

