-- ==== Sys2Proof/Laws/Values.lean ====
section
/-! SUPPORT. The exact values of finite patterns, their order, and exact powers of two. -/

namespace Sys2Proof.Machine

set_option Elab.async false

/-! ### values of finite patterns -/

theorem units_real : ((one64Units : ℕ) : ℝ) = 2 ^ 1074 := by
  rw [one64Units_eq]
  push_cast
  rfl

theorem narrow_lt_unit : narrow < 1 / (one64Units : ℝ) := by
  rw [units_real, one_div]
  unfold narrow
  exact inv_strictAnti₀ (by positivity) (pow_lt_pow_right₀ (by norm_num) (by norm_num))

theorem fval_le_iff (x y : Double) : fval x ≤ fval y ↔ fkey x ≤ fkey y := by
  rw [fval_eq, fval_eq, keyValue_le_iff]

theorem fval_lt_iff (x y : Double) : fval x < fval y ↔ fkey x < fkey y := by
  rw [fval_eq, fval_eq, keyValue_lt_iff]

theorem fval_gap {x y : Double} (h : fval x < fval y) : fval x + 1 / one64Units ≤ fval y := by
  rw [fval_lt_iff] at h
  rw [fval_eq, fval_eq]
  exact keyValue_gap h

/-- An integer's value. -/
theorem fval_ofInt (z : Int) (h : z.natAbs < 2 ^ 53) : fval (ofInt z) = z := by
  obtain ⟨-, h2, h3⟩ := ofInt_spec z h
  have hU := units_pos.ne'
  unfold fval fint
  rw [h2, h3]
  by_cases hz : z < 0
  · rw [if_pos (decide_eq_true hz)]
    have : ((z.natAbs * one64Units : ℕ) : ℤ) = -z * one64Units := by
      push_cast
      rw [abs_of_neg hz]
    rw [this]
    push_cast
    field_simp
  · rw [if_neg (by simpa using hz)]
    have : ((z.natAbs * one64Units : ℕ) : ℤ) = z * one64Units := by
      push_cast
      rw [abs_of_nonneg (by omega)]
    rw [this]
    push_cast
    field_simp

theorem fval_zero {x : Double} (h : fmag x = 0) : fval x = 0 := by
  have : fkey x = 0 := by
    have := fkey_natAbs x
    omega
  rw [fval_eq, this, keyValue_zero]

theorem fval_fone : fval fone = 1 := by decide +kernel

/-- Two values below the same bound are equal or a smallest subnormal apart. -/
theorem capped_gap {x y : Double} (b : Double) (h : fval x ≤ fval y) :
    min (fval x) (fval b) = min (fval y) (fval b) ∨ min (fval x) (fval b) + 1 / one64Units ≤ min (fval y) (fval b) := by
  have hk : ∀ z, ∃ w, min (fval z) (fval b) = fval w := fun z => by
    rcases min_choice (fval z) (fval b) with e | e
    · exact ⟨z, e⟩
    · exact ⟨b, e⟩
  have hle := min_le_min_right (fval b) h
  obtain ⟨w, hw⟩ := hk x
  obtain ⟨w', hw'⟩ := hk y
  rw [hw, hw'] at hle ⊢
  exact (eq_or_lt_of_le hle).imp_right fval_gap

/-- Finite values lie below 2^1024. -/
theorem fval_lt_bound {d : Double} (h : isFinite d = true) : fval d < 2 ^ 1024 ∧ -2 ^ 1024 < fval d := by
  have hu := funits_lt h
  have hb : unitsBound = 2 ^ 1024 * one64Units := by decide +kernel
  rw [hb] at hu
  have hc : ((2 ^ 1024 : ℕ) : ℚ) = 2 ^ 1024 := Nat.cast_pow 2 1024
  rw [← hc]
  generalize 2 ^ 1024 = b at hu ⊢
  have hu' : (funits d : ℚ) < b * one64Units := by exact_mod_cast hu
  have h0 : (0 : ℚ) ≤ funits d := Nat.cast_nonneg _
  have hp := units_pos
  have hq : (0 : ℚ) < b * one64Units := h0.trans_lt hu'
  unfold fval fint
  rw [div_lt_iff₀ hp, lt_div_iff₀ hp, neg_mul]
  split
  · push_cast
    exact ⟨by linarith only [h0, hq], by linarith only [hu']⟩
  · push_cast
    exact ⟨hu', by linarith only [h0, hq]⟩

theorem fle_iff {x y : Double} (hx : isNaN x = false) (hy : isNaN y = false) : fle x y = true ↔ fkey x ≤ fkey y := by
  simp [fle, hx, hy]

/-! ### signs -/

theorem fkey_pos_iff (x : Double) : 0 < fval x ↔ 0 < fkey x := by
  rw [fval_eq, ← keyValue_zero, keyValue_lt_iff]

theorem fkey_neg_iff (x : Double) : fval x < 0 ↔ fkey x < 0 := by
  rw [fval_eq, ← keyValue_zero, keyValue_lt_iff]

/-- A value is zero, negative or positive, as its sign bit and magnitude say. -/
theorem sign_cases (x : Double) :
    (isZero x = true ∧ fval x = 0) ∨ (isZero x = false ∧ fsign x = true ∧ fval x < 0) ∨
      (isZero x = false ∧ fsign x = false ∧ 0 < fval x) := by
  rw [fkey_pos_iff, fkey_neg_iff]
  by_cases h : fmag x = 0
  · exact .inl ⟨by simp [isZero, h], fval_zero h⟩
  · refine .inr ?_
    have hz : isZero x = false := by simp [isZero, h]
    unfold fkey
    cases hs : fsign x
    · exact .inr ⟨hz, rfl, by simp only [Bool.false_eq_true, if_false]; omega⟩
    · exact .inl ⟨hz, rfl, by simp only [if_true]; omega⟩

theorem fle_of_fval {x y : Double} (hx : isNaN x = false) (hy : isNaN y = false) (h : fval x ≤ fval y) :
    fle x y = true := (fle_iff hx hy).2 ((fval_le_iff x y).1 h)

theorem fval_of_fle {x y : Double} (h : fle x y = true) : fval x ≤ fval y := (fval_le_iff x y).2 (fkey_le_of_fle h)

theorem isNaN_fneg (x : Double) : isNaN (fneg x) = isNaN x := by rw [isNaN_eq, isNaN_eq, fmag_fneg]

theorem fkey_fneg (x : Double) : fkey (fneg x) = -fkey x := by
  unfold fkey
  rw [fsign_fneg, fmag_fneg]
  cases fsign x <;> simp

theorem fval_fneg (x : Double) : fval (fneg x) = -fval x := by rw [fval_eq, fval_eq, fkey_fneg, keyValue_neg]

theorem fval_nonneg {x : Double} (h : fsign x = false) : 0 ≤ fval x := by
  rcases sign_cases x with ⟨-, h0⟩ | ⟨-, hs, -⟩ | ⟨-, -, h0⟩
  · exact h0.ge
  · rw [h] at hs
    cases hs
  · exact h0.le

/-! ### exact powers of two -/

theorem pow2Exact_spec (k : Int) (h : k ≤ 1023) :
    fsign (pow2Exact k) = false ∧ fmag (pow2Exact k) = (k + 1023).toNat * 2 ^ 52 := by
  have hlt : (k + 1023).toNat * 2 ^ 52 < 2 ^ 63 := by omega
  exact ⟨fsign_pack64 _ _ hlt, fmag_pack64 _ _ hlt⟩

theorem isFinite_pow2Exact (k : Int) (h : k ≤ 1023) : isFinite (pow2Exact k) = true := by
  rw [isFinite_eq, decide_eq_true_eq, (pow2Exact_spec k h).2, inf64]
  omega

theorem fval_pow2Exact (k : Int) (h1 : -1022 ≤ k) (h2 : k ≤ 1023) : fval (pow2Exact k) = 2 ^ k := by
  obtain ⟨hs, hm⟩ := pow2Exact_spec k h2
  obtain ⟨n, rfl⟩ : ∃ n : Nat, k = (n : Int) - 1022 := ⟨(k + 1022).toNat, by omega⟩
  have hu : funits (pow2Exact ((n : Int) - 1022)) = 2 ^ 52 * 2 ^ n := by
    rw [funits, hm, show ((n : Int) - 1022 + 1023).toNat = n + 1 by omega, Nat.add_mul, Nat.one_mul]
    exact magUnits_binade n (2 ^ 52) (.inr (Nat.le_refl _)) (by decide)
  have hU : ((one64Units : ℕ) : ℚ) = 2 ^ 1074 := by
    rw [one64Units_eq]
    exact Nat.cast_pow 2 1074
  unfold fval fint
  rw [hs, hu, hU, zpow_sub₀ two_ne_zero, zpow_natCast, div_eq_div_iff (pow_ne_zero _ two_ne_zero)
    (zpow_ne_zero _ two_ne_zero)]
  have e : (1022 : ℤ) = ((1022 : ℕ) : ℤ) := rfl
  rw [e, zpow_natCast]
  simp only [Bool.false_eq_true, if_false]
  rw [Int.cast_natCast, Nat.cast_mul, Nat.cast_pow, Nat.cast_pow, Nat.cast_ofNat, mul_right_comm, ← pow_add,
    mul_comm]

theorem fval_integral {x : Double} (h : isIntegral x = true) : fval x = floorInt x := by
  simp only [isIntegral, decide_eq_true_eq] at h
  have hp := one64Units_pos
  obtain ⟨m, hm⟩ := Nat.dvd_of_mod_eq_zero h
  have hU := units_pos.ne'
  have e1 : funits x / one64Units = m := by rw [hm, Nat.mul_div_cancel_left _ hp]
  have e2 : (funits x + (one64Units - 1)) / one64Units = m := by
    rw [hm, Nat.mul_add_div hp, Nat.div_eq_of_lt (by omega), Nat.add_zero]
  unfold fval fint floorInt
  rw [e1, e2, hm]
  split
  · push_cast
    field_simp
  · push_cast
    field_simp

end Sys2Proof.Machine
end

