-- ==== Sys2Proof/Laws/Reference.lean ====
section
/-! SUPPORT. The fixed functions `expRef`, `logRef`, `tanhRef`, `sinRef` and `pow2Ref` have the properties of
00_scope.md R22, so the open functions of Config are all that R22 admits. -/

namespace Sys2Proof.Machine

set_option Elab.async false

/-! ### FAITHFUL from an enclosure -/

/-- No finite binary64 value lies strictly between y and v. -/
def Adjacent (y : Double) (v : ℝ) : Prop :=
  isNaN y = false ∧ ∀ d, isFinite d = true →
    (v < (fval d : ℝ) → fle y d = true) ∧ ((fval d : ℝ) < v → fle d y = true)

/-- The upper end of an enclosure with at most one binary64 value in it, rounded down, is next to what it encloses. -/
theorem adjacent_below {lo hi : ℚ} {v : ℝ} (h1 : (lo : ℝ) ≤ v) (h2 : v ≤ hi)
    (hu : ∀ a b : Int, a < b → lo ≤ keyValue a → keyValue b ≤ hi → False) : Adjacent (below hi) v := by
  obtain ⟨hk, hn⟩ := fkey_below hi
  refine ⟨hn, fun d hd => ?_⟩
  have hdn := not_isNaN_of_isFinite hd
  rw [fle_iff hn hdn, fle_iff hdn hn, le_below hi hd]
  refine ⟨fun h => ?_, fun h => by exact_mod_cast h.le.trans h2⟩
  have hlo : lo ≤ keyValue (fkey d) := by
    rw [← fval_eq]
    exact_mod_cast h1.trans h.le
  obtain ⟨r1, r2⟩ := keyBelow_range hi
  have r3 := (fkey_range hd).1
  rw [hk]
  by_contra hc
  exact hu _ _ (Int.not_le.1 hc) hlo ((le_keyBelow hi (by omega) r2).1 (Int.le_refl _))

theorem unique_of_gap {lo hi : ℚ} (h : (hi : ℝ) ≤ lo + narrow) (a b : Int) (hab : a < b) (h1 : lo ≤ keyValue a)
    (h2 : keyValue b ≤ hi) : False := by
  have h3 := keyValue_gap hab
  have h4 : (lo : ℝ) + 1 / (one64Units : ℝ) ≤ hi := by
    have : ((lo + 1 / (one64Units : ℚ) : ℚ) : ℝ) ≤ hi := Rat.cast_le.2 (by linarith)
    push_cast at this
    exact this
  have := narrow_lt_unit
  linarith

theorem unique_of_ratio {lo hi : ℚ} (h0 : (0 : ℝ) < lo) (h : (hi : ℝ) ≤ lo * (1 + narrow)) (a b : Int) (hab : a < b)
    (h1 : lo ≤ keyValue a) (h2 : keyValue b ≤ hi) : False := by
  have h0' : 0 < lo := by exact_mod_cast h0
  have ha : 0 ≤ a := by
    have h5 : keyValue 0 ≤ keyValue a := by
      rw [keyValue_zero]
      exact h0'.le.trans h1
    exact (keyValue_le_iff _ _).1 h5
  have h3 := keyValue_ratio ha hab
  have hl : (lo : ℝ) ≤ (hi - lo) * 2 ^ 53 := by
    have h6 := (keyValue_lt_iff a b).2 hab
    have : lo ≤ (hi - lo) * 2 ^ 53 := by linarith
    exact_mod_cast this
  have hn : narrow * 2 ^ 53 < 1 := by
    have h7 := narrow_le
    have h8 : ((2 : ℝ) ^ 1100)⁻¹ * 2 ^ 53 < 1 := by
      rw [inv_mul_lt_iff₀ (by positivity), mul_one]
      exact pow_lt_pow_right₀ (by norm_num) (by norm_num)
    have h9 : narrow * 2 ^ 53 ≤ ((2 : ℝ) ^ 1100)⁻¹ * 2 ^ 53 := mul_le_mul_of_nonneg_right h7 (by positivity)
    linarith
  have h10 : ((hi : ℝ) - lo) * 2 ^ 53 ≤ lo * (narrow * 2 ^ 53) := by
    have : (hi : ℝ) - lo ≤ lo * narrow := by linarith
    calc ((hi : ℝ) - lo) * 2 ^ 53 ≤ lo * narrow * 2 ^ 53 := mul_le_mul_of_nonneg_right this (by positivity)
      _ = _ := by ring
  have h11 : (lo : ℝ) * (narrow * 2 ^ 53) < lo * 1 := mul_lt_mul_of_pos_left hn h0
  linarith

/-- Two real numbers no binary64 value tells apart have the same neighbours. -/
theorem Adjacent.congr {y : Double} {v v' : ℝ} (h : Adjacent y v')
    (h1 : ∀ d, isFinite d = true → v < (fval d : ℝ) → v' < (fval d : ℝ))
    (h2 : ∀ d, isFinite d = true → (fval d : ℝ) < v → (fval d : ℝ) < v') : Adjacent y v :=
  ⟨h.1, fun d hd => ⟨fun hv => (h.2 d hd).1 (h1 d hd hv), fun hv => (h.2 d hd).2 (h2 d hd hv)⟩⟩

/-- A finite value is next to itself. -/
theorem adjacent_self {y : Double} (h : isFinite y = true) : Adjacent y (fval y : ℝ) := by
  refine ⟨not_isNaN_of_isFinite h, fun d hd => ?_⟩
  rw [fle_iff (not_isNaN_of_isFinite h) (not_isNaN_of_isFinite hd),
    fle_iff (not_isNaN_of_isFinite hd) (not_isNaN_of_isFinite h)]
  exact ⟨fun hv => (fval_le_iff _ _).1 (by exact_mod_cast hv.le),
    fun hv => (fval_le_iff _ _).1 (by exact_mod_cast hv.le)⟩

/-- +0.0 is next to a positive number below the smallest subnormal. -/
theorem adjacent_zero {v : ℝ} (h0 : 0 < v) (h : v < (2 ^ 1074)⁻¹) : Adjacent fzero v := by
  have hz : fval fzero = 0 := fval_zero (by decide)
  refine ⟨isNaN_fzero, fun d hd => ?_⟩
  have hdn := not_isNaN_of_isFinite hd
  rw [fle_iff isNaN_fzero hdn, fle_iff hdn isNaN_fzero, ← fval_le_iff, ← fval_le_iff, hz]
  refine ⟨fun hv => by exact_mod_cast (h0.trans hv).le, fun hv => ?_⟩
  by_contra hc
  have hg := fval_gap (x := fzero) (y := d) (by rw [hz]; exact not_le.1 hc)
  rw [hz, zero_add] at hg
  have : ((1 / (one64Units : ℚ) : ℚ) : ℝ) ≤ fval d := Rat.cast_le.2 hg
  rw [Rat.cast_div, Rat.cast_one, Rat.cast_natCast, units_real, one_div] at this
  linarith only [this, hv, h]

theorem Adjacent.neg {y : Double} {v : ℝ} (h : Adjacent y v) : Adjacent (fneg y) (-v) := by
  have hk : ∀ z, fkey (fneg z) = -fkey z := fun z => by
    unfold fkey
    rw [fsign_fneg, fmag_fneg]
    cases fsign z <;> simp
  have hnn : isNaN (fneg y) = false := by
    have := h.1
    rw [isNaN_eq] at this ⊢
    rwa [fmag_fneg]
  refine ⟨hnn, fun d hd => ?_⟩
  have hd' : isFinite (fneg d) = true := by rwa [isFinite_eq, fmag_fneg, ← isFinite_eq]
  have hv : (fval (fneg d) : ℝ) = -fval d := by
    have : fval (fneg d) = -fval d := by rw [fval_eq, fval_eq, hk, keyValue_neg]
    rw [this]
    push_cast
    rfl
  obtain ⟨h1, h2⟩ := h.2 (fneg d) hd'
  rw [fle_iff h.1 (not_isNaN_of_isFinite hd'), hk, hv] at h1
  rw [fle_iff (not_isNaN_of_isFinite hd') h.1, hk, hv] at h2
  rw [fle_iff hnn (not_isNaN_of_isFinite hd), fle_iff (not_isNaN_of_isFinite hd) hnn, hk]
  exact ⟨fun hh => by have := h2 (by linarith); omega, fun hh => by have := h1 (by linarith); omega⟩

/-! ### from neighbours to one unit in the last place -/

/-- A magnitude and its neighbours are at most one unit in the last place of the magnitude apart. -/
theorem magUnits_step (m : Nat) : ∃ k, (k = 0 ∨ 2 ^ (52 + k) ≤ magUnits 52 m) ∧
    magUnits 52 (m + 1) ≤ magUnits 52 m + 2 ^ k ∧ magUnits 52 m ≤ magUnits 52 (m - 1) + 2 ^ k := by
  rcases Nat.lt_or_ge m (2 ^ 52) with h | h
  · have e : ∀ q, q ≤ 2 ^ 53 → magUnits 52 q = q := fun q hq => by
      have := magUnits_binade 0 q (.inl rfl) hq
      simpa using this
    refine ⟨0, .inl rfl, ?_⟩
    rw [e m (by omega), e (m + 1) (by omega), e (m - 1) (by omega)]
    omega
  · obtain ⟨k, q, hm, hq1, hq2⟩ : ∃ k q, m = k * 2 ^ 52 + q ∧ 2 ^ 52 ≤ q ∧ q < 2 ^ 53 :=
      ⟨m / 2 ^ 52 - 1, 2 ^ 52 + m % 2 ^ 52, by omega, by omega, by omega⟩
    have e0 := magUnits_binade k q (.inr hq1) (by omega)
    have e1 := magUnits_binade k (q + 1) (.inr (by omega)) (by omega)
    have hdown : ∃ q' k', q ≤ q' + 1 ∧ k' ≤ k ∧ magUnits 52 (k * 2 ^ 52 + q - 1) = q' * 2 ^ k' ∧
        q * 2 ^ k ≤ q' * 2 ^ k' + 2 ^ k := by
      rcases Nat.lt_or_ge (2 ^ 52) q with h1 | h1
      · refine ⟨q - 1, k, by omega, Nat.le_refl _, ?_, ?_⟩
        · rw [show k * 2 ^ 52 + q - 1 = k * 2 ^ 52 + (q - 1) by omega]
          exact magUnits_binade k _ (.inr (by omega)) (by omega)
        · rw [← Nat.succ_mul]
          exact Nat.mul_le_mul_right _ (by omega)
      · obtain rfl : q = 2 ^ 52 := by omega
        cases k with
        | zero =>
          refine ⟨2 ^ 52 - 1, 0, by omega, Nat.le_refl _, ?_, by omega⟩
          have := magUnits_binade 0 (2 ^ 52 - 1) (.inl rfl) (by omega)
          simpa using this
        | succ k =>
          refine ⟨2 ^ 53 - 1, k, by omega, by omega, ?_, ?_⟩
          · rw [show (k + 1) * 2 ^ 52 + 2 ^ 52 - 1 = k * 2 ^ 52 + (2 ^ 53 - 1) by omega]
            exact magUnits_binade k _ (.inr (by omega)) (by omega)
          · have h2 : 0 < 2 ^ k := Nat.two_pow_pos k
            rw [Nat.pow_succ 2 k]
            omega
    obtain ⟨q', k', -, -, hd, hle⟩ := hdown
    refine ⟨k, .inr ?_, ?_, ?_⟩
    · rw [hm, e0, Nat.pow_add]
      exact Nat.mul_le_mul_right _ hq1
    · rw [hm, Nat.add_assoc, e1, e0, Nat.succ_mul]
    · rw [hm, hd, e0]
      exact hle

/-- The same for a value and the values next to it, of the sign of the value or zero. -/
theorem keyValue_step (m : Nat) : ∃ e : ℤ, (e = -1022 ∨ (2 : ℝ) ^ e ≤ (keyValue m : ℝ)) ∧
    ((keyValue (m + 1 : ℕ) : ℚ) : ℝ) ≤ (keyValue m : ℝ) + 2 ^ (e - 52) ∧
    ((keyValue m : ℚ) : ℝ) ≤ (keyValue (m - 1 : ℕ) : ℝ) + 2 ^ (e - 52) := by
  obtain ⟨k, h1, h2, h3⟩ := magUnits_step m
  have hv : ∀ n : Nat, ((keyValue n : ℚ) : ℝ) = (magUnits 52 n : ℝ) / 2 ^ 1074 := fun n => by
    rw [keyValue, keyUnits_natCast, Int.cast_natCast, Rat.cast_div, Rat.cast_natCast, Rat.cast_natCast, units_real]
  have hz : ∀ a b : ℕ, (2 : ℝ) ^ ((a : ℤ) - (b : ℤ)) = (2 : ℝ) ^ a / 2 ^ b := fun a b => by
    rw [zpow_sub₀ two_ne_zero, zpow_natCast, zpow_natCast]
  have hp : (0 : ℝ) < 2 ^ 1074 := pow_pos two_pos _
  have hs : ∀ a b : ℕ, a ≤ b + 2 ^ k → (a : ℝ) / 2 ^ 1074 ≤ (b : ℝ) / 2 ^ 1074 + 2 ^ ((k : ℤ) - (1074 : ℕ)) :=
    fun a b h => by
      rw [hz, ← add_div]
      exact div_le_div_of_nonneg_right (by exact_mod_cast h) hp.le
  refine ⟨(k : ℤ) - 1022, ?_, ?_, ?_⟩
  · refine h1.imp (fun h => by rw [h]; rfl) fun h => ?_
    have e : (k : ℤ) - 1022 = ((52 + k : ℕ) : ℤ) - ((1074 : ℕ) : ℤ) := by push_cast; ring
    rw [hv, e, hz]
    exact div_le_div_of_nonneg_right (by exact_mod_cast h) hp.le
  · rw [hv, hv, show (k : ℤ) - 1022 - 52 = (k : ℤ) - ((1074 : ℕ) : ℤ) by push_cast; ring]
    exact hs _ _ h2
  · rw [hv, hv, show (k : ℤ) - 1022 - 52 = (k : ℤ) - ((1074 : ℕ) : ℤ) by push_cast; ring]
    exact hs _ _ h3

/-- The same for a value of either sign. -/
theorem keyValue_step_int (k : Int) : ∃ e : ℤ, (e = -1022 ∨ (2 : ℝ) ^ e ≤ |(keyValue k : ℝ)|) ∧
    (keyValue (k + 1) : ℝ) ≤ (keyValue k : ℝ) + 2 ^ (e - 52) ∧
    (keyValue k : ℝ) ≤ (keyValue (k - 1) : ℝ) + 2 ^ (e - 52) := by
  obtain ⟨m, hm⟩ := k.eq_nat_or_neg
  obtain ⟨e, h1, h2, h3⟩ := keyValue_step m
  have hn : ∀ j : Int, ((keyValue (-j) : ℚ) : ℝ) = -(keyValue j : ℝ) := fun j => by
    rw [keyValue_neg, Rat.cast_neg]
  have hup : ((keyValue ((m : ℤ) + 1) : ℚ) : ℝ) ≤ (keyValue m : ℝ) + 2 ^ (e - 52) := h2
  have hdown : ((keyValue m : ℚ) : ℝ) ≤ (keyValue ((m : ℤ) - 1) : ℝ) + 2 ^ (e - 52) := by
    rcases Nat.eq_zero_or_pos m with rfl | h0
    · have e1 : ((0 : ℕ) : ℤ) - 1 = -(((0 : ℕ) : ℤ) + 1) := rfl
      have e0 : ((keyValue ((0 : ℕ) : ℤ) : ℚ) : ℝ) = 0 := by rw [Nat.cast_zero, keyValue_zero, Rat.cast_zero]
      rw [e1, hn]
      rw [e0] at hup ⊢
      linarith
    · rw [show (m : ℤ) - 1 = ((m - 1 : ℕ) : ℤ) by omega]
      exact h3
  refine ⟨e, h1.imp_right fun h => ?_, ?_⟩
  · rcases hm with rfl | rfl
    · exact h.trans (le_abs_self _)
    · rw [hn, abs_neg]
      exact h.trans (le_abs_self _)
  · rcases hm with rfl | rfl
    · exact ⟨hup, hdown⟩
    · rw [show -(m : ℤ) + 1 = -((m : ℤ) - 1) by omega, show -(m : ℤ) - 1 = -((m : ℤ) + 1) by omega, hn, hn, hn]
      exact ⟨by linarith, by linarith⟩

theorem fkey_max : fkey maxFinite = (inf64 : Int) - 1 := by decide

/-- A value with no other between it and v is within one ulp of v. -/
theorem Adjacent.withinOneUlp {y : Double} {v : ℝ} (h : Adjacent y v) : WithinOneUlp y v := by
  have hM : isFinite maxFinite = true := by decide
  have hm : isFinite (fneg maxFinite) = true := by decide
  have hMn := not_isNaN_of_isFinite hM
  have hmn := not_isNaN_of_isFinite hm
  have h0 : (0 : ℚ) < fval maxFinite := (fkey_pos_iff _).2 (by decide)
  have h0' : (0 : ℝ) < fval maxFinite := Rat.cast_pos.2 h0
  have hny := h.1
  have hky := fkey_natAbs y
  refine ⟨hny, ?_⟩
  have hcase : (isFinite y = true ∧ |v| ≤ (fval maxFinite : ℝ)) ∨
      ((fval maxFinite : ℝ) ≤ v ∧ (inf64 : Int) - 1 ≤ fkey y) ∨
      (v ≤ -(fval maxFinite : ℝ) ∧ fkey y ≤ -((inf64 : Int) - 1)) := by
    obtain ⟨b1, b2⟩ := h.2 _ hM
    obtain ⟨c1, c2⟩ := h.2 _ hm
    rw [fle_iff hny hMn, fkey_max] at b1
    rw [fle_iff hMn hny, fkey_max] at b2
    rw [fle_iff hny hmn, fkey_fneg, fkey_max, fval_fneg, Rat.cast_neg] at c1
    rw [fle_iff hmn hny, fkey_fneg, fkey_max, fval_fneg, Rat.cast_neg] at c2
    rcases lt_or_ge (fval maxFinite : ℝ) v with h1 | h1
    · exact .inr (.inl ⟨h1.le, b2 h1⟩)
    · rcases lt_or_ge v (-(fval maxFinite : ℝ)) with h2 | h2
      · exact .inr (.inr ⟨h2.le, c1 h2⟩)
      · cases hf : isFinite y
        · simp only [isFinite, isNaN, decide_eq_false_iff_not] at hf hny
          rcases Int.lt_or_le 0 (fkey y) with h3 | h3
          · refine .inr (.inl ⟨?_, by omega⟩)
            by_contra hc
            have := b1 (not_le.1 hc)
            omega
          · refine .inr (.inr ⟨?_, by omega⟩)
            by_contra hc
            have := c2 (not_le.1 hc)
            omega
        · exact .inl ⟨rfl, abs_le.2 ⟨h2, h1⟩⟩
  have hfm : fmag maxFinite = inf64 - 1 := by decide
  rcases hcase with ⟨hf, hv⟩ | ⟨hv, hk⟩ | ⟨hv, hk⟩
  · obtain ⟨v1, v2⟩ := abs_le.1 hv
    obtain ⟨y1, y2⟩ := fkey_range hf
    refine .inl ⟨hf, ?_⟩
    obtain ⟨e, e1, e2, e3⟩ := keyValue_step_int (fkey y)
    have hv2 : ∀ j : Int, -(inf64 : Int) < j → j < inf64 → isFinite (ofKey j) = true ∧ fval (ofKey j) = keyValue j ∧
        fkey (ofKey j) = j := fun j j1 j2 => by
      have hj := fkey_ofKey j (by omega) (by omega)
      refine ⟨?_, by rw [fval_eq, hj], hj⟩
      have := fkey_natAbs (ofKey j)
      rw [hj] at this
      simp only [isFinite, decide_eq_true_eq]
      omega
    have hyv : (fval y : ℝ) = keyValue (fkey y) := by rw [fval_eq]
    refine ⟨e, e1.imp_right fun h1 => ?_, ?_⟩
    · rw [hyv]
      exact h1.trans (le_max_right _ _)
    · rw [hyv, abs_le]
      constructor
      · by_contra hc
        have hlt : (keyValue (fkey y + 1) : ℝ) < v := by linarith
        have hkM : fkey y + 1 < inf64 := by
          by_contra hb
          have : fkey y = fkey maxFinite := by rw [fkey_max]; omega
          have h1 : (keyValue (fkey y) : ℝ) = fval maxFinite := by rw [this, fval_eq]
          have h2 : (0 : ℝ) < 2 ^ (e - 52) := zpow_pos two_pos _
          linarith
        obtain ⟨f1, f2, f3⟩ := hv2 (fkey y + 1) (by omega) hkM
        have := (h.2 _ f1).2 (by rw [f2]; exact hlt)
        rw [fle_iff (not_isNaN_of_isFinite f1) hny, f3] at this
        omega
      · by_contra hc
        have hlt : v < (keyValue (fkey y - 1) : ℝ) := by linarith
        have hkM : -(inf64 : Int) < fkey y - 1 := by
          by_contra hb
          have : fkey y = fkey (fneg maxFinite) := by rw [fkey_fneg, fkey_max]; omega
          have h1 : (keyValue (fkey y) : ℝ) = -fval maxFinite := by
            rw [this, ← fval_eq, fval_fneg, Rat.cast_neg]
          have h2 : (0 : ℝ) < 2 ^ (e - 52) := zpow_pos two_pos _
          linarith
        obtain ⟨f1, f2, f3⟩ := hv2 (fkey y - 1) hkM (by omega)
        have := (h.2 _ f1).1 (by rw [f2]; exact hlt)
        rw [fle_iff hny (not_isNaN_of_isFinite f1), f3] at this
        omega
  · have hi : 1 < inf64 := by decide
    refine .inr ⟨hv.trans (le_abs_self v), by rw [hfm]; omega, ?_⟩
    unfold fkey at hk
    cases hs : fsign y
    · exact ⟨nofun, fun h => by linarith⟩
    · rw [hs, if_pos rfl] at hk
      omega
  · have hi : 1 < inf64 := by decide
    refine .inr ⟨(le_neg_of_le_neg hv).trans (neg_le_abs v), by rw [hfm]; omega, ?_⟩
    unfold fkey at hk
    cases hs : fsign y
    · rw [hs] at hk
      simp only [Bool.false_eq_true, if_false] at hk
      omega
    · exact ⟨fun _ => by linarith, fun _ => rfl⟩

/-! ### rounding down -/

/-- What is less than the smallest subnormal rounds down to +0.0. -/
theorem below_tiny {q : ℚ} (h0 : 0 ≤ q) (h : q < 1 / one64Units) : below q = fzero := by
  have h1 := (le_below (d := fzero) q (by decide)).2 (by rw [fval_zero (by decide)]; exact h0)
  have h2 : ¬ fkey (0x0000000000000001 : Double) ≤ fkey (below q) := by
    rw [le_below q (by decide), not_le]
    have := fval_gap (x := fzero) (y := 0x0000000000000001) ((fval_lt_iff _ _).2 (by decide))
    rw [fval_zero (by decide), zero_add] at this
    exact h.trans_le this
  have e1 : fkey fzero = 0 := by decide
  have e2 : fkey (0x0000000000000001 : Double) = 1 := by decide
  have hk : keyBelow q = 0 := by
    rw [(fkey_below q).1] at h1 h2
    omega
  unfold below
  rw [hk]
  rfl

theorem fle_fzero_below {q : ℚ} (h : 0 ≤ q) : fle fzero (below q) = true := by
  rw [fle_iff isNaN_fzero (fkey_below q).2, le_below q (by decide), fval_zero (by decide)]
  exact h

/-- A value clamped between two others is a value. -/
theorem clamped_value (a b x : Double) : ∃ w, max (fval a) (min (fval x) (fval b)) = fval w := by
  rcases max_choice (fval a) (min (fval x) (fval b)) with e | e
  · exact ⟨a, e⟩
  · rcases min_choice (fval x) (fval b) with e' | e'
    · exact ⟨x, e.trans e'⟩
    · exact ⟨b, e.trans e'⟩

/-- Two clamped values are equal or a smallest subnormal apart. -/
theorem clamped_gap {x y : Double} (a b : Double) (h : fval x ≤ fval y) :
    max (fval a) (min (fval x) (fval b)) = max (fval a) (min (fval y) (fval b)) ∨
      max (fval a) (min (fval x) (fval b)) + 1 / one64Units ≤ max (fval a) (min (fval y) (fval b)) := by
  have hle := max_le_max_left (fval a) (min_le_min_right (fval b) h)
  obtain ⟨w, hw⟩ := clamped_value a b x
  obtain ⟨w', hw'⟩ := clamped_value a b y
  rw [hw, hw'] at hle ⊢
  exact (eq_or_lt_of_le hle).imp_right fval_gap

/-! ### EXP -/

/-- The enclosure of e^q that `exp64` selects by. -/
def expEnds (q : ℚ) : ℚ × ℚ :=
  if q < 0 then (1 / expUpper (-q), 1 / expLower (-q)) else (expLower q, expUpper q)

theorem expEnds_zero : expEnds 0 = (1, 1) := by decide +kernel

theorem expEnds_spec {q : ℚ} (h1 : -1024 ≤ q) (h2 : q ≤ 1024) :
    ((expEnds q).1 : ℝ) ≤ Real.exp q ∧ Real.exp q ≤ (expEnds q).2 ∧
      ((expEnds q).2 : ℝ) ≤ (expEnds q).1 * (1 + narrow) ∧ (0 : ℝ) < (expEnds q).1 := by
  have hn := narrow_pos
  unfold expEnds
  split
  · obtain ⟨a1, a2, a3, a4⟩ := exp_enclosure (y := -q) (by linarith) (by linarith)
    have e : Real.exp q = 1 / Real.exp ((-q : ℚ) : ℝ) := by
      push_cast
      rw [Real.exp_neg, one_div, inv_inv]
    have p1 : (0 : ℝ) < (expLower (-q) : ℚ) := by linarith
    have p2 : (0 : ℝ) < (expUpper (-q) : ℚ) := by linarith
    have p3 := Real.exp_pos ((-q : ℚ) : ℝ)
    rw [e]
    push_cast at *
    refine ⟨one_div_le_one_div_of_le p3 a2, one_div_le_one_div_of_le p1 a1, ?_, one_div_pos.2 p2⟩
    rw [div_le_iff₀ p1, div_mul_eq_mul_div, div_mul_eq_mul_div, le_div_iff₀ p2]
    linarith
  · obtain ⟨a1, a2, a3, a4⟩ := exp_enclosure (y := q) (by linarith) h2
    exact ⟨a1, a2, a3, by linarith⟩

theorem fval_1000 : fval (ofInt (-1000)) = -1000 := by
  rw [fval_ofInt _ (by decide)]
  norm_num

theorem fval_1024 : fval (ofInt 1024) = 1024 := by
  rw [fval_ofInt _ (by decide)]
  norm_num

/-- Arguments a smallest subnormal apart have values further apart than their enclosures are wide. -/
theorem exp_gap {q r : ℚ} (h : q + 1 / one64Units ≤ r) : Real.exp q * (1 + narrow) ≤ Real.exp r := by
  have h1 : (q : ℝ) + narrow ≤ r := by
    have h2 : ((q + 1 / (one64Units : ℚ) : ℚ) : ℝ) ≤ r := Rat.cast_le.2 h
    push_cast at h2
    have := narrow_lt_unit
    linarith
  calc Real.exp q * (1 + narrow) ≤ Real.exp q * Real.exp narrow := by
        have := Real.add_one_le_exp narrow
        gcongr
        linarith
    _ = Real.exp (q + narrow) := (Real.exp_add _ _).symm
    _ ≤ _ := Real.exp_le_exp.2 h1

/-- The argument of e that `expRef` takes. -/
def expArg (x : Double) : ℚ := max (-1000) (min (fval x) 1024)

theorem expArg_range (x : Double) : -1000 ≤ expArg x ∧ expArg x ≤ 1024 :=
  ⟨le_max_left _ _, max_le (by norm_num) (min_le_right _ _)⟩

theorem expRef_eq (x : Double) : expRef x = below (expEnds (expArg x)).2 := by
  unfold expRef expEnds expArg
  dsimp only
  split <;> rfl

/-- e^-1000 lies below the smallest subnormal. -/
theorem exp_tiny {v : ℝ} (h : v ≤ -1000) : Real.exp v * 2 < (2 ^ 1074)⁻¹ := by
  have hle : Real.exp v ≤ Real.exp ((1000 : ℕ) * (-1)) := by
    refine Real.exp_le_exp.2 ?_
    push_cast
    linarith
  refine (mul_le_mul_of_nonneg_right hle two_pos.le).trans_lt ?_
  rw [Real.exp_nat_mul, Real.exp_neg, inv_pow, inv_mul_lt_iff₀ (by positivity), ← div_eq_mul_inv,
    lt_div_iff₀ (by positivity)]
  have h1 : (2.7 : ℝ) ^ 1000 ≤ Real.exp 1 ^ 1000 :=
    pow_le_pow_left₀ (by norm_num) (Real.exp_one_gt_d9.le.trans' (by norm_num)) _
  have h2 : 2 * (2 : ℝ) ^ 1074 < 2.7 ^ 1000 := by
    have h3 : 2 * 2 ^ 1074 * 10 ^ 1000 < 27 ^ 1000 := by decide +kernel
    have h4 : 2 * ((2 : ℝ) ^ 1074) * 10 ^ 1000 < 27 ^ 1000 := by exact_mod_cast h3
    have h5 : (2.7 : ℝ) = 27 / 10 := by norm_num
    rw [h5, div_pow, lt_div_iff₀ (by positivity)]
    exact h4
  exact h2.trans_le h1

theorem expRef_low {x : Double} (h : fval x ≤ -1000) : expRef x = fzero := by
  obtain ⟨a1, a2, a3, a4⟩ := expEnds_spec (q := -1000) (by norm_num) (by norm_num)
  have hq : expArg x = -1000 := max_eq_left ((min_le_left _ _).trans h)
  rw [expRef_eq, hq]
  have h0 : (0 : ℝ) ≤ (expEnds (-1000)).2 := (Real.exp_pos _).le.trans a2
  refine below_tiny (by exact_mod_cast h0) ?_
  have ht := exp_tiny (v := ((-1000 : ℚ) : ℝ)) (by norm_num)
  have hn : narrow ≤ 1 := by
    unfold narrow
    exact inv_le_one_of_one_le₀ (one_le_pow₀ (by norm_num))
  have hlt : ((expEnds (-1000)).2 : ℝ) < (2 ^ 1074)⁻¹ := by
    refine (a3.trans ?_).trans_lt ht
    exact mul_le_mul a1 (by linarith) (by linarith [narrow_pos]) (Real.exp_pos _).le
  have hU : ((1 / (one64Units : ℚ) : ℚ) : ℝ) = (2 ^ 1074)⁻¹ := by
    rw [Rat.cast_div, Rat.cast_one, Rat.cast_natCast, units_real, one_div]
  rw [← hU] at hlt
  exact Rat.cast_lt.1 hlt

theorem expRef_faithful (x : Double) : Adjacent (expRef x) (Real.exp (fval x)) := by
  rcases le_total (fval x) (-1000) with h | h
  · rw [expRef_low h]
    have hv : ((fval x : ℚ) : ℝ) ≤ -1000 := by exact_mod_cast h
    have := exp_tiny hv
    exact adjacent_zero (Real.exp_pos _) (by linarith [Real.exp_pos (fval x : ℝ)])
  · obtain ⟨r1, r2⟩ := expArg_range x
    obtain ⟨a1, a2, a3, a4⟩ := expEnds_spec (q := expArg x) (by linarith) r2
    have hw := adjacent_below a1 a2 (unique_of_ratio a4 a3)
    rw [← expRef_eq] at hw
    have hq : expArg x = min (fval x) 1024 := max_eq_right (le_min h (by norm_num))
    rw [hq] at hw
    rcases le_total (fval x) 1024 with hc | hc
    · rwa [min_eq_left hc] at hw
    · rw [min_eq_right hc] at hw
      have hb : (2 : ℝ) ^ 1024 ≤ Real.exp ((1024 : ℚ) : ℝ) := by
        have : ((1024 : ℚ) : ℝ) = ((1024 : ℕ) : ℝ) * 1 := by norm_num
        rw [this, Real.exp_nat_mul]
        exact pow_le_pow_left₀ (by norm_num) (Real.exp_one_gt_d9.le.trans' (by norm_num)) _
      have hle : Real.exp ((1024 : ℚ) : ℝ) ≤ Real.exp (fval x) := Real.exp_le_exp.2 (by exact_mod_cast hc)
      have hlt : ∀ d, isFinite d = true → (fval d : ℝ) < (2 : ℝ) ^ 1024 := fun d hd => by
        have h1 := (fval_lt_bound hd).1
        have h2 : ((2 ^ 1024 : ℚ) : ℝ) = 2 ^ 1024 := by rw [Rat.cast_pow, Rat.cast_ofNat]
        rw [← h2]
        exact Rat.cast_lt.2 h1
      exact hw.congr (fun d hd hh => absurd (hh.trans (hlt d hd)) (not_lt.2 (hb.trans hle)))
        (fun d hd _ => (hlt d hd).trans_le hb)

/-- EXP's fixed function has R22's properties. -/
theorem expRef_spec : ExpSpec expRef := by
  have hn : ∀ x, isNaN (expRef x) = false := fun x => by
    rw [expRef_eq]
    exact (fkey_below _).2
  have mono : ∀ x y, fle x y = true → fle (expRef x) (expRef y) = true := fun x y h => by
    rw [fle_iff (hn x) (hn y), expRef_eq, expRef_eq]
    have hg := clamped_gap (ofInt (-1000)) (ofInt 1024) (fval_of_fle h)
    rw [fval_1000, fval_1024] at hg
    rcases hg with hg | hg
    · unfold expArg
      rw [hg]
    · obtain ⟨r1, r2⟩ := expArg_range x
      obtain ⟨r3, r4⟩ := expArg_range y
      obtain ⟨a1, a2, a3, a4⟩ := expEnds_spec (q := expArg x) (by linarith) r2
      obtain ⟨b1, b2, b3, b4⟩ := expEnds_spec (q := expArg y) (by linarith) r4
      exact below_mono (Rat.cast_le.1 (enclosures_mono_of_ratio a1 a3 b2 b3 (exp_gap hg)).2)
  have zero : ∀ x, isZero x = true → expRef x = fone := fun x h => by
    have hv : fval x = 0 := fval_zero (by simpa [isZero] using h)
    have hq : expArg x = 0 := by
      unfold expArg
      rw [hv]
      norm_num
    rw [expRef_eq, hq, expEnds_zero, ← fval_fone]
    exact below_self (by decide) (by decide)
  refine ⟨zero, fun x h => ?_, fun x h => ⟨?_, ?_⟩, mono, fun x _ => (expRef_faithful x).withinOneUlp⟩
  · have := fval_of_fle h
    rw [fval_1000] at this
    exact expRef_low this
  · obtain ⟨r1, r2⟩ := expArg_range x
    obtain ⟨-, a2, -⟩ := expEnds_spec (q := expArg x) (by linarith) r2
    rw [expRef_eq]
    have h0 : (0 : ℝ) ≤ (expEnds (expArg x)).2 := (Real.exp_pos _).le.trans a2
    exact fle_fzero_below (by exact_mod_cast h0)
  · have := mono x fzero h
    rwa [zero fzero (by decide)] at this

/-! ### LOG -/

theorem fval_pos_units {x : Double} (h : 0 < fval x) :
    0 < funits x ∧ ((fval x : ℚ) : ℝ) = (funits x : ℝ) / 2 ^ 1074 := by
  have hs : fsign x = false := by
    rcases sign_cases x with ⟨-, h0⟩ | ⟨-, -, h0⟩ | ⟨-, hs, -⟩
    · linarith
    · linarith
    · exact hs
  have hv : fval x = (funits x : ℚ) / one64Units := by
    unfold fval fint
    rw [hs]
    simp
  rw [hv] at h ⊢
  constructor
  · by_contra hc
    have h0 : funits x = 0 := by omega
    rw [h0] at h
    simp at h
  · rw [Rat.cast_div, Rat.cast_natCast, Rat.cast_natCast, units_real]

theorem funits_bound {x : Double} (h : isNaN x = false) : funits x < 2 ^ 2099 := by
  have hm : fmag x ≤ inf64 := by
    simp only [isNaN, decide_eq_false_iff_not] at h
    omega
  exact Nat.lt_of_le_of_lt (funits_le hm) (by decide +kernel)

theorem logRef_faithful {x : Double} (hf : isFinite x = true) (h : 0 < fval x) :
    Adjacent (logRef x) (Real.log (fval x)) := by
  obtain ⟨h0, hv⟩ := fval_pos_units h
  obtain ⟨a1, a2, a3⟩ := log_enclosure h0 (funits_bound (not_isNaN_of_isFinite hf))
  rw [hv]
  exact adjacent_below a1 a2 (unique_of_gap a3)

/-- The logarithms of two binary64 values are further apart than their enclosures are wide. -/
theorem log_gap {x y : Double} (h0 : 0 < fval x) (h : fval x < fval y) :
    Real.log ((funits x : ℝ) / 2 ^ 1074) + narrow ≤ Real.log ((funits y : ℝ) / 2 ^ 1074) := by
  obtain ⟨u0, e0⟩ := fval_pos_units h0
  obtain ⟨u1, e1⟩ := fval_pos_units (h0.trans h)
  rw [← e0, ← e1]
  have hx0 : (0 : ℝ) < fval x := Rat.cast_pos.2 h0
  have hy0 : (0 : ℝ) < fval y := Rat.cast_pos.2 (h0.trans h)
  have hr : fval y ≤ (fval y - fval x) * 2 ^ 53 := by
    have hk := (fkey_pos_iff x).1 h0
    rw [fval_lt_iff] at h
    rw [fval_eq, fval_eq]
    exact keyValue_ratio hk.le h
  have hr' : ((fval y : ℚ) : ℝ) ≤ (fval y - fval x) * 2 ^ 53 := by exact_mod_cast hr
  have hl := Real.one_sub_inv_le_log_of_pos (div_pos hy0 hx0)
  rw [Real.log_div hy0.ne' hx0.ne', inv_div] at hl
  have hn : narrow ≤ 1 - (fval x : ℝ) / fval y := by
    rw [le_sub_iff_add_le, ← le_sub_iff_add_le', div_le_iff₀ hy0]
    have h1 : narrow * 2 ^ 53 ≤ 1 := by
      have h7 := narrow_le
      have h8 : ((2 : ℝ) ^ 1100)⁻¹ * 2 ^ 53 ≤ 1 := by
        rw [inv_mul_le_iff₀ (by positivity), mul_one]
        exact pow_le_pow_right₀ (by norm_num) (by norm_num)
      exact (mul_le_mul_of_nonneg_right h7 (by positivity)).trans h8
    have h2 : narrow * (fval y : ℝ) ≤ fval y - fval x := by
      calc narrow * (fval y : ℝ) ≤ narrow * ((fval y - fval x) * 2 ^ 53) :=
            mul_le_mul_of_nonneg_left hr' narrow_pos.le
        _ = (narrow * 2 ^ 53) * (fval y - fval x) := by ring
        _ ≤ 1 * (fval y - fval x) := by
            refine mul_le_mul_of_nonneg_right h1 ?_
            have : ((fval x : ℚ) : ℝ) ≤ fval y := Rat.cast_le.2 h.le
            linarith
        _ = _ := one_mul _
    linarith
  linarith

/-- Above 1, the fixed LOG lies between 2^-53 and 1024. -/
theorem logRef_pos {x : Double} (hf : isFinite x = true) (h : fval fone < fval x) :
    Between 0x3CA0000000000000 (logRef x) (ofInt 1024) := by
  have hge : 1 + 1 / 2 ^ 52 ≤ fval x := by
    have e1 : fval 0x3FF0000000000001 = 1 + 1 / 2 ^ 52 := by decide +kernel
    have e2 : fkey fone = 0x3FF0000000000000 := by decide
    have e3 : fkey 0x3FF0000000000001 = 0x3FF0000000000001 := by decide
    have hk := (fval_lt_iff _ _).1 h
    rw [← e1, fval_le_iff]
    omega
  have hg : (1 : ℝ) + 1 / 2 ^ 52 ≤ fval x := by
    have := (Rat.cast_le (K := ℝ)).2 hge
    push_cast at this
    exact this
  have hp : (0 : ℝ) < 1 / 2 ^ 52 := by positivity
  have hx : (0 : ℝ) < fval x := by linarith
  have hw := logRef_faithful hf (Rat.cast_pos.1 hx)
  have e53 : fval 0x3CA0000000000000 = 1 / 2 ^ 53 := by decide +kernel
  constructor
  · refine (hw.2 _ (by decide)).2 ?_
    have h1 := Real.one_sub_inv_le_log_of_pos hx
    have h2 : ((fval x : ℝ))⁻¹ ≤ (1 + 1 / 2 ^ 52)⁻¹ := inv_anti₀ (by positivity) hg
    have h3 : ((1 : ℝ) + 1 / 2 ^ 52)⁻¹ < 1 - 1 / 2 ^ 53 := by norm_num
    rw [e53]
    push_cast
    linarith
  · refine (hw.2 _ (ofInt_spec 1024 (by decide)).1).1 ?_
    have h3 : ((2 ^ 1024 : ℚ) : ℝ) = 2 ^ 1024 := by rw [Rat.cast_pow, Rat.cast_ofNat]
    have h4 : ((fval x : ℚ) : ℝ) ≤ 2 ^ 1024 := by
      rw [← h3]
      exact Rat.cast_le.2 (fval_lt_bound hf).1.le
    have h5 := Real.log_le_log hx h4
    rw [Real.log_pow] at h5
    have := Real.log_two_lt_d9
    rw [fval_1024]
    push_cast at h5 ⊢
    linarith

theorem flt_iff {x y : Double} (hx : isNaN x = false) (hy : isNaN y = false) : flt x y = true ↔ fval x < fval y := by
  simp [flt, hx, hy, fval_lt_iff]

/-- LOG's fixed function has R22's properties. -/
theorem logRef_spec : LogSpec logRef := by
  have hpos : ∀ x, isNaN x = false → flt fzero x = true → 0 < fval x := fun x hn h => by
    rw [flt_iff isNaN_fzero hn, fval_zero (by decide)] at h
    exact h
  refine ⟨fun x hf h => ?_, fun x y h0 h hf => ?_, fun x hf h => ?_⟩
  · rw [flt_iff isNaN_fone (not_isNaN_of_isFinite hf)] at h
    obtain ⟨h1, h2⟩ := logRef_pos hf h
    have hn := not_nan_of_fle_left h2
    have k1 := fkey_le_of_fle h1
    have k2 := fkey_le_of_fle h2
    have e1 : fkey 0x3CA0000000000000 = 0x3CA0000000000000 := by decide
    have e2 : fkey (ofInt 1024) < inf64 := (fkey_range (ofInt_spec 1024 (by decide)).1).2
    have := fkey_natAbs (logRef x)
    refine ⟨by simp only [isFinite, decide_eq_true_eq]; omega, ?_⟩
    rw [flt_iff isNaN_fzero hn, fval_zero (by decide), fkey_pos_iff]
    omega
  · have hx := not_nan_of_fle_left h
    have h1 := hpos x hx h0
    have hv := fval_of_fle h
    unfold logRef
    rw [fle_iff (fkey_below _).2 (fkey_below _).2]
    rcases eq_or_lt_of_le hv with he | hlt
    · have hu : funits x = funits y := by
        have e1 := (fval_pos_units h1).2
        have e2 := (fval_pos_units (h1.trans_le hv)).2
        rw [he, e2, div_left_inj' (by positivity)] at e1
        exact_mod_cast e1.symm
      rw [hu]
    · obtain ⟨a1, a2, a3⟩ := log_enclosure (fval_pos_units h1).1 (funits_bound hx)
      obtain ⟨b1, b2, b3⟩ := log_enclosure (fval_pos_units (h1.trans hlt)).1 (funits_bound (not_nan_of_fle_right h))
      exact below_mono (Rat.cast_le.1 (enclosures_mono_of_gap a1 a3 b2 b3 (log_gap h1 hlt)).2)
  · exact (logRef_faithful hf (hpos x (not_isNaN_of_isFinite hf) h)).withinOneUlp

/-! ### TANH -/

/-- The argument of e that `tanhMag` takes at a magnitude. -/
def tanhArg (x : Double) : ℚ := min (2 * fval x) 1024

theorem tanhArg_eq (x : Double) : tanhArg x = 2 * min (fval x) 512 := by
  unfold tanhArg
  rw [mul_min_of_nonneg _ _ (by norm_num)]
  norm_num

theorem tanhArg_range {x : Double} (h : 0 ≤ fval x) : 0 ≤ tanhArg x ∧ tanhArg x ≤ 1024 :=
  ⟨le_min (by linarith) (by norm_num), min_le_right _ _⟩

theorem tanhMag_faithful {x : Double} (h : 0 ≤ fval x) : Adjacent (tanhMag x) (Real.tanh (fval x)) := by
  obtain ⟨r1, r2⟩ := tanhArg_range h
  obtain ⟨a1, a2, a3⟩ := tanh_enclosure r1 r2
  have hw : Adjacent (tanhMag x) _ := adjacent_below a1 a2 (unique_of_gap a3)
  have hq : ((tanhArg x : ℚ) : ℝ) / 2 = ((min (fval x) 512 : ℚ) : ℝ) := by
    rw [tanhArg_eq]
    push_cast
    ring
  rw [hq] at hw
  rcases le_total (fval x) 512 with hc | hc
  · rwa [min_eq_left hc] at hw
  · rw [min_eq_right hc] at hw
    have hc' : ((512 : ℚ) : ℝ) ≤ fval x := Rat.cast_le.2 hc
    have hmono : ∀ a b : ℝ, a ≤ b → Real.tanh a ≤ Real.tanh b := fun a b hab => by
      have h1 : Real.exp (2 * a) ≤ Real.exp (2 * b) := Real.exp_le_exp.2 (by linarith)
      have h2 := Real.exp_pos (2 * a)
      have h3 := Real.exp_pos (2 * b)
      rw [tanh_eq, tanh_eq, div_le_div_iff₀ (by linarith) (by linarith)]
      nlinarith
    have hlow : 1 - ((2 : ℝ) ^ 53)⁻¹ < Real.tanh ((512 : ℚ) : ℝ) := by
      have h1 : (2 : ℝ) ^ 1024 ≤ Real.exp (2 * ((512 : ℚ) : ℝ)) := by
        have : 2 * ((512 : ℚ) : ℝ) = ((1024 : ℕ) : ℝ) * 1 := by norm_num
        rw [this, Real.exp_nat_mul]
        exact pow_le_pow_left₀ (by norm_num) (Real.exp_one_gt_d9.le.trans' (by norm_num)) _
      have h2 : (2 : ℝ) ^ 54 ≤ 2 ^ 1024 := pow_le_pow_right₀ (by norm_num) (by norm_num)
      rw [tanh_eq]
      generalize Real.exp (2 * ((512 : ℚ) : ℝ)) = e at *
      have h3 := h2.trans h1
      have h4 : (2 : ℝ) ^ 54 = 18014398509481984 := by norm_num
      rw [h4] at h3
      rw [lt_div_iff₀ (by linarith only [h3])]
      norm_num
      linarith only [h3]
    have hlt1 : Real.tanh (fval x) < 1 := by
      have h3 := Real.exp_pos (2 * (fval x : ℝ))
      rw [tanh_eq, div_lt_iff₀ (by linarith)]
      linarith
    refine hw.congr (fun d hd hh => (hmono _ _ hc').trans_lt hh) (fun d hd hh => ?_)
    have hd1 : fval d < fval fone := by
      rw [fval_fone]
      exact_mod_cast hh.trans hlt1
    have hd2 : fval d ≤ 1 - 1 / 2 ^ 53 := by
      rcases le_total (fval d) 0 with hn | hn
      · exact hn.trans (by norm_num)
      · have hk : 0 ≤ fkey d := by
          have := (fval_le_iff fzero d).1 (by rw [fval_zero (by decide)]; exact hn)
          exact (by decide : (0 : Int) ≤ fkey fzero).trans this
        have := keyValue_ratio hk ((fval_lt_iff _ _).1 hd1)
        rw [← fval_eq, ← fval_eq, fval_fone] at this
        linarith
    have hd3 : ((fval d : ℚ) : ℝ) ≤ ((1 - 1 / 2 ^ 53 : ℚ) : ℝ) := Rat.cast_le.2 hd2
    push_cast at hd3
    refine lt_of_le_of_lt hd3 ?_
    rw [one_div]
    exact hlow

theorem tanhMag_zero {x : Double} (h : fval x = 0) : tanhMag x = fzero := by
  have e : tanhOfExp (expUpper 0) = fval fzero := by decide +kernel
  unfold tanhMag
  rw [h, mul_zero, min_eq_left (by norm_num), e]
  exact below_self (by decide) (by decide)

theorem tanhMag_mono {x y : Double} (h0 : 0 ≤ fval x) (h : fval x ≤ fval y) : fkey (tanhMag x) ≤ fkey (tanhMag y) := by
  have h1 := h0.trans h
  have hX : min (2 * fval x) 1024 = tanhArg x := rfl
  have hY : min (2 * fval y) 1024 = tanhArg y := rfl
  unfold tanhMag
  have hg := capped_gap (ofInt 512) h
  have e512 : fval (ofInt 512) = 512 := by
    rw [fval_ofInt _ (by decide)]
    norm_num
  rw [e512] at hg
  rcases hg with hg | hg
  · rw [hX, hY, tanhArg_eq, tanhArg_eq, hg]
  · have hg' : tanhArg x + 1 / one64Units ≤ tanhArg y := by
      rw [tanhArg_eq, tanhArg_eq]
      have : (0 : ℚ) < 1 / one64Units := one_div_pos.2 units_pos
      linarith
    obtain ⟨r1, r2⟩ := tanhArg_range h0
    obtain ⟨r3, r4⟩ := tanhArg_range h1
    obtain ⟨a1, a2, a3, a4⟩ := exp_enclosure r1 r2
    obtain ⟨b1, b2, b3, b4⟩ := exp_enclosure r3 r4
    obtain ⟨m1, m2⟩ := enclosures_mono_of_ratio a1 a3 b2 b3 (exp_gap hg')
    rw [hX, hY]
    have p1 : (0 : ℚ) ≤ expLower (tanhArg x) := by
      have : (0 : ℝ) ≤ (expLower (tanhArg x) : ℚ) := by linarith
      exact_mod_cast this
    have p2 : (0 : ℚ) ≤ expUpper (tanhArg x) := p1.trans (Rat.cast_le.1 (a1.trans a2))
    exact below_mono (tanhOfExp_mono p2 (Rat.cast_le.1 m2))

theorem tanhMag_nonneg {x : Double} (h : 0 ≤ fval x) : 0 ≤ fkey (tanhMag x) := by
  have := tanhMag_mono (x := fzero) (y := x) (by rw [fval_zero (by decide)]) (by rw [fval_zero (by decide)]; exact h)
  rw [tanhMag_zero (fval_zero (by decide))] at this
  exact (by decide : (0 : Int) ≤ fkey fzero).trans this

theorem tanhMag_le_one {x : Double} (h : 0 ≤ fval x) : fkey (tanhMag x) ≤ fkey fone := by
  obtain ⟨r1, r2⟩ := tanhArg_range h
  obtain ⟨a1, a2, -, a4⟩ := exp_enclosure r1 r2
  refine below_le (by decide) ?_
  change tanhOfExp (expUpper (tanhArg x)) ≤ _
  have p : (1 : ℝ) ≤ (expUpper (tanhArg x) : ℚ) := a4.trans (a1.trans a2)
  have p' : (1 : ℚ) ≤ expUpper (tanhArg x) := by exact_mod_cast p
  unfold tanhOfExp
  rw [fval_fone, div_le_one (by linarith)]
  linarith

theorem isNaN_tanhMag (x : Double) : isNaN (tanhMag x) = false := (fkey_below _).2

theorem isNaN_tanhRef (x : Double) : isNaN (tanhRef x) = false := by
  unfold tanhRef
  split
  · rw [isNaN_fneg]
    exact isNaN_tanhMag _
  · exact isNaN_tanhMag _

theorem fneg_fneg (x : Double) : fneg (fneg x) = x :=
  double_ext (by rw [fsign_fneg, fsign_fneg, Bool.not_not]) (by rw [fmag_fneg, fmag_fneg])

theorem tanhRef_mono {x y : Double} (h : fle x y = true) : fle (tanhRef x) (tanhRef y) = true := by
  have hv := fval_of_fle h
  rw [fle_iff (isNaN_tanhRef x) (isNaN_tanhRef y)]
  unfold tanhRef
  have hneg : ∀ z, fsign z = true → 0 ≤ fval (fneg z) := fun z hz => fval_nonneg (by rw [fsign_fneg, hz]; rfl)
  cases hs : fsign x <;> cases hs' : fsign y <;> simp only [Bool.false_eq_true, if_false, if_true, fkey_fneg]
  · exact tanhMag_mono (fval_nonneg hs) hv
  · have h1 := fval_nonneg hs
    have h2 := hneg y hs'
    rw [fval_fneg] at h2
    have e1 : fval x = 0 := by linarith
    have e2 : fval y = 0 := by linarith
    rw [tanhMag_zero e1, tanhMag_zero (x := fneg y) (by rw [fval_fneg, e2, neg_zero])]
    decide
  · have h1 := tanhMag_nonneg (hneg x hs)
    have h2 := tanhMag_nonneg (fval_nonneg hs')
    omega
  · have := tanhMag_mono (x := fneg y) (y := fneg x) (hneg y hs') (by rw [fval_fneg, fval_fneg]; linarith)
    omega

/-- TANH's fixed function has R22's properties. -/
theorem tanhRef_spec : TanhSpec tanhRef := by
  have hneg : ∀ z, fsign z = true → 0 ≤ fval (fneg z) := fun z hz => fval_nonneg (by rw [fsign_fneg, hz]; rfl)
  refine ⟨fun x h => ?_, fun x _ => ?_, fun x _ => ?_, fun x y => tanhRef_mono, fun x _ => ?_⟩
  · have hm : fmag x = 0 := by simpa [isZero] using h
    unfold tanhRef
    cases hs : fsign x
    · simp only [Bool.false_eq_true, if_false]
      rw [tanhMag_zero (fval_zero hm)]
      exact double_ext (by rw [hs]; decide) (by rw [hm]; decide)
    · simp only [if_true]
      rw [tanhMag_zero (fval_zero (by rw [fmag_fneg]; exact hm))]
      exact double_ext (by rw [hs]; decide) (by rw [hm]; decide)
  · unfold tanhRef
    rw [fsign_fneg, fneg_fneg]
    cases hs : fsign x <;> simp [fneg_fneg]
  · have hone : fkey (fneg fone) = -fkey fone := fkey_fneg fone
    have hz : 0 ≤ fkey fone := by decide
    unfold Between
    rw [fle_iff (by decide) (isNaN_tanhRef x), fle_iff (isNaN_tanhRef x) (by decide), hone]
    unfold tanhRef
    cases hs : fsign x <;> simp only [Bool.false_eq_true, if_false, if_true, fkey_fneg]
    · have h1 := tanhMag_le_one (fval_nonneg hs)
      have h2 := tanhMag_nonneg (fval_nonneg hs)
      omega
    · have h1 := tanhMag_le_one (hneg x hs)
      have h2 := tanhMag_nonneg (hneg x hs)
      omega
  · refine Adjacent.withinOneUlp ?_
    unfold tanhRef
    cases hs : fsign x
    · exact tanhMag_faithful (fval_nonneg hs)
    · have hn := (tanhMag_faithful (hneg x hs)).neg
      rw [fval_fneg, Rat.cast_neg, Real.tanh_neg, neg_neg] at hn
      exact hn

/-! ### SIN -/

/-- SIN's fixed function has R22's properties. -/
theorem sinRef_spec : SinSpec sinRef := by
  refine ⟨?_, fun x _ => Adjacent.withinOneUlp ?_⟩
  · have e : sinUpper 0 = fval fzero := by decide +kernel
    unfold sinRef
    rw [fval_zero (by decide), e]
    exact below_self (by decide) (by decide)
  · obtain ⟨a1, a2, a3⟩ := sin_enclosure (fval x)
    exact adjacent_below a1 a2 (unique_of_gap a3)

/-! ### POW2 -/

/-- The argument of 2 that `pow264` takes. -/
def pow2Arg (x : Double) : ℚ := max (-1100) (min (fval x) 1024)

theorem pow2_at_integer (k : Int) : pow2Lower k = 2 ^ k ∧ pow2Upper k = 2 ^ k := by
  have hk : ((k : ℚ)).floor = k := Rat.floor_intCast k
  have b : ∀ r : ℚ, expBelow (0 * r) = 1 := fun r => by rw [zero_mul]; decide +kernel
  have a : ∀ r : ℚ, expAbove (0 * r) = 1 := fun r => by rw [zero_mul]; decide +kernel
  unfold pow2Lower pow2Upper
  rw [hk, sub_self, b, a, min_eq_right (by norm_num), mul_one]
  exact ⟨rfl, rfl⟩

theorem pow2Arg_integer {x : Double} {k : Int} (h : fval x = k) (h1 : -1022 ≤ k) (h2 : k ≤ 1023) :
    pow2Arg x = k := by
  have c1 : (-1022 : ℚ) ≤ k := by exact_mod_cast h1
  have c2 : (k : ℚ) ≤ 1023 := by exact_mod_cast h2
  unfold pow2Arg
  rw [h, min_eq_left (by linarith), max_eq_right (by linarith)]

theorem pow2Ref_faithful (x : Double) : Adjacent (pow2Ref x) ((2 : ℝ) ^ ((fval x : ℚ) : ℝ)) := by
  obtain ⟨a1, a2, a3, a4⟩ := pow2_enclosure (pow2Arg x)
  have hw : Adjacent (pow2Ref x) _ := adjacent_below a1 a2 (unique_of_ratio a4 a3)
  have hU : (0 : ℚ) < 1 / one64Units := one_div_pos.2 units_pos
  have hpow : ∀ a b : ℚ, a ≤ b → (2 : ℝ) ^ (a : ℝ) ≤ (2 : ℝ) ^ (b : ℝ) := fun a b hab =>
    Real.rpow_le_rpow_of_exponent_le (by norm_num) (Rat.cast_le.2 hab)
  rcases le_total (fval x) (-1100) with hc | hc
  · have hq : pow2Arg x = -1100 := by
      unfold pow2Arg
      exact max_eq_left ((min_le_left _ _).trans hc)
    rw [hq] at hw
    have hsmall : (2 : ℝ) ^ ((-1100 : ℚ) : ℝ) < 1 / (one64Units : ℝ) := by
      have : ((-1100 : ℚ) : ℝ) = -((1100 : ℕ) : ℝ) := by norm_num
      rw [this, Real.rpow_neg two_pos.le, Real.rpow_natCast, units_real, one_div]
      exact inv_strictAnti₀ (by positivity) (pow_lt_pow_right₀ (by norm_num) (by norm_num))
    have hstep : ∀ d, 0 < fval d → 1 / (one64Units : ℝ) ≤ fval d := fun d hd => by
      have := fval_gap (x := fzero) (y := d) (by rw [fval_zero (by decide)]; exact hd)
      rw [fval_zero (by decide), zero_add] at this
      have h2 : ((1 / (one64Units : ℚ) : ℚ) : ℝ) ≤ fval d := Rat.cast_le.2 this
      push_cast at h2
      exact h2
    have hpos : ∀ a : ℝ, (0 : ℝ) < (2 : ℝ) ^ a := fun a => Real.rpow_pos_of_pos two_pos a
    refine hw.congr (fun d hd hh => ?_) (fun d hd hh => ?_)
    · have h0 : (0 : ℝ) < fval d := (hpos _).trans hh
      exact hsmall.trans_le (hstep d (Rat.cast_pos.1 h0))
    · refine lt_of_le_of_lt ?_ (hpos _)
      by_contra h0
      have h1 := hstep d (Rat.cast_pos.1 (not_le.1 h0))
      exact absurd (hh.trans_le (hpow _ _ hc)) (not_lt.2 (hsmall.le.trans h1))
  · rcases le_total (fval x) 1024 with hc2 | hc2
    · have hq : pow2Arg x = fval x := by
        unfold pow2Arg
        rw [min_eq_left hc2, max_eq_right hc]
      rwa [hq] at hw
    · have hq : pow2Arg x = 1024 := by
        unfold pow2Arg
        rw [min_eq_right hc2, max_eq_right (by norm_num)]
      rw [hq] at hw
      have hb : (2 : ℝ) ^ ((1024 : ℚ) : ℝ) = 2 ^ 1024 := by
        have : ((1024 : ℚ) : ℝ) = ((1024 : ℕ) : ℝ) := by norm_num
        rw [this, Real.rpow_natCast]
      have hlt : ∀ d, isFinite d = true → (fval d : ℝ) < (2 : ℝ) ^ ((1024 : ℚ) : ℝ) := fun d hd => by
        have h1 := (fval_lt_bound hd).1
        have h2 : ((2 ^ 1024 : ℚ) : ℝ) = 2 ^ 1024 := by rw [Rat.cast_pow, Rat.cast_ofNat]
        rw [hb, ← h2]
        exact Rat.cast_lt.2 h1
      exact hw.congr (fun d hd hh => absurd (hh.trans (hlt d hd)) (not_lt.2 (hpow _ _ hc2))) (fun d hd _ => hlt d hd)

theorem pow2_gap {q r : ℚ} (h : q + 1 / one64Units ≤ r) :
    (2 : ℝ) ^ (q : ℝ) * (1 + narrow) ≤ (2 : ℝ) ^ (r : ℝ) := by
  have h2 : ((q + 1 / (one64Units : ℚ) : ℚ) : ℝ) ≤ r := Rat.cast_le.2 h
  push_cast at h2
  have hp : (0 : ℝ) < (2 : ℝ) ^ (q : ℝ) := Real.rpow_pos_of_pos two_pos _
  have hl : (1 / 2 : ℝ) ≤ Real.log 2 := (Real.log_two_gt_d9.le.trans' (by norm_num))
  have hU : (0 : ℝ) < 1 / (one64Units : ℝ) := by
    rw [units_real]
    exact one_div_pos.2 (by positivity)
  have hn : narrow ≤ 1 / 2 * (1 / (one64Units : ℝ)) := by
    rw [units_real, one_div_mul_one_div, ← pow_succ', one_div]
    unfold narrow
    exact inv_anti₀ (by positivity) (pow_le_pow_right₀ (by norm_num) (by norm_num))
  have he : 1 + narrow ≤ (2 : ℝ) ^ (1 / (one64Units : ℝ)) := by
    rw [Real.rpow_def_of_pos two_pos]
    have h3 := Real.add_one_le_exp (Real.log 2 * (1 / (one64Units : ℝ)))
    have h4 : 1 / 2 * (1 / (one64Units : ℝ)) ≤ Real.log 2 * (1 / (one64Units : ℝ)) :=
      mul_le_mul_of_nonneg_right hl hU.le
    linarith
  calc (2 : ℝ) ^ (q : ℝ) * (1 + narrow) ≤ (2 : ℝ) ^ (q : ℝ) * (2 : ℝ) ^ (1 / (one64Units : ℝ)) :=
        mul_le_mul_of_nonneg_left he hp.le
    _ = (2 : ℝ) ^ ((q : ℝ) + 1 / (one64Units : ℝ)) := (Real.rpow_add two_pos _ _).symm
    _ ≤ _ := Real.rpow_le_rpow_of_exponent_le (by norm_num) h2

/-- POW2's fixed function has R22's properties. -/
theorem pow2Ref_spec : Pow2Spec pow2Ref := by
  have h1100 : fval (ofInt (-1100)) = -1100 := by
    rw [fval_ofInt _ (by decide)]
    norm_num
  have h16 : fval (ofInt (-16)) = ((-16 : Int) : ℚ) := fval_ofInt _ (by decide)
  have mono : ∀ x y, fle x y = true → fle (pow2Ref x) (pow2Ref y) = true := fun x y h => by
    unfold pow2Ref
    rw [fle_iff (fkey_below _).2 (fkey_below _).2]
    have hg := clamped_gap (ofInt (-1100)) (ofInt 1024) (fval_of_fle h)
    rw [h1100, fval_1024] at hg
    rcases hg with hg | hg
    · rw [hg]
    · obtain ⟨a1, a2, a3, a4⟩ := pow2_enclosure (pow2Arg x)
      obtain ⟨b1, b2, b3, b4⟩ := pow2_enclosure (pow2Arg y)
      exact below_mono (Rat.cast_le.1 (enclosures_mono_of_ratio a1 a3 b2 b3 (pow2_gap hg)).2)
  have int : ∀ x, ∀ k : Int, fval x = k → -1022 ≤ k → k ≤ 1023 → pow2Ref x = pow2Exact k := fun x k h h1 h2 => by
    change below (pow2Upper (pow2Arg x)) = _
    rw [pow2Arg_integer h h1 h2, (pow2_at_integer k).2, ← fval_pow2Exact k h1 h2]
    exact below_self (isFinite_pow2Exact k h2) (pow2Exact_spec k h2).1
  refine ⟨int, fun x h => ?_, mono, fun x _ => (pow2Ref_faithful x).withinOneUlp⟩
  have hm := mono _ _ h.1
  rw [int _ _ h16 (by decide) (by decide)] at hm
  have hn := not_nan_of_fle_right hm
  have hv := fval_of_fle hm
  rw [fval_pow2Exact _ (by decide) (by decide)] at hv
  rw [flt_iff isNaN_fzero hn, fval_zero (by decide)]
  exact lt_of_lt_of_le (by norm_num) hv

end Sys2Proof.Machine
end

