-- ==== Sys2Proof/Laws/Transcendental.lean ====
section
/-! SUPPORT. EXP, LOG, TANH, SIN and POW2 have the properties of 00_scope.md R22, and what the units need of them
follows from those alone. -/

namespace Sys2Proof.Machine

set_option Elab.async false

theorem openOr_spec {P : (Double → Double) → Prop} (f : Option { f : Double → Double // P f })
    {ref : Double → Double} (h : P ref) : P (openOr f ref) := by
  cases f with
  | none => exact h
  | some f => exact f.2

/-! ### the functions are the open ones on every number -/

theorem exp64_eq {x : Double} (h : isNaN x = false) : exp64 x = openOr Config.exp expRef x := by
  have hs := openOr_spec Config.exp expRef_spec
  unfold exp64
  rw [h]
  simp only [Bool.false_eq_true, if_false]
  split
  · exact (hs.zero x ‹_›).symm
  · split
    · exact (hs.underflow x ‹_›).symm
    · rfl

theorem log64_eq {x : Double} (h : isNaN x = false) : log64 x = openOr Config.log logRef x := by
  unfold log64
  rw [h]
  rfl

theorem tanh64_eq {x : Double} (h : isNaN x = false) : tanh64 x = openOr Config.tanh tanhRef x := by
  unfold tanh64
  rw [h]
  simp only [Bool.false_eq_true, if_false]
  split
  · exact ((openOr_spec Config.tanh tanhRef_spec).zero x ‹_›).symm
  · rfl

theorem sin64_eq {x : Double} (h : isNaN x = false) : sin64 x = openOr Config.sin sinRef x := by
  unfold sin64
  rw [h]
  simp only [Bool.false_eq_true, if_false]
  split
  · rename_i hx
    rw [hx]
    exact (openOr_spec Config.sin sinRef_spec).zero.symm
  · rfl

theorem pow264_eq {x : Double} (h : isNaN x = false) : pow264 x = openOr Config.pow2 pow2Ref x := by
  unfold pow264
  rw [h]
  simp only [Bool.false_eq_true, if_false]
  split
  · rename_i hi
    simp only [Bool.and_eq_true, decide_eq_true_eq] at hi
    exact ((openOr_spec Config.pow2 pow2Ref_spec).int x _ (fval_integral hi.1.1) hi.1.2 hi.2).symm
  · rfl

/-! ### R22 -/

theorem exp64_spec : ExpSpec exp64 := by
  have hs := openOr_spec Config.exp expRef_spec
  refine ⟨fun x h => ?_, fun x h => ?_, fun x h => ?_, fun x y h => ?_, fun x h => ?_⟩
  · have hm : fmag x = 0 := by simpa [isZero] using h
    rw [exp64_eq (by simp [isNaN, hm])]
    exact hs.zero x h
  · rw [exp64_eq (not_nan_of_fle_left h)]
    exact hs.underflow x h
  · rw [exp64_eq (not_nan_of_fle_left h)]
    exact hs.range x h
  · rw [exp64_eq (not_nan_of_fle_left h), exp64_eq (not_nan_of_fle_right h)]
    exact hs.mono x y h
  · rw [exp64_eq (not_isNaN_of_isFinite h)]
    exact hs.faithful x h

theorem log64_spec : LogSpec log64 := by
  have hs := openOr_spec Config.log logRef_spec
  refine ⟨fun x h h1 => ?_, fun x y h0 h hf => ?_, fun x h h1 => ?_⟩
  · rw [log64_eq (not_isNaN_of_isFinite h)]
    exact hs.pos x h h1
  · rw [log64_eq (not_nan_of_fle_left h), log64_eq (not_nan_of_fle_right h)]
    exact hs.mono x y h0 h hf
  · rw [log64_eq (not_isNaN_of_isFinite h)]
    exact hs.faithful x h h1

theorem tanh64_spec : TanhSpec tanh64 := by
  have hs := openOr_spec Config.tanh tanhRef_spec
  refine ⟨fun x h => ?_, fun x h => ?_, fun x h => ?_, fun x y h => ?_, fun x h => ?_⟩
  · have hm : fmag x = 0 := by simpa [isZero] using h
    rw [tanh64_eq (by simp [isNaN, hm])]
    exact hs.zero x h
  · rw [tanh64_eq h, tanh64_eq (by rw [isNaN_fneg]; exact h)]
    exact hs.odd x h
  · rw [tanh64_eq h]
    exact hs.range x h
  · rw [tanh64_eq (not_nan_of_fle_left h), tanh64_eq (not_nan_of_fle_right h)]
    exact hs.mono x y h
  · rw [tanh64_eq (not_isNaN_of_isFinite h)]
    exact hs.faithful x h

theorem sin64_spec : SinSpec sin64 := by
  have hs := openOr_spec Config.sin sinRef_spec
  refine ⟨rfl, fun x h => ?_⟩
  rw [sin64_eq (not_isNaN_of_isFinite h)]
  exact hs.faithful x h

theorem pow264_spec : Pow2Spec pow264 := by
  have hs := openOr_spec Config.pow2 pow2Ref_spec
  refine ⟨fun x k h h1 h2 => ?_, fun x h => ?_, fun x y h => ?_, fun x h => ?_⟩
  · have hn : isNaN x = false := by
      have hv : fval x < fval maxFinite := by
        rw [h]
        have : (k : ℚ) ≤ 1023 := by exact_mod_cast h2
        exact lt_of_le_of_lt this (by decide +kernel)
      have hw : fval (fneg maxFinite) < fval x := by
        rw [h]
        have : (-1022 : ℚ) ≤ k := by exact_mod_cast h1
        exact lt_of_lt_of_le (by decide +kernel) this
      rw [fval_lt_iff, fkey_max] at hv
      rw [fval_lt_iff, fkey_fneg, fkey_max] at hw
      have := fkey_natAbs x
      simp only [isNaN, decide_eq_false_iff_not]
      omega
    rw [pow264_eq hn]
    exact hs.int x k h h1 h2
  · rw [pow264_eq (not_nan_of_fle_right h.1)]
    exact hs.pos x h
  · rw [pow264_eq (not_nan_of_fle_left h), pow264_eq (not_nan_of_fle_right h)]
    exact hs.mono x y h
  · rw [pow264_eq (not_isNaN_of_isFinite h)]
    exact hs.faithful x h

/-! ### what follows -/

/-- EXP of anything but a NaN is no NaN. -/
theorem isNaN_exp64 {x : Double} (h : isNaN x = false) : isNaN (exp64 x) = false :=
  not_nan_of_fle_left (exp64_spec.mono x x (fle_refl h))

/-- How far a value within one ulp of a real number in range can be from it. -/
theorem WithinOneUlp.err {y : Double} {v : ℝ} (h : WithinOneUlp y v) (hv : |v| < (fval maxFinite : ℝ)) :
    |(fval y : ℝ) - v| ≤ max |v| |(fval y : ℝ)| / 2 ^ 52 + (2 ^ 1074)⁻¹ := by
  obtain ⟨-, ⟨-, e, he, hd⟩ | ⟨hc, -⟩⟩ := h
  · refine hd.trans ?_
    have hm : (0 : ℝ) ≤ max |v| |(fval y : ℝ)| / 2 ^ 52 :=
      div_nonneg ((abs_nonneg v).trans (le_max_left _ _)) (pow_nonneg two_pos.le _)
    have hp : (0 : ℝ) ≤ (2 ^ 1074)⁻¹ := inv_nonneg.2 (pow_nonneg two_pos.le _)
    rcases he with rfl | he
    · have e1 : (2 : ℝ) ^ ((-1022 : ℤ) - 52) = (2 ^ 1074)⁻¹ := by
        rw [show (-1022 : ℤ) - 52 = -((1074 : ℕ) : ℤ) by norm_num, zpow_neg, zpow_natCast]
      rw [e1]
      linarith only [hm]
    · rw [zpow_sub₀ two_ne_zero]
      have e2 : (2 : ℝ) ^ (52 : ℤ) = 2 ^ 52 := zpow_natCast 2 52
      rw [e2]
      have := div_le_div_of_nonneg_right he (pow_nonneg two_pos.le 52 : (0 : ℝ) ≤ 2 ^ 52)
      linarith only [this, hp]
  · exact absurd hc (not_le.2 hv)

theorem tiny_le : ((2 : ℝ) ^ 1074)⁻¹ ≤ (2 ^ 60)⁻¹ :=
  inv_anti₀ (pow_pos two_pos _) (pow_le_pow_right₀ (by norm_num) (by norm_num))

theorem thousand_lt_max : (1000 : ℝ) < (fval maxFinite : ℝ) := by
  have : (1000 : ℚ) < fval maxFinite := by decide +kernel
  exact_mod_cast this

/-- EXP is below 1 where e^x is well below it. -/
theorem exp64_lt_one {x : Double} (h : isNaN x = false) (hx : fval x ≤ -(1 / 2 ^ 50)) : flt (exp64 x) fone = true := by
  have hy : fval 0xBCD0000000000000 = -(1 / 2 ^ 50) := by decide +kernel
  have hm := exp64_spec.mono _ _ (fle_of_fval h (y := 0xBCD0000000000000) (by decide) (by rw [hy]; exact hx))
  have hr := exp64_spec.range 0xBCD0000000000000 (by decide +kernel)
  have hw := exp64_spec.faithful 0xBCD0000000000000 (by decide)
  rw [hy] at hw
  have hv : Real.exp ((-(1 / 2 ^ 50) : ℚ) : ℝ) < 1 - 1 / 2 ^ 51 := by
    push_cast
    have h1 := Real.add_one_le_exp (1 / 2 ^ 50 : ℝ)
    rw [Real.exp_neg, inv_lt_comm₀ (Real.exp_pos _) (by norm_num)]
    refine lt_of_lt_of_le ?_ h1
    norm_num
  have h0 := Real.exp_pos ((-(1 / 2 ^ 50) : ℚ) : ℝ)
  generalize Real.exp ((-(1 / 2 ^ 50) : ℚ) : ℝ) = v at hv h0 hw
  have hv1 : v < 1 := hv.trans_le (by norm_num)
  have he := hw.err (by rw [abs_of_pos h0]; linarith only [hv1, thousand_lt_max])
  have hlt : fval (exp64 0xBCD0000000000000) < 1 := by
    by_contra hc
    have hle := fval_of_fle hr.2
    rw [fval_fone] at hle
    have e1 : fval (exp64 0xBCD0000000000000) = 1 := le_antisymm hle (not_lt.1 hc)
    rw [e1, Rat.cast_one, abs_one, abs_of_pos h0, max_eq_right hv1.le, abs_of_pos (by linarith only [hv1])] at he
    have := tiny_le
    norm_num at he hv this
    linarith only [he, hv, this]
  rw [flt_iff (isNaN_exp64 h) isNaN_fone, fval_fone]
  exact (fval_of_fle hm).trans_lt hlt

/-- POW2 of a value of magnitude at most K is at most 2^K. -/
theorem pow264_le (x : Double) (K : Nat) (hK : K < 1022) (hf : isFinite x = true) (hx : funits x ≤ K * one64Units) :
    fmag (pow264 x) ≤ (K + 1023) * 2 ^ 52 := by
  have hu : (funits x : ℚ) ≤ K * one64Units := by exact_mod_cast hx
  have h0 : (0 : ℚ) ≤ funits x := Nat.cast_nonneg _
  have hv : -(K : ℚ) ≤ fval x ∧ fval x ≤ K := by
    unfold fval fint
    rw [div_le_iff₀ units_pos, le_div_iff₀ units_pos]
    split
    · push_cast
      constructor <;> linarith
    · push_cast
      constructor <;> linarith
  have hn := not_isNaN_of_isFinite hf
  have value : ∀ k : Int, k.natAbs = K → fval (ofInt k) = k ∧ pow264 (ofInt k) = pow2Exact k := fun k hk => by
    have e := fval_ofInt k (by omega)
    exact ⟨e, pow264_spec.int _ k e (by omega) (by omega)⟩
  obtain ⟨e1, p1⟩ := value K rfl
  obtain ⟨e2, p2⟩ := value (-K) (by omega)
  have hup := pow264_spec.mono x (ofInt K) (fle_of_fval hn (isNaN_ofInt _) (by rw [e1]; exact hv.2))
  have hlo := pow264_spec.mono (ofInt (-K)) x (fle_of_fval (isNaN_ofInt _) hn (by rw [e2]; push_cast; exact hv.1))
  rw [p1] at hup
  rw [p2] at hlo
  have hpos : fle fzero (pow2Exact (-K)) = true := by
    refine fle_of_fval isNaN_fzero (not_nan_of_fle_left hlo) ?_
    rw [fval_zero (by decide), fval_pow2Exact _ (by omega) (by omega)]
    exact (zpow_pos two_pos _).le
  have := fmag_le_of_range (fle_trans hpos hlo) hup (pow2Exact_spec _ (by omega)).1
  rw [(pow2Exact_spec _ (by omega)).2] at this
  exact Nat.le_trans this (Nat.mul_le_mul_right _ (by omega))

end Sys2Proof.Machine
end

