-- ==== Sys2Proof/Laws/Numeric.lean ====
section
/-! SUPPORT. Numeric bounds: converted integers, parameters, the phase increments, and the binary32 words
that clamped registers store. -/

namespace Sys2Proof.Machine

set_option Elab.async false

/-! ### bounds of an operation's result -/

theorem fadd_le {x y : Double} (a b c : Nat) (hx : fmag x ≤ a) (hy : fmag y ≤ b) (ha : a < inf64) (hb : b < inf64)
    (h : roundMag 52 inf64 (magUnits 52 a + magUnits 52 b) 1 ≤ c) : fmag (fadd x y) ≤ c :=
  Nat.le_trans (fmag_fadd_le a b ha hb hx hy) h

theorem fmul_le {x y : Double} (a b c : Nat) (hx : fmag x ≤ a) (hy : fmag y ≤ b) (ha : a < inf64) (hb : b < inf64)
    (h : roundMag 52 inf64 (magUnits 52 a * magUnits 52 b) one64Units ≤ c) : fmag (fmul x y) ≤ c :=
  Nat.le_trans (fmag_fmul_le a b ha hb hx hy) h

theorem fdiv_le {x y : Double} (a b c : Nat) (hx : fmag x ≤ a) (hy : b ≤ fmag y) (fy : isFinite y = true)
    (ha : a < inf64) (hb : 0 < b) (h : roundMag 52 inf64 (magUnits 52 a * one64Units) (magUnits 52 b) ≤ c) :
    fmag (fdiv x y) ≤ c :=
  Nat.le_trans (fmag_fdiv_le a b ha hb fy hx hy) h

/-! ### parameters -/

theorem min_le_max (p : Param) : fle (ofInt p.min) (ofInt p.max) = true := by
  cases p <;> decide +kernel

/-- `ParamClamp` lands in the declared range, whatever the word is (R188). -/
theorem paramClamp_range (x lo hi : Double) (h : fle lo hi = true) : Between lo (paramClamp x lo hi) hi := by
  simp only [paramClamp]
  split
  · exact ⟨fle_refl (not_nan_of_fle_left h), h⟩
  · exact fclamp_range x lo hi h

theorem param_range (s : State) (p : Param) (i draws : Nat) :
    Between (ofInt p.min) (param s p i draws).1 (ofInt p.max) :=
  paramClamp_range _ _ _ (min_le_max p)

/-- The largest magnitude a parameter can have. -/
def Param.mag (p : Param) : Nat := Max.max (fmag (ofInt p.min)) (fmag (ofInt p.max))

theorem fmag_le_of_fle {x lo hi : Double} (h : Between lo x hi) : fmag x ≤ max (fmag lo) (fmag hi) := by
  have a := fkey_le_of_fle h.1
  have b := fkey_le_of_fle h.2
  rw [← fkey_natAbs x, ← fkey_natAbs lo, ← fkey_natAbs hi]
  omega

theorem fmag_param_le (s : State) (p : Param) (i draws : Nat) : fmag (param s p i draws).1 ≤ p.mag :=
  fmag_le_of_fle (param_range s p i draws)

/-! ### the phase increments -/

/-- A sample rate the block accepts, as a binary64: finite and at least 1.0 (R34). -/
theorem sampleRate_spec {sr : Double} (h1 : fle fone sr = true) :
    fsign sr = false ∧ 0x3FF0000000000000 ≤ fmag sr := by
  have h2 := fkey_le_of_fle h1
  rw [fkey_of_nonneg fsign_fone, fmag_fone] at h2
  simp only [fkey] at h2
  cases hs : fsign sr
  · simp only [hs, Bool.false_eq_true, if_false] at h2
    exact ⟨rfl, by omega⟩
  · simp only [hs, if_true] at h2
    omega

/-- A frequency times a ratio over the sample rate, at most 2^90 (R252, R303). -/
theorem increment_base_le {f d sr : Double} (K : Nat) (hK : K ≤ 71) (hf : fmag f ≤ 0x40F86A0000000000)
    (hd : isFinite d = true) (hdu : funits d ≤ K * one64Units) (fsr : isFinite sr = true) (h1 : fle fone sr = true) :
    fmag (fdiv (fmul f (pow264 d)) sr) ≤ 0x4590000000000000 := by
  have hp := pow264_le d K (by omega) hd hdu
  have hp' : fmag (pow264 d) ≤ 1095 * 2 ^ 52 := Nat.le_trans hp (Nat.mul_le_mul_right _ (by omega))
  have hm := fmul_le _ _ 0x4590000000000000 hf hp' (by decide) (by decide) (by decide +kernel)
  exact fdiv_le _ _ _ hm (sampleRate_spec h1).2 fsr (by decide) (by decide) (by decide +kernel)

/-- The phase-modulation factor, at most 101 in magnitude (R253, R305). -/
theorem modulation_le {pm pmd : Double} (h1 : fmag pm ≤ 0x3FF0000000000000) (h2 : fmag pmd ≤ 0x4059000000000000) :
    fmag (fadd fone (fmul pm pmd)) ≤ 0x4059400000000000 := by
  have hm := fmul_le _ _ 0x4059000000000000 h1 h2 (by decide) (by decide) (by decide +kernel)
  exact fadd_le _ _ _ (Nat.le_of_eq fmag_fone) hm (by decide) (by decide) (by decide +kernel)

/-- A detune of at most 84000 cents in magnitude gives an exponent of at most 70. -/
theorem detune_exponent {d : Double} (h : fmag d ≤ 0x40F4820000000000) :
    isFinite (fdiv d (ofInt 1200)) = true ∧ funits (fdiv d (ofInt 1200)) ≤ 71 * one64Units := by
  have h1 : fmag (fdiv d (ofInt 1200)) ≤ 0x4051800000000000 :=
    fdiv_le _ 0x4092C00000000000 _ h (by decide +kernel) (by decide +kernel) (by decide) (by decide)
      (by decide +kernel)
  refine ⟨isFinite_of_le h1 (by decide), Nat.le_trans (funits_le h1) ?_⟩
  decide +kernel

/-- The WTO's increment is finite (R269). -/
theorem increment_finite {f dc pm pmd sr : Double} (hf : fmag f ≤ 0x40F86A0000000000)
    (hd : fmag dc ≤ 0x40F4820000000000) (hpm : fmag pm ≤ 0x3FF0000000000000) (hpmd : fmag pmd ≤ 0x4059000000000000)
    (fsr : isFinite sr = true) (h1 : fle fone sr = true) :
    fmag (increment f dc pm pmd sr) ≤ 0x4600000000000000 := by
  obtain ⟨e1, e2⟩ := detune_exponent hd
  have hb := increment_base_le 71 (by decide) hf e1 e2 fsr h1
  exact fmul_le _ _ _ hb (modulation_le hpm hpmd) (by decide) (by decide) (by decide +kernel)

/-- The PBO's phase step is below 2^31 in magnitude (R303, R305). -/
theorem pboStep_le {f d pm pmd sr : Double} (hf : fmag f ≤ 0x40F86A0000000000) (hd : fmag d ≤ 0x40B2C00000000000)
    (hpm : fmag pm ≤ 0x3FF0000000000000) (hpmd : fmag pmd ≤ 0x4059000000000000) (fsr : isFinite sr = true)
    (h1 : fle fone sr = true) :
    fmag (fmul (fdiv (fmul f (pow264 (fdiv d (ofInt 1200)))) sr) (fadd fone (fmul pm pmd))) ≤ 0x41E0000000000000 := by
  have hx : fmag (fdiv d (ofInt 1200)) ≤ 0x4010000000000000 :=
    fdiv_le _ 0x4092C00000000000 _ hd (by decide +kernel) (by decide +kernel) (by decide) (by decide)
      (by decide +kernel)
  have hp := pow264_le (fdiv d (ofInt 1200)) 4 (by decide) (isFinite_of_le hx (by decide))
    (Nat.le_trans (funits_le hx) (by decide +kernel))
  have hm := fmul_le _ _ 0x4148700000000000 hf hp (by decide) (by decide) (by decide +kernel)
  have hv := fdiv_le _ _ 0x4148700000000000 hm (sampleRate_spec h1).2 fsr (by decide) (by decide)
    (by decide +kernel)
  exact fmul_le _ _ _ hv (modulation_le hpm hpmd) (by decide) (by decide) (by decide +kernel)

/-- A voice's detune offset is at most 79200 cents in magnitude, for a legal spread and at most 16 voices (R264). -/
theorem voiceOffset_le {spread : Double} (n v : Nat) (hs : fmag spread ≤ 0x40B2C00000000000) (hn : 2 ≤ n)
    (hn16 : n ≤ 16) (hv : v < n) :
    fmag (voiceOffset spread (fdiv spread (ofInt (n - 1 : Nat))) v) ≤ 0x40F3560000000000 := by
  have h1 : fmag (fmul (fneg (lit 1 2)) spread) ≤ 0x40A2C00000000000 :=
    fmul_le 0x3FE0000000000000 _ _ (by decide +kernel) hs (by decide) (by decide) (by decide +kernel)
  obtain ⟨d1, -, d3⟩ := ofInt_spec (n - 1 : Nat) (by omega)
  have hge : 0x3FF0000000000000 ≤ fmag (ofInt (n - 1 : Nat)) := by
    by_contra hc
    have := magUnits_mono 52 (fmag (ofInt (n - 1 : Nat)) + 1) 0x3FF0000000000000 (by omega)
    have hlt : funits (ofInt (n - 1 : Nat)) < funits fone := by
      rw [funits_fone, ← magUnits_fone]
      refine Nat.lt_of_le_of_ne (magUnits_mono 52 _ _ (by omega)) fun e => ?_
      have r1 := roundMag_exact 52 inf64 (fmag (ofInt (n - 1 : Nat))) 1 (by decide)
        (by have := d1; simp only [isFinite, decide_eq_true_eq] at this; omega)
      have r2 := roundMag_exact 52 inf64 0x3FF0000000000000 1 (by decide) (by decide)
      have e' : magUnits 52 (fmag (ofInt (n - 1 : Nat))) = magUnits 52 0x3FF0000000000000 := e
      rw [e', r2] at r1
      omega
    rw [funits_fone, d3] at hlt
    have : 1 * one64Units ≤ (n - 1) * one64Units := Nat.mul_le_mul_right _ (by omega)
    simp at hlt
    omega
  have h2 : fmag (fdiv spread (ofInt (n - 1 : Nat))) ≤ 0x40B2C00000000000 :=
    fdiv_le _ _ _ hs hge d1 (by decide) (by decide) (by decide +kernel)
  have hvv : fmag (ofInt v) ≤ 0x4030000000000000 := by
    have hv16 : v < 16 := by omega
    interval_cases v <;> decide +kernel
  have h3 : fmag (fmul (ofInt v) (fdiv spread (ofInt (n - 1 : Nat)))) ≤ 0x40F2C00000000000 :=
    fmul_le _ _ _ hvv h2 (by decide) (by decide) (by decide +kernel)
  exact fadd_le _ _ _ h1 h3 (by decide) (by decide) (by decide +kernel)

end Sys2Proof.Machine
end

