-- ==== Sys2Proof/Laws/Coefficients.lean ====
section
/-! SUPPORT. The ADSR coefficients are never NaN and lie where R404 puts them. -/

namespace Sys2Proof.Machine

set_option Elab.async false

/-- The argument of LOG in `Coef` (R403). -/
def coefArg (r : Double) : Double := fdiv (fadd fone r) r

/-- A value between two positive ones is positive and finite, with magnitude between theirs. -/
theorem positive_of_between {x lo hi : Double} (h : Between lo x hi) (hlo : fsign lo = false) (h0 : 0 < fmag lo)
    (hhi : fsign hi = false) : fsign x = false ∧ fmag lo ≤ fmag x ∧ fmag x ≤ fmag hi := by
  have h1 := fkey_le_of_fle h.1
  have h2 := fkey_le_of_fle h.2
  rw [fkey_of_nonneg hlo] at h1
  rw [fkey_of_nonneg hhi] at h2
  unfold fkey at h1 h2
  cases hs : fsign x
  · simp only [hs, Bool.false_eq_true, if_false] at h1 h2
    exact ⟨rfl, by omega, by omega⟩
  · simp only [hs, if_true] at h1 h2
    omega

/-- The two target ratios a coefficient is computed with (R401). -/
def IsRatio (r : Double) : Prop := r = ratioAttack ∨ r = ratioDecayRelease

/-- LOG of a coefficient argument lies in [1, 8], for an argument in [4, 1024]. -/
theorem log64_between {x : Double} (hf : isFinite x = true) (h1 : 4 ≤ fval x) (h2 : fval x ≤ 1024) :
    Between fone (log64 x) (ofInt 8) := by
  have hx := not_isNaN_of_isFinite hf
  have h0 : flt fzero x = true := by
    rw [flt_iff isNaN_fzero hx, fval_zero (by decide)]
    linarith
  have h3 := log64_spec.faithful x hf h0
  have g1 : ((4 : ℚ) : ℝ) ≤ fval x := Rat.cast_le.2 h1
  have g2 : ((fval x : ℚ) : ℝ) ≤ ((1024 : ℚ) : ℝ) := Rat.cast_le.2 h2
  have l1 := Real.log_two_gt_d9
  have l2 := Real.log_two_lt_d9
  push_cast at g1 g2
  have v1 : Real.log (2 ^ 2) ≤ Real.log (fval x) := Real.log_le_log (by norm_num) (by linarith)
  have v2 : Real.log (fval x) ≤ Real.log (2 ^ 10) := Real.log_le_log (by linarith) (by linarith)
  rw [Real.log_pow] at v1 v2
  push_cast at v1 v2
  generalize Real.log (fval x) = v at h3 v1 v2
  have hv : |v| = v := abs_of_pos (by linarith)
  have he := h3.err (by rw [hv]; linarith [thousand_lt_max])
  have ht := tiny_le
  have hb : (1 : ℝ) ≤ fval (log64 x) ∧ (fval (log64 x) : ℝ) ≤ 8 := by
    rw [hv] at he
    obtain ⟨e1, e2⟩ := abs_le.1 he
    have hmax : max v |(fval (log64 x) : ℝ)| ≤ v + |(fval (log64 x) : ℝ)| :=
      max_le (by linarith [abs_nonneg (fval (log64 x) : ℝ)]) (by linarith)
    norm_num at ht e1 e2
    rcases abs_cases (fval (log64 x) : ℝ) with ⟨ha, -⟩ | ⟨ha, -⟩ <;> rw [ha] at hmax e1 e2 <;>
      constructor <;> linarith
  have c1 : (1 : ℚ) ≤ fval (log64 x) := by exact_mod_cast hb.1
  have c2 : fval (log64 x) ≤ 8 := by exact_mod_cast hb.2
  have e8 : fval (ofInt 8) = 8 := by
    rw [fval_ofInt _ (by decide)]
    norm_num
  exact ⟨fle_of_fval isNaN_fone h3.1 (by rw [fval_fone]; exact c1),
    fle_of_fval h3.1 (isNaN_ofInt _) (by rw [e8]; exact c2)⟩

theorem log64_ratio {r : Double} (h : IsRatio r) :
    fsign (log64 (coefArg r)) = false ∧ fmag fone ≤ fmag (log64 (coefArg r)) ∧
      fmag (log64 (coefArg r)) ≤ fmag (ofInt 8) := by
  have hb : Between fone (log64 (coefArg r)) (ofInt 8) := by
    rcases h with rfl | rfl <;> exact log64_between (by decide +kernel) (by decide +kernel) (by decide +kernel)
  exact positive_of_between hb (by decide) (by decide) (by decide +kernel)

/-- The duration is never NaN and at least EPS (R402). -/
theorem rate_spec (tm : Word) (sr : Double) :
    isNaN (rate tm sr) = false ∧ fsign (rate tm sr) = false ∧ fmag adsrEps ≤ fmag (rate tm sr) := by
  have h : fle adsrEps (rate tm sr) = true := fle_fmax _ _ (by decide +kernel)
  have hk := fkey_le_of_fle h
  have he : fsign adsrEps = false := by decide +kernel
  have h0 : 0 < fmag adsrEps := by decide +kernel
  rw [fkey_of_nonneg he] at hk
  refine ⟨not_nan_of_fle_right h, ?_⟩
  unfold fkey at hk
  cases hs : fsign (rate tm sr)
  · simp only [hs, Bool.false_eq_true, if_false] at hk
    exact ⟨rfl, by omega⟩
  · simp only [hs, if_true] at hk
    omega

/-- The argument of EXP in `Coef` is no NaN and at most zero (R404). -/
theorem coef_argument {r n : Double} (hr : IsRatio r) (hn : isNaN n = false) (hs : fsign n = false)
    (h0 : 0 < fmag n) :
    isNaN (fdiv (fneg (log64 (coefArg r))) n) = false ∧ fsign (fdiv (fneg (log64 (coefArg r))) n) = true := by
  obtain ⟨l1, -, l3⟩ := log64_ratio hr
  have hf : isFinite (fneg (log64 (coefArg r))) = true := by
    rw [isFinite_fneg]
    exact isFinite_of_le l3 (by decide +kernel)
  refine ⟨isNaN_fdiv hf hn h0, ?_⟩
  have hsf : fsign (fneg (log64 (coefArg r))) = true := by rw [fsign_fneg, l1]; rfl
  have hnf := not_isNaN_of_isFinite hf
  have hif := not_isInf_of_isFinite hf
  have hz : isZero n = false := by simp only [isZero, decide_eq_false_iff_not]; omega
  simp only [fdiv, hnf, hn, hif, hz, hsf, hs, Bool.or_false, Bool.false_eq_true, if_false]
  split
  · exact fsign_pack64_zero _
  · exact fsign_round64 _ _ _

/-- A coefficient lies in [0, 1] (R404). -/
theorem coef_range {r n : Double} (hr : IsRatio r) (hn : isNaN n = false) (hs : fsign n = false)
    (h0 : 0 < fmag n) : Between fzero (coef n r) fone := by
  obtain ⟨h1, h2⟩ := coef_argument hr hn hs h0
  refine exp64_spec.range _ ((fle_iff h1 isNaN_fzero).2 ?_)
  unfold fkey
  rw [h2, fsign_fzero, fmag_fzero]
  simp

theorem coef_rate_range {r : Double} (hr : IsRatio r) (tm : Word) (sr : Double) :
    Between fzero (coef (rate tm sr) r) fone := by
  obtain ⟨h1, h2, h3⟩ := rate_spec tm sr
  exact coef_range hr h1 h2 (Nat.lt_of_lt_of_le (by decide +kernel) h3)

/-- A zero-time coefficient is +0 (R404). -/
theorem coef_eps {r : Double} (hr : IsRatio r) : coef adsrEps r = fzero := by
  obtain ⟨l1, l2, l3⟩ := log64_ratio hr
  have hf : isFinite (fneg (log64 (coefArg r))) = true := by
    rw [isFinite_fneg]
    exact isFinite_of_le l3 (by decide +kernel)
  obtain ⟨h1, h2⟩ := coef_argument hr (n := adsrEps) (by decide +kernel) (by decide +kernel) (by decide +kernel)
  have hm := le_fmag_fdiv (fmag (fone)) (fmag adsrEps) hf (y := adsrEps) (by decide +kernel)
    (by decide +kernel) (by rw [fmag_fneg]; exact l2) (Nat.le_refl _)
  have hb : fmag (ofInt (-1000)) ≤
      roundMag 52 inf64 (magUnits 52 (fmag (fone)) * one64Units) (magUnits 52 (fmag adsrEps)) := by
    decide +kernel
  refine exp64_spec.underflow _ ?_
  have h4 : fsign (ofInt (-1000)) = true := by decide +kernel
  show fle (fdiv (fneg (log64 (coefArg r))) adsrEps) (ofInt (-1000)) = true
  simp only [fle, fkey, h1, h2, h4, isNaN_ofInt, if_true, Bool.not_false, Bool.true_and, decide_eq_true_eq]
  exact Int.neg_le_neg (Int.ofNat_le.2 (Nat.le_trans hb hm))

/-- A coefficient is below 1 for a duration of at most 2^50 samples (R404, R417). -/
theorem coef_lt_one {r n : Double} (hr : IsRatio r) (hs : fsign n = false) (h0 : 0 < fmag n)
    (hn : fmag n ≤ 0x4310000000000000) : flt (coef n r) fone = true := by
  have fn : isFinite n = true := isFinite_of_le hn (by decide)
  obtain ⟨l1, l2, l3⟩ := log64_ratio hr
  have hf : isFinite (fneg (log64 (coefArg r))) = true := by
    rw [isFinite_fneg]
    exact isFinite_of_le l3 (by decide +kernel)
  obtain ⟨h1, h2⟩ := coef_argument hr (not_isNaN_of_isFinite fn) hs h0
  have hm := le_fmag_fdiv (fmag fone) 0x4310000000000000 hf fn h0 (by rw [fmag_fneg]; exact l2) hn
  have hb : fmag 0xBCD0000000000000 ≤
      roundMag 52 inf64 (magUnits 52 (fmag fone) * one64Units) (magUnits 52 0x4310000000000000) := by
    decide +kernel
  refine exp64_lt_one h1 ?_
  have hle : fle (fdiv (fneg (log64 (coefArg r))) n) 0xBCD0000000000000 = true := by
    rw [fle_iff h1 (by decide)]
    unfold fkey
    rw [h2, if_pos rfl, if_pos (by decide)]
    exact Int.neg_le_neg (Int.ofNat_le.2 (Nat.le_trans hb hm))
  refine (fval_of_fle hle).trans ?_
  decide +kernel

theorem coef_rate_lt_one {r : Double} (hr : IsRatio r) (tm : Word) (sr : Double)
    (h : fle (rate tm sr) (ofInt 1125899906842624) = true) : flt (coef (rate tm sr) r) fone = true := by
  obtain ⟨-, h2, h3⟩ := rate_spec tm sr
  have hk := fkey_le_of_fle h
  have e : fkey (ofInt 1125899906842624) = 0x4310000000000000 := by decide +kernel
  rw [e, fkey_of_nonneg h2] at hk
  exact coef_lt_one hr h2 (Nat.lt_of_lt_of_le (by decide +kernel) h3) (by omega)

/-- The three durations after reset are 480 samples (R417). -/
theorem rate_reset : fle (rate 0x3C23D70A (widen 0x473B8000)) (ofInt 1125899906842624) = true := by decide +kernel

/-- An infinite-time coefficient is 1 (R404). -/
theorem coef_inf {r : Double} (hr : IsRatio r) : coef 0x7FF0000000000000 r = fone := by
  obtain ⟨l1, -, l3⟩ := log64_ratio hr
  have hf : isFinite (fneg (log64 (coefArg r))) = true := by
    rw [isFinite_fneg]
    exact isFinite_of_le l3 (by decide +kernel)
  have hn : isNaN (0x7FF0000000000000 : Double) = false := by decide
  have hi : isInf (0x7FF0000000000000 : Double) = true := by decide
  have e : ∀ b, fdiv (fneg (log64 (coefArg r))) 0x7FF0000000000000
      = pack64 (fsign (fneg (log64 (coefArg r))) != b) 0 → coef 0x7FF0000000000000 r = fone := by
    intro b he
    show exp64 (fdiv (fneg (log64 (coefArg r))) 0x7FF0000000000000) = fone
    rw [he]
    simp [exp64, isZero]
  refine e (fsign 0x7FF0000000000000) ?_
  simp only [fdiv, not_isNaN_of_isFinite hf, hn, not_isInf_of_isFinite hf, hi, Bool.or_false, Bool.false_eq_true,
    if_false, if_true]

/-! ### the coefficients of R403, one by one -/

theorem coefficients_attackCoef (sr sus a d r : Word) :
    (coefficients sr sus a d r).attackCoef = coef (rate a (widen sr)) ratioAttack := by simp only [coefficients]

theorem coefficients_decayCoef (sr sus a d r : Word) :
    (coefficients sr sus a d r).decayCoef = coef (rate d (widen sr)) ratioDecayRelease := by simp only [coefficients]

theorem coefficients_releaseCoef (sr sus a d r : Word) :
    (coefficients sr sus a d r).releaseCoef = coef (rate r (widen sr)) ratioDecayRelease := by
  simp only [coefficients]

theorem coefficients_attackBase (sr sus a d r : Word) :
    (coefficients sr sus a d r).attackBase
      = fmul (fadd fone ratioAttack) (fsub fone (coef (rate a (widen sr)) ratioAttack)) := by simp only [coefficients]

theorem coefficients_decayBase (sr sus a d r : Word) :
    (coefficients sr sus a d r).decayBase
      = fmul (fsub (widen sus) ratioDecayRelease) (fsub fone (coef (rate d (widen sr)) ratioDecayRelease)) := by
  simp only [coefficients]

theorem coefficients_releaseBase (sr sus a d r : Word) :
    (coefficients sr sus a d r).releaseBase
      = fmul (fneg ratioDecayRelease) (fsub fone (coef (rate r (widen sr)) ratioDecayRelease)) := by
  simp only [coefficients]

/-! ### storing the coefficients -/

/-- What `storeCoefficients` does when no coefficient is a NaN. -/
theorem storeCoefficients_of_not_nan (c : Coefficients) (draws : Nat) (h1 : isNaN c.attackCoef = false)
    (h2 : isNaN c.attackBase = false) (h3 : isNaN c.decayCoef = false) (h4 : isNaN c.decayBase = false)
    (h5 : isNaN c.releaseCoef = false) (h6 : isNaN c.releaseBase = false) :
    storeCoefficients c draws = (c, draws) := by
  simp [storeCoefficients, h1, h2, h3, h4, h5, h6]

/-- A value in [0, 1] is finite, with magnitude at most that of 1. -/
theorem unit_spec {x : Double} (h : Between fzero x fone) : isFinite x = true ∧ fmag x ≤ 0x3FF0000000000000 := by
  have hm := fmag_le_of_unit h.1 h.2
  exact ⟨isFinite_of_le hm (by decide), hm⟩

/-- A base is finite: the product of a finite factor below 2 and one minus a coefficient. -/
theorem isNaN_base {k c : Double} (hk : fmag k ≤ 0x4000000000000000) (hc : Between fzero c fone) :
    isNaN (fmul k (fsub fone c)) = false := by
  obtain ⟨-, hm⟩ := unit_spec hc
  have h1 : fmag (fsub fone c) ≤ 0x4000000000000000 :=
    fadd_le 0x3FF0000000000000 0x3FF0000000000000 _ (by decide) (by rw [fmag_fneg]; exact hm) (by decide) (by decide)
      (by decide +kernel)
  exact isNaN_fmul (isFinite_of_le hk (by decide)) (isFinite_of_le h1 (by decide))

/-- With a legal sustain level no coefficient is a NaN, so a recompute stores them as computed (R404). -/
theorem storeCoefficients_pure (sr sus a d r : Word) (h : Between fzero (widen sus) fone) (draws : Nat) :
    storeCoefficients (coefficients sr sus a d r) draws = (coefficients sr sus a d r, draws) := by
  have hA : IsRatio ratioAttack := .inl rfl
  have hD : IsRatio ratioDecayRelease := .inr rfl
  have hs : fmag (fsub (widen sus) ratioDecayRelease) ≤ 0x4000000000000000 :=
    fadd_le 0x3FF0000000000000 0x3FF0000000000000 _ (unit_spec h).2
      (by rw [fmag_fneg]; decide +kernel) (by decide) (by decide) (by decide +kernel)
  have hn : ∀ {x}, Between fzero x fone → isNaN x = false := fun hx => not_nan_of_fle_left hx.2
  apply storeCoefficients_of_not_nan
  · rw [coefficients_attackCoef]; exact hn (coef_rate_range hA _ _)
  · rw [coefficients_attackBase]; exact isNaN_base (by decide +kernel) (coef_rate_range hA _ _)
  · rw [coefficients_decayCoef]; exact hn (coef_rate_range hD _ _)
  · rw [coefficients_decayBase]; exact isNaN_base hs (coef_rate_range hD _ _)
  · rw [coefficients_releaseCoef]; exact hn (coef_rate_range hD _ _)
  · rw [coefficients_releaseBase]; exact isNaN_base (by decide +kernel) (coef_rate_range hD _ _)

/-- With a legal sustain level a recompute puts the coefficients of the registers in place and changes nothing
else (R403, R405). -/
theorem recompute_eq (s : State) (h : Between fzero (widen s.adsr.sustainLevel) fone) :
    recompute s = { s with adsr := { s.adsr with
      coefs := coefficients s.sampleRate s.adsr.sustainLevel s.adsr.attackTime s.adsr.decayTime
        s.adsr.releaseTime } } := by
  simp only [recompute, storeCoefficients_pure _ _ _ _ _ h]

end Sys2Proof.Machine
end

