-- ==== Sys2Proof/Laws/Exec.lean ====
section
/-! SUPPORT. exec and step said once: PROCESS unit by unit, and what a property must be kept by so that every
instruction and every step keeps it. -/

namespace Sys2Proof.Machine

theorem exec_init (u : UnitId) (s : State) : exec u.initCmd s = .next (initUnit u s) := by cases u <;> rfl

theorem exec_reset (u : UnitId) (s : State) : exec u.resetCmd s = .next (resetDynamic u s) := by cases u <;> rfl

theorem exec_process (u : UnitId) (n : Nat) (s : State) :
    exec (u.processCmd n) s = .next (process u (unitFrame u) n s) := by cases u <;> rfl

theorem exec_initAll (s : State) :
    exec .initAll s = .next (initUnit .adsr (initUnit .mlf (initUnit .pbo (initUnit .wto s)))) := rfl

theorem exec_resetAll (s : State) :
    exec .resetAll s = .next (resetDynamic .adsr (resetDynamic .mlf (resetDynamic .pbo (resetDynamic .wto s)))) := rfl

/-- The condition of R202's third branch. -/
theorem ready_eq (u : UnitId) (s : State) : u.ready s = (s.status.init u && inputConnected u s) := by
  cases u <;> simp [UnitId.ready, Status.init, inputConnected]

theorem withNonsilent_eq (st : Status) (u : UnitId) (b : Bool) : st.setNonsilent u b = st.withNonsilent u b := by
  cases u <;> rfl

/-- The four branches of R202. -/
theorem process_cases (u : UnitId) (f : Nat → State → State) (n : Nat) (s : State) :
    (128 < n ∧ process u f n s = markNonsilent u false (silence u 128 (raiseError .len s))) ∨
    (n = 0 ∧ process u f n s = markNonsilent u false s) ∨
    (0 < n ∧ n ≤ 128 ∧ u.ready s = false ∧ process u f n s = markNonsilent u false (silence u n s)) ∨
    (0 < n ∧ n ≤ 128 ∧ u.ready s = true ∧ process u f n s = markNonsilent u true (frames f n s)) := by
  have hb : Config.bufLen = 128 := rfl
  simp only [process, hb, ready_eq]
  by_cases h1 : 128 < n
  · exact .inl ⟨h1, by rw [if_pos h1]⟩
  · rw [if_neg h1]
    by_cases h2 : n = 0
    · exact .inr (.inl ⟨h2, by rw [if_pos h2]⟩)
    · rw [if_neg h2]
      cases h3 : (s.status.init u && inputConnected u s)
      · exact .inr (.inr (.inl ⟨by omega, by omega, rfl, by simp⟩))
      · exact .inr (.inr (.inr ⟨by omega, by omega, rfl, by simp⟩))

/-- A property every frame keeps is kept by the loop. -/
theorem frames_preserves (P : State → Prop) (f : Nat → State → State) (h : ∀ i s, P s → P (f i s)) (n : Nat)
    (s : State) (hs : P s) : P (frames f n s) := by
  induction n with
  | zero => exact hs
  | succ n ih => exact h n _ ih

/-- What a property must be kept by so that every instruction keeps it. -/
structure Kept (P : State → Prop) : Prop where
  read : ∀ s x d, P s → P { s with readData := x, draws := d }
  raise : ∀ e s, P s → P (raiseError e s)
  write : ∀ v l s, l ≠ .cmd → P s → P (writeLoc v s l)
  init : ∀ u s, P s → P (initUnit u s)
  reset : ∀ u s, P s → P (resetDynamic u s)
  mark : ∀ u b s, P s → P (markNonsilent u b s)
  silent : ∀ (u : UnitId) i s, P s → P (s.putWord (ramAddr u.out i) 0x00000000)
  frame : ∀ u i s, P s → P (unitFrame u i s)

theorem Kept.process {P : State → Prop} (h : Kept P) (u : UnitId) (n : Nat) (s : State) (hs : P s) :
    P (process u (unitFrame u) n s) := by
  have sil : ∀ m t, P t → P (silence u m t) := fun m t ht => frames_preserves P _ (fun i s => h.silent u i s) m t ht
  rcases process_cases u (unitFrame u) n s with ⟨-, e⟩ | ⟨-, e⟩ | ⟨-, -, -, e⟩ | ⟨-, -, -, e⟩ <;> rw [e]
  · exact h.mark _ _ _ (sil _ _ (h.raise _ _ hs))
  · exact h.mark _ _ _ hs
  · exact h.mark _ _ _ (sil _ _ hs)
  · exact h.mark _ _ _ (frames_preserves P _ (fun i s => h.frame u i s) n s hs)

/-- Every command keeps a kept property. -/
theorem Kept.command {P : State → Prop} (h : Kept P) (i : Instr) (h1 : ∀ a, i ≠ .busRead a)
    (h2 : ∀ a v, i ≠ .busWrite a v) (s t : State) (hs : P s) (he : exec i s = .next t) : P t := by
  have proc : ∀ (u : UnitId) n, exec (u.processCmd n) s = .next t → P t := by
    intro u n e
    rw [exec_process] at e
    cases e
    exact h.process u n s hs
  cases i with
  | busRead a => exact absurd rfl (h1 a)
  | busWrite a v => exact absurd rfl (h2 a v)
  | nop => cases he; exact hs
  | initAll => cases he; exact h.init _ _ (h.init _ _ (h.init _ _ (h.init _ _ hs)))
  | resetAll => cases he; exact h.reset _ _ (h.reset _ _ (h.reset _ _ (h.reset _ _ hs)))
  | wtoInit => cases he; exact h.init _ _ hs
  | pboInit => cases he; exact h.init _ _ hs
  | mlfInit => cases he; exact h.init _ _ hs
  | adsrInit => cases he; exact h.init _ _ hs
  | wtoReset => cases he; exact h.reset _ _ hs
  | pboReset => cases he; exact h.reset _ _ hs
  | mlfReset => cases he; exact h.reset _ _ hs
  | adsrReset => cases he; exact h.reset _ _ hs
  | wtoProcess n => exact proc .wto n he
  | pboProcess n => exact proc .pbo n he
  | mlfProcess n => exact proc .mlf n he
  | adsrProcess n => exact proc .adsr n he

/-- Every instruction keeps a kept property. -/
theorem Kept.exec {P : State → Prop} (h : Kept P) (i : Instr) (s t : State) (hs : P s) (he : exec i s = .next t) :
    P t := by
  cases i with
  | busRead a =>
    change execBusRead a s = .next t at he
    by_cases h4 : a.toNat % 4 = 0
    · rcases hl : locate a.toNat with _ | l
      · rw [execBusRead_unmapped a s h4 hl] at he
        cases he
        exact h.read _ _ s.draws (h.raise _ _ hs)
      · rw [execBusRead_mapped a s l h4 hl] at he
        cases he
        exact h.read _ _ _ hs
    · rw [execBusRead_misaligned a s h4] at he
      cases he
      exact h.read _ _ s.draws (h.raise _ _ hs)
  | busWrite a v =>
    change execBusWrite a v s = .next t at he
    rcases execBusWrite_cases a v s with ⟨-, e⟩ | ⟨-, -, e⟩ | ⟨l, -, -, hc, e⟩ | ⟨x, -, -, e⟩ | ⟨i, -, hd, e⟩ <;>
      rw [e] at he
    · cases he; exact h.raise _ _ hs
    · cases he; exact h.raise _ _ hs
    · cases he; exact h.write _ _ _ hc hs
    · cases he; exact h.raise _ _ hs
    · exact h.command i (decodeCommand_isCommand v i hd).1 (decodeCommand_isCommand v i hd).2 s t hs he
  | _ =>
    refine h.command _ ?_ ?_ s t hs he
    · intro a e
      cases e
    · intro a v e
      cases e

/-- Every step keeps a kept property that holds after reset and does not look at what the host has issued. -/
theorem Kept.step {P : State → Prop} (h : Kept P) (hi : ∀ s q, P s → P { s with inbox := q })
    (hr : ∀ s, P s → P (hardwareReset s)) (s t : State) (hs : P s) (he : step s = .next t) : P t := by
  unfold Machine.step at he
  split at he
  · cases he; exact hs
  · exact h.exec _ _ _ (hi _ _ hs) he
  · cases he; exact hr _ (hi _ _ hs)

/-- What an instruction answers is always a next state (R193, R450). -/
theorem exec_next (i : Instr) (s : State) : ∃ t, exec i s = .next t := by
  have cmd : ∀ i : Instr, (∀ a, i ≠ .busRead a) → (∀ a v, i ≠ .busWrite a v) → ∃ t, exec i s = .next t := by
    intro i h1 h2
    cases i <;> first | exact ⟨_, rfl⟩ | exact absurd rfl (h2 _ _)
  cases i with
  | busRead a => exact ⟨_, rfl⟩
  | busWrite a v =>
    change ∃ t, execBusWrite a v s = .next t
    rcases execBusWrite_cases a v s with ⟨-, e⟩ | ⟨-, -, e⟩ | ⟨l, -, -, hc, e⟩ | ⟨x, -, -, e⟩ | ⟨i, -, hd, e⟩
    · exact ⟨_, e⟩
    · exact ⟨_, e⟩
    · exact ⟨_, e⟩
    · exact ⟨_, e⟩
    · rw [e]
      exact cmd i (decodeCommand_isCommand v i hd).1 (decodeCommand_isCommand v i hd).2
  | _ => exact ⟨_, rfl⟩

end Sys2Proof.Machine
end

