-- ==== Sys2Proof/Laws/State.lean ====
section
/-! SUPPORT. What each named operation does to each field of State: one lemma per field, so that no proof unfolds a
record update. -/

namespace Sys2Proof.Machine

/-! A RAM write changes memory only. -/

@[simp] theorem State.putWord_sampleRate (a : Nat) (v : Word) (s : State) : (s.putWord a v).sampleRate = s.sampleRate := rfl
@[simp] theorem State.putWord_status (a : Nat) (v : Word) (s : State) : (s.putWord a v).status = s.status := rfl
@[simp] theorem State.putWord_wto (a : Nat) (v : Word) (s : State) : (s.putWord a v).wto = s.wto := rfl
@[simp] theorem State.putWord_pbo (a : Nat) (v : Word) (s : State) : (s.putWord a v).pbo = s.pbo := rfl
@[simp] theorem State.putWord_mlf (a : Nat) (v : Word) (s : State) : (s.putWord a v).mlf = s.mlf := rfl
@[simp] theorem State.putWord_adsr (a : Nat) (v : Word) (s : State) : (s.putWord a v).adsr = s.adsr := rfl
@[simp] theorem State.putWord_numTables (a : Nat) (v : Word) (s : State) : (s.putWord a v).numTables = s.numTables := rfl
@[simp] theorem State.putWord_topFreq (a : Nat) (v : Word) (s : State) : (s.putWord a v).topFreq = s.topFreq := rfl
@[simp] theorem State.putWord_mem (a : Nat) (v : Word) (s : State) : (s.putWord a v).mem = s.mem.setWord a v := rfl
@[simp] theorem State.putWord_inbox (a : Nat) (v : Word) (s : State) : (s.putWord a v).inbox = s.inbox := rfl
@[simp] theorem State.putWord_readData (a : Nat) (v : Word) (s : State) : (s.putWord a v).readData = s.readData := rfl
@[simp] theorem State.putWord_draws (a : Nat) (v : Word) (s : State) : (s.putWord a v).draws = s.draws := rfl

/-! An output frame changes memory and, for a NaN, the draws. -/

@[simp] theorem State.putFrame_sampleRate (r : SampleRam) (i : Nat) (y : Double) (s : State) : (s.putFrame r i y).sampleRate = s.sampleRate := rfl
@[simp] theorem State.putFrame_status (r : SampleRam) (i : Nat) (y : Double) (s : State) : (s.putFrame r i y).status = s.status := rfl
@[simp] theorem State.putFrame_wto (r : SampleRam) (i : Nat) (y : Double) (s : State) : (s.putFrame r i y).wto = s.wto := rfl
@[simp] theorem State.putFrame_pbo (r : SampleRam) (i : Nat) (y : Double) (s : State) : (s.putFrame r i y).pbo = s.pbo := rfl
@[simp] theorem State.putFrame_mlf (r : SampleRam) (i : Nat) (y : Double) (s : State) : (s.putFrame r i y).mlf = s.mlf := rfl
@[simp] theorem State.putFrame_adsr (r : SampleRam) (i : Nat) (y : Double) (s : State) : (s.putFrame r i y).adsr = s.adsr := rfl
@[simp] theorem State.putFrame_numTables (r : SampleRam) (i : Nat) (y : Double) (s : State) : (s.putFrame r i y).numTables = s.numTables := rfl
@[simp] theorem State.putFrame_topFreq (r : SampleRam) (i : Nat) (y : Double) (s : State) : (s.putFrame r i y).topFreq = s.topFreq := rfl
@[simp] theorem State.putFrame_mem (r : SampleRam) (i : Nat) (y : Double) (s : State) : (s.putFrame r i y).mem = s.mem.setWord (ramAddr r i) (storeSample y s.draws).1 := rfl
@[simp] theorem State.putFrame_inbox (r : SampleRam) (i : Nat) (y : Double) (s : State) : (s.putFrame r i y).inbox = s.inbox := rfl
@[simp] theorem State.putFrame_readData (r : SampleRam) (i : Nat) (y : Double) (s : State) : (s.putFrame r i y).readData = s.readData := rfl
@[simp] theorem State.putFrame_draws (r : SampleRam) (i : Nat) (y : Double) (s : State) : (s.putFrame r i y).draws = (storeSample y s.draws).2 := rfl

/-! An error changes STATUS only (R451). -/

@[simp] theorem raiseError_sampleRate (e : ErrCode) (s : State) : (raiseError e s).sampleRate = s.sampleRate := rfl
@[simp] theorem raiseError_status (e : ErrCode) (s : State) : (raiseError e s).status = s.status.raise e := rfl
@[simp] theorem raiseError_wto (e : ErrCode) (s : State) : (raiseError e s).wto = s.wto := rfl
@[simp] theorem raiseError_pbo (e : ErrCode) (s : State) : (raiseError e s).pbo = s.pbo := rfl
@[simp] theorem raiseError_mlf (e : ErrCode) (s : State) : (raiseError e s).mlf = s.mlf := rfl
@[simp] theorem raiseError_adsr (e : ErrCode) (s : State) : (raiseError e s).adsr = s.adsr := rfl
@[simp] theorem raiseError_numTables (e : ErrCode) (s : State) : (raiseError e s).numTables = s.numTables := rfl
@[simp] theorem raiseError_topFreq (e : ErrCode) (s : State) : (raiseError e s).topFreq = s.topFreq := rfl
@[simp] theorem raiseError_mem (e : ErrCode) (s : State) : (raiseError e s).mem = s.mem := rfl
@[simp] theorem raiseError_inbox (e : ErrCode) (s : State) : (raiseError e s).inbox = s.inbox := rfl
@[simp] theorem raiseError_readData (e : ErrCode) (s : State) : (raiseError e s).readData = s.readData := rfl
@[simp] theorem raiseError_draws (e : ErrCode) (s : State) : (raiseError e s).draws = s.draws := rfl

/-! A STATUS write changes STATUS only. -/

@[simp] theorem clearErrors_sampleRate (v : Word) (s : State) : (clearErrors v s).sampleRate = s.sampleRate := rfl
@[simp] theorem clearErrors_status (v : Word) (s : State) : (clearErrors v s).status = s.status.clear v := rfl
@[simp] theorem clearErrors_wto (v : Word) (s : State) : (clearErrors v s).wto = s.wto := rfl
@[simp] theorem clearErrors_pbo (v : Word) (s : State) : (clearErrors v s).pbo = s.pbo := rfl
@[simp] theorem clearErrors_mlf (v : Word) (s : State) : (clearErrors v s).mlf = s.mlf := rfl
@[simp] theorem clearErrors_adsr (v : Word) (s : State) : (clearErrors v s).adsr = s.adsr := rfl
@[simp] theorem clearErrors_numTables (v : Word) (s : State) : (clearErrors v s).numTables = s.numTables := rfl
@[simp] theorem clearErrors_topFreq (v : Word) (s : State) : (clearErrors v s).topFreq = s.topFreq := rfl
@[simp] theorem clearErrors_mem (v : Word) (s : State) : (clearErrors v s).mem = s.mem := rfl
@[simp] theorem clearErrors_inbox (v : Word) (s : State) : (clearErrors v s).inbox = s.inbox := rfl
@[simp] theorem clearErrors_readData (v : Word) (s : State) : (clearErrors v s).readData = s.readData := rfl
@[simp] theorem clearErrors_draws (v : Word) (s : State) : (clearErrors v s).draws = s.draws := rfl

/-! A recompute changes the coefficients, and the draws for a NaN no run produces (R405). -/

@[simp] theorem recompute_sampleRate (s : State) : (recompute s).sampleRate = s.sampleRate := by simp only [recompute]
@[simp] theorem recompute_status (s : State) : (recompute s).status = s.status := by simp only [recompute]
@[simp] theorem recompute_wto (s : State) : (recompute s).wto = s.wto := by simp only [recompute]
@[simp] theorem recompute_pbo (s : State) : (recompute s).pbo = s.pbo := by simp only [recompute]
@[simp] theorem recompute_mlf (s : State) : (recompute s).mlf = s.mlf := by simp only [recompute]
@[simp] theorem recompute_numTables (s : State) : (recompute s).numTables = s.numTables := by simp only [recompute]
@[simp] theorem recompute_topFreq (s : State) : (recompute s).topFreq = s.topFreq := by simp only [recompute]
@[simp] theorem recompute_mem (s : State) : (recompute s).mem = s.mem := by simp only [recompute]
@[simp] theorem recompute_inbox (s : State) : (recompute s).inbox = s.inbox := by simp only [recompute]
@[simp] theorem recompute_readData (s : State) : (recompute s).readData = s.readData := by simp only [recompute]

/-! Setting INIT_u changes STATUS only. -/

@[simp] theorem markInit_sampleRate (u : UnitId) (s : State) : (markInit u s).sampleRate = s.sampleRate := rfl
@[simp] theorem markInit_status (u : UnitId) (s : State) : (markInit u s).status = s.status.setInit u := rfl
@[simp] theorem markInit_wto (u : UnitId) (s : State) : (markInit u s).wto = s.wto := rfl
@[simp] theorem markInit_pbo (u : UnitId) (s : State) : (markInit u s).pbo = s.pbo := rfl
@[simp] theorem markInit_mlf (u : UnitId) (s : State) : (markInit u s).mlf = s.mlf := rfl
@[simp] theorem markInit_adsr (u : UnitId) (s : State) : (markInit u s).adsr = s.adsr := rfl
@[simp] theorem markInit_numTables (u : UnitId) (s : State) : (markInit u s).numTables = s.numTables := rfl
@[simp] theorem markInit_topFreq (u : UnitId) (s : State) : (markInit u s).topFreq = s.topFreq := rfl
@[simp] theorem markInit_mem (u : UnitId) (s : State) : (markInit u s).mem = s.mem := rfl
@[simp] theorem markInit_inbox (u : UnitId) (s : State) : (markInit u s).inbox = s.inbox := rfl
@[simp] theorem markInit_readData (u : UnitId) (s : State) : (markInit u s).readData = s.readData := rfl
@[simp] theorem markInit_draws (u : UnitId) (s : State) : (markInit u s).draws = s.draws := rfl

/-! Setting NONSILENT_u changes STATUS only. -/

@[simp] theorem markNonsilent_sampleRate (u : UnitId) (b : Bool) (s : State) : (markNonsilent u b s).sampleRate = s.sampleRate := rfl
@[simp] theorem markNonsilent_status (u : UnitId) (b : Bool) (s : State) : (markNonsilent u b s).status = s.status.setNonsilent u b := rfl
@[simp] theorem markNonsilent_wto (u : UnitId) (b : Bool) (s : State) : (markNonsilent u b s).wto = s.wto := rfl
@[simp] theorem markNonsilent_pbo (u : UnitId) (b : Bool) (s : State) : (markNonsilent u b s).pbo = s.pbo := rfl
@[simp] theorem markNonsilent_mlf (u : UnitId) (b : Bool) (s : State) : (markNonsilent u b s).mlf = s.mlf := rfl
@[simp] theorem markNonsilent_adsr (u : UnitId) (b : Bool) (s : State) : (markNonsilent u b s).adsr = s.adsr := rfl
@[simp] theorem markNonsilent_numTables (u : UnitId) (b : Bool) (s : State) : (markNonsilent u b s).numTables = s.numTables := rfl
@[simp] theorem markNonsilent_topFreq (u : UnitId) (b : Bool) (s : State) : (markNonsilent u b s).topFreq = s.topFreq := rfl
@[simp] theorem markNonsilent_mem (u : UnitId) (b : Bool) (s : State) : (markNonsilent u b s).mem = s.mem := rfl
@[simp] theorem markNonsilent_inbox (u : UnitId) (b : Bool) (s : State) : (markNonsilent u b s).inbox = s.inbox := rfl
@[simp] theorem markNonsilent_readData (u : UnitId) (b : Bool) (s : State) : (markNonsilent u b s).readData = s.readData := rfl
@[simp] theorem markNonsilent_draws (u : UnitId) (b : Bool) (s : State) : (markNonsilent u b s).draws = s.draws := rfl

/-! A recompute keeps every field of the ADSR but its coefficients (R405). -/

@[simp] theorem recompute_adsr_oneShot (s : State) : (recompute s).adsr.oneShot = s.adsr.oneShot := by simp only [recompute]
@[simp] theorem recompute_adsr_inputConnected (s : State) : (recompute s).adsr.inputConnected = s.adsr.inputConnected := by simp only [recompute]
@[simp] theorem recompute_adsr_paramMode (s : State) : (recompute s).adsr.paramMode = s.adsr.paramMode := by simp only [recompute]
@[simp] theorem recompute_adsr_gate (s : State) : (recompute s).adsr.gate = s.adsr.gate := by simp only [recompute]
@[simp] theorem recompute_adsr_attackTime (s : State) : (recompute s).adsr.attackTime = s.adsr.attackTime := by simp only [recompute]
@[simp] theorem recompute_adsr_attackLevel (s : State) : (recompute s).adsr.attackLevel = s.adsr.attackLevel := by simp only [recompute]
@[simp] theorem recompute_adsr_decayTime (s : State) : (recompute s).adsr.decayTime = s.adsr.decayTime := by simp only [recompute]
@[simp] theorem recompute_adsr_sustainTime (s : State) : (recompute s).adsr.sustainTime = s.adsr.sustainTime := by simp only [recompute]
@[simp] theorem recompute_adsr_sustainLevel (s : State) : (recompute s).adsr.sustainLevel = s.adsr.sustainLevel := by simp only [recompute]
@[simp] theorem recompute_adsr_releaseTime (s : State) : (recompute s).adsr.releaseTime = s.adsr.releaseTime := by simp only [recompute]
@[simp] theorem recompute_adsr_phase (s : State) : (recompute s).adsr.phase = s.adsr.phase := by simp only [recompute]
@[simp] theorem recompute_adsr_releaseCompleted (s : State) : (recompute s).adsr.releaseCompleted = s.adsr.releaseCompleted := by simp only [recompute]
@[simp] theorem recompute_adsr_prevGate (s : State) : (recompute s).adsr.prevGate = s.adsr.prevGate := by simp only [recompute]
@[simp] theorem recompute_adsr_level (s : State) : (recompute s).adsr.level = s.adsr.level := by simp only [recompute]

/-- Conditional recording is recording or nothing. -/
theorem raiseIf_eq (b : Bool) (s : State) :
    raiseIf b s = { s with status := if b then s.status.raise .cfg else s.status } := by
  cases b <;> rfl

/-! A NONSILENT bit and an INIT bit are set without touching the others. -/

@[simp] theorem Status.init_setNonsilent (u w : UnitId) (b : Bool) (st : Status) :
    (st.setNonsilent u b).init w = st.init w := by
  cases u <;> cases w <;> rfl

@[simp] theorem Status.nonsilent_setInit (u w : UnitId) (st : Status) : (st.setInit u).nonsilent w = st.nonsilent w := by
  cases u <;> cases w <;> rfl

@[simp] theorem Status.nonsilent_setNonsilent_self (u : UnitId) (b : Bool) (st : Status) :
    (st.setNonsilent u b).nonsilent u = b := by
  cases u <;> rfl

@[simp] theorem Status.init_setInit_self (u : UnitId) (st : Status) : (st.setInit u).init u = true := by
  cases u <;> rfl

@[simp] theorem Status.init_raise (e : ErrCode) (u : UnitId) (st : Status) : (st.raise e).init u = st.init u := by
  cases e <;> cases u <;> rfl

@[simp] theorem Status.nonsilent_raise (e : ErrCode) (u : UnitId) (st : Status) :
    (st.raise e).nonsilent u = st.nonsilent u := by
  cases e <;> cases u <;> rfl

@[simp] theorem Status.init_clear (v : Word) (u : UnitId) (st : Status) : (st.clear v).init u = st.init u := by
  cases u <;> rfl

@[simp] theorem Status.nonsilent_clear (v : Word) (u : UnitId) (st : Status) :
    (st.clear v).nonsilent u = st.nonsilent u := by
  cases u <;> rfl

end Sys2Proof.Machine
end

