-- ==== Sys2Proof/Laws/Frames.lean ====
section
/-! SUPPORT. The PROCESS loop and its silence branch: what one frame of a unit can change, and what N of them can. -/

namespace Sys2Proof.Machine

/-- The loop of R202 is the fold over the frame numbers in increasing order. -/
theorem frames_eq_foldl (f : Nat → State → State) (n : Nat) (s : State) :
    frames f n s = (List.range n).foldl (fun t i => f i t) s := by
  induction n with
  | zero => rfl
  | succ n ih => rw [List.range_succ, List.foldl_append, ← ih]; rfl

/-- A silence branch writes its words and changes no other byte and nothing else (R204). -/
theorem silence_spec (u : UnitId) (n : Nat) (s : State) :
    ∃ m, silence u n s = { s with mem := m } ∧
      (∀ i, i < n → m.word? (ramAddr u.out i) = some 0x00000000) ∧
      (∀ a, a < ramAddr u.out 0 ∨ ramAddr u.out 0 + 4 * n ≤ a → m.get a = s.mem.get a) := by
  induction n with
  | zero => exact ⟨s.mem, rfl, fun i h => absurd h (by omega), fun _ _ => rfl⟩
  | succ n ih =>
    obtain ⟨m, h1, h2, h3⟩ := ih
    refine ⟨m.setWord (ramAddr u.out n) 0x00000000, ?_, ?_, ?_⟩
    · show State.putWord _ _ (silence u n s) = _
      rw [h1]; rfl
    · intro i hi
      rcases Nat.lt_succ_iff_lt_or_eq.mp hi with h | rfl
      · rw [Memory.word?_setWord_of_ne _ _ _ _ (by simp only [ramAddr]; omega)]
        exact h2 i h
      · exact Memory.word?_setWord _ _ _
    · intro a ha
      simp only [ramAddr] at ha h3 ⊢
      rw [Memory.get_setWord_of_ne _ _ _ _ (by omega)]
      exact h3 a (by omega)

/-- Silence keeps memory canonical. -/
theorem silence_wf (u : UnitId) (n : Nat) (s : State) (h : s.mem.wf = true) : (silence u n s).mem.wf = true :=
  frames_preserves (fun t => t.mem.wf = true) _ (fun _ _ ht => Memory.wf_setWord _ _ _ ht) n s h

/-! ### one frame -/

/-- A frame of a unit writes one word, its output word, and of the rest of the state changes only the unit's state
variables and the draws (R190, R191, R116). -/
theorem unitFrame_frame (u : UnitId) (i : Nat) (s : State) :
    OnlyStateOf u s (unitFrame u i s) ∧ GlobalsKept s (unitFrame u i s) ∧ (unitFrame u i s).status = s.status ∧
      ∃ w, (unitFrame u i s).mem = s.mem.setWord (ramAddr u.out i) w := by
  cases u with
  | wto => exact ⟨⟨rfl, rfl, rfl, rfl⟩, ⟨rfl, rfl, rfl, rfl, rfl⟩, rfl, _, rfl⟩
  | pbo => exact ⟨⟨rfl, rfl, rfl, rfl⟩, ⟨rfl, rfl, rfl, rfl, rfl⟩, rfl, _, rfl⟩
  | mlf =>
    show OnlyStateOf .mlf s (mlfFrame i s) ∧ GlobalsKept s (mlfFrame i s) ∧ (mlfFrame i s).status = s.status ∧
      ∃ w, (mlfFrame i s).mem = s.mem.setWord (ramAddr .mlfOut i) w
    unfold mlfFrame
    split <;> exact ⟨⟨rfl, rfl, rfl, rfl⟩, ⟨rfl, rfl, rfl, rfl, rfl⟩, rfl, _, rfl⟩
  | adsr => exact ⟨⟨rfl, rfl, rfl, rfl⟩, ⟨rfl, rfl, rfl, rfl, rfl⟩, rfl, _, rfl⟩

/-- A frame keeps memory canonical. -/
theorem unitFrame_wf (u : UnitId) (i : Nat) (s : State) (h : s.mem.wf = true) : (unitFrame u i s).mem.wf = true := by
  obtain ⟨-, -, -, w, e⟩ := unitFrame_frame u i s
  rw [e]
  exact Memory.wf_setWord _ _ _ h

/-- Of four units, `OnlyStateOf` steps compose. -/
theorem OnlyStateOf.refl (u : UnitId) (s : State) : OnlyStateOf u s s := by cases u <;> exact ⟨rfl, rfl, rfl, rfl⟩

theorem OnlyStateOf.trans {u : UnitId} {s t r : State} (h : OnlyStateOf u s t) (k : OnlyStateOf u t r) :
    OnlyStateOf u s r := by
  cases u with
  | wto =>
    obtain ⟨a1, a2, a3, a4⟩ := h
    obtain ⟨b1, b2, b3, b4⟩ := k
    refine ⟨?_, b2.trans a2, b3.trans a3, b4.trans a4⟩
    rw [← a1, ← b1]
  | pbo =>
    obtain ⟨a1, a2, a3, a4⟩ := h
    obtain ⟨b1, b2, b3, b4⟩ := k
    refine ⟨b1.trans a1, ?_, b3.trans a3, b4.trans a4⟩
    rw [← a2, ← b2]
  | mlf =>
    obtain ⟨a1, a2, a3, a4⟩ := h
    obtain ⟨b1, b2, b3, b4⟩ := k
    refine ⟨b1.trans a1, b2.trans a2, ?_, b4.trans a4⟩
    rw [← a3, ← b3]
  | adsr =>
    obtain ⟨a1, a2, a3, a4⟩ := h
    obtain ⟨b1, b2, b3, b4⟩ := k
    refine ⟨b1.trans a1, b2.trans a2, b3.trans a3, ?_⟩
    rw [← a4, ← b4]

theorem GlobalsKept.trans {s t r : State} (h : GlobalsKept s t) (k : GlobalsKept t r) : GlobalsKept s r :=
  ⟨k.1.trans h.1, k.2.1.trans h.2.1, k.2.2.1.trans h.2.2.1, k.2.2.2.1.trans h.2.2.2.1, k.2.2.2.2.trans h.2.2.2.2⟩

/-- N frames of a unit: every output frame below N is written, no other byte changes, and the rest as for one frame
(R205). -/
theorem frames_unitFrame (u : UnitId) (n : Nat) (s : State) :
    OnlyStateOf u s (frames (unitFrame u) n s) ∧ GlobalsKept s (frames (unitFrame u) n s) ∧
      (frames (unitFrame u) n s).status = s.status ∧ OnlyFrames u n s (frames (unitFrame u) n s) ∧
      ∀ i, i < n → ((frames (unitFrame u) n s).mem.word? (ramAddr u.out i)).isSome = true := by
  induction n with
  | zero =>
    exact ⟨OnlyStateOf.refl u s, ⟨rfl, rfl, rfl, rfl, rfl⟩, rfl, fun _ _ => rfl, fun i h => absurd h (by omega)⟩
  | succ n ih =>
    obtain ⟨h1, h2, h3, h4, h5⟩ := ih
    obtain ⟨k1, k2, k3, w, k4⟩ := unitFrame_frame u n (frames (unitFrame u) n s)
    refine ⟨h1.trans k1, h2.trans k2, k3.trans h3, ?_, ?_⟩
    · intro a ha
      show (unitFrame u n (frames (unitFrame u) n s)).mem.get a = _
      rw [k4, Memory.get_setWord_of_ne _ _ _ _ (by simp only [ramAddr] at ha ⊢; omega)]
      exact h4 a (by omega)
    · intro i hi
      show ((unitFrame u n (frames (unitFrame u) n s)).mem.word? _).isSome = true
      rw [k4]
      rcases Nat.lt_succ_iff_lt_or_eq.mp hi with h | rfl
      · rw [Memory.word?_setWord_of_ne _ _ _ _ (by simp only [ramAddr]; omega)]
        exact h5 i h
      · rw [Memory.word?_setWord]; rfl

end Sys2Proof.Machine
end

