-- ==== Sys2Proof/Laws/Interp.lean ====
section
/-! SUPPORT. The interpolation index (R8, R258): multiplying a phase by the table length is exact. -/

namespace Sys2Proof.Machine

theorem ofInt_wtLen : ofInt Config.wtLen = ofInt 2048 := rfl

/-- Magnitude bits from infinity on stand for at least the bound of the finite values. -/
theorem unitsBound_le {m : Nat} (h : inf64 ≤ m) : unitsBound ≤ magUnits 52 m := by
  unfold unitsBound
  exact magUnits_mono 52 inf64 m h

/-- p * 2048 is exact for a value of magnitude below 1. -/
theorem fmul_2048 {p : Double} (h : funits p < one64Units) :
    isFinite (fmul p (ofInt 2048)) = true ∧ fsign (fmul p (ofInt 2048)) = fsign p ∧
      funits (fmul p (ofInt 2048)) = funits p * 2048 := by
  have hf : isFinite p = true := by
    simp only [isFinite, decide_eq_true_eq]
    by_contra hn
    have h1 := magUnits_mono 52 0x3FF0000000000000 (fmag p) (by unfold inf64 at hn; omega)
    rw [magUnits_fone] at h1
    exact absurd h (Nat.not_lt.2 h1)
  obtain ⟨cf, cs, cu⟩ := ofInt_spec 2048 (by decide)
  obtain ⟨q, j, hq, hu⟩ := funits_decomp p
  obtain ⟨m, hm⟩ := exists_magUnits (j + 11) q hq
  have hm' : magUnits 52 m = funits p * 2048 := by rw [hm, hu, Nat.pow_add, ← Nat.mul_assoc]
  have hb := two_pow_53_units
  have hlt : m < inf64 := by
    by_contra hn
    have h1 := unitsBound_le (Nat.le_of_not_lt hn)
    rw [hm'] at h1
    omega
  have he : roundMag 52 inf64 (funits p * funits (ofInt 2048)) one64Units = m := by
    have := roundMag_exact 52 inf64 m one64Units one64Units_pos (Nat.le_of_lt hlt)
    rw [hm'] at this
    rw [cu, show Int.natAbs 2048 = 2048 from rfl, ← Nat.mul_assoc]
    exact this
  rw [fmul_finite hf cf]
  refine ⟨?_, ?_, ?_⟩
  · simp only [isFinite, fmag_round64, he, decide_eq_true_eq]; exact hlt
  · rw [fsign_round64, cs]; cases fsign p <;> rfl
  · rw [funits, fmag_round64, he, hm']

/-- A phase in [0, 1) has magnitude below 1. -/
theorem funits_of_phaseInRange {p : Double} (h : phaseInRange p = true) :
    funits p < one64Units ∧ (fsign p = false ∨ fmag p = 0) := by
  simp only [phaseInRange, Bool.and_eq_true] at h
  have h1 := fkey_le_of_fle h.1
  have h2 := fkey_lt_of_flt h.2
  rw [fkey_of_nonneg fsign_fone, fmag_fone] at h2
  rw [fkey_of_nonneg fsign_fzero, fmag_fzero] at h1
  have hm : fmag p < 0x3FF0000000000000 ∧ (fsign p = false ∨ fmag p = 0) := by
    unfold fkey at h1 h2
    cases hs : fsign p
    · simp only [hs, Bool.false_eq_true, if_false] at h1 h2
      exact ⟨by omega, .inl rfl⟩
    · simp only [hs, if_true] at h1 h2
      exact ⟨by omega, .inr (by omega)⟩
  refine ⟨?_, hm.2⟩
  have hl := hm.1
  by_contra hn
  have h3 : fmag p ≤ 0x3FEFFFFFFFFFFFFF := by omega
  have h4 := magUnits_mono 52 _ _ h3
  have h5 : magUnits 52 0x3FEFFFFFFFFFFFFF < one64Units := by decide +kernel
  exact hn (Nat.lt_of_le_of_lt h4 h5)

/-- The index of the lower sample lies in the table (R258). -/
theorem index_lt {p : Double} (h : phaseInRange p = true) :
    toIndex (ffloor (fmul p (ofInt Config.wtLen))) < 2048 := by
  rw [ofInt_wtLen]
  obtain ⟨hu, hs⟩ := funits_of_phaseInRange h
  obtain ⟨f1, f2, f3⟩ := fmul_2048 hu
  obtain ⟨g1, g2, g3⟩ := ffloor_spec f1
  have hp := one64Units_pos
  rw [toIndex, g3, f2]
  rcases hs with hs | hs
  · rw [if_neg (by simp [hs]), truncUnits, f3, Nat.mul_div_cancel _ hp]
    exact (Nat.div_lt_iff_lt_mul hp).2 (by omega)
  · have h0 : funits p = 0 := by rw [funits, hs]; rfl
    split
    · rw [ceilUnits, f3, h0, Nat.mul_div_cancel _ hp, Nat.zero_mul, Nat.zero_add]
      rw [Nat.div_eq_of_lt (by omega)]; decide
    · rw [truncUnits, f3, h0, Nat.mul_div_cancel _ hp, Nat.zero_mul, Nat.zero_div]; decide

end Sys2Proof.Machine
end

