-- ==== Sys2Proof/Laws/Stored.lean ====
section
/-! SUPPORT. Values read and stored when every word read was written: parameters, input frames, state variables and
output frames (R53, R186, R190, R19). -/

namespace Sys2Proof.Machine

/-- A written parameter's value, with nothing drawn (R186). -/
theorem param_of_written {s : State} {p : Param} {i : Nat} (h : (s.rawParam p i).isSome = true) (d : Nat) :
    param s p i d = (s.value p i, d) := by
  obtain ⟨w, hw⟩ := Option.isSome_iff_exists.1 h
  have hp : paramWord s p i d = (w, d) := by
    simp only [State.rawParam] at hw
    simp only [paramWord]
    split
    · rename_i hm
      rw [if_pos hm] at hw
      exact loadWord_of_word? _ _ _ _ hw
    · rename_i hm
      rw [if_neg hm] at hw
      cases hw
      rfl
  simp only [param, hp, State.value, hw, Option.getD_some, paramClamp]

/-- A written input frame, with nothing drawn. -/
theorem inputFrame_of_written {s : State} {r : SampleRam} {i : Nat} {w : Word}
    (h : s.mem.word? (ramAddr r i) = some w) (d : Nat) : inputFrame s r i d = (widen w, d) := by
  simp only [inputFrame, loadWord_of_word? _ _ _ _ h]

/-- A stored value is that value or, for a NaN, some NaN (R19). -/
theorem stored_storeDouble (x : Double) (d : Nat) : Stored (storeDouble x d).1 x := by
  cases h : isNaN x
  · exact .inl (by simp [storeDouble, h])
  · exact .inr ⟨by simp [storeDouble, h, isNaN_nanOf64], h⟩

theorem isNaN32_nanOf32 (b : Word) : isNaN32 (nanOf32 b) = true := by
  simp only [nanOf32]
  split
  · assumption
  · rw [isNaN32, decide_eq_true_eq, fmag32, BitVec.toNat_or, BitVec.toNat_or]
    have e : ∀ y : Nat, y % 2 ^ 31 = y &&& (2 ^ 31 - 1) := fun y => (Nat.and_two_pow_sub_one_eq_mod y 31).symm
    rw [e, Nat.and_or_distrib_right, Nat.and_or_distrib_right]
    refine Nat.lt_of_lt_of_le (m := inf32 ||| 1) (by decide) ?_
    rw [Nat.or_assoc]
    exact Nat.le_trans (by decide) Nat.right_le_or

/-- An output frame holds its sample (R190). -/
theorem holdsSample_setWord (m : Memory) (a : Nat) (y : Double) (d : Nat) :
    HoldsSample (m.setWord a (storeSample y d).1) a y := by
  refine ⟨_, Memory.word?_setWord _ _ _, ?_⟩
  cases h : isNaN y
  · exact .inl (by simp [storeSample, h])
  · exact .inr ⟨by simp [storeSample, h, isNaN32_nanOf32], rfl⟩

end Sys2Proof.Machine
end

