-- ==== Sys2Proof/Laws/Mlf.lean ====
section
/-! SUPPORT. What one frame of each filter model leaves, in terms of the ladder step it computes. -/

namespace Sys2Proof.Machine

/-- Storing four values stores each (R19). -/
theorem storeFour_stored (a b c d : Double) (n : Nat) :
    Stored (storeFour a b c d n).1[0] a ∧ Stored (storeFour a b c d n).1[1] b ∧ Stored (storeFour a b c d n).1[2] c ∧
      Stored (storeFour a b c d n).1[3] d :=
  ⟨stored_storeDouble _ _, stored_storeDouble _ _, stored_storeDouble _ _, stored_storeDouble _ _⟩

/-- The Model A state holds a ladder. -/
def HoldsA (m : Mlf) (l : LadderA) : Prop :=
  (Stored m.v[0] l.s0.v ∧ Stored m.v[1] l.s1.v ∧ Stored m.v[2] l.s2.v ∧ Stored m.v[3] l.s3.v) ∧
  (Stored m.dv[0] l.s0.dv ∧ Stored m.dv[1] l.s1.dv ∧ Stored m.dv[2] l.s2.dv ∧ Stored m.dv[3] l.s3.dv) ∧
  (Stored m.tv[0] l.s0.tv ∧ Stored m.tv[1] l.s1.tv ∧ Stored m.tv[2] l.s2.tv ∧ Stored m.tv[3] l.s3.tv)

/-- The Model B state holds a ladder. -/
def HoldsB (m : Mlf) (l : LadderB) : Prop :=
  (Stored m.bin[0] l.in1 ∧ Stored m.bin[1] l.in2 ∧ Stored m.bin[2] l.in3 ∧ Stored m.bin[3] l.in4) ∧
  (Stored m.bout[0] l.out1 ∧ Stored m.bout[1] l.out2 ∧ Stored m.bout[2] l.out3 ∧ Stored m.bout[3] l.out4)

/-- One frame of Model A over written words (R363 to R366). -/
theorem modelAFrame_written {i : Nat} {s : State} {w : Word} (h : ParamsWritten .mlf i s)
    (hw : s.mem.word? (ramAddr .mlfIn i) = some w) (l : LadderA)
    (hl : stepA (s.value .mlfCutoff i) (s.value .mlfResonance i) (s.value .mlfDrive i) (widen s.sampleRate) (widen w)
      s.mlf.ladderA = l) :
    HoldsSample (modelAFrame i s).mem (ramAddr .mlfOut i) l.s3.v ∧ HoldsA (modelAFrame i s).mlf l ∧
      (modelAFrame i s).mlf.bin = s.mlf.bin ∧ (modelAFrame i s).mlf.bout = s.mlf.bout := by
  simp only [modelAFrame, State.putFrame, inputFrame_of_written hw, param_of_written (h .mlfCutoff rfl),
    param_of_written (h .mlfResonance rfl), param_of_written (h .mlfDrive rfl), hl]
  exact ⟨holdsSample_setWord _ _ _ _, ⟨storeFour_stored _ _ _ _ _, storeFour_stored _ _ _ _ _,
    storeFour_stored _ _ _ _ _⟩, trivial, trivial⟩

/-- One frame of Model B over written words (R368 to R370). -/
theorem modelBFrame_written {i : Nat} {s : State} {w : Word} (h : ParamsWritten .mlf i s)
    (hw : s.mem.word? (ramAddr .mlfIn i) = some w) (l : LadderB)
    (hl : stepB (coefB (s.value .mlfCutoffB i) (s.value .mlfResonanceB i)) (widen w) s.mlf.ladderB = l) :
    HoldsSample (modelBFrame i s).mem (ramAddr .mlfOut i) l.out4 ∧ HoldsB (modelBFrame i s).mlf l ∧
      (modelBFrame i s).mlf.v = s.mlf.v ∧ (modelBFrame i s).mlf.dv = s.mlf.dv ∧
      (modelBFrame i s).mlf.tv = s.mlf.tv := by
  simp only [modelBFrame, State.putFrame, inputFrame_of_written hw, param_of_written (h .mlfCutoffB rfl),
    param_of_written (h .mlfResonanceB rfl), hl]
  exact ⟨holdsSample_setWord _ _ _ _, ⟨storeFour_stored _ _ _ _ _, storeFour_stored _ _ _ _ _⟩, trivial, trivial, trivial⟩

end Sys2Proof.Machine
end

