-- ==== Sys2Proof/Laws/PerInstr.lean ====
section
/-! SUPPORT. Facts about every instruction as syntax, one lemma per constructor: the word that encodes a well-formed
command is legal in the sense of R145. -/

namespace Sys2Proof.Laws.EncodesLegally

open Sys2Proof

/-- The command word of a well-formed instruction is legal; a bus transaction has no command word. -/
def Statement (i : Instr) : Prop := WellFormed i = true → ∀ w, encode i = .cmd w → legalCommand w = true

theorem busRead (a : Word) : Statement (.busRead a) := by
  intro _ w h; simp [encode] at h

theorem busWrite (a v : Word) : Statement (.busWrite a v) := by
  intro _ w h; simp [encode] at h

/-- A command word is legal when its operation takes no operand and its ARG is zero, or is a unit's PROCESS. -/
theorem of_fields (u o : BitVec 4) (n : Nat) (w : BitVec 32) (h : Encoded.cmd (commandWord u o n) = .cmd w)
    (hl : legalCommand (commandWord u o n) = true) : legalCommand w = true := by
  cases h; exact hl

theorem nop : Statement .nop := fun _ w h => of_fields _ _ _ w h (by decide)
theorem initAll : Statement .initAll := fun _ w h => of_fields _ _ _ w h (by decide)
theorem resetAll : Statement .resetAll := fun _ w h => of_fields _ _ _ w h (by decide)
theorem wtoInit : Statement .wtoInit := fun _ w h => of_fields _ _ _ w h (by decide)
theorem wtoReset : Statement .wtoReset := fun _ w h => of_fields _ _ _ w h (by decide)
theorem pboInit : Statement .pboInit := fun _ w h => of_fields _ _ _ w h (by decide)
theorem pboReset : Statement .pboReset := fun _ w h => of_fields _ _ _ w h (by decide)
theorem mlfInit : Statement .mlfInit := fun _ w h => of_fields _ _ _ w h (by decide)
theorem mlfReset : Statement .mlfReset := fun _ w h => of_fields _ _ _ w h (by decide)
theorem adsrInit : Statement .adsrInit := fun _ w h => of_fields _ _ _ w h (by decide)
theorem adsrReset : Statement .adsrReset := fun _ w h => of_fields _ _ _ w h (by decide)

/-- A PROCESS word is legal whatever its frame count. -/
theorem process_legal (u : BitVec 4) (hu : u = 1 ∨ u = 2 ∨ u = 3 ∨ u = 4) (n : Nat) :
    legalCommand (commandWord u 3 n) = true := by
  rw [commandWord, legalCommand_append]
  rcases hu with rfl | rfl | rfl | rfl <;> rfl

theorem wtoProcess (n : Nat) : Statement (.wtoProcess n) :=
  fun _ w h => of_fields _ _ _ w h (process_legal 1 (by decide) n)
theorem pboProcess (n : Nat) : Statement (.pboProcess n) :=
  fun _ w h => of_fields _ _ _ w h (process_legal 2 (by decide) n)
theorem mlfProcess (n : Nat) : Statement (.mlfProcess n) :=
  fun _ w h => of_fields _ _ _ w h (process_legal 3 (by decide) n)
theorem adsrProcess (n : Nat) : Statement (.adsrProcess n) :=
  fun _ w h => of_fields _ _ _ w h (process_legal 4 (by decide) n)

end Sys2Proof.Laws.EncodesLegally
end

