-- ==== Sys2Proof/Laws/Shapes.lean ====
section
/-! SUPPORT. What the shape dispatch can do (43_polyblep_oscillator.md R304, R310). Citing these keeps a proof from
evaluating the literal 0.25. -/

namespace Sys2Proof.Machine

theorem shape_of_fallback {code : Nat} {t dt pw : Double} (h1 : Config.pbSineFallback = true)
    (h2 : fle quarter dt = true) : shape code t dt pw = shapeSine t := by
  have e : (fle quarter dt && Config.pbSineFallback) = true := by rw [h1, h2, Bool.and_true]
  rw [shape, if_pos e]

theorem shape_of_code {code : Nat} {t dt pw : Double} (h : Config.pbSineFallback = false ∨ fle quarter dt = false) :
    shape code t dt pw = shapeOf code t dt pw := by
  have e : (fle quarter dt && Config.pbSineFallback) = false := by
    rcases h with h | h
    · rw [h, Bool.and_false]
    · rw [h, Bool.false_and]
  rw [shape, e]
  exact if_neg Bool.false_ne_true

theorem shapeOf_unmapped (k : Nat) (t dt pw : Double) : shapeOf (k + 13) t dt pw = fzero := rfl

end Sys2Proof.Machine
end

