-- ==== Sys2Proof/Laws/Single.lean ====
section
/-! SUPPORT. Binary32: what rounding to a word and widening it again does to a bounded value, and so what the clamping
registers hold (R13, R40, R45). -/

namespace Sys2Proof.Machine

/-- The word `f32` gives, from its sign and magnitude bits, for a finite value. -/
theorem f32_finite {y : Double} (h : isFinite y = true) :
    f32 y = BitVec.ofNat 32 ((if fsign y then 2 ^ 31 else 0) + roundMag 23 inf32 (funits y) f32Units) := by
  simp only [f32, not_isNaN_of_isFinite h, not_isInf_of_isFinite h, Bool.false_eq_true, if_false]

theorem inf32_lt : inf32 < 2 ^ 31 := by decide

theorem word_fields (neg : Bool) (m : Nat) (h : m < 2 ^ 31) :
    fmag32 (BitVec.ofNat 32 ((if neg then 2 ^ 31 else 0) + m)) = m ∧
      (BitVec.ofNat 32 ((if neg then 2 ^ 31 else 0) + m)).msb = neg := by
  refine ⟨?_, ?_⟩
  · rw [fmag32, BitVec.toNat_ofNat]
    cases neg <;> simp <;> omega
  · rw [BitVec.msb_eq_decide, BitVec.toNat_ofNat]
    cases neg <;> simp <;> omega

theorem f32Units_pos : 0 < f32Units := by
  unfold f32Units
  exact Nat.two_pow_pos _

/-- Rounding to binary32 and widening again keeps the sign and stays within a bound that binary32 represents. -/
theorem widen_f32_bound {y b : Double} (m : Nat) (hy : fmag y ≤ fmag b) (hb : fmag b < inf64) (hm : m < inf32)
    (hu : magUnits 52 (fmag b) = magUnits 23 m * f32Units) :
    isNaN (widen (f32 y)) = false ∧ fsign (widen (f32 y)) = fsign y ∧ fmag (widen (f32 y)) ≤ fmag b := by
  have hf : isFinite y = true := isFinite_of_le hy hb
  have hle : roundMag 23 inf32 (funits y) f32Units ≤ m := by
    refine roundMag_le_of_le 23 inf32 _ _ m f32Units_pos (Nat.le_of_lt hm) ?_
    rw [← hu]
    exact funits_le hy
  have hlt : roundMag 23 inf32 (funits y) f32Units < 2 ^ 31 := by
    have := inf32_lt
    omega
  obtain ⟨e1, e2⟩ := word_fields (fsign y) _ hlt
  rw [← f32_finite hf] at e1 e2
  have hw : widen (f32 y) = round64 (fsign y) (magUnits 23 (roundMag 23 inf32 (funits y) f32Units) * f32Units) 1 := by
    rw [widen, e1, e2, if_neg (by omega), if_neg (by omega)]
  rw [hw]
  refine ⟨isNaN_round64 _ _ _, fsign_round64 _ _ _, ?_⟩
  rw [fmag_round64]
  refine roundMag_le_of_le 52 inf64 _ 1 _ (by decide) (Nat.le_of_lt hb) ?_
  rw [hu, Nat.mul_one]
  exact Nat.mul_le_mul_right _ (magUnits_mono 23 _ _ hle)

/-- A level register's stored word lies in [0, 1] (R45). -/
theorem clampWord_unit (v : Word) : Between fzero (widen (clampWord v fzero fone)) fone := by
  have h := fclamp_range (widen v) fzero fone (by decide)
  rw [clampWord]
  generalize fclamp (widen v) fzero fone = y at h
  obtain ⟨n1, s1, m1⟩ := widen_f32_bound (y := y) (b := fone) 0x3F800000 (by rw [fmag_fone]; exact fmag_le_of_unit h.1 h.2)
    (by decide) (by decide) (by decide +kernel)
  cases hs : fsign y
  · rw [hs] at s1
    exact fle_of_unit s1 (by rwa [fmag_fone] at m1)
  · have h0 : fmag y = 0 := by
      have hk := fkey_le_of_fle h.1
      rw [fkey_of_nonneg fsign_fzero, fmag_fzero] at hk
      simp only [fkey, hs, if_true] at hk
      omega
    obtain ⟨n0, -, m0⟩ := widen_f32_bound (y := y) (b := fzero) 0 (by rw [h0]; exact Nat.zero_le _) (by decide)
      (by decide) (by decide +kernel)
    rw [fmag_fzero] at m0
    have e : fmag (widen (f32 y)) = 0 := Nat.le_zero.1 m0
    have hk : fkey (widen (f32 y)) = 0 := by
      have := fkey_natAbs (widen (f32 y))
      omega
    refine ⟨?_, ?_⟩
    · simp only [fle, isNaN_fzero, n0, hk]; decide
    · simp only [fle, isNaN_fone, n0, hk]; decide

/-- The spread register's stored word lies in [-4800, 4800] (R40). -/
theorem clampWord_spread (v : Word) :
    Between (ofInt (-4800)) (widen (clampWord v (ofInt (-4800)) (ofInt 4800))) (ofInt 4800) := by
  have h := fclamp_range (widen v) (ofInt (-4800)) (ofInt 4800) (by decide +kernel)
  rw [clampWord]
  generalize fclamp (widen v) (ofInt (-4800)) (ofInt 4800) = y at h
  have e1 : fmag (ofInt (-4800)) = 0x40B2C00000000000 := by decide +kernel
  have e2 : fmag (ofInt 4800) = 0x40B2C00000000000 := by decide +kernel
  have hm := fmag_le_of_fle h
  rw [e1, e2, Nat.max_self, ← e2] at hm
  obtain ⟨n1, -, m1⟩ := widen_f32_bound (b := ofInt 4800) 0x45960000 hm (by decide +kernel) (by decide)
    (by decide +kernel)
  have k1 : fkey (ofInt (-4800)) = -0x40B2C00000000000 := by decide +kernel
  have k2 : fkey (ofInt 4800) = 0x40B2C00000000000 := by decide +kernel
  have hk := fkey_natAbs (widen (f32 y))
  rw [e2] at m1
  refine ⟨?_, ?_⟩
  · simp only [fle, isNaN_ofInt, n1, k1, Bool.not_false, Bool.true_and, decide_eq_true_eq]; omega
  · simp only [fle, isNaN_ofInt, n1, k2, Bool.not_false, Bool.true_and, decide_eq_true_eq]; omega

end Sys2Proof.Machine
end

