-- ==== Sys2Proof/Laws/Wto.lean ====
section
/-! SUPPORT. What a WTO frame depends on: two states that agree on the WTO, the tables, SAMPLE_RATE, the draws and the
words the frame reads give the same frame. -/

namespace Sys2Proof.Machine

/-- A parameter depends on its unit's mode bits, its scalar register and its word. -/
theorem param_congr {s1 s2 : State} {p : Param} {i : Nat} (hm : s1.paramMode p.unit = s2.paramMode p.unit)
    (hs : s1.scalar p = s2.scalar p)
    (hl : ∀ d, loadWord s1.mem (ramAddr (.arr p) i) d = loadWord s2.mem (ramAddr (.arr p) i) d) (d : Nat) :
    param s1 p i d = param s2 p i d := by
  simp only [param, paramWord, hm, hs, hl]

/-- The state agrees with another on all a WTO frame i reads. -/
structure WtoAlike (i : Nat) (s1 s2 : State) : Prop where
  wto : s1.wto = s2.wto
  sampleRate : s1.sampleRate = s2.sampleRate
  numTables : s1.numTables = s2.numTables
  topFreq : s1.topFreq = s2.topFreq
  draws : s1.draws = s2.draws
  params : ∀ p : Param, p.unit = .wto → ∀ d,
    loadWord s1.mem (ramAddr (.arr p) i) d = loadWord s2.mem (ramAddr (.arr p) i) d
  table : ∀ t k j d, t ≤ 4 → k < s1.tables t → j < 2048 →
    loadWord s1.mem (tableAddr t k j) d = loadWord s2.mem (tableAddr t k j) d

namespace WtoAlike

variable {i : Nat} {s1 s2 : State}

theorem tables (h : WtoAlike i s1 s2) (t : Nat) : s1.tables t = s2.tables t := by
  simp only [State.tables, h.numTables]

theorem topFreqOf (h : WtoAlike i s1 s2) (t k : Nat) : s1.topFreqOf t k = s2.topFreqOf t k := by
  simp only [State.topFreqOf, h.topFreq]

theorem param (h : WtoAlike i s1 s2) (p : Param) (hp : p.unit = .wto) (d : Nat) :
    Machine.param s1 p i d = Machine.param s2 p i d := by
  refine param_congr ?_ ?_ (h.params p hp) d
  · rw [hp]; simp only [State.paramMode, h.wto]
  · cases p <;> first | (simp only [State.scalar, h.wto]; done) | cases hp

theorem wtoParams (h : WtoAlike i s1 s2) : Machine.wtoParams s1 i = Machine.wtoParams s2 i := by
  simp only [Machine.wtoParams, h.draws, h.sampleRate, h.param .wtoFrequency rfl, h.param .wtoDetune rfl,
    h.param .wtoPulseWidth rfl, h.param .wtoPhaseMod rfl, h.param .wtoPhaseModDepth rfl]

theorem selectFrom (h : WtoAlike i s1 s2) (t tables : Nat) (a : Double) (fuel : Nat) :
    ∀ k, Machine.selectFrom s1 t tables a fuel k = Machine.selectFrom s2 t tables a fuel k := by
  induction fuel with
  | zero => intro k; rfl
  | succ n ih => intro k; simp only [Machine.selectFrom, h.topFreqOf, ih]

theorem select (h : WtoAlike i s1 s2) (t tables : Nat) (a : Double) :
    Machine.select s1 t tables a = Machine.select s2 t tables a := h.selectFrom t tables a tables 0

theorem interp (h : WtoAlike i s1 s2) {t k : Nat} (ht : t ≤ 4) (hk : k < s1.tables t) (p : Double) (d : Nat) :
    Machine.interp s1 t k p d = Machine.interp s2 t k p d := by
  cases hp : phaseInRange p
  · simp only [Machine.interp, hp, Bool.not_false, if_true]
  · have e1 := fun j d (hj : j < 2048) => h.table t k j d ht hk hj
    have hj := index_lt hp
    have hj1 : (toIndex (ffloor (fmul p (ofInt Config.wtLen))) + 1) % Config.wtLen < 2048 :=
      Nat.mod_lt _ (by decide)
    simp only [Machine.interp, hp, Bool.not_true, Bool.false_eq_true, if_false]
    rw [e1 _ d hj, e1 _ _ hj1]

theorem blend (h : WtoAlike i s1 s2) {t : Nat} (ht : t ≤ 4) (k : Nat) (a p smp : Double) (d : Nat) :
    Machine.blend s1 t (s1.tables t) k a p smp d = Machine.blend s2 t (s1.tables t) k a p smp d := by
  by_cases hk : s1.tables t ≤ k + 1
  · simp only [Machine.blend, if_pos hk]
  · simp only [Machine.blend, if_neg hk, h.topFreqOf]
    rw [h.interp ht (by omega)]

end WtoAlike

/-- The search of R256 stays below the table count. -/
theorem selectFrom_lt (s : State) (t tables : Nat) (a : Double) (fuel : Nat) :
    ∀ k, k < tables → selectFrom s t tables a fuel k < tables := by
  induction fuel with
  | zero => intro k h; exact h
  | succ n ih =>
    intro k h
    simp only [selectFrom]
    split
    · rename_i hc
      simp only [Bool.and_eq_true, decide_eq_true_eq] at hc
      exact ih _ hc.1
    · exact h

/-- The search of R256, from an index below which every topFreq is at most a, with fuel enough to reach the end. -/
theorem selectFrom_spec (s : State) (t tables : Nat) (a : Double) (fuel : Nat) :
    ∀ k, tables ≤ k + fuel → (∀ j, j < k → fle (widen (s.topFreqOf t j)) a = true) → k < tables →
      (∀ j, j < selectFrom s t tables a fuel k → fle (widen (s.topFreqOf t j)) a = true) ∧
        (selectFrom s t tables a fuel k + 1 = tables ∨
          fle (widen (s.topFreqOf t (selectFrom s t tables a fuel k))) a = false) := by
  induction fuel with
  | zero => intro k hf _ hk; omega
  | succ n ih =>
    intro k hf hb hk
    simp only [selectFrom]
    split
    · rename_i hc
      simp only [Bool.and_eq_true, decide_eq_true_eq] at hc
      refine ih (k + 1) (by omega) (fun j hj => ?_) hc.1
      rcases Nat.lt_succ_iff_lt_or_eq.1 hj with h | rfl
      · exact hb j h
      · exact hc.2
    · rename_i hc
      refine ⟨hb, ?_⟩
      simp only [Bool.and_eq_true, decide_eq_true_eq, not_and, Bool.not_eq_true] at hc
      by_cases h : k + 1 < tables
      · exact .inr (hc h)
      · exact .inl (by omega)

theorem select_lt (s : State) (t tables : Nat) (a : Double) (h : 0 < tables) : select s t tables a < tables :=
  selectFrom_lt s t tables a tables 0 h

/-- `Select` gives the table R256 describes. -/
theorem select_selects (s : State) (a : Double) (h : 0 < s.tables s.wto.type.toNat) :
    s.Selects a (select s s.wto.type.toNat (s.tables s.wto.type.toNat) a) :=
  ⟨select_lt _ _ _ _ h, selectFrom_spec s _ _ a _ 0 (by omega) (by omega) h⟩

/-- R256 describes one table. -/
theorem selects_unique {s : State} {a : Double} {k k' : Nat} (h : s.Selects a k) (h' : s.Selects a k') : k = k' := by
  have key : ∀ {k k'}, s.Selects a k → s.Selects a k' → ¬ k < k' := fun h h' hlt => by
    obtain ⟨-, -, e⟩ := h
    obtain ⟨b', c', -⟩ := h'
    have := c' _ hlt
    rcases e with e | e
    · omega
    · rw [e] at this
      cases this
  have := key h h'
  have := key h' h
  omega

namespace WtoAlike

variable {i : Nat} {s1 s2 : State}

theorem readTable (h : WtoAlike i s1 s2) (p a : Double) (d : Nat) :
    Machine.readTable s1 p a d = Machine.readTable s2 p a d := by
  have hw := h.wto
  simp only [Machine.readTable, ← hw, ← h.tables]
  by_cases ht : 4 < s1.wto.type.toNat
  · simp only [if_pos ht]
  · simp only [if_neg ht]
    by_cases h0 : s1.tables s1.wto.type.toNat = 0
    · simp only [if_pos h0]
    · simp only [if_neg h0]
      have hk := select_lt s1 s1.wto.type.toNat _ a (Nat.pos_of_ne_zero h0)
      rw [h.interp (by omega) hk, h.select]
      split
      · rw [h.blend (by omega)]
      · rfl

theorem voiceSample (h : WtoAlike i s1 s2) (p a pw : Double) (d : Nat) :
    Machine.voiceSample s1 p a pw d = Machine.voiceSample s2 p a pw d := by
  simp only [Machine.voiceSample, h.readTable, h.wto]

theorem voice (h : WtoAlike i s1 s2) (q : WtoParams) (p dc : Double) (d : Nat) :
    Machine.voice s1 q p dc d = Machine.voice s2 q p dc d := by
  simp only [Machine.voice, h.voiceSample]

theorem voices (h : WtoAlike i s1 s2) (q : WtoParams) (spread step : Double) (d n : Nat) :
    Machine.voices s1 q spread step d n = Machine.voices s2 q spread step d n := by
  induction n with
  | zero => simp only [Machine.voices, h.wto]
  | succ n ih => simp only [Machine.voices, ih, h.voice, h.wto]

theorem wtoMix (h : WtoAlike i s1 s2) : Machine.wtoMix s1 i = Machine.wtoMix s2 i := by
  simp only [Machine.wtoMix, h.wtoParams, h.voice, h.voices, h.wto]

end WtoAlike

end Sys2Proof.Machine
end

