-- ==== Sys2Proof/Laws/Units.lean ====
section
/-! SUPPORT. What the units' frames do not look at. -/

namespace Sys2Proof.Machine

/-- A frame neither reads nor writes STATUS. -/
theorem unitFrame_status (u : UnitId) (i : Nat) (s : State) (st : Status) :
    unitFrame u i { s with status := st } = { unitFrame u i s with status := st } := by
  cases u with
  | wto =>
    have h : WtoAlike i { s with status := st } s :=
      ⟨rfl, rfl, rfl, rfl, rfl, fun _ _ _ => rfl, fun _ _ _ _ _ _ _ => rfl⟩
    show wtoFrame i _ = { wtoFrame i s with status := st }
    unfold wtoFrame
    rw [h.wtoMix]; rfl
  | pbo => rfl
  | mlf =>
    show mlfFrame i _ = { mlfFrame i s with status := st }
    unfold mlfFrame
    cases s.mlf.modelB <;> rfl
  | adsr => rfl

theorem frames_status (u : UnitId) (n : Nat) (s : State) (st : Status) :
    frames (unitFrame u) n { s with status := st } = { frames (unitFrame u) n s with status := st } := by
  induction n with
  | zero => rfl
  | succ n ih =>
    show unitFrame u n (frames (unitFrame u) n { s with status := st }) = _
    rw [ih, unitFrame_status]; rfl

/-! ### isolation -/

theorem loadWord_congr {m1 m2 : Memory} {a : Nat} (h : ∀ c, a ≤ c → c < a + 4 → m1.get c = m2.get c) (d : Nat) :
    loadWord m1 a d = loadWord m2 a d := by
  rw [loadWord, loadWord, Memory.word?_congr m1 m2 a h]

/-- Two states that agree for a unit load alike every word the unit reads. -/
theorem AgreesFor.load {u : UnitId} {s1 s2 : State} (h : AgreesFor u s1 s2) {a : Nat}
    (ha : ∀ c, a ≤ c → c < a + 4 → u.reads c) (d : Nat) : loadWord s1.mem a d = loadWord s2.mem a d :=
  loadWord_congr (fun c h1 h2 => h.2.2.2.2.1 c (ha c h1 h2)) d

/-- A parameter's RAM lies in what its unit reads. -/
theorem reads_param (p : Param) (i : Nat) (hi : i < 128) (c : Nat) (h1 : ramAddr (.arr p) i ≤ c)
    (h2 : c < ramAddr (.arr p) i + 4) : p.unit.reads c := by
  cases p <;> simp only [ramAddr, SampleRam.index] at h1 h2 <;> simp only [Param.unit, UnitId.reads] <;> omega

theorem AgreesFor.loadParam {u : UnitId} {s1 s2 : State} (h : AgreesFor u s1 s2) {p : Param} (hp : p.unit = u) {i : Nat}
    (hi : i < 128) (d : Nat) : loadWord s1.mem (ramAddr (.arr p) i) d = loadWord s2.mem (ramAddr (.arr p) i) d := by
  refine h.load (fun c h1 h2 => ?_) d
  rw [← hp]
  exact reads_param p i hi c h1 h2

theorem AgreesFor.param {u : UnitId} {s1 s2 : State} (h : AgreesFor u s1 s2) {p : Param} (hp : p.unit = u) {i : Nat}
    (hi : i < 128) (d : Nat) : param s1 p i d = param s2 p i d := by
  refine param_congr ?_ ?_ (h.loadParam hp hi) d
  · rw [hp]
    have hu := h.1
    cases u <;> (simp only [UnitAgrees] at hu; simp only [State.paramMode, hu])
  · have hu := h.1
    subst hp
    cases p <;> (simp only [UnitAgrees, Param.unit] at hu; simp only [State.scalar, hu])

/-- No unit reads its own output RAM (R116). -/
theorem not_reads_out (u : UnitId) (i c : Nat) (hi : i < 128) (h : u.reads c) :
    c < ramAddr u.out i ∨ ramAddr u.out i + 4 ≤ c := by
  cases u <;> simp only [UnitId.reads] at h <;> simp only [UnitId.out, ramAddr, SampleRam.index] <;> omega

/-- What two states that agree for a unit have in common after a frame of it. -/
theorem unitFrame_agrees {u : UnitId} {i : Nat} {s1 s2 : State} (h : AgreesFor u s1 s2) (hi : i < 128)
    (ht : ∀ t, s1.tables t ≤ 16) :
    AgreesFor u (unitFrame u i s1) (unitFrame u i s2) ∧
      ∃ w, (unitFrame u i s1).mem = s1.mem.setWord (ramAddr u.out i) w ∧
        (unitFrame u i s2).mem = s2.mem.setWord (ramAddr u.out i) w := by
  have hd := h.2.2.2.1
  have hsr := h.2.2.1
  suffices hk : UnitAgrees u (unitFrame u i s1) (unitFrame u i s2) ∧
      (unitFrame u i s1).draws = (unitFrame u i s2).draws ∧
      ∃ w, (unitFrame u i s1).mem = s1.mem.setWord (ramAddr u.out i) w ∧
        (unitFrame u i s2).mem = s2.mem.setWord (ramAddr u.out i) w by
    obtain ⟨k1, k2, w, k3, k4⟩ := hk
    obtain ⟨-, g1, st1, -⟩ := unitFrame_frame u i s1
    obtain ⟨-, g2, st2, -⟩ := unitFrame_frame u i s2
    refine ⟨⟨k1, by rw [st1, st2]; exact h.2.1, by rw [g1.1, g2.1]; exact hsr, k2, ?_, ?_⟩, w, k3, k4⟩
    · intro a ha
      have ho := not_reads_out u i a hi ha
      rw [k3, k4, Memory.get_setWord_of_ne _ _ _ _ ho, Memory.get_setWord_of_ne _ _ _ _ ho]
      exact h.2.2.2.2.1 a ha
    · intro hu
      rw [g1.2.1, g2.2.1, g1.2.2.1, g2.2.2.1]
      exact h.2.2.2.2.2 hu
  cases u with
  | wto =>
    have ha : WtoAlike i s1 s2 :=
      ⟨h.1, hsr, (h.2.2.2.2.2 rfl).1, (h.2.2.2.2.2 rfl).2, hd, fun p hp d => h.loadParam hp hi d,
        fun t k j d h4 hk hj => h.load (fun c h1 h2 => by
          have := ht t
          simp only [tableAddr] at h1 h2
          simp only [UnitId.reads]
          omega) d⟩
    have hw : s1.wto = s2.wto := h.1
    have hm := ha.wtoMix
    refine ⟨?_, ?_, _, rfl, ?_⟩
    · show ({ s1.wto with phase := (wtoMix s1 i).phase } : Wto) = { s2.wto with phase := (wtoMix s2 i).phase }
      rw [hm, hw]
    · show (storeSample (wtoMix s1 i).acc (wtoMix s1 i).draws).2 = (storeSample (wtoMix s2 i).acc (wtoMix s2 i).draws).2
      rw [hm]
    · show s2.mem.setWord _ (storeSample (wtoMix s2 i).acc (wtoMix s2 i).draws).1
        = s2.mem.setWord _ (storeSample (wtoMix s1 i).acc (wtoMix s1 i).draws).1
      rw [hm]; rfl
  | pbo =>
    have hw : s1.pbo = s2.pbo := h.1
    have hq : pboParams s1 i = pboParams s2 i := by
      simp only [pboParams, hd, hsr, h.param (p := .pboFrequency) rfl hi, h.param (p := .pboAmplitude) rfl hi,
        h.param (p := .pboDetune) rfl hi, h.param (p := .pboPulseWidth) rfl hi, h.param (p := .pboPhaseMod) rfl hi,
        h.param (p := .pboPhaseModDepth) rfl hi]
    refine ⟨?_, ?_, _, rfl, ?_⟩
    · show (pboFrame i s1).pbo = (pboFrame i s2).pbo
      simp only [pboFrame, State.putFrame, hq, hw]
    · show (pboFrame i s1).draws = (pboFrame i s2).draws
      simp only [pboFrame, State.putFrame, hq, hw]
    · simp only [unitFrame, pboFrame, State.putFrame, hq, hw]; rfl
  | mlf =>
    have hw : s1.mlf = s2.mlf := h.1
    have hin : ∀ d, inputFrame s1 .mlfIn i d = inputFrame s2 .mlfIn i d := by
      intro d
      simp only [inputFrame]
      rw [h.load (fun c h1 h2 => by
        simp only [ramAddr, SampleRam.index] at h1 h2
        simp only [UnitId.reads]
        omega) d]
    have hA : modelAFrame i s1 = { modelAFrame i s2 with
        sampleRate := s1.sampleRate, status := s1.status, wto := s1.wto, pbo := s1.pbo, adsr := s1.adsr
        numTables := s1.numTables, topFreq := s1.topFreq, inbox := s1.inbox, readData := s1.readData
        mem := (modelAFrame i s1).mem } := by
      simp only [modelAFrame, State.putFrame, hin, hd, hsr, hw, h.param (p := .mlfCutoff) rfl hi,
        h.param (p := .mlfResonance) rfl hi, h.param (p := .mlfDrive) rfl hi]
    have hB : modelBFrame i s1 = { modelBFrame i s2 with
        sampleRate := s1.sampleRate, status := s1.status, wto := s1.wto, pbo := s1.pbo, adsr := s1.adsr
        numTables := s1.numTables, topFreq := s1.topFreq, inbox := s1.inbox, readData := s1.readData
        mem := (modelBFrame i s1).mem } := by
      simp only [modelBFrame, State.putFrame, hin, hd, hsr, hw, h.param (p := .mlfCutoffB) rfl hi,
        h.param (p := .mlfResonanceB) rfl hi]
    show (mlfFrame i s1).mlf = (mlfFrame i s2).mlf ∧ (mlfFrame i s1).draws = (mlfFrame i s2).draws ∧
      ∃ w, (mlfFrame i s1).mem = s1.mem.setWord (ramAddr .mlfOut i) w ∧
        (mlfFrame i s2).mem = s2.mem.setWord (ramAddr .mlfOut i) w
    unfold mlfFrame
    rw [← hw]
    split
    · refine ⟨by rw [hB], by rw [hB], _, rfl, ?_⟩
      simp only [modelBFrame, State.putFrame, hin, hd, hw, h.param (p := .mlfCutoffB) rfl hi,
        h.param (p := .mlfResonanceB) rfl hi]
    · refine ⟨by rw [hA], by rw [hA], _, rfl, ?_⟩
      simp only [modelAFrame, State.putFrame, hin, hd, hsr, hw, h.param (p := .mlfCutoff) rfl hi,
        h.param (p := .mlfResonance) rfl hi, h.param (p := .mlfDrive) rfl hi]
  | adsr =>
    have hw : s1.adsr = s2.adsr := h.1
    have hin : ∀ d, inputFrame s1 .adsrIn i d = inputFrame s2 .adsrIn i d := by
      intro d
      simp only [inputFrame]
      rw [h.load (fun c h1 h2 => by
        simp only [ramAddr, SampleRam.index] at h1 h2
        simp only [UnitId.reads]
        omega) d]
    refine ⟨?_, ?_, _, rfl, ?_⟩
    · show (adsrFrame i s1).adsr = (adsrFrame i s2).adsr
      simp only [adsrFrame, State.putFrame, hin, hd, hw, h.param (p := .adsrGate) rfl hi]
    · show (adsrFrame i s1).draws = (adsrFrame i s2).draws
      simp only [adsrFrame, State.putFrame, hin, hd, hw, h.param (p := .adsrGate) rfl hi]
    · simp only [unitFrame, adsrFrame, State.putFrame, hin, hd, hw, h.param (p := .adsrGate) rfl hi]; rfl

end Sys2Proof.Machine
end

