-- ==== Sys2Proof/Laws/WtoWritten.lean ====
section
/-! SUPPORT. The WTO's frame when every word it reads was written: each operation gives the value of the frame rules
and draws nothing. -/

namespace Sys2Proof.Machine

/-- A wrapped finite value is a phase in [0, 1). -/
theorem phaseInRange_iff (p : Double) : phaseInRange p = true ↔ Between fzero p fone ∧ flt p fone = true := by
  simp only [phaseInRange, Bool.and_eq_true, Between]
  constructor
  · rintro ⟨h1, h2⟩
    refine ⟨⟨h1, ?_⟩, h2⟩
    have hk := fkey_lt_of_flt h2
    have hn := not_nan_of_fle_right h1
    simp only [fle, hn, isNaN_fone, Bool.not_false, Bool.true_and, decide_eq_true_eq]
    omega
  · rintro ⟨⟨h1, -⟩, h2⟩
    exact ⟨h1, h2⟩

/-- Magnitude below that of 1 with a positive sign. -/
theorem phaseInRange_of_mag {p : Double} (hs : fsign p = false) (hm : fmag p < 0x3FF0000000000000) :
    phaseInRange p = true := by
  have hn : isNaN p = false := isNaN_of_le (Nat.le_of_lt hm) (by decide)
  rw [phaseInRange, fle_of_nonneg isNaN_fzero hn fsign_fzero hs, flt_of_nonneg hn isNaN_fone hs fsign_fone, fmag_fone]
  simp only [Bool.and_eq_true, decide_eq_true_eq, fmag_fzero]
  exact ⟨Nat.zero_le _, hm⟩

theorem phaseInRange_wrap {x : Double} (h : isFinite x = true) : phaseInRange (wrap x) = true :=
  phaseInRange_of_mag (wrap_range h).1 (wrap_range h).2

/-- A phase the invariant describes is in range. -/
theorem WtoPhasesInRange.phase {s : State} (h : WtoPhasesInRange s) (v : Nat) :
    phaseInRange (s.wto.phaseOf v) = true := by
  obtain ⟨h1, h2, h3⟩ := h v
  refine phaseInRange_of_mag h1 (Nat.lt_of_le_of_ne (fmag_le_of_unit h2.1 h2.2) fun e => h3 ?_)
  refine double_ext (by rw [h1, fsign_fone]) ?_
  rw [e, fmag_fone]

variable {s : State}

/-- Interpolation over a written table (R258, R259). -/
theorem interp_of_written (hw : TablesWritten s) (h4 : s.wto.type.toNat ≤ 4) {k : Nat}
    (hk : k < s.tables s.wto.type.toNat) {p : Double} (hp : phaseInRange p = true) (d : Nat) :
    interp s s.wto.type.toNat k p d = (s.interpAt s.wto.type.toNat k p, d) := by
  have hload : ∀ j, j < 2048 → ∀ d, loadWord s.mem (tableAddr s.wto.type.toNat k j) d =
      ((s.mem.word? (tableAddr s.wto.type.toNat k j)).getD 0, d) := by
    intro j hj d
    obtain ⟨w, e⟩ := Option.isSome_iff_exists.1 (hw h4 k hk j hj)
    rw [loadWord_of_word? _ _ _ _ e, e]
    rfl
  have h0 := index_lt hp
  have h1 : (toIndex (ffloor (fmul p (ofInt Config.wtLen))) + 1) % Config.wtLen < 2048 := Nat.mod_lt _ (by decide)
  simp only [interp, hp, Bool.not_true, Bool.false_eq_true, if_false, hload _ h0, hload _ h1]
  rfl

/-- The multi-table mixer over written tables (R261). -/
theorem readTable_of_written (hw : TablesWritten s) {p : Double} (hp : phaseInRange p = true) (a : Double) (d : Nat) :
    readTable s p a d =
      (s.readAt (select s s.wto.type.toNat (s.tables s.wto.type.toNat) a) p a, d) := by
  simp only [readTable, State.readAt]
  by_cases h4 : 4 < s.wto.type.toNat
  · simp only [h4, true_or, if_true]
  · by_cases h0 : s.tables s.wto.type.toNat = 0
    · simp only [if_neg h4, h0, or_true, if_true]
    · have hk := select_lt s s.wto.type.toNat _ a (Nat.pos_of_ne_zero h0)
      simp only [if_neg h4, if_neg h0, if_neg (not_or.2 ⟨h4, h0⟩), interp_of_written hw (by omega) hk hp]
      cases hb : s.wto.blend
      · simp only [Bool.false_eq_true, if_false, true_or, if_true]
      · simp only [if_true, blend, Bool.true_eq_false, false_or]
        by_cases h1 : s.tables s.wto.type.toNat ≤ select s s.wto.type.toNat (s.tables s.wto.type.toNat) a + 1
        · simp only [h1, true_or, if_true]
        · rw [interp_of_written hw (by omega) (by omega) hp]
          simp only [h1, false_or, if_false]
          cases flt fzero (widen (s.topFreqOf s.wto.type.toNat
            (select s s.wto.type.toNat (s.tables s.wto.type.toNat) a)))
          · simp only [Bool.not_false, if_true, true_or]
          · simp only [Bool.not_true, Bool.false_eq_true, if_false, Bool.true_eq_false, false_or]
            split <;> rfl

/-- A voice's sample over written tables (R251, R263). -/
theorem voiceSample_of_written (hw : TablesWritten s) {p a pw : Double} (hp : phaseInRange p = true)
    (hq : phaseInRange (wrap (fadd p pw)) = true) (d : Nat) :
    voiceSample s p a pw d =
      (let k := select s s.wto.type.toNat (s.tables s.wto.type.toNat) a
       (if s.wto.pwm then fsub (s.readAt k p a) (s.readAt k (wrap (fadd p pw)) a) else s.readAt k p a), d) := by
  simp only [voiceSample, readTable_of_written hw hp, readTable_of_written hw hq]
  split <;> rfl

/-- The parameters of a frame over written words (R251). -/
theorem wtoParams_of_written {i : Nat} (h : ParamsWritten .wto i s) :
    wtoParams s i = ({ f := s.value .wtoFrequency i, d := s.value .wtoDetune i, pw := s.value .wtoPulseWidth i
                       pm := s.value .wtoPhaseMod i, pmd := s.value .wtoPhaseModDepth i
                       sr := widen s.sampleRate }, s.draws) := by
  simp only [wtoParams, param_of_written (h .wtoFrequency rfl), param_of_written (h .wtoDetune rfl),
    param_of_written (h .wtoPulseWidth rfl), param_of_written (h .wtoPhaseMod rfl),
    param_of_written (h .wtoPhaseModDepth rfl)]

/-- The pulse width keeps the second read's phase in range (R263). -/
theorem second_phase {p pw : Double} (hp : phaseInRange p = true) (hpw : Between fzero pw fone) :
    phaseInRange (wrap (fadd p pw)) = true := by
  refine phaseInRange_wrap ?_
  have h1 := fmag_le_of_unit ((phaseInRange_iff p).1 hp).1.1 ((phaseInRange_iff p).1 hp).1.2
  have h2 := fmag_le_of_unit hpw.1 hpw.2
  exact isFinite_of_le (fadd_le _ _ 0x4000000000000000 h1 h2 (by decide) (by decide) (by decide +kernel)) (by decide)

/-- A voice over written words gives its sample, whatever has been drawn, and stores its phase (R251). -/
theorem voice_of_written {i : Nat} (h : ParamsWritten .wto i s) (hw : TablesWritten s) (hr : WtoPhasesInRange s)
    (v : Nat) (dc : Double) (d : Nat) :
    (voice s (wtoParams s i).1 (s.wto.phaseOf v) dc d).sample
        = s.voiceAt i v (select s s.wto.type.toNat (s.tables s.wto.type.toNat) (fabs (s.voiceIncrement i dc))) dc ∧
      Stored (voice s (wtoParams s i).1 (s.wto.phaseOf v) dc d).phase (s.phaseAfter i v dc) := by
  have hv := hr.phase v
  have hpw : Between fzero (s.value .wtoPulseWidth i) fone := by
    have e := param_range s .wtoPulseWidth i 0
    rw [param_of_written (h .wtoPulseWidth rfl)] at e
    have e0 : ofInt Param.wtoPulseWidth.min = fzero := by decide +kernel
    have e1 : ofInt Param.wtoPulseWidth.max = fone := by decide +kernel
    rw [e0, e1] at e
    exact e
  rw [wtoParams_of_written h]
  simp only [voice, voiceSample_of_written hw hv (second_phase hv hpw)]
  exact ⟨rfl, stored_storeDouble _ _⟩

end Sys2Proof.Machine
end

