-- ==== Sys2Proof/Tests/Slice0.lean ====
section
/-! SUPPORT. The model's own tests. Expected words come from spec/95_test_vectors.md, named by their ids, or from the
tables of spec/; the witnesses at the end show, for each obligation with hypotheses, a state and operands that meet
them together. -/

namespace Sys2Proof.Tests

open Sys2Proof Sys2Proof.Machine

set_option Elab.async false

/-! ### well-formedness: a frame count above 16 bits has no encoding (R144) -/

theorem test_wellFormed_refuses_wtoProcess : WellFormed (.wtoProcess 65536) = false := by decide
theorem test_wellFormed_refuses_pboProcess : WellFormed (.pboProcess 65536) = false := by decide
theorem test_wellFormed_refuses_mlfProcess : WellFormed (.mlfProcess 65536) = false := by decide
theorem test_wellFormed_refuses_adsrProcess : WellFormed (.adsrProcess 65536) = false := by decide
theorem test_wellFormed_largest : WellFormed (.wtoProcess 65535) = true := by decide

/-! ### decoding: every constructor from a word written out field by field (R140, R143, R148) -/

theorem test_decode_nop : decode (.cmd 0b0000_0000_00000000_0000000000000000#32) = .ok .nop := by decide
theorem test_decode_initAll : decode (.cmd 0b0000_0001_00000000_0000000000000000#32) = .ok .initAll := by decide
theorem test_decode_resetAll : decode (.cmd 0b0000_0010_00000000_0000000000000000#32) = .ok .resetAll := by decide
theorem test_decode_wtoInit : decode (.cmd 0b0001_0001_00000000_0000000000000000#32) = .ok .wtoInit := by decide
theorem test_decode_wtoReset : decode (.cmd 0b0001_0010_00000000_0000000000000000#32) = .ok .wtoReset := by decide
theorem test_decode_wtoProcess :
    decode (.cmd 0b0001_0011_00000000_0000000000000100#32) = .ok (.wtoProcess 4) := by decide
theorem test_decode_pboInit : decode (.cmd 0b0010_0001_00000000_0000000000000000#32) = .ok .pboInit := by decide
theorem test_decode_pboReset : decode (.cmd 0b0010_0010_00000000_0000000000000000#32) = .ok .pboReset := by decide
theorem test_decode_pboProcess :
    decode (.cmd 0b0010_0011_00000000_1111111111111111#32) = .ok (.pboProcess 65535) := by decide
theorem test_decode_mlfInit : decode (.cmd 0b0011_0001_00000000_0000000000000000#32) = .ok .mlfInit := by decide
theorem test_decode_mlfReset : decode (.cmd 0b0011_0010_00000000_0000000000000000#32) = .ok .mlfReset := by decide
theorem test_decode_mlfProcess :
    decode (.cmd 0b0011_0011_00000000_1000000000000000#32) = .ok (.mlfProcess 32768) := by decide
theorem test_decode_adsrInit : decode (.cmd 0b0100_0001_00000000_0000000000000000#32) = .ok .adsrInit := by decide
theorem test_decode_adsrReset : decode (.cmd 0b0100_0010_00000000_0000000000000000#32) = .ok .adsrReset := by decide
theorem test_decode_adsrProcess :
    decode (.cmd 0b0100_0011_00000000_0000000000000000#32) = .ok (.adsrProcess 0) := by decide
theorem test_decode_busRead :
    decode (.bus 0b0_10000000000000000000000000000001_00000000000000000000000000000000#65)
      = .ok (.busRead 0x80000001) := by decide
theorem test_decode_busWrite :
    decode (.bus 0b1_00000000000000010101000000000000_11000000000000000000000000000011#65)
      = .ok (.busWrite 0x00015000 0xC0000003) := by decide

/-- ERR-1, ERR-8, ERR-9, ERR-10: the illegal words are rejected, each by its own name. -/
theorem test_decode_rejects :
    decode (.cmd 0x50000000) = .error .reservedUnit ∧ decode (.cmd 0x13010004) = .error .reservedBits ∧
    decode (.cmd 0x00000001) = .error .nonzeroArg ∧ decode (.cmd 0x10000000) = .error .reservedOp ∧
    decode (.cmd 0x14000000) = .error .reservedOp ∧ decode (.cmd 0x03000000) = .error .reservedOp := by decide

theorem test_encode_wtoProcess : encode (.wtoProcess 200) = .cmd 0x130000C8 := by decide

/-- The host's two readers of a table row: a 32-bit command word and a bus record. -/
theorem test_decodeTableWord :
    decodeTableWord 32 0x33000004 = some (.mlfProcess 4) ∧ decodeTableWord 32 0x50000000 = none ∧
    decodeTableWord 72 0x1_00000110_43BB8000 = some (.busWrite 0x110 0x43BB8000) ∧
    decodeTableWord 72 0x0_00000000_00000000 = some (.busRead 0) := by decide

/-! ### arithmetic against values the spec gives -/

/-- Literals whose binary64 words the spec writes (R15, ADSR-3). -/
theorem test_literals :
    lit 13 10 = 0x3FF4CCCCCCCCCCCD ∧ fneg (lit 1 1000) = 0xBF50624DD2F1A9FC ∧
    fsub (lit 1 2) (lit 1 1000) = 0x3FDFEF9DB22D0E56 ∧ fmul (ofInt 2) fpi = twoPi := by decide +kernel

/-- The Wrap vectors. -/
theorem test_wrap :
    wrap (fneg (pow2Exact (-60))) = 0 ∧ wrap (fneg (lit 1 4)) = lit 3 4 ∧ wrap (lit 11 4) = lit 3 4 ∧
    wrap (ofInt (-1)) = 0 ∧ wrap (ofInt 1) = 0 ∧ wrap 0 = 0 := by decide +kernel

/-- The Wrap2 vectors. -/
theorem test_wrap2 :
    wrap2 (ofInt (-1)) = ofInt 1 ∧ wrap2 (fneg (lit 1 4)) = lit 3 4 ∧ wrap2 (fneg (lit 5 2)) = lit 1 2 ∧
    wrap2 (ofInt 1) = 0 ∧ wrap2 (fneg (pow2Exact (-60))) = ofInt 1 ∧ wrap2 (lit 1 2) = lit 1 2 := by decide +kernel

/-- The corrections at dt = 1/64. -/
theorem test_corrections :
    blep 0 (lit 1 64) = ofInt (-1) ∧ blep (lit 1 128) (lit 1 64) = fneg (lit 1 4) ∧
    blep (lit 127 128) (lit 1 64) = lit 1 4 ∧ blep (lit 1 2) (lit 1 64) = 0 ∧
    blamp 0 (lit 1 64) = lit 1 3 ∧ f32 (blamp (lit 1 128) (lit 1 64)) = f32 (lit 1 24) ∧
    f32 (blamp (lit 127 128) (lit 1 64)) = f32 (lit 1 24) ∧ blamp (lit 1 2) (lit 1 64) = 0 := by decide +kernel

/-- The shape table at dt = 1/64, pw = 0.5 and t = 0.25, for the shapes without SIN. -/
theorem test_shapes_at_quarter :
    let v := fun c => f32 (shape c (lit 1 4) (lit 1 64) (lit 1 2))
    v 1 = 0x3F7AAAAB ∧ v 2 = f32 (ofInt 1) ∧ v 3 = f32 (lit 1 2) ∧ v 4 = f32 (lit 1 2) ∧ v 5 = f32 (ofInt 1) ∧
    v 8 = 0x3F7AAAAB ∧ v 9 = f32 (ofInt 1) ∧ v 10 = f32 (ofInt 1) ∧ v 11 = f32 (ofInt 1) ∧ v 12 = 0x3FBAAAAB ∧
    v 13 = 0 ∧ v 15 = 0 := by decide +kernel

/-- The shape table at t = 0.75. -/
theorem test_shapes_at_three_quarters :
    let v := fun c => f32 (shape c (lit 3 4) (lit 1 64) (lit 1 2))
    v 1 = 0xBF7AAAAB ∧ v 2 = f32 (ofInt (-1)) ∧ v 3 = f32 (fneg (lit 1 2)) ∧ v 4 = f32 (fneg (lit 1 2)) ∧
    v 5 = f32 (ofInt (-1)) ∧ v 8 = 0xBF7AAAAB ∧ v 9 = f32 (ofInt (-1)) ∧ v 10 = f32 (ofInt (-1)) ∧
    v 11 = f32 (ofInt (-1)) ∧ v 12 = f32 (fneg (lit 1 2)) := by decide +kernel

/-- RECTANGLE with pw = 0.25 at t = 0, 0.125, 0.25 and 0.5. -/
theorem test_rectangle :
    let v := fun t => shape 5 t (lit 1 64) (lit 1 4)
    v 0 = lit 1 2 ∧ v (lit 1 8) = lit 3 2 ∧ v (lit 1 4) = lit 1 2 ∧ v (lit 1 2) = fneg (lit 1 2) := by decide +kernel

/-! ### one step of each instruction -/

/-- The state a meaning leaves. -/
def after (a : Answer) : State :=
  match a with
  | .next s => s
  | .fault _ => State.reset
  | .refused _ => State.reset

/-- The state after one transaction from s. -/
def run (i : Instr) (s : State) : State := after (exec i s)

/-- A state with some words written to RAM. -/
def withWords (l : List (Nat × Word)) (s : State) : State := l.foldl (fun t p => t.putWord p.1 p.2) s

/-- A state in which every unit is initialized. -/
def initialized : State := run .initAll State.reset

theorem test_busRead_constant : (run (.busRead 0x000) State.reset).readData = 0x4C534331 := by decide +kernel

/-- ERR-2: a misaligned read. -/
theorem test_busRead_misaligned :
    (run (.busRead 0x00000102) { State.reset with readData := 0xFFFFFFFF }).readData = 0 ∧
    (run (.busRead 0x00000102) State.reset).status.word = 0x50000010 := by decide +kernel

/-- R182's example: `wr WTO_FREQUENCY, f32(375.0)`. -/
theorem test_busWrite_frequency :
    (run (.busWrite 0x110 0x43BB8000) State.reset).wto.frequency = 0x43BB8000 := by decide +kernel

/-- ERR-12: a spread above the range is clamped and recorded. -/
theorem test_busWrite_spread :
    (run (.busWrite 0x108 0x45BB8000) State.reset).wto.unisonSpread = 0x45960000 ∧
    (run (.busWrite 0x108 0x45BB8000) State.reset).status.word = 0x30000004 := by decide +kernel

theorem test_nop : run .nop initialized = initialized := rfl

/-- LC-0b. -/
theorem test_initAll : (run .initAll State.reset).status.word = 0x000F0000 := by decide +kernel

/-- LC-5: INIT bits are kept. -/
theorem test_resetAll :
    let s := { initialized with pbo := { initialized.pbo with t := lit 1 2 } }
    (run .resetAll s).pbo.t = 0 ∧ (run .resetAll s).status.word = 0x000F0000 := by decide +kernel

/-- LC-0. -/
theorem test_wtoInit : (run .wtoInit State.reset).status.word = 0x00010000 := by decide +kernel

theorem test_wtoReset :
    let s := { State.reset with wto := { Wto.reset with phase := Vector.replicate 16 (lit 1 2) } }
    (run .wtoReset s).wto.phaseOf 15 = 0 ∧ (run .wtoReset s).status.word = 0 := by decide +kernel

/-- The ramp table's first samples (section 4's common setup) and a WTO that plays it. -/
def ramp (frequency : Word) : State :=
  withWords [(0x00200000, 0x00000000), (0x00200004, 0x3A000000)]
    { initialized with
      wto := { initialized.wto with type := 4, frequency := frequency }
      numTables := initialized.numTables.set 4 1 }

/-- WTO-1, its first two frames. -/
theorem test_wtoProcess_ramp :
    let t := run (.wtoProcess 2) (ramp 0x40BB8000)
    t.mem.word? 0x00015000 = some 0x00000000 ∧ t.mem.word? 0x00015004 = some 0x39000000 ∧
    t.wto.phaseOf 0 = lit 2 8192 ∧ t.status.word = 0x000F0100 := by decide +kernel

/-- WTO-6b: three voices at 6000 Hz spread by 2400 cents; the phases after one frame are one third of those given
after three. -/
theorem test_wtoProcess_unison :
    let s := ramp 0x45BB8000
    let u := { s with wto := { s.wto with unisonCount := 3, unisonSpread := 0x45160000 } }
    let t := run (.wtoProcess 1) u
    t.wto.phaseOf 0 = lit 1 16 ∧ t.wto.phaseOf 1 = lit 1 8 ∧ t.wto.phaseOf 2 = lit 1 4 ∧ t.wto.phaseOf 3 = 0 := by
  decide +kernel

theorem test_pboInit : (run .pboInit State.reset).status.word = 0x00020000 := by decide +kernel

theorem test_pboReset :
    (run .pboReset { State.reset with pbo := { Pbo.reset with t := lit 1 2 } }).pbo.t = 0 := by decide +kernel

/-- PBO-1, its first two frames. -/
theorem test_pboProcess_square :
    let s := { initialized with pbo := { initialized.pbo with shape := 2, frequency := 0x443B8000 } }
    let t := run (.pboProcess 2) s
    t.mem.word? 0x0001C000 = some 0x00000000 ∧ t.mem.word? 0x0001C004 = some 0x3F800000 ∧
    t.pbo.t = lit 2 64 := by decide +kernel

/-- PBO-5: a step of -1.0 leaves the phase at exactly 1.0. -/
theorem test_pboProcess_two_sided :
    let s := { initialized with pbo := { initialized.pbo with
      shape := 2, frequency := 0x443B8000, phaseMod := 0xBF800000, phaseModDepth := 0x42820000 } }
    let t := run (.pboProcess 1) s
    t.mem.word? 0x0001C000 = some 0x00000000 ∧ t.pbo.t = ofInt 1 := by decide +kernel

theorem test_mlfInit : (run .mlfInit State.reset).status.word = 0x00040000 := by decide +kernel

theorem test_mlfReset :
    let s := { State.reset with mlf := { Mlf.reset with bout := Vector.replicate 4 (lit 1 2) } }
    (run .mlfReset s).mlf = Mlf.reset := by decide +kernel

/-- MLF-2, its first two frames. -/
theorem test_mlfProcess_modelB :
    let s := withWords [(0x00022000, 0x3F800000), (0x00022004, 0x00000000)] { initialized with
      mlf := { initialized.mlf with
        modelB := true, inputConnected := true, cutoffB := 0x3F000000, resonanceB := 0x00000000 } }
    let t := run (.mlfProcess 2) s
    t.mem.word? 0x00023000 = some 0x3D224B26 ∧ t.mem.word? 0x00023004 = some 0x3DE9B3E4 := by decide +kernel

/-- MLF-1, one frame: Model A with zero input. -/
theorem test_mlfProcess_modelA :
    let s := withWords [(0x00022000, 0x00000000)] { initialized with
      mlf := { initialized.mlf with inputConnected := true } }
    let t := run (.mlfProcess 1) s
    t.mem.word? 0x00023000 = some 0x00000000 ∧ t.mlf.dv[0] = 0x0000000000000000 ∧
    t.mlf.dv[1] = 0x8000000000000000 ∧ t.mlf.v[3] = 0 := by decide +kernel

theorem test_adsrInit : (run .adsrInit State.reset).status.word = 0x00080000 := by decide +kernel

theorem test_adsrReset :
    let s := { State.reset with adsr := { Adsr.reset with phase := .decay, level := fone, prevGate := true } }
    (run .adsrReset s).adsr.stateWord = 0 ∧ (run .adsrReset s).adsr.level = 0 := by decide +kernel

/-- An ADSR with the coefficients ADSR-3 gives for zero times, connected, its gate read per frame. -/
def zeroTimes : Adsr := { Adsr.reset with
  attackTime := 0, decayTime := 0, releaseTime := 0, inputConnected := true, paramMode := 1
  coefs :=
    { attackCoef := 0, attackBase := 0x3FF4CCCCCCCCCCCD, decayCoef := 0, decayBase := 0x3FDFEF9DB22D0E56
      releaseCoef := 0, releaseBase := 0xBF50624DD2F1A9FC } }

/-- ADSR-3: the coefficients of zero times, whatever the open choices are. -/
theorem test_coefficients_zero_times : coefficients State.reset.sampleRate 0x3F000000 0 0 0 = zeroTimes.coefs := by
  have h : rate 0 (widen State.reset.sampleRate) = adsrEps := by decide +kernel
  rw [coefficients, h, coef_eps (.inl rfl), coef_eps (.inr rfl)]
  decide +kernel

/-- ADSR-3: gate 1, 1, 1, 0, 0 over an input of ones. -/
theorem test_adsrProcess_zero_times :
    let one : Word := 0x3F800000
    let s := withWords [(0x00024000, one), (0x00024004, one), (0x00024008, one), (0x0002400C, 0), (0x00024010, 0),
      (0x00025000, one), (0x00025004, one), (0x00025008, one), (0x0002500C, one), (0x00025010, one)]
      { initialized with adsr := zeroTimes }
    let t := run (.adsrProcess 5) s
    t.mem.word? 0x00026000 = some 0x3F800000 ∧ t.mem.word? 0x00026004 = some 0x3F000000 ∧
    t.mem.word? 0x00026008 = some 0x3F000000 ∧ t.mem.word? 0x0002600C = some 0x00000000 ∧
    t.mem.word? 0x00026010 = some 0x00000000 ∧ t.adsr.stateWord = 0x00000100 ∧
    t.status.word = 0x000F0800 := by decide +kernel

/-! ### the step and its queue -/

/-- ERR-16: from reset, `process 1, 200`, through the queue. -/
theorem test_step_runs_the_fetched_word :
    (after (step (State.reset.withFetchWord 32 0x130000C8))).status.word = 0x20000002 ∧
    (after (step (State.reset.withFetchWord 72 0x1_00000110_43BB8000))).wto.frequency = 0x43BB8000 := by
  decide +kernel

/-! ### witnesses: for each obligation with hypotheses, a state and operands that meet them together, at the bounds of
each clause -/

theorem reset_registersLegal : RegistersLegal State.reset := by
  refine ⟨by decide +kernel, by decide, ⟨by decide +kernel, by decide +kernel⟩, by decide +kernel,
    ⟨by decide +kernel, by decide +kernel⟩, ⟨by decide +kernel, by decide +kernel⟩, ?_, by decide, ?_⟩
  · intro t
    simp only [State.tables, State.reset]
    rw [Vector.getElem?_replicate]
    split <;> decide
  · exact ⟨fun _ e => by cases e <;> rfl, fun _ => rfl⟩

theorem reset_wtoPhasesInRange : WtoPhasesInRange State.reset := by
  intro v
  have h : State.reset.wto.phaseOf v = fzero := by
    simp only [Wto.phaseOf, State.reset, Wto.reset]
    rw [Vector.getElem?_replicate]
    split <;> rfl
  rw [h]
  exact ⟨by decide, ⟨by decide +kernel, by decide +kernel⟩, by decide⟩

/-- With PARAM_MODE 0 every parameter is a register, so its word is written. -/
theorem paramsWritten_of_scalar (u : UnitId) (i : Nat) (s : State) (h : s.paramMode u = 0) : ParamsWritten u i s := by
  intro p hp
  simp [State.rawParam, hp, h]

/-- A state in which every unit is ready and the host has issued one event. -/
def running (e : HostEvent) : State := { State.reset with
  inbox := [e]
  status := { Status.reset with initWto := true, initPbo := true, initMlf := true, initAdsr := true }
  mlf := { Mlf.reset with inputConnected := true }
  adsr := { Adsr.reset with inputConnected := true } }

/-- A CMD write. -/
def command (w : Word) : HostEvent := .transaction (busRecord true 0x10 w)

theorem running_registersLegal (e : HostEvent) : RegistersLegal (running e) :=
  { reset_registersLegal with lastErr := ⟨Nat.zero_le _, fun _ e => by cases e <;> rfl, fun _ => rfl⟩ }

theorem running_steps (e : HostEvent) : ∃ t, step (running e) = .next t := by
  cases e with
  | transaction r => exact exec_next _ _
  | hardwareReset => exact ⟨_, rfl⟩

theorem witness_DecodeInvertsEncode :
    WellFormed (.wtoProcess 65535) = true ∧ WellFormed (.busWrite 0xFFFFFFFF 0xFFFFFFFF) = true := by decide

theorem witness_EncodeInvertsDecode :
    decode (.cmd 0x1300FFFF) = .ok (.wtoProcess 65535) ∧ (BitVec.ofNat 65 (2 ^ 64)).getLsbD 64 = true ∧
    (BitVec.ofNat 65 (2 ^ 64 - 1)).getLsbD 64 = false := by decide

theorem witness_CommandMap :
    (⟨"MLF.PROCESS", 0x33000000, 0xFFFF0000, fun n => .mlfProcess n⟩ : CommandRow).selects 0x3300FFFF = true ∧
    legalCommand 0x3300FFFF = true ∧ legalCommand 0x34000000 = false := by decide

theorem witness_StepRunsDecoded :
    (running (.transaction (busRecord true 0x110 0))).inbox = .transaction (busRecord true 0x110 0) :: [] ∧
    decode (.bus (busRecord true 0x110 0)) = .ok (.busWrite 0x110 0) ∧
    (running (command 0x2300FFFF)).inbox = .transaction (busRecord true 0x10 0x2300FFFF) :: [] ∧
    decode (.cmd 0x2300FFFF) = .ok (.pboProcess 65535) ∧ State.reset.inbox = [] :=
  ⟨rfl, by decide, rfl, by decide, rfl⟩

theorem witness_HardwareReset : (running .hardwareReset).inbox = .hardwareReset :: [] := rfl

theorem witness_MisalignedAccess :
    (0x00000001 : Word).toNat % 4 ≠ 0 ∧ (0xFFFFFFFF : Word).toNat % 4 ≠ 0 ∧ (0x00010002 : Word).toNat % 4 ≠ 0 := by
  decide

theorem witness_UnmappedAccess :
    ∀ a ∈ ([0x018, 0x0FC, 0x124, 0x17C, 0x248, 0x31C, 0x33C, 0x3E0, 0x424, 0x444, 0x480, 0x7FC, 0x814, 0xA40, 0xFFFC,
      0x10200, 0x15200, 0x27000, 0xFFFFC, 0x102000, 0x240000, 0xFFFFFFFC] : List Word),
      a.toNat % 4 = 0 ∧ ¬ InMap a.toNat := by
  intro a ha
  fin_cases ha <;> exact ⟨by decide, by simp [InMap]⟩

/-- A read of a RAM word that is written, of one that is not, and of a register word; the last member of each bank; a
state in each envelope phase. -/
theorem witness_ReadChangesNothing :
    InMap (0x00010000 : Word).toNat ∧ InRam (0x00010000 : Word).toNat ∧
    (withWords [(0x00010000, 7)] State.reset).mem.word? (0x00010000 : Word).toNat = some 7 ∧
    InRam (0x0023DFFC : Word).toNat ∧ State.reset.mem.word? (0x0023DFFC : Word).toNat = none ∧
    InMap (0xA3C : Word).toNat ∧ ¬ InRam (0xA3C : Word).toNat ∧ (15 < 16 ∧ 3 < 4 ∧ 4 < 5) ∧
    ∀ ph : AdsrPhase, ∃ s : State, s.adsr.phase = ph :=
  ⟨by simp [InMap], by simp [InRam, InMap], by decide, by simp [InRam, InMap], by decide, by simp [InMap],
    by simp [InRam], by decide,
    fun ph => ⟨{ State.reset with adsr := { State.reset.adsr with phase := ph } }, rfl⟩⟩

theorem witness_RamWrite :
    ∀ a ∈ ([0x00010000, 0x000101FC, 0x00026000, 0x000261FC, 0x00100000, 0x00101FFC, 0x0023C000, 0x0023DFFC] :
      List Word), InRam a.toNat := by
  intro a ha
  fin_cases ha <;> simp [InRam, InMap]

theorem witness_ReadOnlyWrite :
    (∀ a ∈ ([0x000, 0x008, 0x180, 0x1FC, 0x240, 0x244, 0x340, 0x3DC, 0x440, 0x448, 0x47C] : List Word),
      InReadOnly a.toNat) ∧
    RegistersLegal State.reset ∧ (0xFFFFFFE0 : Word) &&& 0x1F = 0 := by
  refine ⟨?_, reset_registersLegal, by decide⟩
  intro a ha
  fin_cases ha <;> simp [InReadOnly]

/-- A STATUS with one error left and one with none. -/
theorem witness_StatusWrite :
    (∀ e, (Status.clear 0xFFFFFFFF (Status.reset.withError .len)).sticky e = false) ∧
    (Status.clear 0x1D (Status.reset.withError .len)).sticky .len = true := by
  refine ⟨fun e => ?_, by decide⟩
  cases e <;> decide

theorem witness_SampleRateWrite :
    isFinite (widen 0x3F800000) = true ∧ fle fone (widen 0x3F800000) = true ∧
    Between fzero (widen State.reset.adsr.sustainLevel) fone ∧
    (isFinite (widen 0x3F7FFFFF) && fle fone (widen 0x3F7FFFFF)) = false ∧
    (isFinite (widen 0x7F800000) && fle fone (widen 0x7F800000)) = false ∧
    (isFinite (widen 0x7FC00000) && fle fone (widen 0x7FC00000)) = false :=
  ⟨by decide +kernel, by decide +kernel, ⟨by decide +kernel, by decide +kernel⟩, by decide +kernel,
    by decide +kernel, by decide +kernel⟩

theorem witness_UnisonSpreadWrite :
    isNaN32 0x7F800001 = true ∧ isNaN32 0x7F800000 = false ∧ isNaN32 0x45960000 = false := by decide

theorem witness_AdsrSettingWrites :
    (0x420 : Word) ∈ ([0x40C, 0x410, 0x414, 0x418, 0x41C, 0x420] : List Word) ∧ isNaN32 0xFFFFFFFF = true ∧
    isNaN32 0xFF800000 = false ∧ Between fzero (widen State.reset.adsr.sustainLevel) fone :=
  ⟨by decide, by decide, by decide, by decide +kernel, by decide +kernel⟩

theorem witness_TableRegisterWrites :
    4 < 5 ∧ 15 < 16 ∧ ∀ a ∈ ([0x814, 0x8FC, 0xA40, 0xFFFC] : List Word), a.toNat % 4 = 0 ∧
      ((0x814 ≤ a.toNat ∧ a.toNat ≤ 0x8FC) ∨ (0xA40 ≤ a.toNat ∧ a.toNat ≤ 0xFFFC)) := by
  refine ⟨by decide, by decide, fun a ha => ?_⟩
  fin_cases ha <;> simp

theorem witness_ControlRegisterWrites :
    ((0x404, 0x00000001) : Word × Word) ∈ ([ (0x100, 0x0000030F), (0x10C, 0x0000001F), (0x200, 0x0000000F),
      (0x204, 0x0000003F), (0x300, 0x00000003), (0x304, 0x0000001F), (0x400, 0x00000003), (0x404, 0x00000001) ] :
      List (Word × Word)) := by decide

theorem witness_CommandWrite : legalCommand 0x4300FFFF = true ∧ legalCommand 0x53000000 = false := by decide

theorem witness_AtMostOneError :
    ∃ t, exec (.busRead 1) State.reset = .next t ∧ State.reset.status.sticky .align = false ∧
      t.status.sticky .align = true := ⟨_, rfl, by decide, by decide⟩

theorem witness_InitFlags :
    (Instr.wtoInit = UnitId.initCmd .wto ∨ Instr.wtoInit = .initAll) ∧
    (running (command 0x13000001)).inbox.head? ≠ some .hardwareReset ∧
    (∃ t, step (running (command 0x13000001)) = .next t) ∧
    (running (command 0x13000001)).status.init .wto = true ∧
    (∃ t, exec (.busWrite 0x010 0x11000000) State.reset = .next t ∧ State.reset.status.init .wto = false ∧
      t.status.init .wto = true) :=
  ⟨.inl rfl, by decide, running_steps _, rfl, _, rfl, rfl, rfl⟩

theorem witness_NonsilentFlags :
    (∃ t, exec (.pboProcess 1) (running .hardwareReset) = .next t) ∧
    ∀ n, Instr.pboProcess 1 ≠ UnitId.processCmd .wto n ∧
      ∀ w, Instr.pboProcess 1 = .busWrite 0x010 w → decode (.cmd w) ≠ .ok (UnitId.processCmd .wto n) :=
  ⟨exec_next _ _, fun _ => ⟨nofun, nofun⟩⟩

theorem witness_NopDoesNothing :
    ∀ w ∈ ([0x01000000, 0x02000000] : List (BitVec 32)),
      legalCommand w = true ∧ cmdUnit w = 0 ∧ cmdArg w = 0 ∧ w ≠ 0 := by
  intro w hw
  fin_cases hw <;> decide

theorem witness_UnitInit : Between fzero (widen State.reset.adsr.sustainLevel) fone :=
  ⟨by decide +kernel, by decide +kernel⟩

theorem witness_ProcessTooLong : 128 < 129 ∧ 128 < 65535 := by omega

theorem witness_SilentProcess :
    128 ≤ 128 ∧ UnitId.ready .adsr State.reset = false ∧
    ∃ t1 t2, exec (.adsrProcess 0) State.reset = .next t1 ∧ exec (.adsrProcess 0) t1 = .next t2 :=
  ⟨by decide, rfl, _, _, rfl, rfl⟩

theorem witness_ProcessWritesItsFrames : (0 < 1 ∧ 1 ≤ 128) ∧ (0 < 128 ∧ 128 ≤ 128) := by decide

theorem witness_ProcessIsItsFrames (u : UnitId) : 0 < 128 ∧ 128 ≤ 128 ∧ u.ready (running .hardwareReset) = true := by
  cases u <;> decide

/-- Two states that differ in another unit and in its memory. -/
theorem witness_UnitIsolation :
    RegistersLegal State.reset ∧ AgreesFor .pbo State.reset { State.reset with
      wto := { Wto.reset with phase := Vector.replicate 16 fone }
      mem := Memory.setWord [] 0x00010000 7 } :=
  ⟨reset_registersLegal, rfl, rfl, rfl, rfl,
    fun a ha => (Memory.get_setWord_of_ne _ _ _ _ (.inr (by have := ha.1; omega))).symm, nofun⟩

/-- The bounds, and the last frame of the gate with its mode bit 1 and 0. -/
theorem witness_ParameterClamp :
    fle (ofInt (-4800)) (ofInt 4800) = true ∧ isNaN fnan = true ∧
    Between (ofInt (-4800)) 0x8000000000000000 (ofInt 4800) ∧ Between (ofInt (-4800)) (ofInt 4800) (ofInt 4800) ∧
    flt (ofInt (-4801)) (ofInt (-4800)) = true ∧ flt (ofInt 4800) (ofInt 4801) = true ∧
    (⟨.adsr, .adsrGate, 0x408, 0x00024000, 0x404, 0, 0, 0, 1⟩ : ParamRow) ∈ paramRows ∧
    (withWords [(0x000241FC, 7)] { State.reset with adsr := { Adsr.reset with paramMode := 1 } }).rawParam .adsrGate 127
      = some 7 ∧
    State.reset.rawParam .adsrGate 127 = some 0 :=
  ⟨by decide +kernel, by decide +kernel, ⟨by decide +kernel, by decide +kernel⟩,
    ⟨by decide +kernel, by decide +kernel⟩, by decide +kernel, by decide +kernel, by simp [paramRows],
    by decide +kernel, by decide +kernel⟩

/-- A table whose first n samples are written. -/
def filled : Nat → Memory
  | 0 => []
  | n + 1 => (filled n).setWord (tableAddr 0 0 n) 0x3F800000

theorem filled_word (n j : Nat) (h : j < n) : (filled n).word? (tableAddr 0 0 j) = some 0x3F800000 := by
  induction n with
  | zero => omega
  | succ n ih =>
    rcases Nat.lt_or_ge j n with hj | hj
    · rw [filled, Memory.word?_setWord_of_ne _ _ _ _ (.inl (by simp only [tableAddr]; omega)), ih hj]
    · rw [show j = n by omega, filled, Memory.word?_setWord]

/-- One SINE table is loaded. -/
def loaded (m : Memory) : State := { State.reset with numTables := #v[1, 0, 0, 0, 0], mem := m }

theorem loaded_registersLegal (m : Memory) : RegistersLegal (loaded m) :=
  { reset_registersLegal with
    numTables := fun t => by
      rcases Nat.lt_or_ge t 5 with h | h
      · match t, h with
        | 0, _ | 1, _ | 2, _ | 3, _ | 4, _ => simp [State.tables, loaded]
      · simp [State.tables, loaded, h] }

theorem loaded_tablesWritten (m : Memory) (h : ∀ j, j < 2048 → m.word? (tableAddr 0 0 j) = some 0x3F800000) :
    TablesWritten (loaded m) := by
  intro _ k hk j hj
  have h1 : (loaded m).tables (loaded m).wto.type.toNat = 1 := rfl
  have hw : (loaded m).mem.word? (tableAddr (loaded m).wto.type.toNat k j) = some 0x3F800000 := by
    rw [show k = 0 by omega]
    exact h j hj
  rw [hw]
  rfl

/-- All 2048 samples of the table are written, and the table is the one selected at every increment. -/
theorem witness_WtoFrame (a : Double) :
    let s := loaded (filled 2048)
    ParamsWritten .wto 127 s ∧ TablesWritten s ∧ WtoPhasesInRange s ∧ RegistersLegal s ∧
    (0 < max 1 s.wto.unisonCount.toNat ∧ s.wto.type.toNat ≤ 4 ∧ 0 < s.tables s.wto.type.toNat) ∧ s.Selects a 0 ∧
    max 1 s.wto.unisonCount.toNat ≤ 15 :=
  ⟨paramsWritten_of_scalar _ _ _ rfl, loaded_tablesWritten _ (filled_word 2048), reset_wtoPhasesInRange,
    loaded_registersLegal _, ⟨by decide, by decide, by decide⟩,
    ⟨by decide, fun _ h => absurd h (Nat.not_lt_zero _), .inl rfl⟩, by decide⟩

theorem witness_UnisonZeroIsOne :
    ∃ t0, exec (.wtoProcess 128) { State.reset with wto := { State.reset.wto with unisonCount := 0 } } = .next t0 :=
  exec_next _ _

theorem witness_WtoSilentWithoutTables :
    let s : State := { State.reset with wto := { State.reset.wto with type := 5, unisonCount := 16 } }
    (4 < s.wto.type.toNat ∧ s.wto.unisonCount.toNat ≤ 16 ∧ ParamsWritten .wto 0 s) ∧
    (State.reset.tables State.reset.wto.type.toNat = 0 ∧ State.reset.wto.unisonCount.toNat ≤ 16) :=
  ⟨⟨by decide, by decide, paramsWritten_of_scalar _ _ _ rfl⟩, by decide, by decide⟩

theorem witness_InterpolationIndex :
    (Between fzero 0x0000000000000000 fone ∧ (0x0000000000000000 : Double) ≠ fone) ∧
    (Between fzero 0x3FEFFFFFFFFFFFFF fone ∧ (0x3FEFFFFFFFFFFFFF : Double) ≠ fone) :=
  ⟨⟨⟨by decide +kernel, by decide +kernel⟩, by decide⟩, ⟨by decide +kernel, by decide +kernel⟩, by decide⟩

theorem witness_PhaseWrap :
    (fle fone (fsub 0x8000000000000001 (ffloor 0x8000000000000001)) = true ∧
      fle fone (fsub fone (ffloor fone)) = false) ∧
    isFinite 0x7FEFFFFFFFFFFFFF = true ∧ isFinite 0x8000000000000001 = true ∧
    (fsign 0x3FEFFFFFFFFFFFFF = false ∧ Between fzero 0x3FEFFFFFFFFFFFFF fone ∧
      (0x3FEFFFFFFFFFFFFF : Double) ≠ fone) :=
  ⟨by decide +kernel, by decide, by decide, by decide, ⟨by decide +kernel, by decide +kernel⟩, by decide⟩

theorem witness_PboFrame : ParamsWritten .pbo 127 State.reset := paramsWritten_of_scalar _ _ _ rfl

/-- Whichever way PB_SINE_FALLBACK is set (log 7), dt = 0.25 meets one clause, and dt = 0 the second. -/
theorem witness_ShapeSelection :
    ((Config.pbSineFallback = true ∧ fle (lit 1 4) (lit 1 4) = true) ∨
      (Config.pbSineFallback = false ∨ fle (lit 1 4) (lit 1 4) = false)) ∧
    (fle (lit 1 4) fzero = false ∧ 13 ≤ 13) := by
  refine ⟨?_, by decide +kernel, by decide⟩
  cases Config.pbSineFallback
  · exact .inr (.inl rfl)
  · exact .inl ⟨rfl, by decide +kernel⟩

/-- The first branch at t = 0 and the least dt; the second at t = 1 and dt = 2^-53; neither at t = dt = 1/2. -/
theorem witness_NoCorrectionAtZeroIncrement :
    flt fzero 0x0000000000000001 = true ∧
    (flt fone 0x3CA0000000000000 = false ∧ flt (fsub fone 0x3CA0000000000000) fone = true) ∧
    (flt (lit 1 2) (lit 1 2) = false ∧ flt (fsub fone (lit 1 2)) (lit 1 2) = false) ∧
    Between fzero fzero fone ∧ Between fzero fone fone :=
  ⟨by decide +kernel, by decide +kernel, by decide +kernel, ⟨by decide +kernel, by decide +kernel⟩, by decide +kernel,
    by decide +kernel⟩

theorem witness_TwoSidedWrap :
    (isFinite 0x8000000000000000 = true ∧ fle fzero 0x8000000000000000 = true) ∧
    (isFinite 0x7FEFFFFFFFFFFFFF = true ∧ fle fzero 0x7FEFFFFFFFFFFFFF = true) ∧
    (flt 0x8000000000000001 fzero = true ∧ flt (ofInt (-4503599627370496)) 0x8000000000000001 = true) ∧
    (flt 0xC32FFFFFFFFFFFFF fzero = true ∧ flt (ofInt (-4503599627370496)) 0xC32FFFFFFFFFFFFF = true) ∧
    (0 ≤ fval 0x7FEFFFFFFFFFFFFF ∧ 0 ≤ fval 0x8000000000000000 ∧ fval 0x8000000000000000 ≤ 0 ∧
      fle fzero 0x8000000000000001 = false) := by
  decide +kernel

/-- A state with the last MLF and ADSR input frames written. -/
def lastInput : State := withWords [(0x000221FC, 0x3F800000), (0x000251FC, 0x3F800000)] State.reset

theorem witness_ModelAFrame :
    ParamsWritten .mlf 127 lastInput ∧ lastInput.mem.word? (ramAddr .mlfIn 127) = some 0x3F800000 ∧
    lastInput.mlf.modelB = false := ⟨paramsWritten_of_scalar _ _ _ rfl, by decide, rfl⟩

theorem witness_ModelBFrame :
    let s : State := { lastInput with mlf := { lastInput.mlf with modelB := true } }
    ParamsWritten .mlf 127 s ∧ s.mem.word? (ramAddr .mlfIn 127) = some 0x3F800000 ∧ s.mlf.modelB = true :=
  ⟨paramsWritten_of_scalar _ _ _ rfl, by decide, rfl⟩

theorem witness_SilentInputKeepsFilterSilent :
    let s := withWords [(0x00022000, 0)] (running .hardwareReset)
    0 < 1 ∧ 1 ≤ 128 ∧ RegistersLegal s ∧ UnitId.ready .mlf s = true ∧
    (∀ i, i < 1 → s.mem.word? (ramAddr .mlfIn i) = some 0x00000000) ∧ s.mlf.v = Vector.replicate 4 0 ∧
    (∀ k (h : k < 4), isZero s.mlf.dv[k] = true) ∧ s.mlf.tv = Vector.replicate 4 0 ∧
    s.mlf.bin = Vector.replicate 4 0 ∧ s.mlf.bout = Vector.replicate 4 0 :=
  ⟨by decide, by decide, { running_registersLegal .hardwareReset with }, rfl, by decide, rfl, by decide, rfl, rfl, rfl⟩

/-- Every phase, with the gate open and closed before. -/
theorem witness_AdsrFrame (ph : AdsrPhase) (g : Bool) :
    let s : State := { lastInput with adsr := { lastInput.adsr with phase := ph, prevGate := g } }
    ParamsWritten .adsr 127 s ∧ s.mem.word? (ramAddr .adsrIn 127) = some 0x3F800000 :=
  ⟨paramsWritten_of_scalar _ _ _ rfl, by cases ph <;> cases g <;> decide⟩

theorem witness_SegmentDuration :
    isFinite fone = true ∧ fle fone fone = true ∧ fle (widen 0x00000000) fzero = true ∧
    fle (widen 0x80000001) fzero = true ∧ fle (widen 0xFF800000) fzero = true := by decide +kernel

theorem witness_CoefficientRange :
    isFinite (widen 0x3F800000) = true ∧ fle fone (widen 0x3F800000) = true ∧ fle (widen 0x80000000) fzero = true ∧
    fle (rate 0x58800000 (widen 0x3F800000)) (ofInt 1125899906842624) = true := by
  decide +kernel

theorem witness_TranscendentalPoints :
    fle (ofInt (-1000)) (ofInt (-1000)) = true ∧ fle 0x8000000000000000 fzero = true ∧
    (isFinite 0x3FF0000000000001 = true ∧ flt fone 0x3FF0000000000001 = true) ∧
    (isFinite 0x7FEFFFFFFFFFFFFF = true ∧ flt fone 0x7FEFFFFFFFFFFFFF = true) ∧ isNaN 0xFFF0000000000000 = false ∧
    ((-1022 : Int) ≤ -1022 ∧ (1023 : Int) ≤ 1023) ∧ Between (ofInt (-16)) (ofInt (-16)) (ofInt 16) ∧
    Between (ofInt (-16)) (ofInt 16) (ofInt 16) ∧
    (fle fzero 0x0000000000000001 = true ∧ flt fzero 0x0000000000000001 = true ∧
      isFinite 0x0000000000000001 = true) ∧
    (fle 0xFFF0000000000000 0x7FF0000000000000 = true ∧ flt fzero 0x7FEFFFFFFFFFFFFF = true ∧
      fval 0x8000000000000000 = (0 : Int)) :=
  ⟨by decide +kernel, by decide +kernel, by decide +kernel, by decide +kernel, by decide, by decide,
    ⟨by decide +kernel, by decide +kernel⟩, ⟨by decide +kernel, by decide +kernel⟩, by decide +kernel,
    by decide +kernel⟩

/-- From the decimal expansions of e (2.71828182845904523536...) and of ln 2 (0.69314718055994530941...), rounded down
to binary64. -/
theorem test_transcendental_references :
    expRef fone = 0x4005BF0A8B145769 ∧ logRef 0x4000000000000000 = 0x3FE62E42FEFA39EF := by
  decide +kernel

theorem witness_StepKeepsMemoryCanonical :
    (running (command 0x13000080)).mem.wf = true ∧ ∃ t, step (running (command 0x13000080)) = .next t :=
  ⟨rfl, running_steps _⟩

theorem witness_StepKeepsRegistersLegal :
    RegistersLegal (running (.transaction (busRecord true 0x104 0xFFFFFFFF))) ∧
    ∃ t, step (running (.transaction (busRecord true 0x104 0xFFFFFFFF))) = .next t :=
  ⟨running_registersLegal _, running_steps _⟩

theorem witness_StepKeepsWtoPhases :
    RegistersLegal (running (command 0x13000080)) ∧ WtoPhasesInRange (running (command 0x13000080)) ∧
    ∃ t, step (running (command 0x13000080)) = .next t :=
  ⟨running_registersLegal _, reset_wtoPhasesInRange, running_steps _⟩

theorem witness_StepKeepsPboPhase :
    RegistersLegal (running (command 0x23000080)) ∧ PboPhaseInRange (running (command 0x23000080)) ∧
    ∃ t, step (running (command 0x23000080)) = .next t :=
  ⟨running_registersLegal _, ⟨by decide +kernel, by decide +kernel⟩, running_steps _⟩

theorem witness_StepKeepsIdleLevel :
    AdsrIdleIsZero (running (command 0x43000080)) ∧ ∃ t, step (running (command 0x43000080)) = .next t :=
  ⟨fun _ => rfl, running_steps _⟩

theorem witness_StepKeepsCoefficients :
    RegistersLegal (running (command 0x41000000)) ∧ CoefficientsFollow (running (command 0x41000000)) ∧
    ∃ t, step (running (command 0x41000000)) = .next t := ⟨running_registersLegal _, rfl, running_steps _⟩

end Sys2Proof.Tests
end

section
/-! SUPPORT. What a bus write does to the registers that do not store every word (10_state.md R34, R39, R40, R45, R48):
one equation per branch of each write rule. -/

namespace Sys2Proof.Machine

/-! ### a bus write, and the error it can record -/

/-- A write to a mapped word other than CMD applies the word's write rule (R104, R184). -/
theorem exec_busWrite_mapped {a : Word} {l : Loc} (h : a.toNat % 4 = 0) (hl : locate a.toNat = some l)
    (hc : l ≠ .cmd) (v : Word) (s : State) : exec (.busWrite a v) s = .next (writeLoc v s l) :=
  execBusWrite_mapped a v s l h hl hc

/-- The same at an address given as a number. -/
theorem exec_busWrite_ofNat {n : Nat} {l : Loc} (hn : n < 2 ^ 32) (h : n % 4 = 0) (hl : locate n = some l)
    (hc : l ≠ .cmd) (v : Word) (s : State) :
    exec (.busWrite (BitVec.ofNat 32 n) v) s = .next (writeLoc v s l) := by
  have e : (BitVec.ofNat 32 n).toNat = n := by rw [BitVec.toNat_ofNat, Nat.mod_eq_of_lt hn]
  exact exec_busWrite_mapped (by rw [e]; exact h) (by rw [e]; exact hl) hc v s

/-- An error sets its sticky bit and LAST_ERR and nothing else (R452, R453). -/
theorem raiseError_eq (e : ErrCode) (s : State) : raiseError e s = { s with status := s.status.withError e } := by
  rw [raiseError, raise_eq_withError]

theorem raiseIf_eq_withError (b : Bool) (s : State) :
    raiseIf b s = { s with status := if b then s.status.withError .cfg else s.status } := by
  rw [raiseIf_eq, raise_eq_withError]

/-- A write to an unmapped word address records ERR_ADDR and nothing else (R109, R457). -/
theorem exec_busWrite_unmapped {a : Word} (h : a.toNat % 4 = 0) (hm : ¬ InMap a.toNat) (v : Word) (s : State) :
    exec (.busWrite a v) s = .next { s with status := s.status.withError .addr } := by
  rw [← raiseError_eq]
  exact execBusWrite_unmapped a v s h (locate_none _ h hm)

/-! ### the WARL registers, case by case -/

/-- An accepted SAMPLE_RATE is stored and the coefficients follow it (R34, R405). -/
theorem writeSampleRate_of_legal {v : Word} {s : State} (hv : legalSampleRate v = true)
    (hs : Between fzero (widen s.adsr.sustainLevel) fone) :
    writeSampleRate v s = { s with
      sampleRate := v
      adsr := { s.adsr with
        coefs := coefficients v s.adsr.sustainLevel s.adsr.attackTime s.adsr.decayTime s.adsr.releaseTime } } := by
  rw [writeSampleRate, if_pos hv]
  exact recompute_eq _ hs

theorem writeSampleRate_of_illegal {v : Word} {s : State} (hv : legalSampleRate v = false) :
    writeSampleRate v s = { s with status := s.status.withError .cfg } := by
  rw [writeSampleRate, hv, ← raiseError_eq]
  exact if_neg Bool.false_ne_true

/-- A count clamped to 16 fits the register (R39, R48). -/
theorem toNat_ofNat_min (n : Nat) : (BitVec.ofNat 32 (min n 16)).toNat = min n 16 := by
  rw [BitVec.toNat_ofNat, Nat.mod_eq_of_lt (by omega)]

/-- Both branches of R39 in one state: the count, the phases of a rebuilt voice set, and the error. -/
theorem writeUnisonCount_eq (v : Word) (s : State) :
    writeUnisonCount v s = { s with
      status := if 16 < v.toNat then s.status.withError .cfg else s.status
      wto := { s.wto with
        unisonCount := BitVec.ofNat 32 (min v.toNat 16)
        phase := if BitVec.ofNat 32 (min v.toNat 16) = s.wto.unisonCount then s.wto.phase else phasesZero } } := by
  have hmax : Config.unisonMax = 16 := rfl
  simp only [writeUnisonCount, hmax, raiseError_eq]
  by_cases hn : BitVec.ofNat 32 (min v.toNat 16) = s.wto.unisonCount
  · simp only [if_pos hn]
    rw [hn]
    split <;> rfl
  · simp only [if_neg hn]
    split <;> rfl

theorem writeUnisonSpread_of_nan {v : Word} {s : State} (hv : isNaN32 v = true) :
    writeUnisonSpread v s = { s with status := s.status.withError .cfg } := by
  rw [writeUnisonSpread, if_pos hv, raiseError_eq]

theorem writeUnisonSpread_of_not_nan {v : Word} {s : State} (hv : isNaN32 v = false) :
    writeUnisonSpread v s = { s with
      status := if outside v (ofInt (-4800)) (ofInt 4800) then s.status.withError .cfg else s.status
      wto := { s.wto with unisonSpread := clampWord v (ofInt (-4800)) (ofInt 4800) } } := by
  simp only [writeUnisonSpread, hv, Bool.false_eq_true, if_false, raiseIf_eq_withError]

/-- The six ADSR settings of R45. -/
def adsrSettings : List Loc :=
  [.adsrAttackTime, .adsrAttackLevel, .adsrDecayTime, .adsrSustainTime, .adsrSustainLevel, .adsrReleaseTime]

/-- The six addresses of R44 name the six settings. -/
theorem locate_adsrSetting {a : Word} (ha : a ∈ ([0x40C, 0x410, 0x414, 0x418, 0x41C, 0x420] : List Word)) :
    ∃ l ∈ adsrSettings, a.toNat % 4 = 0 ∧ locate a.toNat = some l ∧ l ≠ .cmd := by
  simp only [List.mem_cons, List.not_mem_nil, or_false] at ha
  rcases ha with rfl | rfl | rfl | rfl | rfl | rfl
  · exact ⟨.adsrAttackTime, by decide⟩
  · exact ⟨.adsrAttackLevel, by decide⟩
  · exact ⟨.adsrDecayTime, by decide⟩
  · exact ⟨.adsrSustainTime, by decide⟩
  · exact ⟨.adsrSustainLevel, by decide⟩
  · exact ⟨.adsrReleaseTime, by decide⟩

/-- A NaN written to an ADSR setting is dropped with ERR_CFG (R45). -/
theorem writeLoc_adsrSetting_of_nan {v : Word} {l : Loc} (s : State) (hv : isNaN32 v = true)
    (hl : l ∈ adsrSettings) : writeLoc v s l = { s with status := s.status.withError .cfg } := by
  rw [← raiseError_eq]
  simp only [adsrSettings, List.mem_cons, List.not_mem_nil, or_false] at hl
  rcases hl with rfl | rfl | rfl | rfl | rfl | rfl
  · exact if_pos hv
  · exact if_pos hv
  · exact if_pos hv
  · exact if_pos hv
  · exact if_pos hv
  · exact if_pos hv

section NotNaN

variable {v : Word} {s : State} (hv : isNaN32 v = false)
include hv

theorem writeAttackTime_of_not_nan (hs : Between fzero (widen s.adsr.sustainLevel) fone) :
    writeAttackTime v s = { s with adsr := { s.adsr with
      attackTime := v
      coefs := coefficients s.sampleRate s.adsr.sustainLevel v s.adsr.decayTime s.adsr.releaseTime } } := by
  rw [writeAttackTime, hv]
  exact recompute_eq _ hs

theorem writeDecayTime_of_not_nan (hs : Between fzero (widen s.adsr.sustainLevel) fone) :
    writeDecayTime v s = { s with adsr := { s.adsr with
      decayTime := v
      coefs := coefficients s.sampleRate s.adsr.sustainLevel s.adsr.attackTime v s.adsr.releaseTime } } := by
  rw [writeDecayTime, hv]
  exact recompute_eq _ hs

theorem writeReleaseTime_of_not_nan (hs : Between fzero (widen s.adsr.sustainLevel) fone) :
    writeReleaseTime v s = { s with adsr := { s.adsr with
      releaseTime := v
      coefs := coefficients s.sampleRate s.adsr.sustainLevel s.adsr.attackTime s.adsr.decayTime v } } := by
  rw [writeReleaseTime, hv]
  exact recompute_eq _ hs

theorem writeSustainTime_of_not_nan :
    writeSustainTime v s = { s with adsr := { s.adsr with sustainTime := v } } := by
  rw [writeSustainTime, hv]
  exact if_neg Bool.false_ne_true

theorem writeAttackLevel_of_not_nan :
    writeAttackLevel v s = { s with
      status := if outside v fzero fone then s.status.withError .cfg else s.status
      adsr := { s.adsr with attackLevel := clampWord v fzero fone } } := by
  simp only [writeAttackLevel, hv, Bool.false_eq_true, if_false, raiseIf_eq_withError]

/-- The stored sustain level is legal whatever was written, so the recompute needs no premise (R45, R405). -/
theorem writeSustainLevel_of_not_nan :
    writeSustainLevel v s = { s with
      status := if outside v fzero fone then s.status.withError .cfg else s.status
      adsr := { s.adsr with
        sustainLevel := clampWord v fzero fone
        coefs := coefficients s.sampleRate (clampWord v fzero fone) s.adsr.attackTime s.adsr.decayTime
          s.adsr.releaseTime } } := by
  simp only [writeSustainLevel, hv, Bool.false_eq_true, if_false, raiseIf_eq_withError]
  exact recompute_eq _ (clampWord_unit v)

end NotNaN

/-! ### the wavetable descriptors -/

/-- Inside the bounds, the total vector write is the bounded one. -/
theorem setIfInBounds_of_lt {α : Type} {n i : Nat} (xs : Vector α n) (x : α) (h : i < n) :
    xs.setIfInBounds i x = xs.set i x h := by
  ext j hj
  rw [Vector.getElem_setIfInBounds, Vector.getElem_set]

theorem writeNumTables_eq {k : Nat} (hk : k < 5) (v : Word) (s : State) :
    writeNumTables k v s = { s with
      status := if 16 < v.toNat then s.status.withError .cfg else s.status
      numTables := s.numTables.set k (BitVec.ofNat 32 (min v.toNat 16)) hk } := by
  have hmax : Config.wtMaxTables = 16 := rfl
  simp only [writeNumTables, hmax, raiseIf_eq_withError, decide_eq_true_eq, setIfInBounds_of_lt _ _ hk]

theorem writeTopFreq_eq {k j : Nat} (h : 16 * k + j < 80) (v : Word) (s : State) :
    writeTopFreq k j v s = { s with topFreq := s.topFreq.set (16 * k + j) v h } := by
  rw [writeTopFreq, setIfInBounds_of_lt _ _ h]

theorem locate_numTables : ∀ k, k < 5 → locate (0x800 + 4 * k) = some (.wtNumTables k) := by decide

theorem locate_topFreq : ∀ k, k < 5 → ∀ j, j < 16 → locate (0x900 + 4 * (16 * k + j)) = some (.wtTopFreq k j) := by
  decide +kernel

theorem reset_tables (k : Nat) : State.reset.tables k = 0 := by
  simp only [State.tables, State.reset]
  rw [Vector.getElem?_replicate]
  split <;> rfl

theorem reset_topFreqOf (k j : Nat) : State.reset.topFreqOf k j = 0 := by
  simp only [State.topFreqOf, State.reset]
  rw [Vector.getElem?_replicate]
  split <;> rfl

end Sys2Proof.Machine
end

section
/-! SUPPORT. The INIT flags (10_state.md R36): which instructions set one, and that no instruction clears one. -/

namespace Sys2Proof.Machine

/-- STATUS in t is that of s, or that of s with ERR_CFG recorded: all a WARL register's write rule can do to it. -/
def CfgAtMost (s t : State) : Prop := t.status = s.status ∨ t.status = s.status.raise .cfg

theorem cfgAtMost_raiseError (s : State) : CfgAtMost s (raiseError .cfg s) := .inr rfl

theorem cfgAtMost_raiseIf (b : Bool) (s : State) : CfgAtMost s (raiseIf b s) := by
  cases b
  · exact .inl rfl
  · exact .inr rfl

theorem CfgAtMost.ite {c : Prop} [Decidable c] {s t r : State} (h1 : CfgAtMost s t) (h2 : CfgAtMost s r) :
    CfgAtMost s (if c then t else r) := by
  split
  · exact h1
  · exact h2

theorem CfgAtMost.recompute {s t : State} (h : CfgAtMost s t) : CfgAtMost s (recompute t) := by
  rw [CfgAtMost, recompute_status]
  exact h

theorem cfgAtMost_writeUnisonCount (v : Word) (s : State) : CfgAtMost s (writeUnisonCount v s) := by
  rw [writeUnisonCount_eq, CfgAtMost, raise_eq_withError]
  dsimp only
  split
  · exact .inr rfl
  · exact .inl rfl

/-- Every write rule but STATUS's own records ERR_CFG at most (R184, R456). -/
theorem cfgAtMost_writeLoc (v : Word) (s : State) (l : Loc) (hl : l ≠ .status) : CfgAtMost s (writeLoc v s l) := by
  have nan {t : State} (ht : CfgAtMost s t) : CfgAtMost s (if isNaN32 v then raiseError .cfg s else t) :=
    (cfgAtMost_raiseError s).ite ht
  have stored {t : State} (ht : t.status = s.status) : CfgAtMost s (recompute t) := CfgAtMost.recompute (.inl ht)
  cases l
  case status => exact absurd rfl hl
  case scalar p => cases p <;> exact .inl rfl
  case paramMode u => cases u <;> exact .inl rfl
  case sampleRate => exact .ite (c := legalSampleRate v = true) (stored rfl) (cfgAtMost_raiseError s)
  case wtoUnisonCount => exact cfgAtMost_writeUnisonCount v s
  case wtoUnisonSpread => exact nan (cfgAtMost_raiseIf _ s)
  case adsrAttackTime => exact nan (stored rfl)
  case adsrDecayTime => exact nan (stored rfl)
  case adsrReleaseTime => exact nan (stored rfl)
  case adsrSustainTime => exact nan (.inl rfl)
  case adsrAttackLevel => exact nan (cfgAtMost_raiseIf _ s)
  case adsrSustainLevel => exact nan (CfgAtMost.recompute (cfgAtMost_raiseIf _ s))
  case wtNumTables t => exact cfgAtMost_raiseIf _ s
  all_goals exact .inl rfl

/-- No register write changes an INIT flag (R36, R187). -/
@[simp] theorem writeLoc_init (v : Word) (s : State) (l : Loc) (u : UnitId) :
    (writeLoc v s l).status.init u = s.status.init u := by
  by_cases hl : l = .status
  · rw [hl]
    exact Status.init_clear v u s.status
  · rcases cfgAtMost_writeLoc v s l hl with e | e <;> rw [e]
    exact Status.init_raise _ u _

@[simp] theorem resetDynamic_status (u : UnitId) (s : State) : (resetDynamic u s).status = s.status := by
  cases u <;> rfl

@[simp] theorem initUnit_status (u : UnitId) (s : State) : (initUnit u s).status = s.status.setInit u := by
  cases u <;> simp [initUnit]

theorem Status.init_setInit (u w : UnitId) (st : Status) :
    (st.setInit w).init u = (decide (u = w) || st.init u) := by
  cases u <;> cases w <;> rfl

@[simp] theorem silence_status (u : UnitId) (n : Nat) (s : State) : (silence u n s).status = s.status := by
  obtain ⟨m, e, -⟩ := silence_spec u n s
  rw [e]

theorem frames_unitFrame_status (u : UnitId) (n : Nat) (s : State) : (frames (unitFrame u) n s).status = s.status :=
  (frames_unitFrame u n s).2.2.1

/-- PROCESS changes no INIT flag (R36, R202). -/
theorem process_init (u w : UnitId) (n : Nat) (s : State) :
    (process u (unitFrame u) n s).status.init w = s.status.init w := by
  rcases process_cases u (unitFrame u) n s with ⟨-, e⟩ | ⟨-, e⟩ | ⟨-, -, -, e⟩ | ⟨-, -, -, e⟩ <;>
    simp [e, frames_unitFrame_status]

/-- The seventeen instructions with the four units' commands taken together (R146, R148). -/
inductive InstrShape : Instr → Prop where
  | busRead (a : Word) : InstrShape (.busRead a)
  | busWrite (a v : Word) : InstrShape (.busWrite a v)
  | nop : InstrShape .nop
  | initAll : InstrShape .initAll
  | resetAll : InstrShape .resetAll
  | init (w : UnitId) : InstrShape w.initCmd
  | reset (w : UnitId) : InstrShape w.resetCmd
  | process (w : UnitId) (n : Nat) : InstrShape (w.processCmd n)

theorem instrShape (i : Instr) : InstrShape i := by
  cases i with
  | busRead a => exact .busRead a
  | busWrite a v => exact .busWrite a v
  | nop => exact .nop
  | initAll => exact .initAll
  | resetAll => exact .resetAll
  | wtoInit => exact .init .wto
  | pboInit => exact .init .pbo
  | mlfInit => exact .init .mlf
  | adsrInit => exact .init .adsr
  | wtoReset => exact .reset .wto
  | pboReset => exact .reset .pbo
  | mlfReset => exact .reset .mlf
  | adsrReset => exact .reset .adsr
  | wtoProcess n => exact .process .wto n
  | pboProcess n => exact .process .pbo n
  | mlfProcess n => exact .process .mlf n
  | adsrProcess n => exact .process .adsr n

/-- i sets INIT_u: it is u.INIT, INIT_ALL or a CMD write of one of their words (R36, R195). -/
def UnitId.SetsInit (u : UnitId) (i : Instr) : Prop :=
  i = u.initCmd ∨ i = .initAll ∨
    ∃ w, i = .busWrite 0x010 w ∧ (decode (.cmd w) = .ok u.initCmd ∨ decode (.cmd w) = .ok .initAll)

theorem setsInit_initCmd (u w : UnitId) : u.SetsInit w.initCmd ↔ u = w := by
  cases u <;> cases w <;> simp [UnitId.SetsInit, UnitId.initCmd]

theorem not_setsInit_resetCmd (u w : UnitId) : ¬ u.SetsInit w.resetCmd := by
  cases u <;> cases w <;> simp [UnitId.SetsInit, UnitId.initCmd, UnitId.resetCmd]

theorem not_setsInit_processCmd (u w : UnitId) (n : Nat) : ¬ u.SetsInit (w.processCmd n) := by
  cases u <;> cases w <;> simp [UnitId.SetsInit, UnitId.initCmd, UnitId.processCmd]

theorem not_setsInit_nop (u : UnitId) : ¬ u.SetsInit .nop := by
  cases u <;> simp [UnitId.SetsInit, UnitId.initCmd]

theorem not_setsInit_resetAll (u : UnitId) : ¬ u.SetsInit .resetAll := by
  cases u <;> simp [UnitId.SetsInit, UnitId.initCmd]

theorem not_setsInit_busRead (u : UnitId) (a : Word) : ¬ u.SetsInit (.busRead a) := by
  cases u <;> simp [UnitId.SetsInit, UnitId.initCmd]

/-- A bus write sets INIT_u exactly when it carries a command that does. -/
theorem setsInit_busWrite (u : UnitId) (a v : Word) :
    u.SetsInit (.busWrite a v) ↔ a = 0x010 ∧ ∃ j, decodeCommand v = .ok j ∧ u.SetsInit j := by
  constructor
  · rintro (h | h | ⟨w, h, hd⟩)
    · cases u <;> cases h
    · cases h
    · cases h
      exact ⟨rfl, hd.elim (fun h => ⟨_, h, .inl rfl⟩) (fun h => ⟨_, h, .inr (.inl rfl)⟩)⟩
  · rintro ⟨rfl, j, hd, rfl | rfl | ⟨w, rfl, -⟩⟩
    · exact .inr (.inr ⟨v, rfl, .inl hd⟩)
    · exact .inr (.inr ⟨v, rfl, .inr hd⟩)
    · exact absurd rfl ((decodeCommand_isCommand v _ hd).2 _ _)

/-- A read records an error at most, so it changes no INIT flag. -/
theorem execBusRead_init (u : UnitId) {a : Word} {s t : State} (he : execBusRead a s = .next t) :
    t.status.init u = s.status.init u := by
  by_cases h4 : a.toNat % 4 = 0
  · rcases hl : locate a.toNat with _ | l
    · rw [execBusRead_unmapped a s h4 hl] at he
      cases he
      exact Status.init_raise _ u _
    · rw [execBusRead_mapped a s l h4 hl] at he
      cases he
      rfl
  · rw [execBusRead_misaligned a s h4] at he
    cases he
    exact Status.init_raise _ u _

/-- An instruction that does not set INIT_u and leaves it as it was. -/
theorem init_iff_of_kept {u : UnitId} {s t : State} {p : Prop} (hp : ¬ p) (ht : t.status.init u = s.status.init u) :
    t.status.init u = true ↔ s.status.init u = true ∨ p := by
  rw [ht, or_iff_left hp]

/-- INIT_u after an instruction that is no bus write: 1 exactly when it was, or when the instruction sets it (R36). -/
theorem init_of_not_write (u : UnitId) {i : Instr} {s t : State} (hw : ∀ a v, i ≠ .busWrite a v)
    (he : exec i s = .next t) : t.status.init u = true ↔ s.status.init u = true ∨ u.SetsInit i := by
  cases instrShape i with
  | busRead a => exact init_iff_of_kept (not_setsInit_busRead u a) (execBusRead_init u he)
  | busWrite a v => exact absurd rfl (hw a v)
  | nop =>
    cases he
    exact init_iff_of_kept (not_setsInit_nop u) rfl
  | initAll =>
    rw [exec_initAll] at he
    cases he
    cases u <;> simp [Status.init_setInit, UnitId.SetsInit]
  | resetAll =>
    rw [exec_resetAll] at he
    cases he
    exact init_iff_of_kept (not_setsInit_resetAll u) (by simp only [resetDynamic_status])
  | init w =>
    rw [exec_init] at he
    cases he
    simp [Status.init_setInit, setsInit_initCmd, or_comm]
  | reset w =>
    rw [exec_reset] at he
    cases he
    exact init_iff_of_kept (not_setsInit_resetCmd u w) (by simp only [resetDynamic_status])
  | process w n =>
    rw [exec_process] at he
    cases he
    exact init_iff_of_kept (not_setsInit_processCmd u w n) (process_init w u n s)

/-- INIT_u after a bus write: as before, unless the write carries a command that sets it (R195). -/
theorem init_of_busWrite (u : UnitId) {a v : Word} {s t : State} (he : execBusWrite a v s = .next t) :
    t.status.init u = true ↔ s.status.init u = true ∨ u.SetsInit (.busWrite a v) := by
  rw [setsInit_busWrite]
  rcases execBusWrite_cases a v s with ⟨h4, e⟩ | ⟨-, hl, e⟩ | ⟨l, -, hl, hc, e⟩ | ⟨x, -, hd, e⟩ | ⟨j, ha, hd, e⟩ <;>
    rw [e] at he
  · cases he
    exact init_iff_of_kept (fun h => h4 (by rw [h.1]; rfl)) (Status.init_raise _ u _)
  · cases he
    exact init_iff_of_kept (fun h => by rw [h.1, locate_cmd] at hl; cases hl) (Status.init_raise _ u _)
  · cases he
    exact init_iff_of_kept (fun h => by rw [h.1, locate_cmd] at hl; cases hl; exact hc rfl) (writeLoc_init v s l u)
  · cases he
    exact init_iff_of_kept (fun ⟨_, j, hj, _⟩ => by rw [hd] at hj; cases hj) (Status.init_raise _ u _)
  · rw [init_of_not_write u (decodeCommand_isCommand v j hd).2 he, hd]
    simp [ha]

/-- INIT_u after any instruction: 1 exactly when it was, or when the instruction sets it (R36, R195). -/
theorem init_of_exec (u : UnitId) {i : Instr} {s t : State} (he : exec i s = .next t) :
    t.status.init u = true ↔ s.status.init u = true ∨ u.SetsInit i := by
  cases i with
  | busWrite a v => exact init_of_busWrite u he
  | _ => exact init_of_not_write u (fun _ _ => nofun) he

/-- What one step is: waiting, a transaction, or hardware reset (R111, R480, R484). -/
theorem step_cases {s t : State} (h : step s = .next t) :
    (s.inbox = [] ∧ t = s) ∨
    (∃ r rest, s.inbox = .transaction r :: rest ∧ exec (decodeBus r) { s with inbox := rest } = .next t) ∨
    (∃ rest, s.inbox = .hardwareReset :: rest ∧ t = hardwareReset { s with inbox := rest }) := by
  unfold step at h
  split at h
  · cases h
    exact .inl ⟨‹_›, rfl⟩
  · exact .inr (.inl ⟨_, _, ‹_›, h⟩)
  · cases h
    exact .inr (.inr ⟨_, ‹_›, rfl⟩)

/-- A PROCESS of a unit that is not initialized writes silence to its frames and changes only memory and STATUS
(R36, R202, R204). -/
theorem process_of_not_init (u : UnitId) (f : Nat → State → State) (n : Nat) {s : State}
    (h : s.status.init u = false) :
    ∃ m st, process u f n s = { s with mem := m, status := st } ∧
      ∀ i, i < min n 128 → m.word? (ramAddr u.out i) = some 0x00000000 := by
  rcases process_cases u f n s with ⟨hn, e⟩ | ⟨hn, e⟩ | ⟨-, hn, -, e⟩ | ⟨-, -, hr, -⟩
  · obtain ⟨m, hm, hw, -⟩ := silence_spec u 128 (raiseError .len s)
    rw [hm] at e
    exact ⟨m, _, e, fun i hi => hw i (by omega)⟩
  · exact ⟨s.mem, _, e, fun i hi => absurd hi (by omega)⟩
  · obtain ⟨m, hm, hw, -⟩ := silence_spec u n s
    rw [hm] at e
    exact ⟨m, _, e, fun i hi => hw i (by omega)⟩
  · rw [ready_eq, h] at hr
    cases hr

end Sys2Proof.Machine
end

section
/-! The obligations about the registers and the INIT flags (10_state.md R33 to R49). -/

namespace Sys2Proof.Machine

/-- Settles O12: CORE_CFG is read from the parameters, so the read is the same in every state. -/
theorem coreConfiguration : Obligations.CoreConfiguration := by
  unfold Obligations.CoreConfiguration
  intro s
  refine ⟨Config.coreCfg, execBusRead_register 0x008 s .coreCfg (by decide) (by decide) (fun _ => nofun), ?_⟩
  decide

/-- Settles O16, by the two branches of R34; with a legal sustain level the recompute stores what R403 computes. -/
theorem sampleRateWrite : Obligations.SampleRateWrite := by
  unfold Obligations.SampleRateWrite
  have hw := exec_busWrite_mapped (a := 0x00C) (l := .sampleRate) (by decide) (by decide) (by decide)
  refine ⟨fun v s hf h1 hs => ?_, fun v s hv => ?_, rfl⟩
  · have hv : legalSampleRate v = true := by rw [legalSampleRate, hf, h1]; rfl
    rw [hw, writeLoc, writeSampleRate_of_legal hv hs]
  · rw [hw, writeLoc, writeSampleRate_of_illegal hv]

/-- Settles O17: the stored count is the smaller of the word and 16 in each branch of R39. -/
theorem unisonCountWrite : Obligations.UnisonCountWrite := by
  unfold Obligations.UnisonCountWrite
  refine ⟨fun v s => ⟨BitVec.ofNat 32 (min v.toNat 16), toNat_ofNat_min _, ?_⟩, rfl⟩
  rw [exec_busWrite_mapped (l := .wtoUnisonCount) (by decide) (by decide) (by decide)]
  exact congrArg _ (writeUnisonCount_eq v s)

/-- Settles O18, by the two branches of R40. -/
theorem unisonSpreadWrite : Obligations.UnisonSpreadWrite := by
  unfold Obligations.UnisonSpreadWrite
  have hw := exec_busWrite_mapped (a := 0x108) (l := .wtoUnisonSpread) (by decide) (by decide) (by decide)
  refine ⟨fun v s hv => ?_, fun v s hv => ?_, rfl⟩
  · rw [hw, writeLoc, writeUnisonSpread_of_nan hv]
  · rw [hw, writeLoc, writeUnisonSpread_of_not_nan hv, outside, clampWord]

/-- Settles O19, setting by setting: a NaN is dropped at all six, and a stored sustain level is always legal. -/
theorem adsrSettingWrites : Obligations.AdsrSettingWrites := by
  unfold Obligations.AdsrSettingWrites
  refine ⟨fun a v s ha hv => ?_, fun v s hv hs => ⟨?_, ?_, ?_⟩, fun v s hv => ?_, fun v s hv => ?_, fun v s hv => ?_⟩
  · obtain ⟨l, hl, h4, hloc, hc⟩ := locate_adsrSetting ha
    rw [exec_busWrite_mapped h4 hloc hc, writeLoc_adsrSetting_of_nan s hv hl]
  · rw [exec_busWrite_mapped (l := .adsrAttackTime) (by decide) (by decide) (by decide)]
    rw [writeLoc, writeAttackTime_of_not_nan hv hs]
  · rw [exec_busWrite_mapped (l := .adsrDecayTime) (by decide) (by decide) (by decide)]
    rw [writeLoc, writeDecayTime_of_not_nan hv hs]
  · rw [exec_busWrite_mapped (l := .adsrReleaseTime) (by decide) (by decide) (by decide)]
    rw [writeLoc, writeReleaseTime_of_not_nan hv hs]
  · rw [exec_busWrite_mapped (l := .adsrSustainTime) (by decide) (by decide) (by decide)]
    rw [writeLoc, writeSustainTime_of_not_nan hv]
  · rw [exec_busWrite_mapped (l := .adsrAttackLevel) (by decide) (by decide) (by decide)]
    rw [writeLoc, writeAttackLevel_of_not_nan hv, outside, clampWord]
  · rw [exec_busWrite_mapped (l := .adsrSustainLevel) (by decide) (by decide) (by decide)]
    rw [writeLoc, writeSustainLevel_of_not_nan hv, outside, clampWord]

/-- Settles O20, by the write rule of each descriptor and the gaps of the map around them. -/
theorem tableRegisterWrites : Obligations.TableRegisterWrites := by
  unfold Obligations.TableRegisterWrites
  refine ⟨fun k hk v s => ⟨BitVec.ofNat 32 (min v.toNat 16), toNat_ofNat_min _, ?_⟩, fun k j hk hj v s => ?_,
    fun a v s h4 ha => ?_, reset_tables, reset_topFreqOf⟩
  · rw [exec_busWrite_ofNat (by omega) (by omega) (locate_numTables k hk) nofun, writeLoc, writeNumTables_eq hk]
  · rw [exec_busWrite_ofNat (by omega) (by omega) (locate_topFreq k hk j hj) nofun, writeLoc, writeTopFreq_eq]
  · exact exec_busWrite_unmapped h4 (by unfold InMap; omega) v s

/-- Settles O25: `init_of_exec` says of every instruction when INIT_u is 1 after it; a PROCESS of a unit whose flag
is 0 takes a silence branch. -/
theorem initFlags : Obligations.InitFlags := by
  unfold Obligations.InitFlags
  refine ⟨fun u => by cases u <;> rfl, fun u i s hi => ?_, fun u s t hr hstep hu => ?_, fun u i s t he h0 h1 => ?_,
    fun u n s h0 => ?_⟩
  · obtain ⟨t, he⟩ := exec_next i s
    exact ⟨t, he, (init_of_exec u he).2 (.inr (hi.imp_right .inl))⟩
  · rcases step_cases hstep with ⟨-, rfl⟩ | ⟨r, rest, -, he⟩ | ⟨rest, hq, -⟩
    · exact hu
    · exact (init_of_exec u he).2 (.inl hu)
    · exact absurd (by rw [hq]; rfl) hr
  · exact ((init_of_exec u he).1 h1).resolve_left (by rw [h0]; exact Bool.false_ne_true)
  · obtain ⟨m, st, e, hm⟩ := process_of_not_init u (unitFrame u) n h0
    exact ⟨_, (exec_process u n s).trans (congrArg _ e), ⟨rfl, rfl, rfl, rfl⟩, hm⟩

end Sys2Proof.Machine
end

section
/-! The obligation about accesses outside the address map (20_memory.md R109, 60_exceptions.md R457). -/

namespace Sys2Proof.Machine

/-- A read of an unmapped word address gives 0 and records ERR_ADDR and nothing else (R109, R457). -/
theorem exec_busRead_unmapped {a : Word} (h : a.toNat % 4 = 0) (hm : ¬ InMap a.toNat) (s : State) :
    exec (.busRead a) s = .next { s with readData := 0, status := s.status.withError .addr } := by
  have he : exec (.busRead a) s = .next { raiseError .addr s with readData := 0 } :=
    execBusRead_unmapped a s h (locate_none _ h hm)
  rw [he, raiseError_eq]

/-- Settles O10: by `locate_none` an address outside the map names no location, so the access raises ERR_ADDR alone. -/
theorem unmappedAccess : Obligations.UnmappedAccess := by
  unfold Obligations.UnmappedAccess
  intro a v s h4 hm
  exact ⟨exec_busRead_unmapped h4 hm s, exec_busWrite_unmapped h4 hm v s⟩

end Sys2Proof.Machine
end

section
/-! The obligation about the opcode map (30_encoding.md R145, R146). A row's mask keeps the whole word or all of it but
ARG, so what a row selects is one word or the words of one UNIT and OP. -/

namespace Sys2Proof.Machine

/-- The mask of a PROCESS row clears ARG, the low half, and keeps the high half (R146). -/
theorem append_and_processMask (p a : BitVec 16) : (p ++ a) &&& (0xFFFF0000 : BitVec 32) = p ++ 0#16 := by
  rw [show (0xFFFF0000 : BitVec 32) = BitVec.allOnes 16 ++ 0#16 from rfl, BitVec.and_append, BitVec.and_allOnes,
    BitVec.and_zero]

/-- A row whose mask keeps every bit selects its match word and no other. -/
theorem CommandRow.selects_exact {r : CommandRow} (hk : r.mask = 0xFFFFFFFF) (w : BitVec 32) :
    r.selects w = true ↔ w = r.matchBits := by
  rw [CommandRow.selects, hk, beq_iff_eq, show (0xFFFFFFFF : BitVec 32) = BitVec.allOnes 32 from rfl,
    BitVec.and_allOnes]

/-- A PROCESS row selects the words of its unit with OP 3 and RSVD 0, whatever their ARG. -/
theorem CommandRow.selects_process {r : CommandRow} {u : BitVec 4} (hk : r.mask = 0xFFFF0000)
    (hm : r.matchBits = commandWord u 3 0) (w : BitVec 32) :
    r.selects w = true ↔ ∃ a : BitVec 16, w = u ++ 3#4 ++ 0#8 ++ a := by
  rw [CommandRow.selects, hk, hm, beq_iff_eq]
  constructor
  · intro h
    obtain ⟨u', o, x, a, rfl⟩ := word_cases w
    exact ⟨a, congrArg (· ++ a) ((BitVec.append_left_inj _).1 ((append_and_processMask _ a).symm.trans h))⟩
  · rintro ⟨a, rfl⟩
    exact append_and_processMask _ a

/-- Two rows that select one word agree on the bits both masks keep. -/
theorem CommandRow.match_eq_of_selects {r q : CommandRow} {w : BitVec 32} (hr : r.selects w = true)
    (hq : q.selects w = true) : r.matchBits &&& q.mask = q.matchBits &&& r.mask := by
  rw [← beq_iff_eq.1 hr, ← beq_iff_eq.1 hq, BitVec.and_assoc, BitVec.and_assoc, BitVec.and_comm r.mask]

/-- Any two rows of the map differ in a bit both masks keep. -/
theorem commandRows_pairwise :
    commandRows.Pairwise fun r q => r.matchBits &&& q.mask ≠ q.matchBits &&& r.mask := by
  decide

/-- At most one row selects a word. -/
theorem selecting_rows_length_le (w : BitVec 32) : (commandRows.filter fun r => r.selects w).length ≤ 1 := by
  have hp := commandRows_pairwise.filter fun r => r.selects w
  have hs : ∀ r ∈ commandRows.filter fun r => r.selects w, r.selects w = true := fun r h => (List.mem_filter.1 h).2
  generalize commandRows.filter (fun r => r.selects w) = rows at hp hs
  match rows with
  | [] | [_] => simp
  | r :: q :: rows =>
    exact absurd (CommandRow.match_eq_of_selects (hs r (by simp)) (hs q (by simp)))
      (List.rel_of_pairwise_cons hp List.mem_cons_self)

/-- The words a row selects decode to its instruction, with N the ARG field. -/
def CommandRow.Decodes (r : CommandRow) : Prop :=
  ∀ w, r.selects w = true → decode (.cmd w) = .ok (r.op (cmdArg w).toNat)

/-- A row without operand decodes when its match word does. -/
theorem CommandRow.decodes_exact {name : String} {m : BitVec 32} {f : Nat → Instr}
    (hd : decode (.cmd m) = .ok (f (cmdArg m).toNat)) : (⟨name, m, 0xFFFFFFFF, f⟩ : CommandRow).Decodes := by
  intro w h
  obtain rfl : w = m := (selects_exact rfl w).1 h
  exact hd

/-- A unit's PROCESS row decodes when the unit's OP 3 does. -/
theorem CommandRow.decodes_process {name : String} {m : BitVec 32} {f : Nat → Instr} (u : BitVec 4)
    (hm : m = commandWord u 3 0) (hd : ∀ a, decodeUnitOp u.toNat 3 a = .ok (f a.toNat)) :
    (⟨name, m, 0xFFFF0000, f⟩ : CommandRow).Decodes := by
  intro w h
  obtain ⟨a, rfl⟩ := (selects_process rfl hm w).1 h
  obtain ⟨-, -, -, ha⟩ := fields_append u 3#4 0#8 a
  rw [ha, ← hd a]
  exact decodeCommand_append u 3#4 0#8 a

open CommandRow in
/-- Every row of the map decodes to its instruction: three fixed words of the core, then INIT, RESET and PROCESS of
each unit. -/
theorem commandRows_decode : ∀ r ∈ commandRows, r.Decodes := by
  simp only [commandRows, List.forall_mem_cons]
  exact ⟨decodes_exact rfl, decodes_exact rfl, decodes_exact rfl,
    decodes_exact rfl, decodes_exact rfl, decodes_process 1 rfl fun _ => rfl,
    decodes_exact rfl, decodes_exact rfl, decodes_process 2 rfl fun _ => rfl,
    decodes_exact rfl, decodes_exact rfl, decodes_process 3 rfl fun _ => rfl,
    decodes_exact rfl, decodes_exact rfl, decodes_process 4 rfl fun _ => rfl, nofun⟩

/-- Every UNIT and OP that R145 allows only with ARG 0 has a row. -/
theorem exists_exact_row : ∀ u o : BitVec 4,
    (u.toNat = 0 ∧ o.toNat ≤ 2) ∨ (1 ≤ u.toNat ∧ u.toNat ≤ 4 ∧ 1 ≤ o.toNat ∧ o.toNat ≤ 2) →
      ∃ r ∈ commandRows, r.selects (commandWord u o 0) = true := by
  decide

/-- Every unit has a PROCESS row. -/
theorem exists_process_row : ∀ u : BitVec 4, 1 ≤ u.toNat → u.toNat ≤ 4 →
    ∃ r ∈ commandRows, r.mask = 0xFFFF0000 ∧ r.matchBits = commandWord u 3 0 := by
  decide

/-- A word the decoder accepts has a row: its fields are those of `decodeUnitOp_ok`. -/
theorem exists_row_of_decode {w : BitVec 32} {i : Instr} (h : decodeCommand w = .ok i) :
    ∃ r ∈ commandRows, r.selects w = true := by
  obtain ⟨u, o, x, a, rfl⟩ := word_cases w
  rw [decodeCommand_append] at h
  split at h
  case isTrue => cases h
  case isFalse hx =>
    obtain rfl : x = 0#8 := not_not.1 hx
    rcases (decodeUnitOp_ok _ _ _).1 ⟨i, h⟩ with ⟨hu, ho, rfl⟩ | ⟨hu, hu', ho, ho', rfl⟩ | ⟨hu, hu', ho⟩
    · exact exists_exact_row u o (.inl ⟨hu, ho⟩)
    · exact exists_exact_row u o (.inr ⟨hu, hu', ho, ho'⟩)
    · obtain ⟨r, hr, hk, hm⟩ := exists_process_row u hu hu'
      obtain rfl : o = 3#4 := BitVec.eq_of_toNat_eq ho
      exact ⟨r, hr, (CommandRow.selects_process hk hm _).2 ⟨a, rfl⟩⟩

/-- Settles O3: rows differ in bits their masks share, a row's words decode to its instruction, and a word the decoder
accepts has a row; `legalCommand_iff` joins the last two. -/
theorem commandMap : Obligations.CommandMap := by
  unfold Obligations.CommandMap
  refine fun w => ⟨selecting_rows_length_le w, (legalCommand_iff w).trans ⟨?_, ?_⟩,
    fun r hr h => commandRows_decode r hr w h⟩
  · rintro ⟨i, h⟩
    exact exists_row_of_decode h
  · rintro ⟨r, hr, h⟩
    exact ⟨_, commandRows_decode r hr w h⟩

end Sys2Proof.Machine
end

section
/-! SUPPORT. STATUS (10_state.md R35, 40_common_and_lifecycle.md R183, R187, R203): what a STATUS write leaves, which
words ignore a write, and which instructions change a NONSILENT flag. -/

namespace Sys2Proof.Machine

/-! ### the STATUS write and the words that ignore a write -/

/-- STATUS[4:0] is 0 exactly when no sticky bit is set. -/
theorem Status.clean_iff (st : Status) : st.clean = true ↔ ∀ e, st.sticky e = false := by
  simp only [Status.clean, Bool.not_eq_true', Bool.or_eq_false_iff]
  constructor
  · rintro ⟨⟨⟨⟨hcmd, hlen⟩, hcfg⟩, haddr⟩, halign⟩ e
    cases e
    · exact hcmd
    · exact hlen
    · exact hcfg
    · exact haddr
    · exact halign
  · intro h
    exact ⟨⟨⟨⟨h .cmd, h .len⟩, h .cfg⟩, h .addr⟩, h .align⟩

/-- LAST_ERR after a STATUS write is 0 when no error is left and unchanged otherwise (R187). -/
theorem Status.lastErr_clear (v : Word) (st : Status) :
    (st.clear v).lastErr = if (st.clear v).clean then 0 else st.lastErr := rfl

/-- Of the word written to STATUS only bits 4:0 count (R183, R187). -/
theorem Status.clear_and_mask (v : Word) (st : Status) : st.clear (v &&& 0x1F) = st.clear v := by
  simp [Status.clear]

/-- Writing 0 to a STATUS whose LAST_ERR names an error exactly while one is recorded changes nothing. -/
theorem Status.clear_zero {st : Status} (h : st.lastErr = 0 ↔ ∀ e, st.sticky e = false) : st.clear 0 = st := by
  have hlast : (if st.clean then 0 else st.lastErr) = st.lastErr := by
    split
    · exact (h.2 (st.clean_iff.1 ‹_›)).symm
    · rfl
  calc st.clear 0 = { st with lastErr := if st.clean then 0 else st.lastErr } := by simp [Status.clear]
    _ = st := by rw [hlast]

theorem exec_write_status (v : Word) (s : State) :
    exec (.busWrite 0x014 v) s = .next { s with status := s.status.clear v } :=
  exec_busWrite_mapped (l := .status) (by decide) (by decide) (by decide) v s

/-- The register words software can only read (R183). -/
def Loc.isReadOnly : Loc → Bool
  | .coreId | .coreVersion | .coreCfg => true
  | .wtoPhase _ _ | .pboPhase _ | .mlfState _ _ _ | .adsrState | .adsrLevel _ | .adsrCoef _ _ => true
  | _ => false

theorem writeLoc_of_isReadOnly {l : Loc} (h : l.isReadOnly = true) (v : Word) (s : State) : writeLoc v s l = s := by
  cases l <;> cases h <;> rfl

/-- Every address of the read-only list names a read-only word. -/
theorem exists_locate_of_inReadOnly {a : Nat} (h : InReadOnly a) :
    ∃ l, locate a = some l ∧ l.isReadOnly = true ∧ a % 4 = 0 := by
  have key : ∀ a, a < 0x480 → InReadOnly a → (locate a).any Loc.isReadOnly = true ∧ a % 4 = 0 := by
    unfold InReadOnly
    decide +kernel
  obtain ⟨hl, h4⟩ := key a (by unfold InReadOnly at h; omega) h
  obtain ⟨l, hl, hr⟩ := (Option.any_eq_true _ _).1 hl
  exact ⟨l, hl, hr, h4⟩

/-! ### the NONSILENT flags -/

theorem Status.nonsilent_setNonsilent (u w : UnitId) (b : Bool) (st : Status) :
    (st.setNonsilent w b).nonsilent u = if u = w then b else st.nonsilent u := by
  cases u <;> cases w <;> rfl

/-- A read leaves STATUS as it was or records one error. -/
theorem execBusRead_status {a : Word} {s t : State} (he : execBusRead a s = .next t) :
    t.status = s.status ∨ ∃ e, t.status = s.status.raise e := by
  by_cases h4 : a.toNat % 4 = 0
  · rcases hl : locate a.toNat with _ | l
    · rw [execBusRead_unmapped a s h4 hl] at he
      cases he
      exact .inr ⟨.addr, rfl⟩
    · rw [execBusRead_mapped a s l h4 hl] at he
      cases he
      exact .inl rfl
  · rw [execBusRead_misaligned a s h4] at he
    cases he
    exact .inr ⟨.align, rfl⟩

/-- No register write changes a NONSILENT flag. -/
@[simp] theorem writeLoc_nonsilent (v : Word) (s : State) (l : Loc) (u : UnitId) :
    (writeLoc v s l).status.nonsilent u = s.status.nonsilent u := by
  by_cases hl : l = .status
  · rw [hl]
    exact Status.nonsilent_clear v u s.status
  · rcases cfgAtMost_writeLoc v s l hl with e | e <;> rw [e]
    exact Status.nonsilent_raise _ u _

/-- A PROCESS sets its own unit's flag exactly when it runs its loop, and keeps the other three (R203). -/
theorem process_nonsilent (u w : UnitId) (n : Nat) (s : State) :
    (process w (unitFrame w) n s).status.nonsilent u =
      if u = w then decide (0 < n ∧ n ≤ 128) && w.ready s else s.status.nonsilent u := by
  rcases process_cases w (unitFrame w) n s with ⟨hn, e⟩ | ⟨hn, e⟩ | ⟨h0, hn, hr, e⟩ | ⟨h0, hn, hr, e⟩ <;>
    rw [e, markNonsilent_status, Status.nonsilent_setNonsilent]
  · simp [Nat.not_le.2 hn]
  · simp [hn]
  · simp [hr]
  · simp [h0, hn, hr, frames_unitFrame_status]

/-- An instruction that is neither a PROCESS of u nor a bus write keeps NONSILENT_u. -/
theorem nonsilent_of_not_write (u : UnitId) {i : Instr} {s t : State} (he : exec i s = .next t)
    (hw : ∀ a v, i ≠ .busWrite a v) (hp : ∀ n, i ≠ u.processCmd n) : t.status.nonsilent u = s.status.nonsilent u := by
  cases instrShape i with
  | busRead a =>
    rcases execBusRead_status he with e | ⟨_, e⟩ <;> rw [e]
    exact Status.nonsilent_raise _ u _
  | busWrite a v => exact absurd rfl (hw a v)
  | nop => cases he; rfl
  | initAll =>
    rw [exec_initAll] at he
    cases he
    simp only [initUnit_status, Status.nonsilent_setInit]
  | resetAll =>
    rw [exec_resetAll] at he
    cases he
    simp only [resetDynamic_status]
  | init w =>
    rw [exec_init] at he
    cases he
    simp only [initUnit_status, Status.nonsilent_setInit]
  | reset w =>
    rw [exec_reset] at he
    cases he
    simp only [resetDynamic_status]
  | process w n =>
    rw [exec_process] at he
    cases he
    have hu : u ≠ w := fun e => hp n (by rw [e])
    rw [process_nonsilent, if_neg hu]

/-- A bus write keeps NONSILENT_u unless it carries a PROCESS of u to CMD (R195, R203). -/
theorem nonsilent_of_busWrite (u : UnitId) {a v : Word} {s t : State} (he : execBusWrite a v s = .next t)
    (hp : ∀ n, a = 0x010 → decodeCommand v ≠ .ok (u.processCmd n)) :
    t.status.nonsilent u = s.status.nonsilent u := by
  rcases execBusWrite_cases a v s with ⟨-, e⟩ | ⟨-, -, e⟩ | ⟨l, -, -, -, e⟩ | ⟨x, -, -, e⟩ | ⟨j, ha, hd, e⟩ <;>
    rw [e] at he
  · cases he
    exact Status.nonsilent_raise _ u _
  · cases he
    exact Status.nonsilent_raise _ u _
  · cases he
    exact writeLoc_nonsilent v s l u
  · cases he
    exact Status.nonsilent_raise _ u _
  · exact nonsilent_of_not_write u he (decodeCommand_isCommand v j hd).2 fun n hj => hp n ha (hj ▸ hd)

/-! ### the frame of a PROCESS -/

/-- What a PROCESS of 1 to 128 frames writes and what it leaves alone, whichever branch of R202 it takes (R205). -/
theorem process_frame (u : UnitId) {n : Nat} (s : State) (h0 : 0 < n) (hn : n ≤ 128) :
    (∀ i, i < n → ((process u (unitFrame u) n s).mem.word? (ramAddr u.out i)).isSome = true) ∧
      OnlyFrames u n s (process u (unitFrame u) n s) ∧ OnlyStateOf u s (process u (unitFrame u) n s) ∧
      GlobalsKept s (process u (unitFrame u) n s) ∧
      (process u (unitFrame u) n s).status = s.status.withNonsilent u (u.ready s) := by
  rcases process_cases u (unitFrame u) n s with ⟨h, -⟩ | ⟨h, -⟩ | ⟨-, -, hr, e⟩ | ⟨-, -, hr, e⟩
  · omega
  · omega
  · obtain ⟨m, hm, hword, hkept⟩ := silence_spec u n s
    rw [e, hm, hr, ← withNonsilent_eq]
    refine ⟨fun i hi => ?_, hkept, OnlyStateOf.refl u s, ⟨rfl, rfl, rfl, rfl, rfl⟩, rfl⟩
    rw [markNonsilent_mem, hword i hi]
    rfl
  · obtain ⟨hstate, hglob, hst, honly, hword⟩ := frames_unitFrame u n s
    rw [e, hr, ← withNonsilent_eq, ← hst]
    refine ⟨hword, honly, ?_, hglob, rfl⟩
    cases u <;> exact hstate

end Sys2Proof.Machine
end

section
/-! SUPPORT. The parameters (40_common_and_lifecycle.md R185, R186, R188): the clamp case by case, and that each row of
R185 is the model's own declaration. -/

namespace Sys2Proof.Machine

theorem fle_eq_false_of_flt {x y : Double} (h : flt x y = true) : fle y x = false := by
  have hk := fkey_lt_of_flt h
  simp only [fle, Bool.and_eq_false_iff, decide_eq_false_iff_not]
  exact .inr (by omega)

theorem not_nan_of_flt {x y : Double} (h : flt x y = true) : isNaN x = false ∧ isNaN y = false := by
  simp only [flt, Bool.and_eq_true, Bool.not_eq_true'] at h
  exact h.1

theorem paramClamp_of_nan {x : Double} (h : isNaN x = true) (lo hi : Double) : paramClamp x lo hi = lo := by
  rw [paramClamp, if_pos h]

theorem paramClamp_of_not_nan {x : Double} (h : isNaN x = false) (lo hi : Double) :
    paramClamp x lo hi = fclamp x lo hi := by
  rw [paramClamp, h]
  exact if_neg Bool.false_ne_true

/-- A value in range is used as it is, a -0.0 among them (R188). -/
theorem paramClamp_of_between {lo x hi : Double} (h : Between lo x hi) : paramClamp x lo hi = x := by
  obtain ⟨hlo, hhi⟩ := h
  rw [paramClamp_of_not_nan (not_nan_of_fle_left hhi), fclamp, fmax, if_pos hlo, fmin, if_pos hhi]

theorem paramClamp_of_below {lo x hi : Double} (h : fle lo hi = true) (hx : flt x lo = true) :
    paramClamp x lo hi = lo := by
  rw [paramClamp_of_not_nan (not_nan_of_flt hx).1, fclamp, fmax, fle_eq_false_of_flt hx, fmin,
    if_neg Bool.false_ne_true, if_pos h]

theorem paramClamp_of_above {lo x hi : Double} (h : fle lo hi = true) (hx : flt hi x = true) :
    paramClamp x lo hi = hi := by
  have hn := not_nan_of_flt hx
  have hhx : fle hi x = true := by
    have hk := fkey_lt_of_flt hx
    simp only [fle, hn.1, hn.2, Bool.not_false, Bool.true_and, decide_eq_true_eq]
    omega
  rw [paramClamp_of_not_nan hn.2, fclamp, fmax, if_pos (fle_trans h hhx), fmin, fle_eq_false_of_flt hx,
    if_neg Bool.false_ne_true]

/-- The row is the model's declaration of its parameter: unit, range, mode bit, what its addresses name, and the word
the scalar register holds after reset. -/
def ParamRow.Declared (q : ParamRow) : Prop :=
  (q.name.unit = q.unit ∧ q.name.min = q.min ∧ q.name.max = q.max ∧ q.name.bit = q.bit) ∧
  (q.register.toNat % 4 = 0 ∧ locate q.register.toNat = some (.scalar q.name)) ∧
  (q.modeRegister.toNat % 4 = 0 ∧ locate q.modeRegister.toNat = some (.paramMode q.unit)) ∧
  q.ram = ramAddr (.arr q.name) 0 ∧ State.reset.scalar q.name = q.default

theorem paramRows_declared : ∀ q ∈ paramRows, q.Declared := by
  unfold ParamRow.Declared
  decide

theorem ramAddr_eq_add (r : SampleRam) (i : Nat) : ramAddr r i = ramAddr r 0 + 4 * i := by
  simp [ramAddr]

/-- A parameter whose word at frame i is w has the value that w clamps to (R186, R188). -/
theorem value_of_rawParam {s : State} {p : Param} {i : Nat} {w : Word} (h : s.rawParam p i = some w) :
    s.value p i = paramClamp (widen w) (ofInt p.min) (ofInt p.max) := by
  rw [State.value, h]
  rfl

end Sys2Proof.Machine
end

section
/-! SUPPORT. The lifecycle commands (40_common_and_lifecycle.md R196 to R201): the words with UNIT 0, and what u.INIT
leaves. -/

namespace Sys2Proof.Machine

/-- A CMD write of a word that decodes is the word's command (R195). -/
theorem exec_write_cmd {w : BitVec 32} {i : Instr} (h : decodeCommand w = .ok i) (s : State) :
    exec (.busWrite 0x010 w) s = exec i s :=
  (execBusWrite_cmd w s).trans (cmdWrite_of_decode w i s h)

/-- The legal words with UNIT 0 but NOP's are those of INIT_ALL and RESET_ALL (R145, R146). -/
theorem decodeCommand_core {w : BitVec 32} (hl : legalCommand w = true) (hu : cmdUnit w = 0) (ha : cmdArg w = 0)
    (hw : w ≠ 0) : decodeCommand w = .ok .initAll ∨ decodeCommand w = .ok .resetAll := by
  obtain ⟨u, o, r, a, rfl⟩ := word_cases w
  obtain ⟨hfu, -, -, hfa⟩ := fields_append u o r a
  obtain rfl : u = 0 := hfu.symm.trans hu
  obtain rfl : a = 0 := hfa.symm.trans ha
  have hfields : r = 0 ∧ (o = 0 ∨ o = 1 ∨ o = 2) := by
    rw [legalCommand_append] at hl
    simpa [or_assoc] using hl
  obtain ⟨rfl, rfl | rfl | rfl⟩ := hfields
  · exact absurd rfl hw
  · exact .inl rfl
  · exact .inr rfl

/-- A state with a PBO phase that RESET_ALL clears. -/
def pboPhaseOne : State := { State.reset with pbo := { Pbo.reset with t := fone } }

theorem exec_initAll_reset_ne : exec .initAll State.reset ≠ .next State.reset := by
  rw [exec_initAll]
  intro h
  have hinit := congrArg (fun t => t.status.init .wto) (Host.Outcome.next.inj h)
  simp only [initUnit_status, Status.init_setInit] at hinit
  exact absurd hinit (by decide)

theorem exec_resetAll_pboPhaseOne_ne : exec .resetAll pboPhaseOne ≠ .next pboPhaseOne := by
  rw [exec_resetAll]
  intro h
  have ht : fzero = fone := congrArg (fun t => t.pbo.t) (Host.Outcome.next.inj h)
  exact absurd ht (by decide)

/-- ADSR.INIT with a legal sustain level: fresh state variables, the coefficients of the registers, INIT_ADSR (R197). -/
theorem initUnit_adsr_eq {s : State} (h : Between fzero (widen s.adsr.sustainLevel) fone) :
    initUnit .adsr s = { s with
      adsr := { s.adsr with
        phase := .idle, level := fzero, releaseCompleted := false, prevGate := false
        coefs := coefficients s.sampleRate s.adsr.sustainLevel s.adsr.attackTime s.adsr.decayTime s.adsr.releaseTime }
      status := { s.status with initAdsr := true } } := by
  have hrec := recompute_eq (resetDynamic .adsr s) h
  simp only [initUnit, if_true, hrec]
  rfl

/-- The four unit INITs leave every INIT flag 1. -/
theorem initAll_status (s : State) :
    (initUnit .adsr (initUnit .mlf (initUnit .pbo (initUnit .wto s)))).status =
      { s.status with initWto := true, initPbo := true, initMlf := true, initAdsr := true } := by
  simp only [initUnit_status, Status.setInit]

end Sys2Proof.Machine
end

section
/-! The obligations about STATUS, the parameters, PROCESS and the lifecycle commands (40_common_and_lifecycle.md). -/

namespace Sys2Proof.Machine

/-- Settles O14: an address of the list names a word whose write rule is to do nothing, and a STATUS write looks at bits
4:0 only. -/
theorem readOnlyWrite : Obligations.ReadOnlyWrite := by
  unfold Obligations.ReadOnlyWrite
  refine ⟨fun a v s ha => ?_, fun v s => ?_, fun v s hs hv => ?_, fun s => ?_⟩
  · obtain ⟨l, hl, hr, h4⟩ := exists_locate_of_inReadOnly ha
    have hc : l ≠ .cmd := fun e => by rw [e] at hr; cases hr
    rw [exec_busWrite_mapped h4 hl hc, writeLoc_of_isReadOnly hr]
  · rw [exec_write_status, exec_write_status, Status.clear_and_mask]
  · rw [exec_write_status, ← Status.clear_and_mask, hv, Status.clear_zero hs.lastErr.2]
  · exact execBusRead_register 0x010 s .cmd (by decide) locate_cmd (fun _ => nofun)

/-- Settles O15: the write's STATUS is `Status.clear`, whose LAST_ERR follows its own sticky bits. -/
theorem statusWrite : Obligations.StatusWrite := by
  unfold Obligations.StatusWrite
  refine fun v s => ⟨s.status.clear v, exec_write_status v s, rfl, rfl, rfl, rfl, rfl, fun hnone => ?_,
    fun ⟨e, he⟩ => ?_, fun u => Status.nonsilent_clear v u _, fun u => Status.init_clear v u _⟩
  · rw [Status.lastErr_clear, if_pos ((Status.clean_iff _).2 hnone)]
  · have hleft : ¬ (s.status.clear v).clean = true := fun hc => by
      rw [(Status.clean_iff _).1 hc e] at he
      cases he
    rw [Status.lastErr_clear, if_neg hleft]

/-- Settles O26: PROCESS by the branches of R202; every other instruction by what it does to STATUS. -/
theorem nonsilentFlags : Obligations.NonsilentFlags := by
  unfold Obligations.NonsilentFlags
  refine ⟨fun u n s => ⟨_, exec_process u n s, ?_⟩, fun u i s t he hp => ?_⟩
  · rw [process_nonsilent, if_pos rfl]
  · cases i with
    | busWrite a v => exact nonsilent_of_busWrite u he fun n ha => (hp n).2 v (by rw [ha])
    | _ => exact nonsilent_of_not_write u he (fun _ _ => nofun) fun n => (hp n).1

/-- Settles O34, by the two branches of R202 that 1 to 128 frames leave. -/
theorem processWritesItsFrames : Obligations.ProcessWritesItsFrames := by
  unfold Obligations.ProcessWritesItsFrames
  exact fun u n s h0 hn => ⟨_, exec_process u n s, process_frame u s h0 hn⟩

/-- Settles O37: the clamp case by case, and each row of R185 by what its addresses name. -/
theorem parameterClamp : Obligations.ParameterClamp := by
  unfold Obligations.ParameterClamp
  refine ⟨fun x lo hi h => ⟨fun hx => paramClamp_of_nan hx lo hi, paramClamp_of_between, paramClamp_of_below h,
    paramClamp_of_above h⟩, param_range, fun q hq s i => ?_⟩
  obtain ⟨⟨hunit, hmin, hmax, hbit⟩, ⟨hreg4, hreg⟩, ⟨hmode4, hmode⟩, hram, hdef⟩ := paramRows_declared q hq
  have hread : ∀ s, exec (.busRead q.register) s = .next { s with readData := s.scalar q.name } :=
    fun s => execBusRead_register _ s _ hreg4 hreg (fun _ => nofun)
  refine ⟨hunit, hmin, hmax, ?_, ⟨s.scalar q.name, s.paramMode q.unit, hread s,
    execBusRead_register _ s _ hmode4 hmode (fun _ => nofun), ?_⟩, fun w hw => ⟨?_, fun d => ?_⟩⟩
  · rw [hread, hdef]
  · rw [State.rawParam, hunit, hbit, hram, ramAddr_eq_add]
  · rw [value_of_rawParam hw, hmin, hmax]
  · exact param_of_written (by rw [hw]; rfl) d

/-- Settles O27: besides NOP's word there are those of INIT_ALL, which sets INIT flags after reset, and of RESET_ALL,
which clears a phase that is not 0. -/
theorem nopDoesNothing : Obligations.NopDoesNothing := by
  unfold Obligations.NopDoesNothing
  refine ⟨fun s => rfl, fun s => exec_write_cmd (i := .nop) rfl s, fun w hl hu ha hw => ?_⟩
  rcases decodeCommand_core hl hu ha hw with hd | hd
  · exact ⟨State.reset, by rw [exec_write_cmd hd]; exact exec_initAll_reset_ne⟩
  · exact ⟨pboPhaseOne, by rw [exec_write_cmd hd]; exact exec_resetAll_pboPhaseOne_ne⟩

/-- Settles O28: u.INIT is ResetDynamic and the flag, with the recompute of the coefficients for the ADSR. -/
theorem unitInit : Obligations.UnitInit := by
  unfold Obligations.UnitInit
  refine ⟨exec_init .wto, exec_init .pbo, exec_init .mlf, fun s hs => ?_, ⟨_, exec_init .wto _, ?_⟩, rfl, rfl, rfl, rfl⟩
  · exact (exec_init .adsr s).trans (congrArg _ (initUnit_adsr_eq hs))
  · rw [initUnit_status]
    rfl

/-- Settles O29: u.RESET is ResetDynamic of the unit (R198, R199). -/
theorem unitReset : Obligations.UnitReset := by
  unfold Obligations.UnitReset
  exact ⟨exec_reset .wto, exec_reset .pbo, exec_reset .mlf, exec_reset .adsr⟩

/-- Settles O30: each unit's INIT is `initUnit`, and INIT_ALL is the four in order. -/
theorem initAllIsFourInits : Obligations.InitAllIsFourInits := by
  unfold Obligations.InitAllIsFourInits
  refine ⟨fun s => ⟨_, _, _, _, exec_init .wto s, exec_init .pbo _, exec_init .mlf _, exec_init .adsr _,
    exec_initAll s, fun u => ?_⟩, ⟨_, exec_initAll _, ?_⟩, rfl⟩
  · rw [initAll_status]
    cases u <;> rfl
  · rw [initAll_status]
    rfl

/-- Settles O31: RESET_ALL is the four ResetDynamic in order, each on its own unit (R199, R201). -/
theorem resetAllIsFourResets : Obligations.ResetAllIsFourResets := by
  unfold Obligations.ResetAllIsFourResets
  exact ⟨exec_resetAll, rfl⟩

end Sys2Proof.Machine
end

section
/-! SUPPORT. A whole frame of the WTO over written words (42_wavetable_oscillator.md R251, R256, R264 to R266): the
value over the voices and the phase of each voice. The phases need only written parameters; the value needs the tables
too. -/

namespace Sys2Proof.Machine

/-! ### one voice's phase in the array of phases -/

/-- Voice v's phase after it is stored, for the sixteen voices the array holds. -/
theorem phaseOf_setIfInBounds_self (w : Wto) (a : Vector Double 16) {v : Nat} (hv : v < 16) (x : Double) :
    Wto.phaseOf { w with phase := a.setIfInBounds v x } v = x := by
  simp [Wto.phaseOf, hv]

/-- Storing voice v's phase keeps the other voices'. -/
theorem phaseOf_setIfInBounds_of_ne (w : Wto) (a : Vector Double 16) {v u : Nat} (h : v ≠ u) (x : Double) :
    Wto.phaseOf { w with phase := a.setIfInBounds v x } u = Wto.phaseOf { w with phase := a } u := by
  simp [Wto.phaseOf, Vector.getElem?_setIfInBounds_ne h]

variable {s : State} {i : Nat}

/-! ### voice v of frame i -/

/-- The table voice v reads at frame i, by the search of R256 at the voice's own increment. -/
def State.selectedTable (s : State) (i v : Nat) : Nat :=
  select s s.wto.type.toNat (s.tables s.wto.type.toNat) (fabs (s.voiceIncrement i (s.voiceDetune i v)))

theorem selectedTable_selects (h : 0 < s.tables s.wto.type.toNat) (v : Nat) :
    s.Selects (fabs (s.voiceIncrement i (s.voiceDetune i v))) (s.selectedTable i v) :=
  select_selects s _ h

/-- What voice v answers at frame i, at its own phase and detune (R251, R264). -/
def State.frameVoice (s : State) (i v draws : Nat) : VoiceResult :=
  voice s (wtoParams s i).1 (s.wto.phaseOf v) (s.voiceDetune i v) draws

theorem frameVoice_sample (h : ParamsWritten .wto i s) (hw : TablesWritten s) (hr : WtoPhasesInRange s) (v d : Nat) :
    (s.frameVoice i v d).sample = s.voiceAt i v (s.selectedTable i v) (s.voiceDetune i v) :=
  (voice_of_written h hw hr v _ d).1

/-- A voice stores its advanced phase whatever it read from the tables (R251). -/
theorem frameVoice_phase (h : ParamsWritten .wto i s) (v d : Nat) :
    Stored (s.frameVoice i v d).phase (s.phaseAfter i v (s.voiceDetune i v)) := by
  rw [State.frameVoice, wtoParams_of_written h]
  exact stored_storeDouble _ _

/-! ### the detune -/

theorem wtoParams_detune (h : ParamsWritten .wto i s) : (wtoParams s i).1.d = s.value .wtoDetune i := by
  rw [wtoParams_of_written h]

/-- A single voice plays at the frame's detune (R266). -/
theorem voiceDetune_of_le (hn : s.wto.unisonCount.toNat ≤ 1) (v : Nat) :
    s.voiceDetune i v = s.value .wtoDetune i := if_pos hn

/-- Two voices or more are spread around the frame's detune (R264). -/
theorem voiceDetune_of_not_le (hn : ¬ s.wto.unisonCount.toNat ≤ 1) (v : Nat) :
    s.voiceDetune i v = fadd (s.value .wtoDetune i) (voiceOffset (widen s.wto.unisonSpread)
      (fdiv (widen s.wto.unisonSpread) (ofInt (s.wto.unisonCount.toNat - 1 : Nat))) v) := if_neg hn

/-! ### the voices in order -/

/-- The first n voices of frame i, at the spread and step of R264. -/
def State.unisonVoices (s : State) (i n : Nat) : Voices :=
  voices s (wtoParams s i).1 (widen s.wto.unisonSpread)
    (fdiv (widen s.wto.unisonSpread) (ofInt (s.wto.unisonCount.toNat - 1 : Nat))) (wtoParams s i).2 n

/-- Voice n comes after voices 0 to n - 1 and adds its sample to theirs (R265). -/
theorem unisonVoices_succ (h : ParamsWritten .wto i s) (hn : ¬ s.wto.unisonCount.toNat ≤ 1) (n : Nat) :
    s.unisonVoices i (n + 1) =
      let before := s.unisonVoices i n
      let r := s.frameVoice i n before.draws
      { acc := fadd before.acc r.sample, phase := before.phase.setIfInBounds n r.phase, draws := r.draws } := by
  rw [State.unisonVoices, voices, wtoParams_detune h, ← voiceDetune_of_not_le hn]
  rfl

/-- The samples are summed in increasing order from +0.0 (R265). -/
theorem unisonVoices_acc (h : ParamsWritten .wto i s) (hw : TablesWritten s) (hr : WtoPhasesInRange s)
    (hn : ¬ s.wto.unisonCount.toNat ≤ 1) (n : Nat) :
    (s.unisonVoices i n).acc =
      (List.range n).foldl (fun acc v => fadd acc (s.voiceAt i v (s.selectedTable i v) (s.voiceDetune i v))) fzero := by
  induction n with
  | zero => rfl
  | succ n ih =>
    rw [List.range_succ, List.foldl_append, ← ih, unisonVoices_succ h hn]
    exact congrArg (fadd _) (frameVoice_sample h hw hr n _)

/-- Of the first n voices each stores its advanced phase (R251). -/
theorem unisonVoices_phase_of_lt (h : ParamsWritten .wto i s) (hn : ¬ s.wto.unisonCount.toNat ≤ 1) {n : Nat}
    (h16 : n ≤ 16) {v : Nat} (hv : v < n) :
    Stored (Wto.phaseOf { s.wto with phase := (s.unisonVoices i n).phase } v)
      (s.phaseAfter i v (s.voiceDetune i v)) := by
  induction n with
  | zero => exact absurd hv (Nat.not_lt_zero v)
  | succ n ih =>
    rw [unisonVoices_succ h hn]
    rcases Nat.lt_succ_iff_lt_or_eq.1 hv with hlt | rfl
    · rw [phaseOf_setIfInBounds_of_ne _ _ (Nat.ne_of_gt hlt)]
      exact ih (by omega) hlt
    · rw [phaseOf_setIfInBounds_self _ _ (by omega)]
      exact frameVoice_phase h v _

/-- The voices from n on keep their phases. -/
theorem unisonVoices_phase_of_le {n v : Nat} (hv : n ≤ v) :
    Wto.phaseOf { s.wto with phase := (s.unisonVoices i n).phase } v = s.wto.phaseOf v := by
  induction n with
  | zero => rfl
  | succ n ih =>
    rw [State.unisonVoices, voices, phaseOf_setIfInBounds_of_ne _ _ (by omega)]
    exact ih (by omega)

/-! ### the frame -/

/-- Voice 0 alone for a count of 0 or 1 (R266). -/
theorem wtoMix_of_le (h : ParamsWritten .wto i s) (hn : s.wto.unisonCount.toNat ≤ 1) :
    wtoMix s i =
      let r := s.frameVoice i 0 (wtoParams s i).2
      { acc := r.sample, phase := s.wto.phase.setIfInBounds 0 r.phase, draws := r.draws } := by
  rw [State.frameVoice, voiceDetune_of_le hn, ← wtoParams_detune h]
  exact if_pos hn

/-- The average of the voices for a larger count (R265). -/
theorem wtoMix_of_not_le (hn : ¬ s.wto.unisonCount.toNat ≤ 1) :
    wtoMix s i =
      let r := s.unisonVoices i s.wto.unisonCount.toNat
      { r with acc := fmul r.acc (fdiv fone (ofInt s.wto.unisonCount.toNat)) } := if_neg hn

/-- The frame's value is that of R265 and R266 over the tables the search selects. -/
theorem wtoMix_acc (h : ParamsWritten .wto i s) (hw : TablesWritten s) (hr : WtoPhasesInRange s) :
    (wtoMix s i).acc = s.wtoValue i (s.selectedTable i) := by
  by_cases hn : s.wto.unisonCount.toNat ≤ 1
  · rw [wtoMix_of_le h hn, State.wtoValue, if_pos hn]
    exact frameVoice_sample h hw hr 0 _
  · rw [wtoMix_of_not_le hn, State.wtoValue, if_neg hn]
    exact congrArg (fmul · _) (unisonVoices_acc h hw hr hn _)

/-- The output word holds the frame's value (R190, R251). -/
theorem unitFrame_wto_holdsSample (h : ParamsWritten .wto i s) (hw : TablesWritten s) (hr : WtoPhasesInRange s) :
    HoldsSample (unitFrame .wto i s).mem (ramAddr .wtoOut i) (s.wtoValue i (s.selectedTable i)) := by
  rw [← wtoMix_acc h hw hr]
  exact holdsSample_setWord _ _ _ _

/-- Of the WTO a frame changes the phases alone (R251). -/
theorem unitFrame_wto_wto (i : Nat) (s : State) :
    (unitFrame .wto i s).wto = { s.wto with phase := (wtoMix s i).phase } := rfl

/-- Each active voice's phase advances by its increment (R251); a count of 0 has one active voice (R266). -/
theorem unitFrame_wto_phaseOf_of_lt (h : ParamsWritten .wto i s) (h16 : s.wto.unisonCount.toNat ≤ 16) {v : Nat}
    (hv : v < max 1 s.wto.unisonCount.toNat) :
    Stored ((unitFrame .wto i s).wto.phaseOf v) (s.phaseAfter i v (s.voiceDetune i v)) := by
  rw [unitFrame_wto_wto]
  by_cases hn : s.wto.unisonCount.toNat ≤ 1
  · obtain rfl : v = 0 := by omega
    rw [wtoMix_of_le h hn, phaseOf_setIfInBounds_self _ _ (by decide)]
    exact frameVoice_phase h 0 _
  · rw [wtoMix_of_not_le hn]
    exact unisonVoices_phase_of_lt h hn h16 (by omega)

/-- The voices beyond the unison count keep their phases. -/
theorem unitFrame_wto_phaseOf_of_le (h : ParamsWritten .wto i s) {v : Nat}
    (hv : max 1 s.wto.unisonCount.toNat ≤ v) : (unitFrame .wto i s).wto.phaseOf v = s.wto.phaseOf v := by
  rw [unitFrame_wto_wto]
  by_cases hn : s.wto.unisonCount.toNat ≤ 1
  · rw [wtoMix_of_le h hn, phaseOf_setIfInBounds_of_ne _ _ (by omega)]
  · rw [wtoMix_of_not_le hn]
    exact unisonVoices_phase_of_le (by omega)

end Sys2Proof.Machine
end

section
/-! The obligation about one frame of the WTO (42_wavetable_oscillator.md R251, R252, R256, R265). -/

namespace Sys2Proof.Machine

/-- Settles O38: each voice reads the table that the search of R256 selects, and `wtoMix` takes the voices in increasing
order. (`wtoFrame` is the model's own name for the frame.) -/
theorem wtoFrame_holds : Obligations.WtoFrame := by
  unfold Obligations.WtoFrame
  intro i s hp hw hr hl
  exact ⟨⟨s.selectedTable i, fun v _ _ h0 => selectedTable_selects h0 v, unitFrame_wto_holdsSample hp hw hr⟩,
    fun _ _ _ => selects_unique, fun _ => unitFrame_wto_phaseOf_of_lt hp hl.unisonCount,
    fun _ => unitFrame_wto_phaseOf_of_le hp⟩

end Sys2Proof.Machine
end

section
/-! SUPPORT. A whole frame of the PBO (43_polyblep_oscillator.md R302): what its output word and its phase hold, from
the parameters the frame reads. -/

namespace Sys2Proof.Machine

/-- The parameters of a frame over written words (R302). -/
theorem pboParams_of_written {i : Nat} {s : State} (h : ParamsWritten .pbo i s) :
    pboParams s i = ({ f := s.value .pboFrequency i, amp := s.value .pboAmplitude i, d := s.value .pboDetune i
                       pw := s.value .pboPulseWidth i, pm := s.value .pboPhaseMod i
                       pmd := s.value .pboPhaseModDepth i, sr := widen s.sampleRate }, s.draws) := by
  simp only [pboParams, param_of_written (h .pboFrequency rfl), param_of_written (h .pboAmplitude rfl),
    param_of_written (h .pboDetune rfl), param_of_written (h .pboPulseWidth rfl),
    param_of_written (h .pboPhaseMod rfl), param_of_written (h .pboPhaseModDepth rfl)]

/-- The output word holds the sample at the phase held before the frame (R190, R302). -/
theorem unitFrame_pbo_holdsSample (i : Nat) (s : State) :
    HoldsSample (unitFrame .pbo i s).mem (ramAddr .pboOut i)
      (pboSample s.pbo.shape.toNat s.pbo.t (pboParams s i).1) :=
  holdsSample_setWord _ _ _ _

/-- The phase advances by the frame's increment, from the phase held before (R302, R305). -/
theorem unitFrame_pbo_t (i : Nat) (s : State) :
    Stored (unitFrame .pbo i s).pbo.t (pboAdvance s.pbo.t (pboParams s i).1) :=
  stored_storeDouble _ _

end Sys2Proof.Machine
end

section
/-! The obligation about one frame of the PBO (43_polyblep_oscillator.md R302). -/

namespace Sys2Proof.Machine

/-- Settles O43: the sample and the advance are both computed from the phase held before, and over written words the
frame's parameters are their values. (`pboFrame` is the model's own name for the frame.) -/
theorem pboFrame_holds : Obligations.PboFrame := by
  unfold Obligations.PboFrame
  intro i s hp
  have hsample := unitFrame_pbo_holdsSample i s
  have hphase := unitFrame_pbo_t i s
  rw [pboParams_of_written hp] at hsample hphase
  exact ⟨hsample, hphase⟩

end Sys2Proof.Machine
end

section
/-! SUPPORT. A whole frame of the ADSR over written words (45_adsr_envelope.md R407 to R413): the gate edge, one step of
the new phase's recurrence, and what the frame stores of the two. -/

namespace Sys2Proof.Machine

/-! ### the gate edge -/

/-- The phase after the gate edge: a rising edge starts the attack, a falling one the release (R407, R408). -/
def Adsr.phaseAfterEdge (a : Adsr) (g : Bool) : AdsrPhase :=
  if g = true ∧ a.prevGate = false ∧ (a.phase = .idle ∨ a.phase = .release) then .attack
  else if g = false ∧ a.prevGate = true ∧ a.phase ≠ .idle then .release
  else a.phase

/-- releaseCompleted after the gate edge: entering the attack clears it (R407, R414). -/
def Adsr.releaseCompletedAfterEdge (a : Adsr) (g : Bool) : Bool :=
  if g = true ∧ a.prevGate = false ∧ (a.phase = .idle ∨ a.phase = .release) then false else a.releaseCompleted

/-- The envelope after the gate edge, before the recurrence: an edge keeps the level. -/
def Adsr.afterEdge (a : Adsr) (g : Bool) : Envelope :=
  { phase := a.phaseAfterEdge g, level := a.level, releaseCompleted := a.releaseCompletedAfterEdge g }

theorem adsrTransition_eq (a : Adsr) (g : Bool) :
    adsrTransition g a.prevGate a.phase a.releaseCompleted =
      (a.phaseAfterEdge g, a.releaseCompletedAfterEdge g) := by
  simp only [adsrTransition, Adsr.phaseAfterEdge, Adsr.releaseCompletedAfterEdge, Bool.and_eq_true, Bool.or_eq_true,
    Bool.not_eq_true', beq_iff_eq, bne_iff_ne, and_assoc]
  by_cases hrise : g = true ∧ a.prevGate = false ∧ (a.phase = .idle ∨ a.phase = .release)
  · simp only [if_pos hrise]
  · simp only [if_neg hrise]
    split
    · rfl
    · rfl

/-- The recurrence runs on the envelope the edge leaves, in the same frame (R407). -/
theorem adsrEnvelope_eq (a : Adsr) (g : Bool) :
    adsrEnvelope a g = adsrRecurrence a.coefs (widen a.sustainLevel) (a.afterEdge g) := by
  rw [adsrEnvelope, adsrTransition_eq]
  rfl

/-! ### the recurrence, one equation per phase and branch -/

section Recurrence

variable (c : Coefficients) (sus : Double) (e : Envelope)

/-- IDLE holds the envelope (R412). -/
theorem adsrRecurrence_idle (h : e.phase = .idle) : adsrRecurrence c sus e = e := by
  rw [adsrRecurrence, h]

/-- SUSTAIN holds the envelope (R411). -/
theorem adsrRecurrence_sustain (h : e.phase = .sustain) : adsrRecurrence c sus e = e := by
  rw [adsrRecurrence, h]

/-- An attack that reaches 1.0 stops there and decays (R409). -/
theorem adsrRecurrence_attack_of_top (h : e.phase = .attack)
    (hx : fle fone (segment c.attackBase e.level c.attackCoef) = true) :
    adsrRecurrence c sus e = { e with level := fone, phase := .decay } := by
  rw [adsrRecurrence, h]
  exact if_pos hx

theorem adsrRecurrence_attack_of_below (h : e.phase = .attack)
    (hx : fle fone (segment c.attackBase e.level c.attackCoef) = false) :
    adsrRecurrence c sus e = { e with level := segment c.attackBase e.level c.attackCoef } := by
  rw [adsrRecurrence, h]
  exact if_neg (Bool.eq_false_iff.1 hx)

/-- A decay that reaches the sustain level stops there (R410). -/
theorem adsrRecurrence_decay_of_reached (h : e.phase = .decay)
    (hx : fle (segment c.decayBase e.level c.decayCoef) sus = true) :
    adsrRecurrence c sus e = { e with level := sus, phase := .sustain } := by
  rw [adsrRecurrence, h]
  exact if_pos hx

theorem adsrRecurrence_decay_of_above (h : e.phase = .decay)
    (hx : fle (segment c.decayBase e.level c.decayCoef) sus = false) :
    adsrRecurrence c sus e = { e with level := segment c.decayBase e.level c.decayCoef } := by
  rw [adsrRecurrence, h]
  exact if_neg (Bool.eq_false_iff.1 hx)

/-- A release that reaches 0.0 stops there, rests and is completed (R413). -/
theorem adsrRecurrence_release_of_zero (h : e.phase = .release)
    (hx : fle (segment c.releaseBase e.level c.releaseCoef) fzero = true) :
    adsrRecurrence c sus e = { phase := .idle, level := fzero, releaseCompleted := true } := by
  rw [adsrRecurrence, h]
  exact if_pos hx

theorem adsrRecurrence_release_of_above (h : e.phase = .release)
    (hx : fle (segment c.releaseBase e.level c.releaseCoef) fzero = false) :
    adsrRecurrence c sus e = { e with level := segment c.releaseBase e.level c.releaseCoef } := by
  rw [adsrRecurrence, h]
  exact if_neg (Bool.eq_false_iff.1 hx)

/-- Only the release completes a release (R413, R414). -/
theorem adsrRecurrence_releaseCompleted (h : e.phase ≠ .release) :
    (adsrRecurrence c sus e).releaseCompleted = e.releaseCompleted := by
  cases hp : e.phase with
  | idle => rw [adsrRecurrence_idle c sus e hp]
  | attack =>
    cases hx : fle fone (segment c.attackBase e.level c.attackCoef)
    · rw [adsrRecurrence_attack_of_below c sus e hp hx]
    · rw [adsrRecurrence_attack_of_top c sus e hp hx]
  | decay =>
    cases hx : fle (segment c.decayBase e.level c.decayCoef) sus
    · rw [adsrRecurrence_decay_of_above c sus e hp hx]
    · rw [adsrRecurrence_decay_of_reached c sus e hp hx]
  | sustain => rw [adsrRecurrence_sustain c sus e hp]
  | release => exact absurd hp h

end Recurrence

/-! ### the frame -/

/-- The ADSR takes over the envelope and the gate, its level as stored (R19, R407). -/
def Adsr.withEnvelope (a : Adsr) (e : Envelope) (g : Bool) (level : Double) : Adsr :=
  { a with phase := e.phase, level := level, releaseCompleted := e.releaseCompleted, prevGate := g }

/-- Over a written gate and input, a frame stores its envelope and puts out the input times the level (R406, R407). -/
theorem unitFrame_adsr_of_written {i : Nat} {s : State} {w : Word} (h : ParamsWritten .adsr i s)
    (hw : s.mem.word? (ramAddr .adsrIn i) = some w) {g : Bool} (hg : flt fzero (s.value .adsrGate i) = g)
    {e : Envelope} (he : adsrEnvelope s.adsr g = e) :
    HoldsSample (unitFrame .adsr i s).mem (ramAddr .adsrOut i) (fmul (widen w) e.level) ∧
      (unitFrame .adsr i s).adsr = s.adsr.withEnvelope e g (storeDouble e.level s.draws).1 := by
  simp only [unitFrame, adsrFrame, param_of_written (h .adsrGate rfl), inputFrame_of_written hw, hg, he,
    State.putFrame_mem, State.putFrame_adsr]
  exact ⟨holdsSample_setWord _ _ _ _, rfl⟩

end Sys2Proof.Machine
end

section
/-! The obligation about one frame of the ADSR (45_adsr_envelope.md R407, R409, R410, R413). -/

namespace Sys2Proof.Machine

/-- Settles O50: the gate edge gives the phase whose recurrence runs, and each branch of the recurrence its level, phase
and releaseCompleted. (`adsrFrame` is the model's own name for the frame.) -/
theorem adsrFrame_holds : Obligations.AdsrFrame := by
  unfold Obligations.AdsrFrame
  intro i s w hp hw g a ph done up down out sus n
  obtain ⟨hout, hn⟩ := unitFrame_adsr_of_written hp hw rfl (adsrEnvelope_eq a g)
  refine ⟨_, hout, ?_⟩
  rw [show n = _ from hn]
  refine ⟨stored_storeDouble _ _, rfl, fun hidle => ?_, fun hattack => ⟨?_, fun hx => ?_, fun hx => ?_⟩,
    fun hdecay => ⟨?_, fun hx => ?_, fun hx => ?_⟩, fun hsustain => ?_,
    fun hrelease => ⟨fun hx => ?_, fun hx => ?_⟩⟩
  · rw [adsrRecurrence_idle a.coefs sus (a.afterEdge g) hidle]
    exact ⟨rfl, hidle, rfl⟩
  · exact adsrRecurrence_releaseCompleted a.coefs sus (a.afterEdge g) (ne_of_eq_of_ne hattack nofun)
  · rw [adsrRecurrence_attack_of_top a.coefs sus (a.afterEdge g) hattack hx]
    exact ⟨rfl, rfl⟩
  · rw [adsrRecurrence_attack_of_below a.coefs sus (a.afterEdge g) hattack hx]
    exact ⟨rfl, hattack⟩
  · exact adsrRecurrence_releaseCompleted a.coefs sus (a.afterEdge g) (ne_of_eq_of_ne hdecay nofun)
  · rw [adsrRecurrence_decay_of_reached a.coefs sus (a.afterEdge g) hdecay hx]
    exact ⟨rfl, rfl⟩
  · rw [adsrRecurrence_decay_of_above a.coefs sus (a.afterEdge g) hdecay hx]
    exact ⟨rfl, hdecay⟩
  · rw [adsrRecurrence_sustain a.coefs sus (a.afterEdge g) hsustain]
    exact ⟨rfl, hsustain, rfl⟩
  · rw [adsrRecurrence_release_of_zero a.coefs sus (a.afterEdge g) hrelease hx]
    exact ⟨rfl, rfl, rfl⟩
  · rw [adsrRecurrence_release_of_above a.coefs sus (a.afterEdge g) hrelease hx]
    exact ⟨rfl, hrelease, rfl⟩

end Sys2Proof.Machine
end

section
/-! The obligations about misaligned accesses and overlong PROCESS commands (60_exceptions.md R455, R458). -/

namespace Sys2Proof.Machine

/-- Settles O9: alignment is tested before the address map, so a misaligned access raises ERR_ALIGN alone. -/
theorem misalignedAccess : Obligations.MisalignedAccess := by
  unfold Obligations.MisalignedAccess
  intro a v s h
  rw [← raiseError_eq]
  exact ⟨execBusRead_misaligned a s h, execBusWrite_misaligned a v s h⟩

/-- The first branch of R202: a PROCESS of more than 128 frames records ERR_LEN and is silent for all of them (R455). -/
theorem process_of_too_long (u : UnitId) (f : Nat → State → State) {n : Nat} (hn : 128 < n) (s : State) :
    process u f n s = markNonsilent u false (silence u 128 (raiseError .len s)) :=
  if_pos hn

/-- Settles O32: what the overlong branch writes and leaves alone is what `silence_spec` says of 128 frames of silence. -/
theorem processTooLong : Obligations.ProcessTooLong := by
  unfold Obligations.ProcessTooLong
  intro u n s hn
  obtain ⟨m, hm, hword, hkept⟩ := silence_spec u 128 (raiseError .len s)
  refine ⟨m, ?_, hword, hkept⟩
  rw [exec_process, process_of_too_long u _ hn, hm, raiseError_eq, ← withNonsilent_eq]
  rfl

end Sys2Proof.Machine
end

section
/-! SUPPORT. The encoder and the decoder of command words and bus records (30_encoding.md R140 to R148), each undoing
the other. -/

namespace Sys2Proof

/-! ### command words -/

/-- A word with RSVD zero decodes by its unit, operation and argument (R140, R143). -/
theorem decodeCommand_commandWord (u o : BitVec 4) (n : Nat) :
    decodeCommand (commandWord u o n) = decodeUnitOp u.toNat o.toNat (BitVec.ofNat 16 n) := by
  rw [commandWord, decodeCommand_append]
  exact if_neg (not_not.2 rfl)

/-- A frame count that fits ARG is read back from it (R144). -/
theorem toNat_ofNat_of_frameCountFits {n : Nat} (h : frameCountFits n = true) : (BitVec.ofNat 16 n).toNat = n :=
  Nat.mod_eq_of_lt (of_decide_eq_true h)

/-- The word of a PROCESS decodes to it with its frame count (R143, R144). -/
theorem decodeCommand_process {u : BitVec 4} {f : Nat → Instr} {n : Nat}
    (hu : ∀ a, decodeUnitOp u.toNat 3 a = .ok (f a.toNat)) (hn : frameCountFits n = true) :
    decodeCommand (commandWord u 3 n) = .ok (f n) := by
  rw [decodeCommand_commandWord]
  exact (hu _).trans (by rw [toNat_ofNat_of_frameCountFits hn])

/-- The well-formed instruction i and its word's fields (R146). -/
def EncodesAs (i : Instr) (u o : BitVec 4) (a : BitVec 16) : Prop :=
  WellFormed i = true ∧ encode i = .cmd (u ++ o ++ 0#8 ++ a)

/-- Of the words with ARG zero, each that decodes is the encoding of what it decodes to. -/
theorem encodesAs_of_decode_arg_zero :
    ∀ u o : BitVec 4, ∀ i ∈ (decodeUnitOp u.toNat o.toNat 0).toOption, EncodesAs i u o 0 := by
  unfold EncodesAs
  decide +kernel

/-- The argument of a PROCESS word is the frame count of the instruction it decodes to. -/
theorem encodesAs_of_process {u : BitVec 4} {f : Nat → Instr} (a : BitVec 16)
    (hw : WellFormed (f a.toNat) = frameCountFits a.toNat)
    (he : encode (f a.toNat) = .cmd (commandWord u 3 a.toNat)) : EncodesAs (f a.toNat) u 3 a := by
  refine ⟨hw.trans (decide_eq_true a.isLt), he.trans ?_⟩
  rw [commandWord, BitVec.ofNat_toNat, BitVec.setWidth_eq]

/-- An operation that decodes is the encoding of a well-formed instruction (R143, R146). -/
theorem encodesAs_of_decodeUnitOp {u o : BitVec 4} {a : BitVec 16} {i : Instr}
    (h : decodeUnitOp u.toNat o.toNat a = .ok i) : EncodesAs i u o a := by
  have zero : a = 0 → EncodesAs i u o a := by
    rintro rfl
    exact encodesAs_of_decode_arg_zero u o i (by rw [h]; rfl)
  rcases (decodeUnitOp_ok _ _ a).1 ⟨i, h⟩ with ⟨-, -, ha⟩ | ⟨-, -, -, -, ha⟩ | ⟨h1, h4, ho⟩
  · exact zero ha
  · exact zero ha
  · obtain rfl : o = 3 := BitVec.eq_of_toNat_eq ho
    have hu : u = 1 ∨ u = 2 ∨ u = 3 ∨ u = 4 := by
      clear h zero
      revert u
      decide
    rcases hu with rfl | rfl | rfl | rfl
    · cases h
      exact encodesAs_of_process a rfl rfl
    · cases h
      exact encodesAs_of_process a rfl rfl
    · cases h
      exact encodesAs_of_process a rfl rfl
    · cases h
      exact encodesAs_of_process a rfl rfl

/-- A command word that decodes is the encoding of what it decodes to (R140, R146). -/
theorem encode_of_decodeCommand {w : BitVec 32} {i : Instr} (h : decodeCommand w = .ok i) :
    WellFormed i = true ∧ encode i = .cmd w := by
  obtain ⟨u, o, r, a, rfl⟩ := word_cases w
  rw [decodeCommand_append] at h
  split at h
  · cases h
  · obtain rfl : r = 0#8 := not_not.1 ‹_›
    exact encodesAs_of_decodeUnitOp h

/-! ### bus records -/

/-- A record is its three fields (R148). -/
theorem busRecord_of_fields (r : BitVec 65) :
    busRecord (r.getLsbD 64) (r.extractLsb' 32 32) (r.extractLsb' 0 32) = r := by
  apply BitVec.eq_of_getLsbD_eq
  intro i hi
  simp only [busRecord, BitVec.getLsbD_append, BitVec.getLsbD_extractLsb']
  interval_cases i <;> simp

/-- A read's record without its data bits (R148). -/
theorem busRecord_read (r : BitVec 65) (h : r.getLsbD 64 = false) :
    busRecord false (r.extractLsb' 32 32) 0 = r.extractLsb' 32 33 ++ (0 : BitVec 32) := by
  rw [BitVec.getLsbD_eq_getElem (by decide)] at h
  apply BitVec.eq_of_getLsbD_eq
  intro i hi
  simp only [busRecord, BitVec.getLsbD_append, BitVec.getLsbD_extractLsb']
  interval_cases i <;> simp [h]

/-- The decoder's answer by the rw bit (R148). -/
theorem decodeBus_of_write {r : BitVec 65} (h : r.getLsbD 64 = true) :
    decodeBus r = .busWrite (r.extractLsb' 32 32) (r.extractLsb' 0 32) := if_pos h

theorem decodeBus_of_read {r : BitVec 65} (h : r.getLsbD 64 = false) : decodeBus r = .busRead (r.extractLsb' 32 32) :=
  if_neg (Bool.eq_false_iff.1 h)

end Sys2Proof
end

section
/-! The obligations about the encoding (30_encoding.md R140 to R148). -/

namespace Sys2Proof

/-- Settles O1, instruction by instruction: each encoding's fields are those the decoder reads. -/
theorem decodeInvertsEncode : Obligations.DecodeInvertsEncode := by
  unfold Obligations.DecodeInvertsEncode
  intro i hi
  have bus (rw : Bool) (a v : Word) :
      decode (.bus (busRecord rw a v)) = .ok (if rw then .busWrite a v else .busRead a) :=
    congrArg Except.ok (decodeBus_busRecord rw a v)
  have exact_word {u o : BitVec 4} {j : Instr} (h : decodeUnitOp u.toNat o.toNat 0 = .ok j) :
      decodeCommand (commandWord u o 0) = .ok j := (decodeCommand_commandWord u o 0).trans h
  cases i with
  | busRead a => exact bus false a 0
  | busWrite a v => exact bus true a v
  | wtoProcess n => exact decodeCommand_process (fun _ => rfl) hi
  | pboProcess n => exact decodeCommand_process (fun _ => rfl) hi
  | mlfProcess n => exact decodeCommand_process (fun _ => rfl) hi
  | adsrProcess n => exact decodeCommand_process (fun _ => rfl) hi
  | _ => exact exact_word rfl

/-- Settles O2: a word is its four fields and a record its three, and the decoder rejects what is not encoded. -/
theorem encodeInvertsDecode : Obligations.EncodeInvertsDecode := by
  unfold Obligations.EncodeInvertsDecode
  refine ⟨fun w i h => encode_of_decodeCommand h, fun r h => ?_, fun r h => ?_⟩
  · have hr := busRecord_of_fields r
    rw [h] at hr
    rw [decodeBus_of_write h, encode, hr]
  · rw [decodeBus_of_read h, encode, busRecord_read r h]

/-- Settles O4: each word is a closed input, so decoding it is evaluation. -/
theorem encodingExamples : Obligations.EncodingExamples := by
  unfold Obligations.EncodingExamples
  decide

end Sys2Proof
end

section
/-! SUPPORT. What every step keeps: the canonical memory, legal registers, the phases, the ADSR's resting level and its
coefficients. Each is one proof of `Kept`; what `Kept` asks of each operation is said here once. -/

namespace Sys2Proof.Machine

/-! ### u.INIT and register writes, for any property -/

/-- u.INIT is ResetDynamic, for the ADSR a recompute, and the flag (R197). -/
theorem initUnit_keeps {P : State → Prop} (hreset : ∀ u s, P s → P (resetDynamic u s))
    (hrec : ∀ s, P s → P (recompute s)) (hmark : ∀ u s, P s → P (markInit u s)) (u : UnitId) (s : State) (hs : P s) :
    P (initUnit u s) := by
  unfold initUnit
  refine hmark u _ ?_
  split
  · exact hrec _ (hreset u s hs)
  · exact hreset u s hs

/-- What a register write does to the state variables: nothing, but that a changed unison count puts the WTO's phases
at +0.0 (R183, R270). -/
structure StateVariablesKept (s t : State) : Prop where
  pboPhase : t.pbo.t = s.pbo.t
  adsrPhase : t.adsr.phase = s.adsr.phase
  adsrLevel : t.adsr.level = s.adsr.level
  wtoPhase : t.wto.phase = s.wto.phase ∨ t.wto.phase = phasesZero

namespace StateVariablesKept

theorem ite {c : Prop} [Decidable c] {s t r : State} (h1 : StateVariablesKept s t) (h2 : StateVariablesKept s r) :
    StateVariablesKept s (if c then t else r) := by
  split
  · exact h1
  · exact h2

theorem recompute {s t : State} (h : StateVariablesKept s t) : StateVariablesKept s (recompute t) := by
  obtain ⟨hpbo, hphase, hlevel, hwto⟩ := h
  exact ⟨by rwa [recompute_pbo], by rwa [recompute_adsr_phase], by rwa [recompute_adsr_level], by rwa [recompute_wto]⟩

theorem raiseIf (b : Bool) (s : State) : StateVariablesKept s (raiseIf b s) := by
  rw [raiseIf_eq]
  exact ⟨rfl, rfl, rfl, .inl rfl⟩

end StateVariablesKept

theorem stateVariablesKept_writeLoc (v : Word) (s : State) (l : Loc) : StateVariablesKept s (writeLoc v s l) := by
  have nan {t : State} (ht : StateVariablesKept s t) :
      StateVariablesKept s (if isNaN32 v then raiseError .cfg s else t) := .ite ⟨rfl, rfl, rfl, .inl rfl⟩ ht
  cases l
  case scalar p => cases p <;> exact ⟨rfl, rfl, rfl, .inl rfl⟩
  case paramMode u => cases u <;> exact ⟨rfl, rfl, rfl, .inl rfl⟩
  case sampleRate =>
    exact .ite (c := legalSampleRate v = true) (.recompute ⟨rfl, rfl, rfl, .inl rfl⟩) ⟨rfl, rfl, rfl, .inl rfl⟩
  case wtoUnisonCount =>
    rw [writeLoc, writeUnisonCount_eq]
    refine ⟨rfl, rfl, rfl, ?_⟩
    dsimp only
    split
    · exact .inl rfl
    · exact .inr rfl
  case wtoUnisonSpread =>
    have h := StateVariablesKept.raiseIf (outside v (ofInt (-4800)) (ofInt 4800)) s
    exact nan ⟨h.pboPhase, h.adsrPhase, h.adsrLevel, h.wtoPhase⟩
  case adsrAttackTime => exact nan (.recompute ⟨rfl, rfl, rfl, .inl rfl⟩)
  case adsrDecayTime => exact nan (.recompute ⟨rfl, rfl, rfl, .inl rfl⟩)
  case adsrReleaseTime => exact nan (.recompute ⟨rfl, rfl, rfl, .inl rfl⟩)
  case adsrSustainTime => exact nan ⟨rfl, rfl, rfl, .inl rfl⟩
  case adsrAttackLevel =>
    have h := StateVariablesKept.raiseIf (outside v fzero fone) s
    exact nan ⟨h.pboPhase, h.adsrPhase, h.adsrLevel, h.wtoPhase⟩
  case adsrSustainLevel =>
    have h := StateVariablesKept.raiseIf (outside v fzero fone) s
    exact nan (.recompute ⟨h.pboPhase, h.adsrPhase, h.adsrLevel, h.wtoPhase⟩)
  case wtNumTables t =>
    have h := StateVariablesKept.raiseIf (decide (Config.wtMaxTables < v.toNat)) s
    exact ⟨h.pboPhase, h.adsrPhase, h.adsrLevel, h.wtoPhase⟩
  all_goals exact ⟨rfl, rfl, rfl, .inl rfl⟩

/-! ### memory -/

/-- A register write leaves memory alone; a RAM write stores its word (R183). -/
theorem writeLoc_mem (v : Word) (s : State) (l : Loc) :
    (writeLoc v s l).mem = s.mem ∨ ∃ a, (writeLoc v s l).mem = s.mem.setWord a v := by
  have kept {c : Prop} [Decidable c] {t r : State} (h1 : t.mem = s.mem) (h2 : r.mem = s.mem) :
      (if c then t else r).mem = s.mem := by
    split
    · exact h1
    · exact h2
  have raised (b : Bool) : (raiseIf b s).mem = s.mem := by rw [raiseIf_eq]
  have nan {t : State} (ht : t.mem = s.mem) : (if isNaN32 v then raiseError .cfg s else t).mem = s.mem := kept rfl ht
  cases l
  case ram a => exact .inr ⟨a, rfl⟩
  case scalar p => cases p <;> exact .inl rfl
  case paramMode u => cases u <;> exact .inl rfl
  case sampleRate => exact .inl (kept (c := legalSampleRate v = true) (recompute_mem _) rfl)
  case wtoUnisonCount =>
    rw [writeLoc, writeUnisonCount_eq]
    exact .inl rfl
  case wtoUnisonSpread => exact .inl (nan (raised _))
  case adsrAttackTime => exact .inl (nan (recompute_mem _))
  case adsrDecayTime => exact .inl (nan (recompute_mem _))
  case adsrReleaseTime => exact .inl (nan (recompute_mem _))
  case adsrSustainTime => exact .inl (nan rfl)
  case adsrAttackLevel => exact .inl (nan (raised _))
  case adsrSustainLevel => exact .inl (nan ((recompute_mem _).trans (raised _)))
  case wtNumTables t => exact .inl (raised _)
  all_goals exact .inl rfl

@[simp] theorem resetDynamic_mem (u : UnitId) (s : State) : (resetDynamic u s).mem = s.mem := by
  cases u <;> rfl

/-- Every operation keeps memory canonical: it writes whole words or none (log 10). -/
theorem kept_memoryCanonical : Kept fun s => s.mem.wf = true where
  read _ _ _ h := h
  raise _ _ h := h
  write v l s _ h := by
    rcases writeLoc_mem v s l with e | ⟨a, e⟩ <;> rw [e]
    · exact h
    · exact Memory.wf_setWord _ _ _ h
  init := initUnit_keeps (P := fun s => s.mem.wf = true) (fun u s h => by rwa [resetDynamic_mem])
    (fun s h => by rwa [recompute_mem]) (fun _ _ h => h)
  reset u s h := by rwa [resetDynamic_mem]
  mark _ _ _ h := h
  silent _ _ _ h := Memory.wf_setWord _ _ _ h
  frame := unitFrame_wf

/-! ### LAST_ERR -/

/-- LAST_ERR names an error exactly while one is recorded (R453, R461). -/
def Status.LastErrLegal (st : Status) : Prop :=
  st.lastErr.toNat ≤ 5 ∧ (st.lastErr = 0 ↔ ∀ e, st.sticky e = false)

theorem Status.lastErr_raise (e : ErrCode) (st : Status) : (st.raise e).lastErr = e.code := by
  cases e <;> rfl

/-- Recording an error sets its own sticky bit and keeps the others (R452). -/
theorem Status.sticky_raise (e e' : ErrCode) (st : Status) :
    (st.raise e).sticky e' = (decide (e' = e) || st.sticky e') := by
  cases e <;> cases e' <;> rfl

/-- A STATUS write sets no sticky bit (R187). -/
theorem Status.sticky_of_sticky_clear {v : Word} {e : ErrCode} {st : Status} (h : (st.clear v).sticky e = true) :
    st.sticky e = true := by
  cases e <;> exact (Bool.and_eq_true _ _ ▸ h).1

@[simp] theorem Status.sticky_setInit (u : UnitId) (e : ErrCode) (st : Status) :
    (st.setInit u).sticky e = st.sticky e := by
  cases u <;> cases e <;> rfl

@[simp] theorem Status.lastErr_setInit (u : UnitId) (st : Status) : (st.setInit u).lastErr = st.lastErr := by
  cases u <;> rfl

@[simp] theorem Status.sticky_setNonsilent (u : UnitId) (b : Bool) (e : ErrCode) (st : Status) :
    (st.setNonsilent u b).sticky e = st.sticky e := by
  cases u <;> cases e <;> rfl

@[simp] theorem Status.lastErr_setNonsilent (u : UnitId) (b : Bool) (st : Status) :
    (st.setNonsilent u b).lastErr = st.lastErr := by
  cases u <;> rfl

theorem Status.lastErrLegal_raise (e : ErrCode) (st : Status) : (st.raise e).LastErrLegal := by
  rw [LastErrLegal, lastErr_raise]
  refine ⟨by cases e <;> decide, fun h => absurd h (by cases e <;> decide), fun h => ?_⟩
  have he := h e
  rw [sticky_raise, decide_eq_true rfl] at he
  cases he

/-- A STATUS write leaves LAST_ERR 0 when no error is left, and else its code, which a recorded error had (R187). -/
theorem Status.LastErrLegal.clear {st : Status} (h : st.LastErrLegal) (v : Word) : (st.clear v).LastErrLegal := by
  rw [LastErrLegal, lastErr_clear]
  split
  · exact ⟨Nat.zero_le _, fun _ => (clean_iff _).1 ‹_›, fun _ => rfl⟩
  · refine ⟨h.1, fun h0 => absurd ((clean_iff _).2 fun e => ?_) ‹_›, fun hnone => absurd ((clean_iff _).2 hnone) ‹_›⟩
    have hs := h.2.1 h0 e
    cases hc : (st.clear v).sticky e
    · rfl
    · rw [sticky_of_sticky_clear hc] at hs
      cases hs

/-! ### legal registers -/

theorem RegistersLegal.withStatus {s : State} (h : RegistersLegal s) {st : Status} (hst : st.LastErrLegal) :
    RegistersLegal { s with status := st } :=
  { h with lastErr := hst }

theorem RegistersLegal.raiseError {s : State} (h : RegistersLegal s) (e : ErrCode) : RegistersLegal (raiseError e s) :=
  h.withStatus (Status.lastErrLegal_raise e s.status)

theorem RegistersLegal.raiseIf {s : State} (h : RegistersLegal s) (b : Bool) : RegistersLegal (raiseIf b s) := by
  cases b
  · exact h
  · exact h.raiseError .cfg

/-- A recompute changes coefficients and draws, no setting. -/
theorem RegistersLegal.recompute {s : State} (h : RegistersLegal s) : RegistersLegal (recompute s) :=
  { h with }

theorem RegistersLegal.resetDynamic {s : State} (h : RegistersLegal s) (u : UnitId) :
    RegistersLegal (resetDynamic u s) := by
  cases u <;> exact { h with }

theorem RegistersLegal.markInit {s : State} (h : RegistersLegal s) (u : UnitId) : RegistersLegal (markInit u s) :=
  h.withStatus (by simpa only [Status.LastErrLegal, Status.sticky_setInit, Status.lastErr_setInit] using h.lastErr)

theorem RegistersLegal.markNonsilent {s : State} (h : RegistersLegal s) (u : UnitId) (b : Bool) :
    RegistersLegal (markNonsilent u b s) :=
  h.withStatus
    (by simpa only [Status.LastErrLegal, Status.sticky_setNonsilent, Status.lastErr_setNonsilent] using h.lastErr)

/-- A frame changes state variables of one unit, no register (R191). -/
theorem RegistersLegal.unitFrame {s : State} (h : RegistersLegal s) (u : UnitId) (i : Nat) :
    RegistersLegal (unitFrame u i s) := by
  cases u
  case mlf =>
    show RegistersLegal (mlfFrame i s)
    unfold mlfFrame
    split
    · exact { h with }
    · exact { h with }
  all_goals exact { h with }

/-- A table count clamped to 16 is legal wherever it is stored (R48). -/
theorem tables_setIfInBounds_le {s : State} (h : ∀ k, s.tables k ≤ 16) (t : Nat) {n : Nat} {w : Word}
    (hw : w.toNat = min n 16) (k : Nat) :
    State.tables { s with numTables := s.numTables.setIfInBounds t w } k ≤ 16 := by
  simp only [State.tables, Vector.getElem?_setIfInBounds]
  split
  · split
    · exact hw.trans_le (min_le_right _ _)
    · exact Nat.zero_le _
  · exact h k

/-- Each WARL register's write rule stores a legal value or none (R34, R39, R40, R45, R48). -/
theorem RegistersLegal.writeLoc {s : State} (h : RegistersLegal s) (v : Word) (l : Loc) :
    RegistersLegal (writeLoc v s l) := by
  have nan {t : State} (ht : isNaN32 v = false → RegistersLegal t) :
      RegistersLegal (if isNaN32 v then Machine.raiseError .cfg s else t) := by
    split
    · exact h.raiseError .cfg
    · exact ht (Bool.eq_false_iff.2 ‹_›)
  cases l
  case status => exact h.withStatus (Status.LastErrLegal.clear h.lastErr v)
  case scalar p => cases p <;> exact { h with }
  case paramMode u => cases u <;> exact { h with }
  case sampleRate =>
    show RegistersLegal (writeSampleRate v s)
    unfold writeSampleRate
    split
    · exact RegistersLegal.recompute { h with sampleRate := Bool.and_eq_true _ _ ▸ ‹legalSampleRate v = true› }
    · exact h.raiseError .cfg
  case wtoUnisonCount =>
    show RegistersLegal (writeUnisonCount v s)
    rw [writeUnisonCount_eq, ← raise_eq_withError]
    have hst := (h.raiseIf (decide (16 < v.toNat))).lastErr
    rw [raiseIf_eq] at hst
    simp only [decide_eq_true_eq] at hst
    exact { h.withStatus hst with unisonCount := (toNat_ofNat_min _).trans_le (min_le_right _ _) }
  case wtoUnisonSpread =>
    have hr := h.raiseIf (outside v (ofInt (-4800)) (ofInt 4800))
    exact nan fun _ => { hr with unisonSpread := clampWord_spread v }
  case adsrAttackTime =>
    exact nan fun hv => RegistersLegal.recompute { h with times := ⟨hv, h.times.2⟩ }
  case adsrDecayTime =>
    exact nan fun hv => RegistersLegal.recompute { h with times := ⟨h.times.1, hv, h.times.2.2⟩ }
  case adsrReleaseTime =>
    exact nan fun hv => RegistersLegal.recompute { h with times := ⟨h.times.1, h.times.2.1, h.times.2.2.1, hv⟩ }
  case adsrSustainTime => exact nan fun hv => { h with times := ⟨h.times.1, h.times.2.1, hv, h.times.2.2.2⟩ }
  case adsrAttackLevel =>
    have hr := h.raiseIf (outside v fzero fone)
    exact nan fun _ => { hr with attackLevel := clampWord_unit v }
  case adsrSustainLevel =>
    have hr := h.raiseIf (outside v fzero fone)
    exact nan fun _ => RegistersLegal.recompute { hr with sustainLevel := clampWord_unit v }
  case wtNumTables t =>
    have hr := h.raiseIf (decide (Config.wtMaxTables < v.toNat))
    exact { hr with numTables := tables_setIfInBounds_le hr.numTables t (toNat_ofNat_min v.toNat) }
  all_goals exact { h with }

end Sys2Proof.Machine
end

section
/-! SUPPORT. The invariants that rest on legal registers: the phases of the two oscillators stay in range because their
increments are bounded, and the coefficients follow the registers because a recompute gives no NaN. -/

namespace Sys2Proof.Machine

/-! ### what every operation keeps -/

theorem kept_registersLegal : Kept RegistersLegal where
  read _ _ _ h := { h with }
  raise e _ h := h.raiseError e
  write v l _ _ h := h.writeLoc v l
  init := initUnit_keeps (fun u _ h => h.resetDynamic u) (fun _ h => h.recompute) (fun u _ h => h.markInit u)
  reset u _ h := h.resetDynamic u
  mark u b _ h := h.markNonsilent u b
  silent _ _ _ h := { h with }
  frame u i _ h := h.unitFrame u i

/-- What Q must be kept by, wherever P holds, so that every instruction keeps P and Q together. -/
structure KeptGiven (P Q : State → Prop) : Prop where
  read : ∀ s x d, Q s → Q { s with readData := x, draws := d }
  raise : ∀ e s, Q s → Q (raiseError e s)
  write : ∀ v l s, P s → Q s → Q (writeLoc v s l)
  reset : ∀ u s, Q s → Q (resetDynamic u s)
  recompute : ∀ s, P s → Q s → Q (recompute s)
  markInit : ∀ u s, Q s → Q (markInit u s)
  mark : ∀ u b s, Q s → Q (markNonsilent u b s)
  silent : ∀ (u : UnitId) i s, Q s → Q (s.putWord (ramAddr u.out i) 0x00000000)
  frame : ∀ u i s, P s → Q s → Q (unitFrame u i s)

/-- A property kept wherever the registers are legal is kept together with their legality. -/
theorem KeptGiven.and_registersLegal {Q : State → Prop} (h : KeptGiven RegistersLegal Q) :
    Kept fun s => RegistersLegal s ∧ Q s where
  read s x d := fun ⟨hr, hq⟩ => ⟨kept_registersLegal.read s x d hr, h.read s x d hq⟩
  raise e s := fun ⟨hr, hq⟩ => ⟨hr.raiseError e, h.raise e s hq⟩
  write v l s _ := fun ⟨hr, hq⟩ => ⟨hr.writeLoc v l, h.write v l s hr hq⟩
  init := initUnit_keeps (P := fun s => RegistersLegal s ∧ Q s)
    (fun u s ⟨hr, hq⟩ => ⟨hr.resetDynamic u, h.reset u s hq⟩) (fun s ⟨hr, hq⟩ => ⟨hr.recompute, h.recompute s hr hq⟩)
    (fun u s ⟨hr, hq⟩ => ⟨hr.markInit u, h.markInit u s hq⟩)
  reset u s := fun ⟨hr, hq⟩ => ⟨hr.resetDynamic u, h.reset u s hq⟩
  mark u b s := fun ⟨hr, hq⟩ => ⟨hr.markNonsilent u b, h.mark u b s hq⟩
  silent u i s := fun ⟨hr, hq⟩ => ⟨kept_registersLegal.silent u i s hr, h.silent u i s hq⟩
  frame u i s := fun ⟨hr, hq⟩ => ⟨hr.unitFrame u i, h.frame u i s hr hq⟩

/-! ### the state after reset -/

theorem registersLegal_reset : RegistersLegal State.reset where
  sampleRate := by decide +kernel
  unisonCount := by decide
  unisonSpread := ⟨by decide +kernel, by decide +kernel⟩
  times := by decide +kernel
  attackLevel := ⟨by decide +kernel, by decide +kernel⟩
  sustainLevel := ⟨by decide +kernel, by decide +kernel⟩
  numTables k := (reset_tables k).trans_le (Nat.zero_le _)
  lastErr := ⟨by decide, fun _ e => by cases e <;> rfl, fun _ => rfl⟩

/-- Reset keeps three fields of the model's own, which no invariant looks at (log 9). -/
theorem registersLegal_hardwareReset (s : State) : RegistersLegal (hardwareReset s) :=
  { registersLegal_reset with }

/-! ### the WTO's phases -/

/-- A phase in [0, 1) that is no -0.0 (R55, R268). -/
def PhaseLegal (p : Double) : Prop := fsign p = false ∧ Between fzero p fone ∧ p ≠ fone

/-- A phase is legal by its sign and magnitude. -/
theorem phaseLegal_of_mag {p : Double} (hs : fsign p = false) (hm : fmag p < 0x3FF0000000000000) : PhaseLegal p :=
  ⟨hs, fle_of_unit hs (Nat.le_of_lt hm), fun e => by rw [e, fmag_fone] at hm; omega⟩

theorem phaseLegal_fzero : PhaseLegal fzero := phaseLegal_of_mag fsign_fzero (by decide)

theorem phaseLegal_wrap {x : Double} (h : isFinite x = true) : PhaseLegal (wrap x) :=
  phaseLegal_of_mag (wrap_range h).1 (wrap_range h).2

theorem PhaseLegal.not_nan {p : Double} (h : PhaseLegal p) : isNaN p = false := not_nan_of_fle_right h.2.1.1

/-- Storing a value that is no NaN stores it (R19). -/
theorem Stored.eq_of_not_nan {held value : Double} (h : Stored held value) (hn : isNaN value = false) :
    held = value :=
  h.resolve_right fun hnan => by rw [hn] at hnan; cases hnan.2

/-- Sixteen phases at +0.0 (R199). -/
theorem phaseOf_phasesZero (w : Wto) (h : w.phase = phasesZero) (v : Nat) : w.phaseOf v = fzero := by
  rw [Wto.phaseOf, h, phasesZero, Vector.getElem?_replicate]
  split <;> rfl

theorem wtoPhasesInRange_of_phasesZero {s : State} (h : s.wto.phase = phasesZero) : WtoPhasesInRange s := fun v => by
  rw [phaseOf_phasesZero s.wto h v]
  exact phaseLegal_fzero

/-- The invariant looks at the phases alone. -/
theorem WtoPhasesInRange.congr {s t : State} (h : WtoPhasesInRange s) (ht : t.wto.phase = s.wto.phase) :
    WtoPhasesInRange t := fun v => by
  rw [Wto.phaseOf, ht]
  exact h v

/-- Every voice of the array holds a legal phase. -/
def PhasesLegal (w : Wto) (a : Vector Double 16) : Prop := ∀ v, PhaseLegal (Wto.phaseOf { w with phase := a } v)

theorem PhasesLegal.setIfInBounds {w : Wto} {a : Vector Double 16} (h : PhasesLegal w a) {v : Nat} (hv : v < 16)
    {x : Double} (hx : PhaseLegal x) : PhasesLegal w (a.setIfInBounds v x) := fun u => by
  by_cases e : v = u
  · rw [← e, phaseOf_setIfInBounds_self w a hv]
    exact hx
  · rw [phaseOf_setIfInBounds_of_ne w a e]
    exact h u

/-- The increment of a voice at a detune of at most 84000 cents is finite (R252, R269). -/
theorem increment_of_legal {s : State} (h : RegistersLegal s) (i : Nat) {dc : Double}
    (hd : fmag dc ≤ 0x40F4820000000000) :
    let q := (wtoParams s i).1
    fmag (increment q.f dc q.pm q.pmd q.sr) ≤ 0x4600000000000000 :=
  increment_finite ((fmag_param_le s .wtoFrequency i _).trans (by decide +kernel)) hd
    ((fmag_param_le s .wtoPhaseMod i _).trans (by decide +kernel))
    ((fmag_param_le s .wtoPhaseModDepth i _).trans (by decide +kernel)) h.sampleRate.1 h.sampleRate.2

/-- A voice that starts at a legal phase ends at one (R251, R268). -/
theorem voice_phase_legal {s : State} (h : RegistersLegal s) (i : Nat) {p dc : Double} (hp : PhaseLegal p)
    (hd : fmag dc ≤ 0x40F4820000000000) (draws : Nat) :
    PhaseLegal (voice s (wtoParams s i).1 p dc draws).phase := by
  have hsum := fadd_le _ _ 0x4610000000000000 (fmag_le_of_unit hp.2.1.1 hp.2.1.2) (increment_of_legal h i hd)
    (by decide) (by decide) (by decide +kernel)
  have hwrap := phaseLegal_wrap (isFinite_of_le hsum (by decide))
  have hstored : (voice s (wtoParams s i).1 p dc draws).phase = wrap (fadd p _) :=
    (stored_storeDouble _ _).eq_of_not_nan hwrap.not_nan
  rw [hstored]
  exact hwrap

theorem fmag_wtoDetune_le (s : State) (i : Nat) : fmag (wtoParams s i).1.d ≤ 0x40B2C00000000000 :=
  (fmag_param_le s .wtoDetune i _).trans (by decide +kernel)

/-- A voice's detune is at most 84000 cents in magnitude: 4800 of its own and 79200 of the spread (R264). -/
theorem fmag_voiceDetune_le {s : State} (h : RegistersLegal s) (i : Nat) {v : Nat}
    (hn : ¬ s.wto.unisonCount.toNat ≤ 1) (hv : v < s.wto.unisonCount.toNat) :
    fmag (fadd (wtoParams s i).1.d (voiceOffset (widen s.wto.unisonSpread)
      (fdiv (widen s.wto.unisonSpread) (ofInt (s.wto.unisonCount.toNat - 1 : Nat))) v)) ≤ 0x40F4820000000000 := by
  have hspread : fmag (widen s.wto.unisonSpread) ≤ 0x40B2C00000000000 :=
    (fmag_le_of_fle h.unisonSpread).trans (by decide +kernel)
  exact fadd_le _ _ _ (fmag_wtoDetune_le s i) (voiceOffset_le _ v hspread (by omega) h.unisonCount hv) (by decide)
    (by decide) (by decide +kernel)

/-- Some of the voices of a unison keep the phases legal (R264, R265). -/
theorem unisonVoices_phasesLegal {s : State} (h : RegistersLegal s) (hp : WtoPhasesInRange s) (i : Nat)
    (hn : ¬ s.wto.unisonCount.toNat ≤ 1) {m : Nat} (hm : m ≤ s.wto.unisonCount.toNat) :
    PhasesLegal s.wto (s.unisonVoices i m).phase := by
  induction m with
  | zero => exact hp
  | succ m ih =>
    have h16 := h.unisonCount
    rw [State.unisonVoices, voices]
    exact (ih (by omega)).setIfInBounds (by omega)
      (voice_phase_legal h i (hp m) (fmag_voiceDetune_le h i hn (by omega)) _)

/-- A frame of the WTO keeps the phases legal (R251, R268, R269). -/
theorem wtoMix_phasesLegal {s : State} (h : RegistersLegal s) (hp : WtoPhasesInRange s) (i : Nat) :
    PhasesLegal s.wto (wtoMix s i).phase := by
  by_cases hn : s.wto.unisonCount.toNat ≤ 1
  · rw [wtoMix, if_pos hn]
    exact PhasesLegal.setIfInBounds (a := s.wto.phase) hp (by decide)
      (voice_phase_legal h i (hp 0) ((fmag_wtoDetune_le s i).trans (by decide)) _)
  · rw [wtoMix_of_not_le hn]
    exact unisonVoices_phasesLegal h hp i hn le_rfl

theorem keptGiven_wtoPhases : KeptGiven RegistersLegal WtoPhasesInRange where
  read _ _ _ h := h
  raise _ _ h := h
  write v l s _ h := (stateVariablesKept_writeLoc v s l).wtoPhase.elim h.congr wtoPhasesInRange_of_phasesZero
  reset u s h := by
    cases u
    case wto => exact wtoPhasesInRange_of_phasesZero rfl
    all_goals exact h
  recompute _ _ h := h.congr (by rw [recompute_wto])
  markInit _ _ h := h
  mark _ _ _ h := h
  silent _ _ _ h := h
  frame u i s hr h := by
    cases u
    case wto => exact wtoMix_phasesLegal hr h i
    case mlf => exact h.congr (by rw [(unitFrame_frame .mlf i s).1.1])
    all_goals exact h

/-! ### the PBO's phase -/

/-- The PBO's phase step is below 2^31 in magnitude (R303, R305). -/
theorem pboStep_of_legal {s : State} (h : RegistersLegal s) (i : Nat) :
    let q := (pboParams s i).1
    fmag (fmul q.dt (fadd fone (fmul q.pm q.pmd))) ≤ 0x41E0000000000000 :=
  pboStep_le ((fmag_param_le s .pboFrequency i _).trans (by decide +kernel))
    ((fmag_param_le s .pboDetune i _).trans (by decide +kernel))
    ((fmag_param_le s .pboPhaseMod i _).trans (by decide +kernel))
    ((fmag_param_le s .pboPhaseModDepth i _).trans (by decide +kernel)) h.sampleRate.1 h.sampleRate.2

/-- The PBO's advance stays within what `Wrap2` brings back to [0, 1] (R305, R306). -/
theorem pboAdvance_unit {s : State} (h : RegistersLegal s) (hp : PboPhaseInRange s) (i : Nat) :
    Between fzero (pboAdvance s.pbo.t (pboParams s i).1) fone := by
  have hsum := fadd_le _ _ 0x41F0000000000000 (fmag_le_of_unit hp.1 hp.2) (pboStep_of_legal h i) (by decide)
    (by decide) (by decide +kernel)
  obtain ⟨hs, hm, -⟩ := wrap2_range (isFinite_of_le hsum (by decide))
    (Nat.lt_of_le_of_lt (funits_le hsum) (by decide +kernel))
  exact fle_of_unit hs hm

theorem keptGiven_pboPhase : KeptGiven RegistersLegal PboPhaseInRange where
  read _ _ _ h := h
  raise _ _ h := h
  write v l s _ h := by
    rw [PboPhaseInRange, (stateVariablesKept_writeLoc v s l).pboPhase]
    exact h
  reset u s h := by
    cases u
    case pbo => exact fle_of_unit fsign_fzero (Nat.zero_le _)
    all_goals exact h
  recompute s _ h := by rwa [PboPhaseInRange, recompute_pbo]
  markInit _ _ h := h
  mark _ _ _ h := h
  silent _ _ _ h := h
  frame u i s hr h := by
    cases u
    case pbo =>
      have hunit := pboAdvance_unit hr h i
      rw [PboPhaseInRange, (unitFrame_pbo_t i s).eq_of_not_nan (not_nan_of_fle_right hunit.1)]
      exact hunit
    case mlf =>
      rw [PboPhaseInRange, (unitFrame_frame .mlf i s).1.2.1]
      exact h
    all_goals exact h

/-! ### the ADSR's resting level -/

/-- One step of the recurrence ends in IDLE only where the level is +0.0 (R412, R413). -/
theorem adsrRecurrence_idle_level {c : Coefficients} {sus : Double} {e : Envelope}
    (he : e.phase = .idle → e.level = fzero) (h : (adsrRecurrence c sus e).phase = .idle) :
    (adsrRecurrence c sus e).level = fzero := by
  cases hp : e.phase with
  | idle =>
    rw [adsrRecurrence_idle c sus e hp]
    exact he hp
  | attack =>
    cases hx : fle fone (segment c.attackBase e.level c.attackCoef)
    · rw [adsrRecurrence_attack_of_below c sus e hp hx] at h
      cases hp.symm.trans h
    · rw [adsrRecurrence_attack_of_top c sus e hp hx] at h
      cases h
  | decay =>
    cases hx : fle (segment c.decayBase e.level c.decayCoef) sus
    · rw [adsrRecurrence_decay_of_above c sus e hp hx] at h
      cases hp.symm.trans h
    · rw [adsrRecurrence_decay_of_reached c sus e hp hx] at h
      cases h
  | sustain =>
    rw [adsrRecurrence_sustain c sus e hp] at h
    cases hp.symm.trans h
  | release =>
    cases hx : fle (segment c.releaseBase e.level c.releaseCoef) fzero
    · rw [adsrRecurrence_release_of_above c sus e hp hx] at h
      cases hp.symm.trans h
    · rw [adsrRecurrence_release_of_zero c sus e hp hx]

/-- A gate edge leads to IDLE from IDLE alone (R408). -/
theorem phase_idle_of_phaseAfterEdge {a : Adsr} {g : Bool} (h : a.phaseAfterEdge g = .idle) : a.phase = .idle := by
  unfold Adsr.phaseAfterEdge at h
  split at h
  · cases h
  · split at h
    · cases h
    · exact h

/-- A frame of the ADSR keeps the level at +0.0 in IDLE (R412). -/
theorem adsrEnvelope_idle_level {a : Adsr} (ha : a.phase = .idle → a.level = fzero) (g : Bool)
    (h : (adsrEnvelope a g).phase = .idle) : (adsrEnvelope a g).level = fzero := by
  rw [adsrEnvelope_eq] at h ⊢
  exact adsrRecurrence_idle_level (fun hidle => ha (phase_idle_of_phaseAfterEdge hidle)) h

/-- A reset puts the ADSR's level at +0.0 (R199). -/
theorem AdsrIdleIsZero.resetDynamic {s : State} (h : AdsrIdleIsZero s) (u : UnitId) :
    AdsrIdleIsZero (resetDynamic u s) := by
  cases u
  case adsr => exact fun _ => rfl
  all_goals exact h

theorem kept_adsrIdle : Kept AdsrIdleIsZero where
  read _ _ _ h := h
  raise _ _ h := h
  write v l s _ h := by
    obtain ⟨-, hphase, hlevel, -⟩ := stateVariablesKept_writeLoc v s l
    rw [AdsrIdleIsZero, hphase, hlevel]
    exact h
  init := initUnit_keeps (fun u _ h => h.resetDynamic u)
    (fun s h => by rwa [AdsrIdleIsZero, recompute_adsr_phase, recompute_adsr_level]) (fun _ _ h => h)
  reset u _ h := h.resetDynamic u
  mark _ _ _ h := h
  silent _ _ _ h := h
  frame u i s h := by
    cases u
    case adsr =>
      intro hidle
      have hlevel := adsrEnvelope_idle_level h _ hidle
      have hstored : Stored (unitFrame .adsr i s).adsr.level (adsrEnvelope s.adsr _).level := stored_storeDouble _ _
      rw [hlevel] at hstored
      exact hstored.eq_of_not_nan isNaN_fzero
    case mlf =>
      rw [AdsrIdleIsZero, (unitFrame_frame .mlf i s).1.2.2.2]
      exact h
    all_goals exact h

/-! ### the coefficients -/

/-- Each write that changes a setting the coefficients are computed from recomputes them (R405). -/
theorem CoefficientsFollow.writeLoc {s : State} (h : CoefficientsFollow s) (hr : RegistersLegal s) (v : Word)
    (l : Loc) : CoefficientsFollow (writeLoc v s l) := by
  have hs := hr.sustainLevel
  have setting (hl : l ∈ adsrSettings) (hw : isNaN32 v = false → CoefficientsFollow (Machine.writeLoc v s l)) :
      CoefficientsFollow (Machine.writeLoc v s l) := by
    cases hv : isNaN32 v
    · exact hw hv
    · rw [writeLoc_adsrSetting_of_nan s hv hl]
      exact h
  cases l
  case scalar p => cases p <;> exact h
  case paramMode u => cases u <;> exact h
  case sampleRate =>
    rw [Machine.writeLoc]
    cases hv : legalSampleRate v
    · rw [writeSampleRate_of_illegal hv]
      exact h
    · rw [writeSampleRate_of_legal hv hs]
      rfl
  case wtoUnisonCount =>
    rw [Machine.writeLoc, writeUnisonCount_eq]
    exact h
  case wtoUnisonSpread =>
    rw [Machine.writeLoc]
    cases hv : isNaN32 v
    · rw [writeUnisonSpread_of_not_nan hv]
      exact h
    · rw [writeUnisonSpread_of_nan hv]
      exact h
  case adsrAttackTime =>
    refine setting (by decide) fun hv => ?_
    rw [Machine.writeLoc, writeAttackTime_of_not_nan hv hs]
    rfl
  case adsrDecayTime =>
    refine setting (by decide) fun hv => ?_
    rw [Machine.writeLoc, writeDecayTime_of_not_nan hv hs]
    rfl
  case adsrReleaseTime =>
    refine setting (by decide) fun hv => ?_
    rw [Machine.writeLoc, writeReleaseTime_of_not_nan hv hs]
    rfl
  case adsrSustainTime =>
    refine setting (by decide) fun hv => ?_
    rw [Machine.writeLoc, writeSustainTime_of_not_nan hv]
    exact h
  case adsrAttackLevel =>
    refine setting (by decide) fun hv => ?_
    rw [Machine.writeLoc, writeAttackLevel_of_not_nan hv]
    exact h
  case adsrSustainLevel =>
    refine setting (by decide) fun hv => ?_
    rw [Machine.writeLoc, writeSustainLevel_of_not_nan hv]
    rfl
  case wtNumTables t =>
    rw [Machine.writeLoc, writeNumTables, raiseIf_eq]
    exact h
  all_goals exact h

theorem keptGiven_coefficients : KeptGiven RegistersLegal CoefficientsFollow where
  read _ _ _ h := h
  raise _ _ h := h
  write v l _ hr h := h.writeLoc hr v l
  reset u _ h := by cases u <;> exact h
  recompute s hr _ := by
    rw [recompute_eq s hr.sustainLevel]
    rfl
  markInit _ _ h := h
  mark _ _ _ h := h
  silent _ _ _ h := h
  frame u i s _ h := by
    cases u
    case mlf =>
      show CoefficientsFollow (mlfFrame i s)
      unfold mlfFrame
      split
      · exact h
      · exact h
    all_goals exact h

end Sys2Proof.Machine
end

section
/-! The obligations about reset and what every step keeps. -/

namespace Sys2Proof.Machine

/-- Settles O54, invariant by invariant: the registers are at the words of their tables and the state variables at 0. -/
theorem resetIsSafe : Obligations.ResetIsSafe where
  memory := rfl
  registers := registersLegal_reset
  wtoPhases := wtoPhasesInRange_of_phasesZero rfl
  pboPhase := fle_of_unit fsign_fzero (Nat.zero_le _)
  adsrIdle _ := rfl
  coefficients := rfl

/-- Settles O55: every operation writes whole words into memory, which keeps the addresses rising. -/
theorem stepKeepsMemoryCanonical : Obligations.StepKeepsMemoryCanonical := by
  unfold Obligations.StepKeepsMemoryCanonical
  exact kept_memoryCanonical.step (fun _ _ h => h) (fun _ _ => rfl)

/-- Settles O56: a WARL register stores a legal word or none, and LAST_ERR moves with the sticky bits. -/
theorem stepKeepsRegistersLegal : Obligations.StepKeepsRegistersLegal := by
  unfold Obligations.StepKeepsRegistersLegal
  exact kept_registersLegal.step (fun _ _ h => { h with }) (fun s _ => registersLegal_hardwareReset s)

/-- What is kept where the registers are legal is kept by every step (R484, R480). -/
theorem KeptGiven.step {Q : State → Prop} (h : KeptGiven RegistersLegal Q) (hi : ∀ s q, Q s → Q { s with inbox := q })
    (hreset : ∀ s, Q (hardwareReset s)) (s t : State) (hr : RegistersLegal s) (hq : Q s) (he : step s = .next t) :
    Q t :=
  (h.and_registersLegal.step (fun s q ⟨hr, hq⟩ => ⟨{ hr with }, hi s q hq⟩)
    (fun s _ => ⟨registersLegal_hardwareReset s, hreset s⟩) s t ⟨hr, hq⟩ he).2

/-- Settles O57: with legal registers every increment is finite (R269), and `Wrap` of a finite value is in [0, 1). -/
theorem stepKeepsWtoPhases : Obligations.StepKeepsWtoPhases := by
  unfold Obligations.StepKeepsWtoPhases
  exact keptGiven_wtoPhases.step (fun _ _ h => h) (fun _ => wtoPhasesInRange_of_phasesZero rfl)

/-- Settles O58: with legal registers the advance is below 2^31, and `Wrap2` of that is in [0, 1]. -/
theorem stepKeepsPboPhase : Obligations.StepKeepsPboPhase := by
  unfold Obligations.StepKeepsPboPhase
  exact keptGiven_pboPhase.step (fun _ _ h => h) (fun _ => fle_of_unit fsign_fzero (Nat.zero_le _))

/-- Settles O59: IDLE is entered by the release's end alone, which puts the level at +0.0, and IDLE holds it. -/
theorem stepKeepsIdleLevel : Obligations.StepKeepsIdleLevel := by
  unfold Obligations.StepKeepsIdleLevel
  exact kept_adsrIdle.step (fun _ _ h => h) (fun _ _ _ => rfl)

/-- Settles O60: each write that changes a setting recomputes, and with a legal sustain level nothing is a NaN. -/
theorem stepKeepsCoefficients : Obligations.StepKeepsCoefficients := by
  unfold Obligations.StepKeepsCoefficients
  exact keptGiven_coefficients.step (fun _ _ h => h) (fun _ => rfl)

end Sys2Proof.Machine
end

section
/-! SUPPORT. What the bus reads back (10_state.md R31 to R49): the register words by their addresses, the fields of the
packed ones, RAM words, and what writing the control registers stores. -/

namespace Sys2Proof.Machine

/-! ### register words by address -/

/-- The word is a RAM word. -/
def Loc.isRam : Loc → Bool
  | .ram _ => true
  | _ => false

/-- The word address a names the register word l (R101, R102). -/
abbrev NamesRegister (a : Word) (l : Loc) : Prop := a.toNat % 4 = 0 ∧ locate a.toNat = some l ∧ l.isRam = false

/-- A read of a register word gives the word and changes nothing else (R104, R181). -/
theorem NamesRegister.exec_busRead {a : Word} {l : Loc} (h : NamesRegister a l) (s : State) :
    exec (.busRead a) s = .next { s with readData := readReg s l } := by
  obtain ⟨h4, hl, hr⟩ := h
  exact execBusRead_register a s l h4 hl fun b e => by rw [e] at hr; cases hr

/-- The same at an address given as a number. -/
theorem namesRegister_ofNat {n : Nat} {l : Loc} (hn : n < 2 ^ 32) (h4 : n % 4 = 0) (hl : locate n = some l)
    (hr : l.isRam = false) : NamesRegister (BitVec.ofNat 32 n) l := by
  rw [NamesRegister, BitVec.toNat_ofNat, Nat.mod_eq_of_lt hn]
  exact ⟨h4, hl, hr⟩

/-- A list of words, each what the register of a table's row holds, is what the rows' addresses read. -/
theorem exec_busRead_table {T : List (Word × Loc)} {L : List (Word × Word)} {s : State}
    (hT : ∀ q ∈ T, NamesRegister q.1 q.2) (hL : (T.map fun q => (q.1, readReg s q.2)) = L) :
    ∀ q ∈ L, exec (.busRead q.1) s = .next { s with readData := q.2 } := by
  intro q hq
  rw [← hL] at hq
  obtain ⟨r, hr, rfl⟩ := List.mem_map.1 hq
  exact (hT r hr).exec_busRead s

/-- A 64-bit variable reads as its low word and, 4 bytes on, its high word (R31). -/
theorem exec_busRead_wide {a : Word} {f : Bool → Loc} {x : Double} {s : State}
    (h : NamesRegister a (f false) ∧ NamesRegister (a + 4) (f true)) (hx : ∀ hi, readReg s (f hi) = halfWord hi x) :
    exec (.busRead a) s = .next { s with readData := x.extractLsb' 0 32 } ∧
      exec (.busRead (a + 4)) s = .next { s with readData := x.extractLsb' 32 32 } := by
  rw [h.1.exec_busRead, h.2.exec_busRead, hx, hx]
  exact ⟨rfl, rfl⟩

/-- A register word does not depend on the last word read, the draws or the host's queue. -/
theorem readReg_congr (s : State) (l : Loc) (x : Word) (y : Nat) (z : List HostEvent) :
    readReg { s with readData := x, draws := y, inbox := z } l = readReg s l := by
  cases l
  case scalar p => cases p <;> rfl
  case paramMode u => cases u <;> rfl
  case mlfState m n hi => cases m <;> rfl
  all_goals rfl

/-- Every mapped address that is no RAM word's names a register word. -/
theorem exists_namesRegister {a : Word} (h : InMap a.toNat) (hr : ¬ InRam a.toNat) : ∃ l, NamesRegister a l := by
  have hlow : a.toNat < 0xA40 := by
    unfold InRam at hr
    unfold InMap at h hr
    omega
  obtain ⟨l, hl⟩ := Option.isSome_iff_exists.1 ((locate_isSome a.toNat h.1).2 h)
  refine ⟨l, h.1, hl, ?_⟩
  cases l
  case ram b => exact absurd rfl (locate_register a.toNat hlow _ hl b)
  all_goals rfl

/-! ### RAM words -/

theorem exec_busRead_ram {a v : Word} {s : State} (h : InRam a.toNat) (hv : s.mem.word? a.toNat = some v) :
    exec (.busRead a) s = .next { s with readData := v } := by
  have he := execBusRead_mapped a s _ h.1.1 (locate_ram _ h)
  rw [readLoc, loadWord_of_word? _ _ _ _ hv] at he
  exact he

theorem exec_busRead_ram_unwritten {a : Word} {s : State} (h : InRam a.toNat) (hv : s.mem.word? a.toNat = none) :
    exec (.busRead a) s = .next { s with readData := Config.freeWord s.draws, draws := s.draws + 1 } := by
  have he := execBusRead_mapped a s _ h.1.1 (locate_ram _ h)
  rw [readLoc, loadWord_of_unwritten _ _ _ hv] at he
  exact he

theorem exec_busWrite_ram {a : Word} (h : InRam a.toNat) (v : Word) (s : State) :
    exec (.busWrite a v) s = .next { s with mem := s.mem.setWord a.toNat v } :=
  exec_busWrite_mapped h.1.1 (locate_ram _ h) nofun v s

/-! ### the fields of the packed words -/

theorem Wto.ctrl_fields (w : Wto) :
    w.ctrl.extractLsb' 0 4 = w.type ∧ w.ctrl.extractLsb' 4 4 = 0 ∧ w.ctrl.getLsbD 8 = w.blend ∧
      w.ctrl.getLsbD 9 = w.pwm ∧ w.ctrl.extractLsb' 10 22 = 0 := by
  unfold Wto.ctrl
  generalize w.type = type
  generalize w.blend = blend
  generalize w.pwm = pwm
  revert type blend pwm
  decide

/-- A control word of two flags (R43, R44). -/
theorem flagWord_fields : ∀ lo hi : Bool,
    let w := 0#30 ++ BitVec.ofBool hi ++ BitVec.ofBool lo
    w.getLsbD 0 = lo ∧ w.getLsbD 1 = hi ∧ w.extractLsb' 2 30 = 0 := by
  decide

theorem Pbo.ctrl_eq (p : Pbo) : p.ctrl = p.shape.setWidth 32 := by
  unfold Pbo.ctrl
  generalize p.shape = shape
  revert shape
  decide

theorem Adsr.stateWord_fields (a : Adsr) :
    a.stateWord.extractLsb' 0 3 = a.phase.code ∧ a.stateWord.extractLsb' 3 5 = 0 ∧
      a.stateWord.getLsbD 8 = a.releaseCompleted ∧ a.stateWord.getLsbD 9 = a.prevGate ∧
      a.stateWord.extractLsb' 10 22 = 0 := by
  unfold Adsr.stateWord
  generalize a.phase.code = code
  generalize a.releaseCompleted = released
  generalize a.prevGate = gate
  revert code released gate
  decide

/-! ### what the control registers keep of a word -/

/-- The low n bits of a word, widened, are the word under their mask. -/
theorem setWidth_extract_eq_and (v : Word) (n : Nat) :
    (v.extractLsb' 0 n).setWidth 32 = v &&& BitVec.ofNat 32 (2 ^ n - 1) := by
  apply BitVec.eq_of_getLsbD_eq
  intro i hi
  simp only [BitVec.getLsbD_setWidth, BitVec.getLsbD_extractLsb', BitVec.getLsbD_and, BitVec.getLsbD_ofNat,
    Nat.testBit_two_pow_sub_one, hi, decide_true, Bool.true_and, Nat.zero_add]
  exact Bool.and_comm _ _

theorem Wto.ctrl_setCtrl (v : Word) (w : Wto) : (w.setCtrl v).ctrl = v &&& 0x30F := by
  apply BitVec.eq_of_getLsbD_eq
  intro i hi
  simp only [Wto.ctrl, Wto.setCtrl, BitVec.getLsbD_append, BitVec.getLsbD_and, BitVec.getLsbD_extractLsb']
  interval_cases i <;> simp

/-- A control word of two flags keeps bits 1:0 (R43, R44). -/
theorem flagWord_eq_and (v : Word) :
    0#30 ++ BitVec.ofBool (v.getLsbD 1) ++ BitVec.ofBool (v.getLsbD 0) = v &&& 0x3 := by
  apply BitVec.eq_of_getLsbD_eq
  intro i hi
  simp only [BitVec.getLsbD_append, BitVec.getLsbD_and]
  interval_cases i <;> simp

/-- The control and PARAM_MODE registers: address, name and defined bits (R38, R41 to R44). -/
def controlRows : List (Word × Loc × Word) :=
  [ (0x100, .wtoCtrl, 0x0000030F), (0x10C, .paramMode .wto, 0x0000001F), (0x200, .pboCtrl, 0x0000000F),
    (0x204, .paramMode .pbo, 0x0000003F), (0x300, .mlfCtrl, 0x00000003), (0x304, .paramMode .mlf, 0x0000001F),
    (0x400, .adsrCtrl, 0x00000003), (0x404, .paramMode .adsr, 0x00000001) ]

theorem controlRows_named : ∀ q ∈ controlRows, NamesRegister q.1 q.2.1 ∧ q.2.1 ≠ .cmd := by
  decide

/-- Each reads back the defined bits of the word written to it. -/
theorem controlRows_read_back (v : Word) (s : State) :
    ∀ q ∈ controlRows, readReg (writeLoc v s q.2.1) q.2.1 = v &&& q.2.2 := by
  intro q hq
  simp only [controlRows, List.mem_cons, List.not_mem_nil, or_false] at hq
  rcases hq with rfl | rfl | rfl | rfl | rfl | rfl | rfl | rfl
  · exact Wto.ctrl_setCtrl v s.wto
  · exact setWidth_extract_eq_and v 5
  · exact (Pbo.ctrl_eq _).trans (setWidth_extract_eq_and v 4)
  · exact setWidth_extract_eq_and v 6
  · exact flagWord_eq_and v
  · exact setWidth_extract_eq_and v 5
  · exact flagWord_eq_and v
  · exact setWidth_extract_eq_and v 1

end Sys2Proof.Machine
end

section
/-! SUPPORT. One step, and the errors one instruction records (60_exceptions.md R452 to R461). -/

namespace Sys2Proof.Machine

/-- A step whose oldest event is a transaction runs it (R111). -/
theorem step_transaction {s : State} {r : BitVec 65} {rest : List HostEvent} (h : s.inbox = .transaction r :: rest) :
    step s = exec (decodeBus r) { s with inbox := rest } := by
  rw [step, h]

theorem step_hardwareReset {s : State} {rest : List HostEvent} (h : s.inbox = .hardwareReset :: rest) :
    step s = .next (hardwareReset { s with inbox := rest }) := by
  rw [step, h]

theorem step_waiting {s : State} (h : s.inbox = []) : step s = .next s := by
  rw [step, h]

/-- STATUS st' sets at most one sticky bit that st does not, and LAST_ERR is then that error's code (R452). -/
def RecordsAtMostOne (st st' : Status) : Prop :=
  (∀ e, st'.sticky e = true → st.sticky e = true) ∨
    ∃ e, st'.lastErr = e.code ∧ ∀ e', st'.sticky e' = true → e' = e ∨ st.sticky e' = true

theorem recordsAtMostOne_refl (st : Status) : RecordsAtMostOne st st := .inl fun _ h => h

theorem recordsAtMostOne_raise (e : ErrCode) (st : Status) : RecordsAtMostOne st (st.raise e) := by
  refine .inr ⟨e, Status.lastErr_raise e st, fun e' h => ?_⟩
  rw [Status.sticky_raise, Bool.or_eq_true, decide_eq_true_eq] at h
  exact h

/-- Setting an INIT flag records nothing. -/
theorem RecordsAtMostOne.setInit {st st' : Status} (h : RecordsAtMostOne st st') (u : UnitId) :
    RecordsAtMostOne st (st'.setInit u) := by
  simpa only [RecordsAtMostOne, Status.sticky_setInit, Status.lastErr_setInit] using h

/-- Setting or clearing a NONSILENT flag records nothing. -/
theorem RecordsAtMostOne.setNonsilent {st st' : Status} (h : RecordsAtMostOne st st') (u : UnitId) (b : Bool) :
    RecordsAtMostOne st (st'.setNonsilent u b) := by
  simpa only [RecordsAtMostOne, Status.sticky_setNonsilent, Status.lastErr_setNonsilent] using h

theorem writeLoc_recordsAtMostOne (v : Word) (s : State) (l : Loc) :
    RecordsAtMostOne s.status (writeLoc v s l).status := by
  by_cases hl : l = .status
  · rw [hl]
    exact .inl fun e => Status.sticky_of_sticky_clear
  · rcases cfgAtMost_writeLoc v s l hl with e | e <;> rw [e]
    · exact recordsAtMostOne_refl _
    · exact recordsAtMostOne_raise _ _

/-- PROCESS records ERR_LEN at most (R202, R455). -/
theorem process_recordsAtMostOne (u : UnitId) (n : Nat) (s : State) :
    RecordsAtMostOne s.status (process u (unitFrame u) n s).status := by
  rcases process_cases u (unitFrame u) n s with ⟨-, e⟩ | ⟨-, e⟩ | ⟨-, -, -, e⟩ | ⟨-, -, -, e⟩ <;>
    rw [e, markNonsilent_status]
  · rw [silence_status]
    exact (recordsAtMostOne_raise .len _).setNonsilent u false
  · exact (recordsAtMostOne_refl _).setNonsilent u false
  · rw [silence_status]
    exact (recordsAtMostOne_refl _).setNonsilent u false
  · rw [frames_unitFrame_status]
    exact (recordsAtMostOne_refl _).setNonsilent u true

/-- An instruction that is no bus write records one error at most. -/
theorem recordsAtMostOne_of_not_write {i : Instr} {s t : State} (he : exec i s = .next t)
    (hw : ∀ a v, i ≠ .busWrite a v) : RecordsAtMostOne s.status t.status := by
  have refl := recordsAtMostOne_refl s.status
  cases instrShape i with
  | busRead a =>
    rcases execBusRead_status he with e | ⟨e, h⟩
    · rw [e]
      exact refl
    · rw [h]
      exact recordsAtMostOne_raise e _
  | busWrite a v => exact absurd rfl (hw a v)
  | nop =>
    cases he
    exact refl
  | initAll =>
    rw [exec_initAll] at he
    cases he
    simp only [initUnit_status]
    exact (((refl.setInit .wto).setInit .pbo).setInit .mlf).setInit .adsr
  | resetAll =>
    rw [exec_resetAll] at he
    cases he
    simp only [resetDynamic_status]
    exact refl
  | init w =>
    rw [exec_init] at he
    cases he
    rw [initUnit_status]
    exact refl.setInit w
  | reset w =>
    rw [exec_reset] at he
    cases he
    rw [resetDynamic_status]
    exact refl
  | process w n =>
    rw [exec_process] at he
    cases he
    exact process_recordsAtMostOne w n s

/-- Every instruction records one error at most (R460). -/
theorem recordsAtMostOne_of_exec {i : Instr} {s t : State} (he : exec i s = .next t) :
    RecordsAtMostOne s.status t.status := by
  cases i with
  | busWrite a v =>
    rw [show exec (.busWrite a v) s = execBusWrite a v s from rfl] at he
    rcases execBusWrite_cases a v s with ⟨-, e⟩ | ⟨-, -, e⟩ | ⟨l, -, -, -, e⟩ | ⟨x, -, -, e⟩ | ⟨j, -, hd, e⟩ <;>
      rw [e] at he
    · cases he
      exact recordsAtMostOne_raise _ _
    · cases he
      exact recordsAtMostOne_raise _ _
    · cases he
      exact writeLoc_recordsAtMostOne v s l
    · cases he
      exact recordsAtMostOne_raise _ _
    · exact recordsAtMostOne_of_not_write he (decodeCommand_isCommand v j hd).2
  | _ => exact recordsAtMostOne_of_not_write he fun _ _ => nofun

/-- A state that records at most one error has one new sticky bit at most, named by LAST_ERR. -/
theorem RecordsAtMostOne.lastErr {st st' : Status} (h : RecordsAtMostOne st st') {e : ErrCode}
    (h0 : st.sticky e = false) (h1 : st'.sticky e = true) : st'.lastErr = e.code := by
  rcases h with h | ⟨x, hlast, h⟩
  · rw [h e h1] at h0
    cases h0
  · rcases h e h1 with rfl | h
    · exact hlast
    · rw [h] at h0
      cases h0

theorem ErrCode.code_injective {e e' : ErrCode} (h : e.code = e'.code) : e = e' := by
  revert h
  cases e <;> cases e' <;> decide

/-- A CMD write of a word that is not legal records ERR_CMD and nothing else (R194, R454). -/
theorem exec_write_cmd_illegal {w : BitVec 32} (h : legalCommand w = false) (s : State) :
    exec (.busWrite 0x010 w) s = .next { s with status := s.status.withError .cmd } := by
  rw [← raiseError_eq]
  rcases hd : decodeCommand w with e | i
  · exact (execBusWrite_cmd w s).trans (cmdWrite_of_reject w e s hd)
  · rw [(legalCommand_iff w).2 ⟨i, hd⟩] at h
    cases h

end Sys2Proof.Machine
end

section
/-! The obligations about steps, bus accesses and errors (10_state.md, 20_memory.md, 60_exceptions.md). -/

namespace Sys2Proof.Machine

/-- Settles O5, by the oldest event; a CMD write of a word that decodes is the word's command. -/
theorem stepRunsDecoded : Obligations.StepRunsDecoded := by
  unfold Obligations.StepRunsDecoded
  refine ⟨fun s r rest i hq hd => ?_, fun s w rest i hq hd => ?_, fun s => step_waiting⟩
  · cases hd
    exact step_transaction hq
  · rw [step_transaction hq, decodeBus_busRecord, if_pos rfl]
    exact exec_write_cmd hd _

/-- Settles O6: each of the three things a step can be answers a next state. -/
theorem stepAlwaysCompletes : Obligations.StepAlwaysCompletes := by
  unfold Obligations.StepAlwaysCompletes
  intro s
  rcases hq : s.inbox with _ | ⟨r | _, rest⟩
  · exact ⟨s, step_waiting hq⟩
  · rw [step_transaction hq]
    exact exec_next _ _
  · exact ⟨_, step_hardwareReset hq⟩

/-- The register words of ResetValues' list, by address. -/
def resetWords : List (Word × Loc) :=
  [ (0x000, .coreId), (0x004, .coreVersion), (0x008, .coreCfg), (0x00C, .sampleRate), (0x010, .cmd), (0x014, .status),
    (0x100, .wtoCtrl), (0x104, .wtoUnisonCount), (0x108, .wtoUnisonSpread), (0x10C, .paramMode .wto),
    (0x110, .scalar .wtoFrequency), (0x114, .scalar .wtoDetune), (0x118, .scalar .wtoPulseWidth),
    (0x11C, .scalar .wtoPhaseMod), (0x120, .scalar .wtoPhaseModDepth),
    (0x200, .pboCtrl), (0x204, .paramMode .pbo), (0x208, .scalar .pboFrequency), (0x20C, .scalar .pboAmplitude),
    (0x210, .scalar .pboDetune), (0x214, .scalar .pboPulseWidth), (0x218, .scalar .pboPhaseMod),
    (0x21C, .scalar .pboPhaseModDepth), (0x240, .pboPhase false), (0x244, .pboPhase true),
    (0x300, .mlfCtrl), (0x304, .paramMode .mlf), (0x308, .scalar .mlfCutoff), (0x30C, .scalar .mlfResonance),
    (0x310, .scalar .mlfDrive), (0x314, .scalar .mlfCutoffB), (0x318, .scalar .mlfResonanceB),
    (0x400, .adsrCtrl), (0x404, .paramMode .adsr), (0x408, .scalar .adsrGate), (0x40C, .adsrAttackTime),
    (0x410, .adsrAttackLevel), (0x414, .adsrDecayTime), (0x418, .adsrSustainTime), (0x41C, .adsrSustainLevel),
    (0x420, .adsrReleaseTime), (0x440, .adsrState), (0x448, .adsrLevel false), (0x44C, .adsrLevel true) ]

/-- The words of the state arrays and the wavetable descriptors are 0 after reset. -/
theorem reset_arrays_zero {a : Word} (h4 : a.toNat % 4 = 0)
    (ha : (0x180 ≤ a.toNat ∧ a.toNat ≤ 0x1FC) ∨ (0x340 ≤ a.toNat ∧ a.toNat ≤ 0x3DC) ∨
      (0x800 ≤ a.toNat ∧ a.toNat ≤ 0x810) ∨ (0x900 ≤ a.toNat ∧ a.toNat ≤ 0xA3C)) :
    ∃ l, NamesRegister a l ∧ readReg State.reset l = 0 := by
  have key : ∀ k, k < 0x290 →
      ((0x60 ≤ k ∧ k ≤ 0x7F) ∨ (0xD0 ≤ k ∧ k ≤ 0xF7) ∨ (0x200 ≤ k ∧ k ≤ 0x204) ∨ (0x240 ≤ k ∧ k ≤ 0x28F)) →
      (locate (4 * k)).any (fun l => !l.isRam && readReg State.reset l == 0) = true := by
    decide +kernel
  obtain ⟨k, hk⟩ : ∃ k, a.toNat = 4 * k := ⟨a.toNat / 4, by omega⟩
  obtain ⟨l, hl, hr⟩ := (Option.any_eq_true _ _).1 (key k (by omega) (by omega))
  rw [← hk] at hl
  simp only [Bool.and_eq_true, Bool.not_eq_true', beq_iff_eq] at hr
  exact ⟨l, ⟨h4, hl, hr.1⟩, hr.2⟩

/-- Settles O7: each address of the list names its register, and the arrays hold zeros. -/
theorem resetValues : Obligations.ResetValues := by
  unfold Obligations.ResetValues
  refine ⟨exec_busRead_table (T := resetWords) (by decide +kernel) (by decide +kernel), fun a h4 ha => ?_, rfl, rfl⟩
  obtain ⟨l, hl, h0⟩ := reset_arrays_zero h4 ha
  rw [hl.exec_busRead, h0]

/-- Settles O8: every field of the block is that of the reset state. -/
theorem hardwareReset_holds : Obligations.HardwareReset := by
  unfold Obligations.HardwareReset
  exact fun s rest hq => ⟨_, step_hardwareReset hq, rfl, show Status.reset.word = 0 by decide, rfl, rfl, rfl, rfl,
    reset_tables, reset_topFreqOf,
    fun _ => rfl, rfl, rfl, rfl⟩

/-- Settles O13: a RAM word names itself, and a word write changes its own four bytes. -/
theorem ramWrite : Obligations.RamWrite := by
  unfold Obligations.RamWrite
  intro a v s h
  have hword := Memory.word?_setWord s.mem a.toNat v
  exact ⟨_, exec_busWrite_ram h v s, hword, fun b hb => Memory.get_setWord_of_ne _ _ _ _ hb, exec_busRead_ram h hword⟩

/-- Settles O21: each address names its scalar register, whose write rule is to store the word. -/
theorem scalarParameterWrites : Obligations.ScalarParameterWrites := by
  unfold Obligations.ScalarParameterWrites
  intro v s
  have scalar {a : Word} (p : Param) (h : a.toNat % 4 = 0 ∧ locate a.toNat = some (.scalar p)) :
      exec (.busWrite a v) s = .next (s.setScalar v p) := exec_busWrite_mapped h.1 h.2 nofun v s
  exact ⟨scalar .wtoFrequency (by decide), scalar .wtoDetune (by decide), scalar .wtoPulseWidth (by decide),
    scalar .wtoPhaseMod (by decide), scalar .wtoPhaseModDepth (by decide), scalar .pboFrequency (by decide),
    scalar .pboAmplitude (by decide), scalar .pboDetune (by decide), scalar .pboPulseWidth (by decide),
    scalar .pboPhaseMod (by decide), scalar .pboPhaseModDepth (by decide), scalar .mlfCutoff (by decide),
    scalar .mlfResonance (by decide), scalar .mlfDrive (by decide), scalar .mlfCutoffB (by decide),
    scalar .mlfResonanceB (by decide), scalar .adsrGate (by decide)⟩

/-- Settles O22: each register's write rule stores its defined bits, and what it reads back is the word under their
mask. -/
theorem controlRegisterWrites : Obligations.ControlRegisterWrites := by
  unfold Obligations.ControlRegisterWrites
  refine ⟨fun v s => ?_, fun q hq v s => ?_⟩
  · have write {a : Word} (l : Loc) (h : NamesRegister a l ∧ l ≠ .cmd) :
        exec (.busWrite a v) s = .next (writeLoc v s l) := exec_busWrite_mapped h.1.1 h.1.2.1 h.2 v s
    exact ⟨write .wtoCtrl (by decide), write (.paramMode .wto) (by decide), write .pboCtrl (by decide),
      write (.paramMode .pbo) (by decide), write .mlfCtrl (by decide), write (.paramMode .mlf) (by decide),
      write .adsrCtrl (by decide), write (.paramMode .adsr) (by decide)⟩
  · obtain ⟨r, hr, rfl⟩ : ∃ r ∈ controlRows, q = (r.1, r.2.2) :=
      (List.mem_map (f := fun r : Word × Loc × Word => (r.1, r.2.2))).1 hq |>.imp fun _ h => ⟨h.1, h.2.symm⟩
    obtain ⟨hnamed, hc⟩ := controlRows_named r hr
    refine ⟨_, exec_busWrite_mapped hnamed.1 hnamed.2.1 hc v s, ?_⟩
    rw [hnamed.exec_busRead, controlRows_read_back v s r hr]

/-- Settles O23: a word is legal exactly when it decodes, and CMD holds no word of its own. -/
theorem commandWrite : Obligations.CommandWrite := by
  unfold Obligations.CommandWrite
  refine ⟨fun w s h => ?_, fun w s h => exec_write_cmd_illegal h s, fun s => ?_⟩
  · obtain ⟨i, hd⟩ := (legalCommand_iff w).1 h
    exact ⟨i, hd, exec_write_cmd hd s⟩
  · exact NamesRegister.exec_busRead (l := .cmd) (by decide) s

/-- Settles O24: the errors recorded anew all have LAST_ERR as their code, and codes are distinct. -/
theorem atMostOneError : Obligations.AtMostOneError := by
  unfold Obligations.AtMostOneError
  intro i s t he
  have h := recordsAtMostOne_of_exec he
  exact ⟨fun e e' h0 h1 h0' h1' => ErrCode.code_injective ((h.lastErr h0 h1).symm.trans (h.lastErr h0' h1')),
    fun e => h.lastErr⟩

end Sys2Proof.Machine
end

section
/-! SUPPORT. The tables of register words that reads are stated over (10_state.md R32 to R49). -/

namespace Sys2Proof.Machine

/-- The global and WTO registers that read as one stored word. -/
def wtoWords : List (Word × Loc) :=
  [ (0x000, .coreId), (0x004, .coreVersion), (0x008, .coreCfg), (0x00C, .sampleRate), (0x010, .cmd),
    (0x104, .wtoUnisonCount), (0x108, .wtoUnisonSpread), (0x10C, .paramMode .wto), (0x110, .scalar .wtoFrequency),
    (0x114, .scalar .wtoDetune), (0x118, .scalar .wtoPulseWidth), (0x11C, .scalar .wtoPhaseMod),
    (0x120, .scalar .wtoPhaseModDepth) ]

/-- The PBO's and MLF's. -/
def pboMlfWords : List (Word × Loc) :=
  [ (0x200, .pboCtrl), (0x204, .paramMode .pbo), (0x208, .scalar .pboFrequency), (0x20C, .scalar .pboAmplitude),
    (0x210, .scalar .pboDetune), (0x214, .scalar .pboPulseWidth), (0x218, .scalar .pboPhaseMod),
    (0x21C, .scalar .pboPhaseModDepth), (0x304, .paramMode .mlf), (0x308, .scalar .mlfCutoff),
    (0x30C, .scalar .mlfResonance), (0x310, .scalar .mlfDrive), (0x314, .scalar .mlfCutoffB),
    (0x318, .scalar .mlfResonanceB) ]

/-- The ADSR's. -/
def adsrWords : List (Word × Loc) :=
  [ (0x404, .paramMode .adsr), (0x408, .scalar .adsrGate), (0x40C, .adsrAttackTime), (0x410, .adsrAttackLevel),
    (0x414, .adsrDecayTime), (0x418, .adsrSustainTime), (0x41C, .adsrSustainLevel), (0x420, .adsrReleaseTime) ]

theorem coreCfg_eq : Config.coreCfg = 0x1010B080 := by decide

/-- The two words of voice v's phase (R37). -/
theorem locate_wtoPhase : ∀ v, v < 16 →
    locate (0x180 + 8 * v) = some (.wtoPhase v false) ∧ locate (0x184 + 8 * v) = some (.wtoPhase v true) := by
  decide +kernel

theorem readReg_wtoPhase (s : State) {v : Nat} (h : v < 16) (hi : Bool) :
    readReg s (.wtoPhase v hi) = halfWord hi s.wto.phase[v] := by
  rw [readReg, Wto.phaseOf, Vector.getElem?_eq_getElem h]
  rfl

/-- The byte address of each MLF state array (R43). -/
def mlfArrayBase : MlfArray → Nat
  | .v => 0x340
  | .dv => 0x360
  | .tv => 0x380
  | .bin => 0x3A0
  | .bout => 0x3C0

theorem locate_mlfState (m : MlfArray) : ∀ n, n < 4 →
    locate (mlfArrayBase m + 8 * n) = some (.mlfState m n false) ∧
      locate (mlfArrayBase m + 4 + 8 * n) = some (.mlfState m n true) := by
  cases m <;> decide +kernel

theorem readReg_mlfState (s : State) (m : MlfArray) {n : Nat} (h : n < 4) (hi : Bool) :
    readReg s (.mlfState m n hi) = halfWord hi (s.mlf.array m)[n] := by
  rw [readReg, Vector.getElem?_eq_getElem h]
  rfl

/-- Both words of element n of an MLF state array (R31, R43). -/
theorem exec_busRead_mlfState (s : State) (m : MlfArray) {n : Nat} (h : n < 4) :
    exec (.busRead (BitVec.ofNat 32 (mlfArrayBase m + 8 * n))) s =
        .next { s with readData := (s.mlf.array m)[n].extractLsb' 0 32 } ∧
      exec (.busRead (BitVec.ofNat 32 (mlfArrayBase m + 4 + 8 * n))) s =
        .next { s with readData := (s.mlf.array m)[n].extractLsb' 32 32 } := by
  obtain ⟨hlo, hhi⟩ := locate_mlfState m n h
  have hb : mlfArrayBase m ≤ 0x3C0 ∧ mlfArrayBase m % 4 = 0 := by cases m <;> decide
  rw [(namesRegister_ofNat (by omega) (by omega) hlo rfl).exec_busRead,
    (namesRegister_ofNat (by omega) (by omega) hhi rfl).exec_busRead, readReg_mlfState s m h, readReg_mlfState s m h]
  exact ⟨rfl, rfl⟩

end Sys2Proof.Machine
end

section
/-! The obligation about what reads give (10_state.md R31 to R54, 20_memory.md R104). -/

namespace Sys2Proof.Machine

/-- Settles O11: a mapped address names a RAM word or a register word, and a register word reads as `readReg`, which
the tables and the fields of the packed words give. -/
theorem readChangesNothing : Obligations.ReadChangesNothing := by
  unfold Obligations.ReadChangesNothing
  refine ⟨fun a s hmap => ⟨fun hram v => exec_busRead_ram hram,
      fun hram hnone => ⟨_, exec_busRead_ram_unwritten hram hnone⟩, fun hram => ?_⟩,
    fun s => ⟨_, NamesRegister.exec_busRead (l := .status) (by decide) s, ?_⟩,
    fun s => ⟨_, NamesRegister.exec_busRead (l := .wtoCtrl) (by decide) s, Wto.ctrl_fields s.wto⟩,
    fun s => ⟨_, NamesRegister.exec_busRead (l := .mlfCtrl) (by decide) s, flagWord_fields _ _⟩,
    fun s => ⟨_, NamesRegister.exec_busRead (l := .adsrCtrl) (by decide) s, flagWord_fields _ _⟩,
    fun s => ⟨_, NamesRegister.exec_busRead (l := .adsrState) (by decide) s, ?_⟩,
    fun s => exec_busRead_table (T := wtoWords) (by decide +kernel) ?_,
    fun s => exec_busRead_table (T := pboMlfWords) (by decide +kernel) ?_,
    fun s => exec_busRead_table (T := adsrWords) (by decide +kernel) rfl, fun s q hq => ?_, fun s v h => ?_,
    fun s q hq n h => ?_, fun s t h => ?_, fun s t k ht hk => ?_⟩
  · obtain ⟨l, hl⟩ := exists_namesRegister hmap hram
    refine ⟨_, hl.exec_busRead s, fun x y z => ?_⟩
    rw [hl.exec_busRead, readReg_congr]
  · obtain ⟨⟨hcmd, hlen, hcfg, haddr, halign, hres⟩, ⟨hwto, hpbo, hmlf, hadsr, hres'⟩, hinit⟩ :=
      Status.word_fields s.status
    exact ⟨hcmd, hlen, hcfg, haddr, halign, hres, hwto, hpbo, hmlf, hadsr, hres', hinit⟩
  · obtain ⟨hcode, hrest⟩ := Adsr.stateWord_fields s.adsr
    have phase {ph : AdsrPhase} (h : s.adsr.phase = ph) : s.adsr.stateWord.extractLsb' 0 3 = ph.code := by
      rw [hcode, h]
    exact ⟨phase, phase, phase, phase, phase, hrest⟩
  · rw [← coreCfg_eq]
    rfl
  · rw [← Pbo.ctrl_eq]
    rfl
  · simp only [List.mem_cons, List.not_mem_nil, or_false] at hq
    rcases hq with rfl | rfl | rfl | rfl | rfl | rfl | rfl | rfl
    · exact exec_busRead_wide (a := 0x240) (f := .pboPhase) (by decide) fun _ => rfl
    · exact exec_busRead_wide (a := 0x448) (f := .adsrLevel) (by decide) fun _ => rfl
    · exact exec_busRead_wide (a := 0x450) (f := .adsrCoef .attackCoef) (by decide) fun _ => rfl
    · exact exec_busRead_wide (a := 0x458) (f := .adsrCoef .attackBase) (by decide) fun _ => rfl
    · exact exec_busRead_wide (a := 0x460) (f := .adsrCoef .decayCoef) (by decide) fun _ => rfl
    · exact exec_busRead_wide (a := 0x468) (f := .adsrCoef .decayBase) (by decide) fun _ => rfl
    · exact exec_busRead_wide (a := 0x470) (f := .adsrCoef .releaseCoef) (by decide) fun _ => rfl
    · exact exec_busRead_wide (a := 0x478) (f := .adsrCoef .releaseBase) (by decide) fun _ => rfl
  · obtain ⟨hlo, hhi⟩ := locate_wtoPhase v h
    rw [(namesRegister_ofNat (by omega) (by omega) hlo rfl).exec_busRead,
      (namesRegister_ofNat (by omega) (by omega) hhi rfl).exec_busRead, readReg_wtoPhase s h, readReg_wtoPhase s h]
    exact ⟨rfl, rfl⟩
  · simp only [List.mem_cons, List.not_mem_nil, or_false] at hq
    rcases hq with rfl | rfl | rfl | rfl | rfl
    · exact exec_busRead_mlfState s .v h
    · exact exec_busRead_mlfState s .dv h
    · exact exec_busRead_mlfState s .tv h
    · exact exec_busRead_mlfState s .bin h
    · exact exec_busRead_mlfState s .bout h
  · rw [(namesRegister_ofNat (by omega) (by omega) (locate_numTables t h) rfl).exec_busRead, readReg,
      Vector.getElem?_eq_getElem h]
    rfl
  · rw [(namesRegister_ofNat (by omega) (by omega) (locate_topFreq t ht k hk) rfl).exec_busRead, readReg,
      State.topFreqOf, Vector.getElem?_eq_getElem (by omega)]
    rfl

end Sys2Proof.Machine
end

section
/-! SUPPORT. The branches of PROCESS (R202), what they do not look at, and what two runs of one unit have in common. -/

namespace Sys2Proof.Machine

/-! ### the branches -/

/-- No frames: NONSILENT_u is cleared and nothing is written (R202). -/
theorem process_zero (u : UnitId) (f : Nat → State → State) (s : State) : process u f 0 s = markNonsilent u false s :=
  rfl

/-- The silence branch of a unit that is not ready (R202); it is silent for none of 0 frames. -/
theorem process_of_not_ready {u : UnitId} {s : State} (hr : u.ready s = false) (f : Nat → State → State) {n : Nat}
    (hn : n ≤ 128) : process u f n s = markNonsilent u false (silence u n s) := by
  rcases process_cases u f n s with ⟨h, -⟩ | ⟨rfl, e⟩ | ⟨-, -, -, e⟩ | ⟨-, -, h, -⟩
  · omega
  · exact e
  · exact e
  · rw [hr] at h
    cases h

/-- The branch that runs the frames (R202). -/
theorem process_of_ready {u : UnitId} {s : State} (hr : u.ready s = true) (f : Nat → State → State) {n : Nat}
    (h0 : 0 < n) (hn : n ≤ 128) : process u f n s = markNonsilent u true (frames f n s) := by
  rcases process_cases u f n s with ⟨h, -⟩ | ⟨rfl, -⟩ | ⟨-, -, h, -⟩ | ⟨-, -, -, e⟩
  · omega
  · cases h0
  · rw [hr] at h
    cases h
  · exact e

/-! ### changes a PROCESS does not see -/

/-- A change of the state that every frame lets through, wherever P holds, the loop lets through. -/
theorem frames_comm {P : State → Prop} {f : Nat → State → State} {g : State → State} (hP : ∀ i t, P t → P (f i t))
    (hg : ∀ i t, P t → f i (g t) = g (f i t)) (n : Nat) {s : State} (hs : P s) :
    frames f n (g s) = g (frames f n s) := by
  induction n with
  | zero => rfl
  | succ n ih =>
    rw [frames, ih]
    exact hg n _ (frames_preserves P f hP n s hs)

/-- Silence only writes words. -/
theorem silence_comm {g : State → State} (hg : ∀ a v t, State.putWord a v (g t) = g (State.putWord a v t))
    (u : UnitId) (n : Nat) (s : State) : silence u n (g s) = g (silence u n s) :=
  frames_comm (P := fun _ => True) (fun _ _ => id) (fun _ t _ => hg _ _ t) n trivial

/-- The last mark of NONSILENT_u is the one that stands (R203). -/
theorem markNonsilent_markNonsilent (u : UnitId) (b c : Bool) (s : State) :
    markNonsilent u b (markNonsilent u c s) = markNonsilent u b s := by
  cases u <;> rfl

theorem ready_markNonsilent (u : UnitId) (b : Bool) (s : State) : u.ready (markNonsilent u b s) = u.ready s := by
  cases u <;> rfl

/-- No frame looks at NONSILENT_u. -/
theorem frames_markNonsilent (u : UnitId) (b : Bool) (n : Nat) (s : State) :
    frames (unitFrame u) n (markNonsilent u b s) = markNonsilent u b (frames (unitFrame u) n s) := by
  rw [markNonsilent, frames_status, markNonsilent, frames_unitFrame_status]

/-- A PROCESS does not look at NONSILENT_u, which it sets itself (R203). -/
theorem process_markNonsilent (u : UnitId) (b : Bool) (n : Nat) (s : State) :
    process u (unitFrame u) n (markNonsilent u b s) = process u (unitFrame u) n s := by
  have hready := ready_markNonsilent u b s
  have hsilence (k : Nat) (t : State) : silence u k (markNonsilent u b t) = markNonsilent u b (silence u k t) :=
    silence_comm (g := markNonsilent u b) (fun _ _ _ => rfl) u k t
  rcases process_cases u (unitFrame u) n s with ⟨hn, e⟩ | ⟨rfl, e⟩ | ⟨-, hn, hr, e⟩ | ⟨h0, hn, hr, e⟩ <;> rw [e]
  · have hraise : raiseError .len (markNonsilent u b s) = markNonsilent u b (raiseError .len s) := by cases u <;> rfl
    rw [process_of_too_long u _ hn, hraise, hsilence, markNonsilent_markNonsilent]
  · exact markNonsilent_markNonsilent u false b s
  · rw [process_of_not_ready (hready.trans hr) _ hn, hsilence, markNonsilent_markNonsilent]
  · rw [process_of_ready (hready.trans hr) _ h0 hn, frames_markNonsilent, markNonsilent_markNonsilent]

/-! ### two runs of one unit -/

/-- The unit, the draws and output frames below n are the same in both states. -/
def OutputsAgree (u : UnitId) (n : Nat) (s1 s2 : State) : Prop :=
  UnitAgrees u s1 s2 ∧ s1.draws = s2.draws ∧
    ∀ i, i < n → s1.mem.word? (ramAddr u.out i) = s2.mem.word? (ramAddr u.out i)

theorem OutputsAgree.markNonsilent {u : UnitId} {n : Nat} {s1 s2 : State} (h : OutputsAgree u n s1 s2) (b : Bool) :
    OutputsAgree u n (markNonsilent u b s1) (markNonsilent u b s2) := by
  cases u <;> exact h

/-- The table counts are no part of what a frame changes (R190). -/
theorem frames_tables (u : UnitId) (n : Nat) (s : State) : (frames (unitFrame u) n s).tables = s.tables := by
  obtain ⟨-, ⟨-, htables, -⟩, -⟩ := frames_unitFrame u n s
  funext t
  rw [State.tables, htables, State.tables]

/-- Frame by frame two states that agree for a unit store the same words and go on agreeing (R116). -/
theorem frames_agree {u : UnitId} {s1 s2 : State} (h : AgreesFor u s1 s2) (ht : ∀ t, s1.tables t ≤ 16) {n : Nat}
    (hn : n ≤ 128) : AgreesFor u (frames (unitFrame u) n s1) (frames (unitFrame u) n s2) ∧
      OutputsAgree u n (frames (unitFrame u) n s1) (frames (unitFrame u) n s2) := by
  induction n with
  | zero => exact ⟨h, h.1, h.2.2.2.1, fun i hi => absurd hi (Nat.not_lt_zero i)⟩
  | succ n ih =>
    obtain ⟨hagree, -, -, hwords⟩ := ih (by omega)
    have ht' (t : Nat) : (frames (unitFrame u) n s1).tables t ≤ 16 := by
      rw [frames_tables]
      exact ht t
    obtain ⟨hnext, w, h1, h2⟩ := unitFrame_agrees hagree (i := n) (by omega) ht'
    obtain ⟨hunit, -, -, hdraws, -⟩ := id hnext
    refine ⟨hnext, hunit, hdraws, fun i hi => ?_⟩
    rw [frames, frames, h1, h2]
    rcases Nat.lt_succ_iff_lt_or_eq.1 hi with hlt | rfl
    · have hne : ramAddr u.out i + 4 ≤ ramAddr u.out n := by
        simp only [ramAddr]
        omega
      rw [Memory.word?_setWord_of_ne _ _ _ _ (by omega), Memory.word?_setWord_of_ne _ _ _ _ (by omega)]
      exact hwords i hlt
    · rw [Memory.word?_setWord, Memory.word?_setWord]

/-- Silence writes the same words from any two states. -/
theorem silence_agree {u : UnitId} {s1 s2 : State} (hunit : UnitAgrees u s1 s2) (hdraws : s1.draws = s2.draws)
    (n : Nat) : OutputsAgree u n (silence u n s1) (silence u n s2) := by
  obtain ⟨m1, h1, hword1, -⟩ := silence_spec u n s1
  obtain ⟨m2, h2, hword2, -⟩ := silence_spec u n s2
  rw [h1, h2]
  refine ⟨?_, hdraws, fun i hi => (hword1 i hi).trans (hword2 i hi).symm⟩
  cases u <;> exact hunit

theorem AgreesFor.ready {u : UnitId} {s1 s2 : State} (h : AgreesFor u s1 s2) : u.ready s1 = u.ready s2 := by
  obtain ⟨hunit, hinit, -⟩ := h
  rw [ready_eq, ready_eq, hinit]
  cases u
  case mlf => rw [inputConnected, inputConnected, show s1.mlf = s2.mlf from hunit]
  case adsr => rw [inputConnected, inputConnected, show s1.adsr = s2.adsr from hunit]
  all_goals rfl

/-- From two states that agree for a unit, a PROCESS of it takes the same branch and gives the same output. -/
theorem process_agree {u : UnitId} {s1 s2 : State} (h : AgreesFor u s1 s2) (ht : ∀ t, s1.tables t ≤ 16) (n : Nat) :
    OutputsAgree u (min n 128) (process u (unitFrame u) n s1) (process u (unitFrame u) n s2) := by
  obtain ⟨hunit, -, -, hdraws, -⟩ := id h
  have hready := h.ready
  rcases process_cases u (unitFrame u) n s1 with ⟨hn, e⟩ | ⟨rfl, e⟩ | ⟨-, hn, hr, e⟩ | ⟨h0, hn, hr, e⟩ <;> rw [e]
  · rw [process_of_too_long u _ hn, min_eq_right hn.le]
    refine (silence_agree ?_ ?_ 128).markNonsilent false
    · cases u <;> exact hunit
    · exact hdraws
  · exact (silence_agree hunit hdraws 0).markNonsilent false
  · rw [process_of_not_ready (hready.symm.trans hr) _ hn, min_eq_left hn]
    exact (silence_agree hunit hdraws n).markNonsilent false
  · rw [process_of_ready (hready.symm.trans hr) _ h0 hn, min_eq_left hn]
    exact (frames_agree h ht hn).2.markNonsilent true

end Sys2Proof.Machine
end

section
/-! SUPPORT. A WTO of one voice, and a WTO without tables (42_wavetable_oscillator.md R254, R266). -/

namespace Sys2Proof.Machine

/-! ### the unison count of a single voice -/

/-- The state with another unison count. -/
def State.withUnisonCount (c : Word) (s : State) : State := { s with wto := { s.wto with unisonCount := c } }

theorem selectFrom_withUnisonCount (c : Word) (s : State) (t tables : Nat) (a : Double) (fuel k : Nat) :
    selectFrom (s.withUnisonCount c) t tables a fuel k = selectFrom s t tables a fuel k := by
  induction fuel generalizing k with
  | zero => rfl
  | succ fuel ih =>
    rw [selectFrom, selectFrom, ih]
    rfl

/-- Reading a table does not depend on the unison count. -/
theorem readTable_withUnisonCount (c : Word) (s : State) (p a : Double) (d : Nat) :
    readTable (s.withUnisonCount c) p a d = readTable s p a d := by
  have hselect (t tables : Nat) : select (s.withUnisonCount c) t tables a = select s t tables a :=
    selectFrom_withUnisonCount c s t tables a tables 0
  rw [readTable, readTable, hselect]
  rfl

/-- A voice does not depend on the unison count (R251). -/
theorem voice_withUnisonCount (c : Word) (s : State) (q : WtoParams) (p dc : Double) (d : Nat) :
    voice (s.withUnisonCount c) q p dc d = voice s q p dc d := by
  simp only [voice, voiceSample, readTable_withUnisonCount]
  rfl

/-- A count of 0 or 1 plays voice 0 alone (R266). -/
theorem wtoMix_single {s : State} (h : s.wto.unisonCount.toNat ≤ 1) (i : Nat) :
    wtoMix s i =
      let r := voice s (wtoParams s i).1 (s.wto.phaseOf 0) (wtoParams s i).1.d (wtoParams s i).2
      { acc := r.sample, phase := s.wto.phase.setIfInBounds 0 r.phase, draws := r.draws } :=
  if_pos h

/-- With voice 0 alone, a frame does the same at any other count that plays it alone. -/
theorem unitFrame_withUnisonCount {c : Word} {s : State} (hc : c.toNat ≤ 1) (hs : s.wto.unisonCount.toNat ≤ 1)
    (i : Nat) : unitFrame .wto i (s.withUnisonCount c) = (unitFrame .wto i s).withUnisonCount c := by
  have hmix : wtoMix (s.withUnisonCount c) i = wtoMix s i := by
    rw [wtoMix_single hs, wtoMix_single (s := s.withUnisonCount c) hc, voice_withUnisonCount]
    rfl
  show wtoFrame i (s.withUnisonCount c) = (wtoFrame i s).withUnisonCount c
  rw [wtoFrame, wtoFrame, hmix]
  rfl

/-- So does a whole PROCESS. -/
theorem process_withUnisonCount {c : Word} {s : State} (hc : c.toNat ≤ 1) (hs : s.wto.unisonCount.toNat ≤ 1) (n : Nat) :
    process .wto (unitFrame .wto) n (s.withUnisonCount c) =
      (process .wto (unitFrame .wto) n s).withUnisonCount c := by
  have hsilence (k : Nat) (t : State) : silence .wto k (t.withUnisonCount c) = (silence .wto k t).withUnisonCount c :=
    silence_comm (g := State.withUnisonCount c) (fun _ _ _ => rfl) .wto k t
  rcases process_cases .wto (unitFrame .wto) n s with ⟨hn, e⟩ | ⟨rfl, e⟩ | ⟨-, hn, hr, e⟩ | ⟨h0, hn, hr, e⟩ <;> rw [e]
  · rw [process_of_too_long .wto _ hn]
    exact congrArg (markNonsilent .wto false) (hsilence 128 (raiseError .len s))
  · rfl
  · rw [process_of_not_ready (u := .wto) (s := s.withUnisonCount c) hr _ hn, hsilence]
    rfl
  · have hframes : frames (unitFrame .wto) n (s.withUnisonCount c) = (frames (unitFrame .wto) n s).withUnisonCount c :=
      frames_comm (P := fun t => t.wto.unisonCount.toNat ≤ 1) (f := unitFrame .wto) (g := State.withUnisonCount c)
        (fun _ _ ht => ht) (fun i _ ht => unitFrame_withUnisonCount hc ht i) n hs
    rw [process_of_ready (u := .wto) (s := s.withUnisonCount c) hr _ h0 hn, hframes]
    rfl

/-! ### no tables -/

/-- The selected type has no tables to read (R254). -/
def State.NoTables (s : State) : Prop := 4 < s.wto.type.toNat ∨ s.tables s.wto.type.toNat = 0

variable {s : State}

theorem readTable_of_noTables (h : s.NoTables) (p a : Double) (d : Nat) : readTable s p a d = (fzero, d) := by
  rw [readTable]
  by_cases h4 : 4 < s.wto.type.toNat
  · exact if_pos h4
  · exact (if_neg h4).trans (if_pos (h.resolve_left h4))

theorem voiceSample_of_noTables (h : s.NoTables) (p a pw : Double) (d : Nat) :
    voiceSample s p a pw d = (fzero, d) := by
  rw [voiceSample, readTable_of_noTables h, readTable_of_noTables h]
  split
  · exact congrArg (·, d) (show fsub fzero fzero = fzero by decide)
  · rfl

theorem voices_acc_of_noTables (h : s.NoTables) (q : WtoParams) (spread step : Double) (d n : Nat) :
    (voices s q spread step d n).acc = fzero := by
  induction n with
  | zero => rfl
  | succ n ih =>
    simp only [voices, ih, voice, voiceSample_of_noTables h]
    decide

/-- The mean of silent voices is +0.0 for each count of R39. -/
theorem fzero_mean {n : Nat} (h0 : 0 < n) (hn : n ≤ 16) : fmul fzero (fdiv fone (ofInt n)) = fzero := by
  have key : ∀ k : Fin 16, fmul fzero (fdiv fone (ofInt (k.val + 1 : Nat))) = fzero := by decide +kernel
  obtain ⟨k, rfl⟩ := Nat.exists_eq_succ_of_ne_zero h0.ne'
  exact key ⟨k, by omega⟩

theorem wtoMix_acc_of_noTables (h : s.NoTables) (h16 : s.wto.unisonCount.toNat ≤ 16) (i : Nat) :
    (wtoMix s i).acc = fzero := by
  by_cases hn : s.wto.unisonCount.toNat ≤ 1
  · rw [wtoMix_single hn, voice, voiceSample_of_noTables h]
  · rw [wtoMix_of_not_le hn, State.unisonVoices]
    show fmul (voices s _ _ _ _ _).acc _ = fzero
    rw [voices_acc_of_noTables h, fzero_mean (by omega) h16]

/-- +0.0 is stored as the word 0 (R17). -/
theorem storeSample_fzero (d : Nat) : (storeSample fzero d).1 = 0x00000000 := by
  have hword : storeSample fzero d = (f32 fzero, d) := if_neg (by decide)
  rw [hword, show f32 fzero = 0x00000000 by decide +kernel]

end Sys2Proof.Machine
end

section
/-! The obligations about PROCESS as a whole (40_common_and_lifecycle.md R202 to R206, 20_memory.md R116) and the WTO's
silent and single voices (42_wavetable_oscillator.md R254, R266). -/

namespace Sys2Proof.Machine

/-- Settles O33: the silence branch by `silence_spec`, and what a zero-length call changes no PROCESS looks at. -/
theorem silentProcess : Obligations.SilentProcess := by
  unfold Obligations.SilentProcess
  have zero (u : UnitId) (s : State) : exec (u.processCmd 0) s = .next (markNonsilent u false s) := exec_process u 0 s
  refine ⟨fun u n s hn hr => ?_, fun u s => ?_, fun u n s t1 t2 h1 h2 => ?_⟩
  · obtain ⟨m, hm, hword, hkept⟩ := silence_spec u n s
    refine ⟨m, ?_, hword, hkept⟩
    rw [exec_process, process_of_not_ready hr _ hn, hm, ← withNonsilent_eq]
    rfl
  · rw [zero, ← withNonsilent_eq]
    rfl
  · rw [zero] at h1 h2
    cases h1
    cases h2
    rw [exec_process, exec_process, process_markNonsilent, process_markNonsilent]

/-- Settles O35: the loop of a ready unit is the fold over its frame numbers, and no frame looks at STATUS. -/
theorem processIsItsFrames : Obligations.ProcessIsItsFrames := by
  unfold Obligations.ProcessIsItsFrames
  intro u n s h0 hn hr
  rw [exec_process, process_of_ready hr _ h0 hn, ← frames_eq_foldl, ← withNonsilent_eq, ← frames_markNonsilent]
  rfl

/-- Settles O36: both runs take the same branch, and frame by frame the states go on agreeing. -/
theorem unitIsolation : Obligations.UnitIsolation := by
  unfold Obligations.UnitIsolation
  intro u n s1 s2 hl h
  exact ⟨_, _, exec_process u n s1, exec_process u n s2, process_agree h hl.numTables n⟩

/-- Settles O39: a count of 0 and a count of 1 both play voice 0 alone, which does not look at the count. -/
theorem unisonZeroIsOne : Obligations.UnisonZeroIsOne := by
  unfold Obligations.UnisonZeroIsOne
  intro n s t0 h
  cases h
  have h0 : (s.withUnisonCount 0).wto.unisonCount.toNat ≤ 1 := Nat.zero_le 1
  exact congrArg Host.Outcome.next (process_withUnisonCount (c := 1) (by decide) h0 n)

/-- Settles O40: every voice reads +0.0, so do the sum and the mean, and the phases advance as in any frame. -/
theorem wtoSilentWithoutTables : Obligations.WtoSilentWithoutTables := by
  unfold Obligations.WtoSilentWithoutTables
  intro i s h h16
  refine ⟨?_, fun hp v => unitFrame_wto_phaseOf_of_lt hp h16⟩
  have hmem : (unitFrame .wto i s).mem =
      s.mem.setWord (ramAddr .wtoOut i) (storeSample (wtoMix s i).acc (wtoMix s i).draws).1 := rfl
  rw [hmem, wtoMix_acc_of_noTables h h16, storeSample_fzero, Memory.word?_setWord]

end Sys2Proof.Machine
end

section
/-! SUPPORT. Exact operations at the ends of the phase ranges (42_wavetable_oscillator.md R258, R268,
43_polyblep_oscillator.md R306, R308). -/

namespace Sys2Proof.Machine

theorem fmag_of_funits_zero {x : Double} (h : funits x = 0) : fmag x = 0 := by
  by_contra hne
  exact absurd h (magUnits_pos (Nat.pos_of_ne_zero hne)).ne'

/-- Rounding a value's own units gives it back. -/
theorem round64_funits (x : Double) (hx : isFinite x = true) : round64 (fsign x) (funits x) 1 = x := by
  rw [isFinite_eq, decide_eq_true_eq] at hx
  exact double_ext (fsign_round64 _ _ _) (by rw [fmag_round64, roundMag_funits hx.le])

/-- Subtracting +0.0 changes no finite value (R14). -/
theorem fsub_fzero {x : Double} (hx : isFinite x = true) : fsub x fzero = x := by
  have hzero : fint (fneg fzero) = 0 := by decide
  have hneg : fsign (fneg fzero) = true := by decide
  rw [fsub, fadd_finite hx (by decide), hzero, add_zero, fint_natAbs, hneg, Bool.and_true]
  by_cases h0 : fint x = 0
  · have hm : fmag x = 0 := fmag_of_funits_zero (by rw [← fint_natAbs, h0]; rfl)
    rw [if_pos h0]
    exact double_ext (fsign_pack64_zero _) (by rw [fmag_pack64_zero, hm])
  · have hsign : decide (fint x < 0) = fsign x := by
      have hu := fint_natAbs x
      rw [fint] at h0 ⊢
      cases hs : fsign x <;> simp only [hs, if_true, if_false, Bool.false_eq_true] at h0 ⊢
      · exact decide_eq_false (by omega)
      · exact decide_eq_true (by omega)
    rw [if_neg h0, hsign, round64_funits x hx]

/-- A value in [0, 1] other than 1.0 is a phase (R258). -/
theorem phaseInRange_of_between {p : Double} (h : Between fzero p fone) (hne : p ≠ fone) : phaseInRange p = true := by
  obtain ⟨h0, h1⟩ := h
  refine (phaseInRange_iff p).2 ⟨⟨h0, h1⟩, ?_⟩
  have hk := fkey_le_of_fle h1
  have hkne : fkey p ≠ fkey fone := fun e => hne <| by
    rw [fkey_of_nonneg fsign_fone, fmag_fone] at e
    have hs : fsign p = false := by
      by_contra hs
      rw [fkey, if_pos (Bool.not_eq_false _ ▸ hs)] at e
      omega
    refine double_ext (hs.trans fsign_fone.symm) ?_
    rw [fkey_of_nonneg hs] at e
    rw [fmag_fone]
    exact_mod_cast e
  rw [flt, not_nan_of_fle_left h1, isNaN_fone, decide_eq_true (lt_of_le_of_ne hk hkne)]
  rfl

/-- Away from the negative values floor and trunc are the same (R16). -/
theorem ffloor_eq_ftrunc {x : Double} (hs : fsign x = false) : ffloor x = ftrunc x := by
  rw [ffloor, ftrunc, hs]
  rfl

/-- trunc of a value in [0, 1) is +0.0 (R16). -/
theorem ftrunc_of_lt_one {x : Double} (hx : isFinite x = true) (hs : fsign x = false) (h1 : funits x < one64Units) :
    ftrunc x = fzero := by
  obtain ⟨-, hsign, hunits⟩ := ftrunc_spec hx
  rw [truncUnits, Nat.div_eq_of_lt h1, Nat.zero_mul] at hunits
  exact double_ext (hsign.trans (hs.trans fsign_fzero.symm)) ((fmag_of_funits_zero hunits).trans fmag_fzero.symm)

/-- The fraction of R258 is a phase again. -/
theorem fraction_legal {p : Double} (h : phaseInRange p = true) :
    Between fzero (fsub (fmul p (ofInt 2048)) (ffloor (fmul p (ofInt 2048)))) fone ∧
      fsub (fmul p (ofInt 2048)) (ffloor (fmul p (ofInt 2048))) ≠ fone := by
  obtain ⟨hu, hs⟩ := funits_of_phaseInRange h
  obtain ⟨hfin, hsign, -⟩ := fmul_2048 hu
  cases hp : fsign p
  · rw [ffloor_eq_ftrunc (hsign.trans hp)]
    have hpos : fle fzero (fmul p (ofInt 2048)) = true := by
      rw [fle_of_nonneg isNaN_fzero (not_isNaN_of_isFinite hfin) fsign_fzero (hsign.trans hp), fmag_fzero]
      exact decide_eq_true (Nat.zero_le _)
    obtain ⟨hf0, hf1⟩ := fsub_trunc_range hfin hpos
    exact (phaseLegal_of_mag hf0 hf1).2
  · obtain rfl : p = fneg fzero :=
      double_ext (hp.trans (by decide)) ((hs.resolve_left (by rw [hp]; exact Bool.noConfusion)).trans (by decide))
    have hzero : fsub (fmul (fneg fzero) (ofInt 2048)) (ffloor (fmul (fneg fzero) (ofInt 2048))) = fzero := by
      decide +kernel
    rw [hzero]
    exact phaseLegal_fzero.2

/-- A phase is its own wrap (R268). -/
theorem wrap_of_phase {x : Double} (hs : fsign x = false) (h : phaseInRange x = true) : wrap x = x := by
  obtain ⟨hb, hlt⟩ := (phaseInRange_iff x).1 h
  have hfin := (unit_spec hb).1
  rw [wrap, ffloor_eq_ftrunc hs, ftrunc_of_lt_one hfin hs (funits_of_phaseInRange h).1, fsub_fzero hfin,
    fle_eq_false_of_flt hlt]
  rfl

theorem flt_eq_false_of_fle {x y : Double} (h : fle x y = true) : flt y x = false := by
  have hk := fkey_le_of_fle h
  rw [flt, decide_eq_false (by omega), Bool.and_false]

/-- The wrap of a negative value above -2^52 (R306). -/
theorem wrap2_of_negative {x : Double} (h0 : flt x fzero = true) (h1 : flt (ofInt (-4503599627370496)) x = true) :
    flt fzero (wrap2 x) = true ∧ fle (wrap2 x) fone = true := by
  obtain ⟨lfin, lsign, lunits⟩ := ofInt_spec (-4503599627370496) (by decide)
  have k0 := fkey_lt_of_flt h0
  have k1 := fkey_lt_of_flt h1
  rw [fkey_of_nonneg fsign_fzero, fmag_fzero] at k0
  have hs : fsign x = true := by
    by_contra hs
    rw [fkey_of_nonneg (Bool.eq_false_iff.2 hs)] at k0
    omega
  have hm : fmag x < fmag (ofInt (-4503599627370496)) := by
    rw [fkey, if_pos (by rw [lsign]; decide), fkey, if_pos hs] at k1
    omega
  have hfin : isFinite x = true := by
    rw [isFinite_eq, decide_eq_true_eq] at lfin ⊢
    exact hm.trans lfin
  have hu : funits x < 2 ^ 52 * one64Units := lunits ▸ magUnits_lt hm
  obtain ⟨wsign, wmag, -, wpos⟩ := wrap2_range hfin hu
  have wpos := wpos (fle_eq_false_of_flt h0)
  refine ⟨?_, (fle_of_unit wsign wmag).2⟩
  rw [flt_of_nonneg isNaN_fzero (isNaN_of_le wmag (by decide)) fsign_fzero wsign, fmag_fzero]
  exact decide_eq_true wpos

/-! ### the corrections, branch by branch -/

/-- blep and blamp of a phase that is outside both windows. -/
theorem corrections_of_outside {t dt : Double} (h1 : flt t dt = false) (h2 : flt (fsub fone dt) t = false) :
    blep t dt = fzero ∧ blamp t dt = fzero := by
  rw [blep, blamp, h1, h2]
  exact ⟨rfl, rfl⟩

end Sys2Proof.Machine
end

section
/-! The obligations about phases, corrections and shapes (42_wavetable_oscillator.md R258, R268,
43_polyblep_oscillator.md R304 to R324). -/

namespace Sys2Proof.Machine

/-- Settles O41: a phase times 2048 is exact, so its floor is below 2048 and the rest a fraction. -/
theorem interpolationIndex : Obligations.InterpolationIndex := by
  unfold Obligations.InterpolationIndex
  intro p hb hne
  have hp := phaseInRange_of_between hb hne
  exact ⟨Nat.le_of_lt_succ (index_lt hp), fraction_legal hp⟩

/-- Settles O42: the branches of R268, the value of floor, and that the floor of a phase is +0.0. -/
theorem phaseWrap : Obligations.PhaseWrap := by
  unfold Obligations.PhaseWrap
  refine ⟨fun x => ⟨fun h => if_pos h, fun h => if_neg (Bool.eq_false_iff.1 h)⟩,
    fun x hx => ⟨(ffloor_spec hx).1, fval_ffloor hx⟩, fun x hx => ?_, fun x hs hb hne => ?_⟩
  · obtain ⟨hsign, hb, hne⟩ := phaseLegal_wrap hx
    exact ⟨hb, hne, hsign⟩
  · exact wrap_of_phase hs (phaseInRange_of_between hb hne)

/-- Settles O45: the tests of R308 and R309 in their order; at dt = 0 no phase in [0, 1] passes either. -/
theorem noCorrectionAtZeroIncrement : Obligations.NoCorrectionAtZeroIncrement := by
  unfold Obligations.NoCorrectionAtZeroIncrement
  refine ⟨fun t dt h1 => ⟨if_pos h1, if_pos h1⟩, fun t dt h1 h2 => ?_, fun t dt => corrections_of_outside,
    fun t ⟨h0, h1⟩ => corrections_of_outside (flt_eq_false_of_fle h0) ?_⟩
  · have h1 := Bool.eq_false_iff.1 h1
    exact ⟨(if_neg h1).trans (if_pos h2), (if_neg h1).trans (if_pos h2)⟩
  · rw [fsub_fzero isFinite_fone]
    exact flt_eq_false_of_fle h1

/-- Settles O46: the branches of R306, the value of trunc, and the range on each side of zero. -/
theorem twoSidedWrap : Obligations.TwoSidedWrap := by
  unfold Obligations.TwoSidedWrap
  refine ⟨fun x => ⟨fun h => if_pos h, fun h => if_neg (Bool.eq_false_iff.1 h)⟩,
    fun x hx => ⟨(ftrunc_spec hx).1, fval_ftrunc hx⟩, fun x hx h0 => ?_, fun x => wrap2_of_negative,
    by decide +kernel, by decide +kernel⟩
  obtain ⟨hf0, hf1⟩ := fsub_trunc_range hx h0
  rw [wrap2, if_pos h0]
  exact (phaseLegal_of_mag hf0 hf1).2

/-- Settles O44: the fallback or the code selects, and each code's formula is the one of its own definition. -/
theorem shapeSelection : Obligations.ShapeSelection := by
  unfold Obligations.ShapeSelection
  intro code t dt pw
  refine ⟨shape_of_fallback, fun h => ?_⟩
  have coded (k : Nat) : shape k t dt pw = shapeOf k t dt pw := shape_of_code h
  refine ⟨fun hcode => ?_, coded 0, coded 1, coded 2, coded 3, coded 4, coded 5, coded 6, coded 7, coded 8, coded 9,
    coded 10, coded 11, coded 12⟩
  obtain ⟨k, rfl⟩ := Nat.exists_eq_add_of_le' hcode
  rw [coded, shapeOf_unmapped]

end Sys2Proof.Machine
end

section
/-! SUPPORT. The duration of a segment (45_adsr_envelope.md R402) at times that are not positive, and at infinity. -/

namespace Sys2Proof.Machine

/-- A value at most 0 times a positive one has an order key of at most 0. -/
theorem fkey_fmul_nonpos {x y : Double} (hx : fle x fzero = true) (hy : isFinite y = true) (hs : fsign y = false)
    (h0 : 0 < fmag y) : fkey (fmul x y) ≤ 0 := by
  have hk := fkey_le_of_fle hx
  rw [fkey_of_nonneg fsign_fzero, fmag_fzero] at hk
  cases hsx : fsign x
  · have hm : fmag x = 0 := by
      rw [fkey_of_nonneg hsx] at hk
      omega
    have hz : x = fzero := double_ext (hsx.trans fsign_fzero.symm) (hm.trans fmag_fzero.symm)
    rw [hz, fmul_finite isFinite_fzero hy, hs, show funits fzero = 0 by decide, Nat.zero_mul]
    decide +kernel
  · have hsign : fsign (fmul x y) = true := by
      have hyz : isZero y = false := decide_eq_false (by omega)
      rw [fmul, hsx, hs, not_nan_of_fle_left hx, not_isNaN_of_isFinite hy, not_isInf_of_isFinite hy, hyz]
      cases hi : isInf x
      · exact fsign_round64 _ _ _
      · rw [show isZero x = false by
          rw [isInf, decide_eq_true_eq] at hi
          rw [isZero, hi]
          decide]
        exact fsign_pack64 _ _ inf64_lt
    rw [fkey, if_pos hsign]
    omega

/-- A legal sample rate is positive (R34). -/
theorem sampleRate_pos {sr : Double} (h1 : fle fone sr = true) : fsign sr = false ∧ 0 < fmag sr := by
  obtain ⟨hs, hm⟩ := sampleRate_spec h1
  exact ⟨hs, by omega⟩

/-- A time that is zero or negative lasts EPS samples (R402). -/
theorem rate_of_nonpos {tm : Word} {sr : Double} (hf : isFinite sr = true) (h1 : fle fone sr = true)
    (ht : fle (widen tm) fzero = true) : rate tm sr = adsrEps := by
  obtain ⟨hs, hm⟩ := sampleRate_pos h1
  have hk := fkey_fmul_nonpos ht hf hs hm
  have heps : 0 < fkey adsrEps := by decide +kernel
  have hle : fle adsrEps (fmul (widen tm) sr) = false := by
    rw [fle, decide_eq_false (by omega), Bool.and_false]
  rw [rate, fmax, hle]
  rfl

/-- An infinite time lasts infinitely long (R402). -/
theorem rate_of_inf {sr : Double} (hf : isFinite sr = true) (h1 : fle fone sr = true) :
    rate 0x7F800000 sr = 0x7FF0000000000000 := by
  obtain ⟨hs, hm⟩ := sampleRate_pos h1
  have hmul : fmul (widen 0x7F800000) sr = 0x7FF0000000000000 := by
    rw [show widen 0x7F800000 = 0x7FF0000000000000 by decide +kernel, fmul, not_isNaN_of_isFinite hf, hs,
      show isZero sr = false from decide_eq_false (by omega)]
    rfl
  rw [rate, hmul]
  decide +kernel

end Sys2Proof.Machine
end

section
/-! The obligations about the ADSR's coefficients (45_adsr_envelope.md R402 to R404), the transcendental functions
(00_scope.md R22) and one frame of each filter model (44_moog_ladder_filter.md R363 to R370). -/

namespace Sys2Proof.Machine

/-- Settles O51: a time at most 0 gives a product below EPS, and an infinite one an infinite product. -/
theorem segmentDuration : Obligations.SegmentDuration := by
  unfold Obligations.SegmentDuration
  intro tm sr hf h1
  refine ⟨rfl, rate_of_nonpos hf h1, fun ht => ?_⟩
  rw [ht, rate_of_inf hf h1]

/-- Settles O52: R403 is the definition, and each coefficient is `coef` of a duration and one of the two ratios. -/
theorem coefficientRange : Obligations.CoefficientRange := by
  unfold Obligations.CoefficientRange
  have hA : IsRatio ratioAttack := .inl rfl
  have hD : IsRatio ratioDecayRelease := .inr rfl
  refine ⟨fun sr sus a d r => ⟨coefficients_attackCoef sr sus a d r, coefficients_attackBase sr sus a d r,
    coefficients_decayCoef sr sus a d r, coefficients_decayBase sr sus a d r, coefficients_releaseCoef sr sus a d r,
    coefficients_releaseBase sr sus a d r⟩, fun sr sus a d r hf h1 => ?_, ?_⟩
  · have zero {q : Double} (hq : IsRatio q) {tm : Word} (ht : fle (widen tm) fzero = true) :
        coef (rate tm (widen sr)) q = fzero := by
      rw [rate_of_nonpos hf h1 ht, coef_eps hq]
    have one {q : Double} (hq : IsRatio q) {tm : Word} (ht : tm = 0x7F800000) :
        coef (rate tm (widen sr)) q = fone := by
      rw [ht, rate_of_inf hf h1, coef_inf hq]
    exact ⟨coef_rate_range hA a _, coef_rate_range hD d _, coef_rate_range hD r _, zero hA, zero hD, zero hD,
      one hA, one hD, one hD, coef_rate_lt_one hA a _, coef_rate_lt_one hD d _, coef_rate_lt_one hD r _⟩
  · exact ⟨coef_rate_lt_one hA _ _ rate_reset, coef_rate_lt_one hD _ _ rate_reset, coef_rate_lt_one hD _ _ rate_reset⟩

/-- Settles O53: the functions the units use have the properties of R22 at every number. -/
theorem transcendentalPoints : Obligations.TranscendentalPoints := by
  unfold Obligations.TranscendentalPoints
  exact ⟨⟨exp64_spec.zero _ (by decide), exp64_spec.zero _ (by decide)⟩, exp64_spec.underflow, exp64_spec.range,
    log64_spec.pos, ⟨tanh64_spec.zero _ (by decide), tanh64_spec.zero _ (by decide)⟩, tanh64_spec.odd,
    tanh64_spec.range, sin64_spec.zero, pow264_spec.int, pow264_spec.pos,
    fun x y h => ⟨exp64_spec.mono x y h, tanh64_spec.mono x y h, pow264_spec.mono x y h,
      fun h0 hy => log64_spec.mono x y h0 h hy⟩,
    fun x h => ⟨exp64_spec.faithful x h, tanh64_spec.faithful x h, sin64_spec.faithful x h, pow264_spec.faithful x h,
      log64_spec.faithful x h⟩⟩

/-- The filter's frame with Model A selected (R361). -/
theorem unitFrame_mlf_modelA {s : State} (h : s.mlf.modelB = false) (i : Nat) :
    unitFrame .mlf i s = modelAFrame i s :=
  if_neg (Bool.eq_false_iff.1 h)

/-- The filter's frame with Model B selected (R361). -/
theorem unitFrame_mlf_modelB {s : State} (h : s.mlf.modelB = true) (i : Nat) :
    unitFrame .mlf i s = modelBFrame i s :=
  if_pos h

/-- Settles O47: over written words the frame stores the ladder that one step of Model A computes. -/
theorem modelAFrame_holds : Obligations.ModelAFrame := by
  unfold Obligations.ModelAFrame
  intro i s w hp hw hm
  rw [unitFrame_mlf_modelA hm]
  intro input c r dr sr vt two x g m d0 v0 t0 d1 v1 t1 d2 v2 t2 d3 v3 t3 n
  have hframe := modelAFrame_written hp hw
    { s0 := ⟨v0, d0, t0⟩, s1 := ⟨v1, d1, t1⟩, s2 := ⟨v2, d2, t2⟩, s3 := ⟨v3, d3, t3⟩ } rfl
  clear_value v0 d0 t0 v1 d1 t1 v2 d2 t2 v3 d3 t3
  obtain ⟨hout, ⟨⟨hv0, hv1, hv2, hv3⟩, ⟨hdv0, hdv1, hdv2, hdv3⟩, ⟨htv0, htv1, htv2, htv3⟩⟩, hbin, hbout⟩ := hframe
  exact ⟨hout, hv0, hv1, hv2, hv3, hdv0, hdv1, hdv2, hdv3, htv0, htv1, htv2, htv3, hbin, hbout⟩

/-- Settles O48: over written words the frame stores the histories that one step of Model B computes. -/
theorem modelBFrame_holds : Obligations.ModelBFrame := by
  unfold Obligations.ModelBFrame
  intro i s w hp hw hm
  rw [unitFrame_mlf_modelB hm]
  intro input f fb k m u o1 o2 o3 o4 n
  have hframe := modelBFrame_written hp hw
    { in1 := u, in2 := o1, in3 := o2, in4 := o3, out1 := o1, out2 := o2, out3 := o3, out4 := o4 } rfl
  clear_value u o1 o2 o3 o4
  obtain ⟨hout, ⟨⟨hin0, hin1, hin2, hin3⟩, ⟨hbout0, hbout1, hbout2, hbout3⟩⟩, hv, hdv, htv⟩ := hframe
  exact ⟨hout, hin0, hin1, hin2, hin3, hbout0, hbout1, hbout2, hbout3, hv, hdv, htv⟩

end Sys2Proof.Machine
end

section
/-! SUPPORT. Zeros of either sign through the operations (00_scope.md R14). -/

namespace Sys2Proof.Machine

theorem fmag_of_isZero {z : Double} (h : isZero z = true) : fmag z = 0 := of_decide_eq_true h

theorem isFinite_of_isZero {z : Double} (h : isZero z = true) : isFinite z = true :=
  isFinite_of_le (m := 0) (fmag_of_isZero h).le (by decide)

theorem funits_of_isZero {z : Double} (h : isZero z = true) : funits z = 0 := by
  rw [funits, fmag_of_isZero h]
  rfl

theorem isZero_fneg (z : Double) : isZero (fneg z) = isZero z := by
  rw [isZero, isZero, fmag_fneg]

theorem zero_cases {z : Double} (h : isZero z = true) : z = fzero ∨ z = fneg fzero := by
  have hm := fmag_of_isZero h
  cases hs : fsign z
  · exact .inl (double_ext (hs.trans fsign_fzero.symm) (hm.trans fmag_fzero.symm))
  · exact .inr (double_ext (hs.trans (by decide)) (hm.trans (by decide)))

/-- +0.0 and a zero of either sign is +0.0. -/
theorem fadd_fzero_of_isZero {z : Double} (h : isZero z = true) : fadd fzero z = fzero := by
  rcases zero_cases h with rfl | rfl <;> decide

theorem fsub_fzero_of_isZero {z : Double} (h : isZero z = true) : fsub fzero z = fzero :=
  fadd_fzero_of_isZero (by rwa [isZero_fneg])

theorem isZero_fadd {x y : Double} (hx : isZero x = true) (hy : isZero y = true) : isZero (fadd x y) = true := by
  rcases zero_cases hx with rfl | rfl <;> rcases zero_cases hy with rfl | rfl <;> decide

theorem isZero_round64_zero (neg : Bool) {d : Nat} (hd : 0 < d) : isZero (round64 neg 0 d) = true := by
  have h : roundMag 52 inf64 (magUnits 52 0 * d) d = 0 := roundMag_exact 52 inf64 0 d hd (Nat.zero_le _)
  rw [show magUnits 52 0 = 0 by decide, Nat.zero_mul] at h
  rw [isZero, fmag_round64, h]
  rfl

/-- A finite value times a zero is a zero. -/
theorem isZero_fmul {x z : Double} (hx : isFinite x = true) (hz : isZero z = true) : isZero (fmul x z) = true := by
  rw [fmul_finite hx (isFinite_of_isZero hz), funits_of_isZero hz, Nat.mul_zero]
  exact isZero_round64_zero _ one64Units_pos

/-- A zero times a finite value is a zero. -/
theorem isZero_fmul_left {x z : Double} (hz : isZero z = true) (hx : isFinite x = true) : isZero (fmul z x) = true := by
  rw [fmul_finite (isFinite_of_isZero hz) hx, funits_of_isZero hz, Nat.zero_mul]
  exact isZero_round64_zero _ one64Units_pos

/-- A zero over anything but a NaN or a zero is a zero. -/
theorem isZero_fdiv {z y : Double} (hz : isZero z = true) (hy : isNaN y = false) (h0 : 0 < fmag y) :
    isZero (fdiv z y) = true := by
  have hfin := isFinite_of_isZero hz
  by_cases hi : isInf y = true
  · have hdiv : fdiv z y = pack64 (fsign z != fsign y) 0 := by
      simp [fdiv, not_isNaN_of_isFinite hfin, hy, not_isInf_of_isFinite hfin, hi]
    rw [hdiv, isZero, fmag_pack64_zero]
    rfl
  · have hyf : isFinite y = true := by
      rw [isNaN, decide_eq_false_iff_not] at hy
      rw [isInf, decide_eq_true_eq] at hi
      rw [isFinite, decide_eq_true_eq]
      omega
    rw [fdiv_finite hfin hyf h0, funits_of_isZero hz, Nat.zero_mul]
    exact isZero_round64_zero _ (funits_pos h0)

/-- +0.0 times a finite value with a clear sign bit is +0.0. -/
theorem fmul_fzero_of_sign {x : Double} (hx : isFinite x = true) (hs : fsign x = false) : fmul fzero x = fzero := by
  have hsign : fsign (fmul fzero x) = false := by
    rw [fmul_finite isFinite_fzero hx, fsign_round64, hs]
    rfl
  have hzero : isZero (fmul fzero x) = true := isZero_fmul_left (by decide) hx
  exact double_ext (hsign.trans fsign_fzero.symm) ((fmag_of_isZero hzero).trans fmag_fzero.symm)

theorem fint_nonneg {x : Double} (h : fsign x = false) : 0 ≤ fint x := by
  rw [fint, h]
  exact Int.natCast_nonneg _

theorem fint_of_isZero {z : Double} (h : isZero z = true) : fint z = 0 := by
  rw [fint, funits_of_isZero h]
  split <;> rfl

/-- One plus a value that is not negative is at least one. -/
theorem one_le_fadd {x : Double} (hx : isFinite x = true) (h0 : 0 ≤ fint x) :
    0x3FF0000000000000 ≤ fmag (fadd fone x) := by
  have hone : fint fone = one64Units := by rw [fint, fsign_fone, funits_fone]; rfl
  have hp := one64Units_pos
  rw [fadd_finite isFinite_fone hx, hone, if_neg (by omega), fmag_round64]
  refine le_roundMag_of_le 52 inf64 _ 1 _ Nat.one_pos (by decide) ?_
  rw [magUnits_fone]
  omega

end Sys2Proof.Machine
end

section
/-! SUPPORT. The filter on silence (44_moog_ladder_filter.md R363 to R370): the gains of both models are finite, so a
zero state and a zero input give a zero state. -/

namespace Sys2Proof.Machine

/-! ### Model A -/

/-- A stage at rest: its derivative may be a zero of either sign (R367). -/
def StageA.Silent (a : StageA) : Prop := a.v = fzero ∧ isZero a.dv = true ∧ a.tv = fzero

def LadderA.Silent (l : LadderA) : Prop := l.s0.Silent ∧ l.s1.Silent ∧ l.s2.Silent ∧ l.s3.Silent

/-- pi * c / sr is finite and not negative for a cutoff in range (R363). -/
theorem ladder_angle {c sr : Double} (hc : Between fzero c (ofInt 20000)) (hsr : isFinite sr = true)
    (h1 : fle fone sr = true) :
    fmag (fdiv (fmul fpi c) sr) ≤ 0x40F0000000000000 ∧ 0 ≤ fint (fdiv (fmul fpi c) sr) := by
  obtain ⟨ssign, smag⟩ := sampleRate_spec h1
  have hcm : fmag c ≤ 0x40D3880000000000 := (fmag_le_of_fle hc).trans (by decide +kernel)
  have hpi : fmag fpi ≤ 0x400921FB54442D18 := by decide
  have hprod := fmul_le _ _ 0x40F0000000000000 hpi hcm (by decide) (by decide) (by decide +kernel)
  refine ⟨fdiv_le _ _ _ hprod smag hsr (by decide) (by decide) (by decide +kernel), ?_⟩
  have hcfin := isFinite_of_le hcm (by decide)
  have hpifin : isFinite fpi = true := by decide
  cases hs : fsign c
  · refine fint_nonneg ?_
    rw [fdiv_finite (isFinite_of_le hprod (by decide)) hsr (by omega), fsign_round64, ssign, fmul_finite hpifin hcfin,
      fsign_round64, hs]
    decide
  · have hk := fkey_le_of_fle hc.1
    rw [fkey_of_nonneg fsign_fzero, fmag_fzero, fkey, if_pos hs] at hk
    have hzero : isZero c = true := decide_eq_true (by omega)
    exact (fint_of_isZero (isZero_fdiv (isZero_fmul hpifin hzero) (not_isNaN_of_isFinite hsr) (by omega))).ge

/-- The compensated gain is finite (R363). -/
theorem isFinite_ladderGain {c sr : Double} (hc : Between fzero c (ofInt 20000)) (hsr : isFinite sr = true)
    (h1 : fle fone sr = true) : isFinite (ladderGain c sr) = true := by
  obtain ⟨hx, hx0⟩ := ladder_angle hc hsr h1
  have hxfin := isFinite_of_le hx (by decide)
  have hcm : fmag c ≤ 0x40D3880000000000 := (fmag_le_of_fle hc).trans (by decide +kernel)
  have hvt : fmag (fmul (fmul (ofInt 4) fpi) fvt) ≤ 0x4020000000000000 := by decide +kernel
  have hcut := fmul_le _ _ 0x4110000000000000 hvt hcm (by decide) (by decide) (by decide +kernel)
  have hone : fmag fone ≤ 0x3FF0000000000000 := by decide
  have hsub := fadd_le _ _ 0x4100000000000000 hone ((fmag_fneg _).trans_le hx) (by decide) (by decide)
    (by decide +kernel)
  have hadd := fadd_le _ _ 0x4100000000000000 hone hx (by decide) (by decide) (by decide +kernel)
  have hnum := fmul_le _ _ 0x4220000000000000 hcut hsub (by decide) (by decide) (by decide +kernel)
  exact isFinite_of_le (fdiv_le _ _ 0x4220000000000000 hnum (one_le_fadd hxfin hx0) (isFinite_of_le hadd (by decide))
    (by decide) (by decide) (by decide +kernel)) (by decide)

/-- Twice a legal sample rate is a divisor. -/
theorem two_sampleRate {sr : Double} (hsr : isFinite sr = true) (h1 : fle fone sr = true) :
    isNaN (fmul (ofInt 2) sr) = false ∧ 0 < fmag (fmul (ofInt 2) sr) := by
  obtain ⟨hfin, -, hunits⟩ := ofInt_spec 2 (by decide)
  refine ⟨isNaN_fmul hfin hsr, ?_⟩
  have hpos : 0 < funits sr := funits_pos (sampleRate_pos h1).2
  rw [fmul_finite hfin hsr, fmag_round64, hunits]
  refine Nat.lt_of_lt_of_le Nat.zero_lt_one (le_roundMag_of_le 52 inf64 _ _ 1 one64Units_pos (by decide) ?_)
  rw [show magUnits 52 1 = 1 by decide, Nat.one_mul]
  have htwo : one64Units ≤ Int.natAbs 2 * one64Units := Nat.le_mul_of_pos_left _ (by decide)
  exact htwo.trans (Nat.le_mul_of_pos_right _ hpos)

/-- A stage at rest with a zero derivative stays at rest (R364, R365). -/
theorem stageUpdate_silent {sr d : Double} {a : StageA} (hsr : isFinite sr = true) (h1 : fle fone sr = true)
    (hd : isZero d = true) (ha : a.Silent) : (stageUpdate sr d a).Silent := by
  obtain ⟨hv, hdv, -⟩ := ha
  obtain ⟨hnan, hpos⟩ := two_sampleRate hsr h1
  have hnew : (stageUpdate sr d a).v = fzero := by
    rw [stageUpdate, hv]
    exact fadd_fzero_of_isZero (isZero_fdiv (isZero_fadd hd hdv) hnan hpos)
  have htv : (stageUpdate sr d a).tv = tanh64 (fdiv (stageUpdate sr d a).v twoVt) := rfl
  refine ⟨hnew, hd, ?_⟩
  rw [htv, hnew, show fdiv fzero twoVt = fzero by decide +kernel]
  exact tanh64_spec.zero _ (by decide)

/-- Between two stages at rest the derivative is a zero (R365). -/
theorem isZero_stageDerivative {g : Double} (hg : isFinite g = true) : isZero (stageDerivative g fzero fzero) = true :=
  isZero_fmul hg (by decide)

/-- With zero input and output the derivative of stage 0 is a zero (R364). -/
theorem isZero_stage0Derivative {g dr r : Double} (hg : isFinite g = true) (hdr : isFinite dr = true)
    (hr : isFinite r = true) : isZero (stage0Derivative g dr fzero r fzero fzero) = true := by
  have harg : isZero (fdiv (fadd (fmul dr fzero) (fmul r fzero)) twoVt) = true :=
    isZero_fdiv (isZero_fadd (isZero_fmul hdr (by decide)) (isZero_fmul hr (by decide))) (by decide +kernel)
      (by decide +kernel)
  refine isZero_fmul (by rwa [isFinite_fneg]) (isZero_fadd ?_ (by decide))
  rwa [tanh64_spec.zero _ harg]

/-- A ladder at rest stays at rest on zero input (R367). -/
theorem stepA_silent {c r dr sr : Double} {l : LadderA} (hc : Between fzero c (ofInt 20000)) (hr : isFinite r = true)
    (hdr : isFinite dr = true) (hsr : isFinite sr = true) (h1 : fle fone sr = true) (hl : l.Silent) :
    (stepA c r dr sr fzero l).Silent := by
  obtain ⟨h0, hs1, hs2, hs3⟩ := hl
  have hg := isFinite_ladderGain hc hsr h1
  have stage {a b : StageA} (ha : a.Silent) (hb : b.Silent) :
      (stageUpdate sr (stageDerivative (ladderGain c sr) a.tv b.tv) b).Silent := by
    refine stageUpdate_silent hsr h1 ?_ hb
    rw [ha.2.2, hb.2.2]
    exact isZero_stageDerivative hg
  have hstage0 : (stageUpdate sr (stage0Derivative (ladderGain c sr) dr fzero r l.s3.v l.s0.tv) l.s0).Silent := by
    refine stageUpdate_silent hsr h1 ?_ h0
    rw [hs3.1, h0.2.2]
    exact isZero_stage0Derivative hg hdr hr
  have hstage1 := stage hstage0 hs1
  have hstage2 := stage hstage1 hs2
  exact ⟨hstage0, hstage1, hstage2, stage hstage2 hs3⟩

/-! ### Model B -/

/-- Histories of zeros (R369). -/
def LadderB.silent : LadderB := ⟨fzero, fzero, fzero, fzero, fzero, fzero, fzero, fzero⟩

/-- A stage of Model B answers +0.0 to zeros (R369). -/
theorem stageB_silent {f : Double} (hf : isFinite (fsub fone f) = true) : stageB f fzero fzero fzero = fzero := by
  have hin : fadd fzero (fmul (lit 3 10) fzero) = fzero := by decide +kernel
  rw [stageB, hin]
  exact fadd_fzero_of_isZero (isZero_fmul hf (by decide))

/-- A squared value has a clear sign bit. -/
theorem fsign_square {x : Double} (hx : isFinite x = true) : fsign (fmul x x) = false := by
  rw [fmul_finite hx hx, fsign_round64, bne_self_eq_false]

/-- The histories stay zero on zero input (R368, R369). -/
theorem stepB_silent {c r : Double} (hc : fmag c ≤ 0x3FF0000000000000) (hr : fmag r ≤ 0x4010000000000000) :
    stepB (coefB c r) fzero LadderB.silent = LadderB.silent := by
  have hf : fmag (fmul c (lit 116 100)) ≤ 0x4000000000000000 :=
    fmul_le _ 0x4000000000000000 _ hc (by decide +kernel) (by decide) (by decide) (by decide +kernel)
  generalize hfe : fmul c (lit 116 100) = f at hf
  have hone : fmag fone ≤ 0x3FF0000000000000 := by decide
  have hff := fmul_le _ _ 0x4010000000000000 hf hf (by decide) (by decide) (by decide +kernel)
  have h15 : fmag (lit 15 100) ≤ 0x3FD0000000000000 := by decide +kernel
  have h35 : fmag (lit 35013 100000) ≤ 0x3FE0000000000000 := by decide +kernel
  have hq := fmul_le _ _ 0x3FE0000000000000 h15 hf (by decide) (by decide) (by decide +kernel)
  have hqf := fmul_le _ _ 0x3FF0000000000000 hq hf (by decide) (by decide) (by decide +kernel)
  have hsub := fadd_le _ _ 0x4000000000000000 hone ((fmag_fneg _).trans_le hqf) (by decide) (by decide)
    (by decide +kernel)
  have hfb := fmul_le _ _ 0x4020000000000000 hr hsub (by decide) (by decide) (by decide +kernel)
  have hk0 := fmul_le _ _ 0x4000000000000000 h35 hff (by decide) (by decide) (by decide +kernel)
  have hk := fmul_le _ _ 0x4020000000000000 hk0 hff (by decide) (by decide) (by decide +kernel)
  have hgain := fadd_le _ _ 0x4010000000000000 hone ((fmag_fneg _).trans_le hf) (by decide) (by decide)
    (by decide +kernel)
  have hffin := isFinite_of_le hff (by decide)
  have hksign : fsign (fmul (fmul (lit 35013 100000) (fmul f f)) (fmul f f)) = false := by
    rw [fmul_finite (isFinite_of_le hk0 (by decide)) hffin, fsign_round64,
      fmul_finite (isFinite_of_le h35 (by decide)) hffin, fsign_round64, fsign_square (isFinite_of_le hf (by decide))]
    decide +kernel
  have hstage := stageB_silent (f := f) (isFinite_of_le hgain (by decide))
  have hfeed : fsub fzero (fmul fzero (fmul r (fsub fone (fmul (fmul (lit 15 100) f) f)))) = fzero :=
    fsub_fzero_of_isZero (isZero_fmul_left (by decide) (isFinite_of_le hfb (by decide)))
  have hu := fmul_fzero_of_sign (isFinite_of_le hk (by decide)) hksign
  simp only [stepB, coefB, LadderB.silent, hfe, hfeed, hu, hstage]

/-! ### one frame -/

/-- The filter at rest: every state word is a zero, those of the derivatives of either sign (R367, R370). -/
structure Mlf.Silent (m : Mlf) : Prop where
  v : m.v = Vector.replicate 4 0
  dv : ∀ k (h : k < 4), isZero m.dv[k] = true
  tv : m.tv = Vector.replicate 4 0
  bin : m.bin = Vector.replicate 4 0
  bout : m.bout = Vector.replicate 4 0

theorem Mlf.Silent.ladderA {m : Mlf} (h : m.Silent) : m.ladderA.Silent := by
  obtain ⟨hv, hdv, htv, -, -⟩ := h
  rw [Mlf.ladderA, hv, htv]
  exact ⟨⟨rfl, hdv 0 _, rfl⟩, ⟨rfl, hdv 1 _, rfl⟩, ⟨rfl, hdv 2 _, rfl⟩, ⟨rfl, hdv 3 _, rfl⟩⟩

theorem Mlf.Silent.ladderB {m : Mlf} (h : m.Silent) : m.ladderB = LadderB.silent := by
  rw [Mlf.ladderB, h.bin, h.bout]
  rfl

/-- Storing four values that are no NaNs stores them as they are (R19). -/
theorem storeFour_of_not_nan {a b c d : Double} (ha : isNaN a = false) (hb : isNaN b = false) (hc : isNaN c = false)
    (hd : isNaN d = false) (n : Nat) : storeFour a b c d n = (#v[a, b, c, d], n) := by
  simp only [storeFour, storeDouble, ha, hb, hc, hd, Bool.false_eq_true, if_false]

theorem storeFour_fzero (n : Nat) : storeFour fzero fzero fzero fzero n = (Vector.replicate 4 0, n) :=
  storeFour_of_not_nan isNaN_fzero isNaN_fzero isNaN_fzero isNaN_fzero n

variable {s : State} {i : Nat}

/-- An input word 0 is +0.0. -/
theorem inputFrame_zero (h : s.mem.word? (ramAddr .mlfIn i) = some 0x00000000) (d : Nat) :
    inputFrame s .mlfIn i d = (fzero, d) := by
  rw [inputFrame_of_written h, show widen 0x00000000 = fzero by decide +kernel]

theorem isFinite_param (p : Param) (d : Nat) : isFinite (param s p i d).1 = true :=
  isFinite_of_le (fmag_param_le s p i d) (by cases p <;> decide +kernel)

theorem mlfCutoff_range (d : Nat) : Between fzero (param s .mlfCutoff i d).1 (ofInt 20000) := by
  have h := param_range s .mlfCutoff i d
  rwa [show ofInt Param.mlfCutoff.min = fzero by decide +kernel] at h

/-- One frame of Model A keeps the filter at rest and its output silent (R367). -/
theorem modelAFrame_silent (hl : RegistersLegal s) (hin : s.mem.word? (ramAddr .mlfIn i) = some 0x00000000)
    (hm : s.mlf.Silent) : (modelAFrame i s).mlf.Silent ∧
      (modelAFrame i s).mem = s.mem.setWord (ramAddr .mlfOut i) 0x00000000 := by
  obtain ⟨hsr, h1⟩ := hl.sampleRate
  simp only [modelAFrame, inputFrame_zero hin]
  generalize hstep : stepA _ _ _ _ _ _ = l
  have hsilent : l.Silent := by
    rw [← hstep]
    exact stepA_silent (mlfCutoff_range _) (isFinite_param .mlfResonance _) (isFinite_param .mlfDrive _) hsr h1
      hm.ladderA
  obtain ⟨⟨hv0, hd0, ht0⟩, ⟨hv1, hd1, ht1⟩, ⟨hv2, hd2, ht2⟩, ⟨hv3, hd3, ht3⟩⟩ := hsilent
  have nan {x : Double} (h : isZero x = true) : isNaN x = false := not_isNaN_of_isFinite (isFinite_of_isZero h)
  simp only [hv0, hv1, hv2, hv3, ht0, ht1, ht2, ht3, storeFour_fzero,
    storeFour_of_not_nan (nan hd0) (nan hd1) (nan hd2) (nan hd3), State.putFrame, storeSample_fzero]
  refine ⟨⟨rfl, fun k hk => ?_, rfl, hm.bin, hm.bout⟩, trivial⟩
  match k, hk with
  | 0, _ => exact hd0
  | 1, _ => exact hd1
  | 2, _ => exact hd2
  | 3, _ => exact hd3

/-- One frame of Model B keeps the filter at rest and its output silent (R370). -/
theorem modelBFrame_silent (hin : s.mem.word? (ramAddr .mlfIn i) = some 0x00000000) (hm : s.mlf.Silent) :
    (modelBFrame i s).mlf.Silent ∧ (modelBFrame i s).mem = s.mem.setWord (ramAddr .mlfOut i) 0x00000000 := by
  have hcut := (fmag_param_le s .mlfCutoffB i s.draws).trans (show _ ≤ 0x3FF0000000000000 by decide +kernel)
  have hres := (fmag_param_le s .mlfResonanceB i (param s .mlfCutoffB i s.draws).2).trans
    (show _ ≤ 0x4010000000000000 by decide +kernel)
  have hstep := stepB_silent hcut hres
  rw [← hm.ladderB] at hstep
  simp only [modelBFrame, inputFrame_zero hin, hstep]
  simp only [hm.ladderB, LadderB.silent, storeFour_fzero, State.putFrame, storeSample_fzero]
  exact ⟨⟨hm.v, hm.dv, hm.tv, rfl, rfl⟩, trivial⟩

/-- One frame of the filter, whichever model is selected. -/
theorem unitFrame_mlf_silent (hl : RegistersLegal s) (hin : s.mem.word? (ramAddr .mlfIn i) = some 0x00000000)
    (hm : s.mlf.Silent) : (unitFrame .mlf i s).mlf.Silent ∧
      (unitFrame .mlf i s).mem = s.mem.setWord (ramAddr .mlfOut i) 0x00000000 := by
  cases hmodel : s.mlf.modelB
  · rw [unitFrame_mlf_modelA hmodel]
    exact modelAFrame_silent hl hin hm
  · rw [unitFrame_mlf_modelB hmodel]
    exact modelBFrame_silent hin hm

/-! ### the frames of a PROCESS -/

/-- The filter's frames leave its input RAM as it was (R116). -/
theorem frames_mlf_input {n : Nat} (hn : n ≤ 128) (hi : i < 128) :
    (frames (unitFrame .mlf) n s).mem.word? (ramAddr .mlfIn i) = s.mem.word? (ramAddr .mlfIn i) := by
  obtain ⟨-, -, -, honly, -⟩ := frames_unitFrame .mlf n s
  refine Memory.word?_congr _ _ _ fun c h1 h2 => honly c ?_
  simp only [UnitId.out, ramAddr, SampleRam.index] at h1 h2 ⊢
  omega

/-- Frame after frame the filter stays at rest and its output silent. -/
theorem frames_mlf_silent {n N : Nat} (hN : N ≤ 128) (hn : n ≤ N) (hl : RegistersLegal s)
    (hin : ∀ i, i < N → s.mem.word? (ramAddr .mlfIn i) = some 0x00000000) (hm : s.mlf.Silent) :
    (frames (unitFrame .mlf) n s).mlf.Silent ∧
      ∀ i, i < n → (frames (unitFrame .mlf) n s).mem.word? (ramAddr .mlfOut i) = some 0x00000000 := by
  induction n with
  | zero => exact ⟨hm, fun i hi => absurd hi (Nat.not_lt_zero i)⟩
  | succ n ih =>
    obtain ⟨hsilent, hwords⟩ := ih (by omega)
    have hlegal := frames_preserves RegistersLegal _ (fun i t ht => ht.unitFrame .mlf i) n s hl
    have hinput := (frames_mlf_input (n := n) (by omega) (by omega)).trans (hin n hn)
    obtain ⟨hnext, hmem⟩ := unitFrame_mlf_silent hlegal hinput hsilent
    refine ⟨hnext, fun i hi => ?_⟩
    rw [frames, hmem]
    rcases Nat.lt_succ_iff_lt_or_eq.1 hi with hlt | rfl
    · rw [Memory.word?_setWord_of_ne _ _ _ _ (by simp only [ramAddr]; omega)]
      exact hwords i hlt
    · exact Memory.word?_setWord _ _ _

end Sys2Proof.Machine
end

section
/-! The obligation about the filter on silence (44_moog_ladder_filter.md R367, R370). -/

namespace Sys2Proof.Machine

/-- Settles O49: each frame keeps the filter at rest, in the model that is selected, and stores the word 0. -/
theorem silentInputKeepsFilterSilent : Obligations.SilentInputKeepsFilterSilent := by
  unfold Obligations.SilentInputKeepsFilterSilent
  intro n s h0 hn hl hr hin hv hdv htv hbin hbout
  obtain ⟨⟨kv, kdv, ktv, kbin, kbout⟩, hwords⟩ := frames_mlf_silent hn le_rfl hl hin ⟨hv, hdv, htv, hbin, hbout⟩
  have hexec := (exec_process .mlf n s).trans (congrArg _ (process_of_ready hr _ h0 hn))
  exact ⟨_, hexec, hwords, kv, kdv, ktv, kbin, kbout⟩

end Sys2Proof.Machine
end
